-- ==== Sys2Proof/Syntax.lean ====
section
/-! DEFINITION. The one inductive of instructions and steps of the part: one constructor per row of the opcode
table, the 173 encoded rows with their prefix group and their fields, the 88 events of the part with the
names of what they act on. Rules R165-R183 and 95_what_each_step_holds.md. -/

namespace Sys2Proof

/-- The prefix parcels of a group (R166): PRED's predicate code and negate bit (R167), KSEL's k register,
the payloads of zero, one or two IMM parcels in stream order (a third never decodes), and SW's bit 0 (R170). -/
structure Pfx where
  pred : Option (BitVec 4 × Bool) := none
  ksel : Option (BitVec 8) := none
  imm : List (BitVec 12) := []
  sw : Option Bool := none
  deriving DecidableEq, Repr, Inhabited

/-- An inbound host request (R307, R308): the function, the Relaxed Ordering attribute, the poison bit EP, the IDE
stream (0 for the link's own) and whether its integrity check passes (R362), and the BAR2 offset, or that of BAR0 (R308); or a peer port for one that arrives there
(R310). -/
structure HostTlp where
  fn : Nat := 0
  relaxed : Bool := false
  ep : Bool := false
  stream : Nat := 0
  integrity : Bool := true
  addr : Nat := 0
  bar0 : Bool := false
  port : Option Nat := none
  deriving DecidableEq, Repr, Inhabited

/-- A descriptor of the hub copy engine (R309, R310): the programming function, the direction, host and device
addresses, the byte count, the peer port of outbound peer traffic, the bytes of an inbound transfer, and the descriptor's own place in
host memory. -/
structure HubDesc where
  fn : Nat := 0
  toDevice : Bool := true
  host : Nat := 0
  dev : Nat := 0
  n : Nat := 0
  port : Option Nat := none
  data : List (BitVec 8) := []
  desc : Nat := 0
  deriving DecidableEq, Repr, Inhabited

/-- One direction of a link (R357): out of its lower end, or back. -/
structure LinkWay where
  link : Nat
  out : Bool
  deriving DecidableEq, Repr

/-- An agent of a die that may be dead on its own (R359): a CU, or a CU's copy engine. -/
inductive DieAgent where
  | cu (n : Nat)
  | engine (n : Nat)
  deriving DecidableEq, Repr

/-- What a joining die offers and shows (R315, R379): a range per contract item, and the outcomes of its link
training, signatures and self-test. -/
structure JoinOffer where
  trained : Bool := true
  finrin : Nat × Nat := (0x10, 0x10)
  arith : Nat × Nat := (1, 1)
  coherence : Nat × Nat := (1, 1)
  trapVer : Nat × Nat := (1, 1)
  damamOk : Bool := true
  identityOk : Bool := true
  selfTestOk : Bool := true
  deriving DecidableEq, Repr, Inhabited

/-- One constructor per row of the opcode table. -/
inductive Instr where
  /-- VA move: each active lane's destination takes source A. (R189) -/
  | mov (g : Pfx) (n : BitVec 1) (a : BitVec 7) (d : BitVec 7)
  /-- VA 32-bit add, modulo 2^32, per active lane. (R189) -/
  | iadd (g : Pfx) (n : BitVec 1) (b : BitVec 7) (a : BitVec 7) (d : BitVec 7)
  /-- VA 32-bit subtract, modulo 2^32. (R189) -/
  | isub (g : Pfx) (n : BitVec 1) (b : BitVec 7) (a : BitVec 7) (d : BitVec 7)
  /-- VA 32-bit multiply that keeps the low word. (R189) -/
  | imul (g : Pfx) (n : BitVec 1) (b : BitVec 7) (a : BitVec 7) (d : BitVec 7)
  /-- VA high word of the 64-bit product, signed or unsigned by the type bit. (R189) -/
  | imulh (g : Pfx) (n : BitVec 1) (b : BitVec 7) (a : BitVec 7) (d : BitVec 7) (t : BitVec 1)
  /-- VA lesser of two values, signed or unsigned by the type bit. (R189) -/
  | imin (g : Pfx) (n : BitVec 1) (b : BitVec 7) (a : BitVec 7) (d : BitVec 7) (t : BitVec 1)
  /-- VA greater of two values, signed or unsigned by the type bit. (R189) -/
  | imax (g : Pfx) (n : BitVec 1) (b : BitVec 7) (a : BitVec 7) (d : BitVec 7) (t : BitVec 1)
  /-- VA bitwise AND. (R189) -/
  | andV (g : Pfx) (n : BitVec 1) (b : BitVec 7) (a : BitVec 7) (d : BitVec 7)
  /-- VA bitwise OR. (R189) -/
  | orV (g : Pfx) (n : BitVec 1) (b : BitVec 7) (a : BitVec 7) (d : BitVec 7)
  /-- VA bitwise XOR. (R189) -/
  | xorV (g : Pfx) (n : BitVec 1) (b : BitVec 7) (a : BitVec 7) (d : BitVec 7)
  /-- VA left shift; a count of 32 or more gives 0. (R189) -/
  | shl (g : Pfx) (n : BitVec 1) (b : BitVec 7) (a : BitVec 7) (d : BitVec 7)
  /-- VA zero-filling right shift. (R189) -/
  | shr (g : Pfx) (n : BitVec 1) (b : BitVec 7) (a : BitVec 7) (d : BitVec 7)
  /-- VA sign-filling right shift. (R189) -/
  | sar (g : Pfx) (n : BitVec 1) (b : BitVec 7) (a : BitVec 7) (d : BitVec 7)
  /-- VA multiply-add whose addend is D: low 32 bits of A×B+D. (R189) -/
  | imad (g : Pfx) (n : BitVec 1) (b : BitVec 7) (a : BitVec 7) (d : BitVec 7)
  /-- VA signed division, truncating toward zero, with the defined results for division by zero. (R190) -/
  | idivS32 (g : Pfx) (n : BitVec 1) (b : BitVec 7) (a : BitVec 7) (d : BitVec 7)
  /-- VA unsigned division. (R190) -/
  | idivN32 (g : Pfx) (n : BitVec 1) (b : BitVec 7) (a : BitVec 7) (d : BitVec 7)
  /-- VA signed remainder, which takes the sign of the dividend. (R190) -/
  | iremS32 (g : Pfx) (n : BitVec 1) (b : BitVec 7) (a : BitVec 7) (d : BitVec 7)
  /-- VA unsigned remainder. (R190) -/
  | iremN32 (g : Pfx) (n : BitVec 1) (b : BitVec 7) (a : BitVec 7) (d : BitVec 7)
  /-- VA 64-bit add on register pairs. (R189) -/
  | iaddS64 (g : Pfx) (n : BitVec 1) (b : BitVec 7) (a : BitVec 7) (d : BitVec 7)
  /-- VA 64-bit subtract on register pairs. (R189) -/
  | isubS64 (g : Pfx) (n : BitVec 1) (b : BitVec 7) (a : BitVec 7) (d : BitVec 7)
  /-- VA 64-bit multiply on register pairs. (R189) -/
  | imulS64 (g : Pfx) (n : BitVec 1) (b : BitVec 7) (a : BitVec 7) (d : BitVec 7)
  /-- VA 64-bit left shift with a 32-bit count. (R189) -/
  | shlS64 (g : Pfx) (n : BitVec 1) (b : BitVec 7) (a : BitVec 7) (d : BitVec 7)
  /-- VA 64-bit zero-filling right shift. (R189) -/
  | shrS64 (g : Pfx) (n : BitVec 1) (b : BitVec 7) (a : BitVec 7) (d : BitVec 7)
  /-- VA 64-bit sign-filling right shift. (R189) -/
  | sarS64 (g : Pfx) (n : BitVec 1) (b : BitVec 7) (a : BitVec 7) (d : BitVec 7)
  /-- VA binary32 add, rounded by the mode field. (R191) -/
  | fadd (g : Pfx) (n : BitVec 1) (b : BitVec 7) (a : BitVec 7) (d : BitVec 7) (m : BitVec 2)
  /-- VA binary32 subtract, rounded by the mode field. (R191) -/
  | fsub (g : Pfx) (n : BitVec 1) (b : BitVec 7) (a : BitVec 7) (d : BitVec 7) (m : BitVec 2)
  /-- VA binary32 multiply, rounded by the mode field. (R191) -/
  | fmul (g : Pfx) (n : BitVec 1) (b : BitVec 7) (a : BitVec 7) (d : BitVec 7) (m : BitVec 2)
  /-- VA fused multiply-add A×B+D with one rounding. (R191) -/
  | ffma (g : Pfx) (n : BitVec 1) (b : BitVec 7) (a : BitVec 7) (d : BitVec 7) (m : BitVec 2)
  /-- VA binary32 divide, rounded by the mode field. (R191) -/
  | fdiv (g : Pfx) (n : BitVec 1) (b : BitVec 7) (a : BitVec 7) (d : BitVec 7) (m : BitVec 2)
  /-- VA float minimum under totalOrder, a selection that raises no flag. (R131) -/
  | fmin (g : Pfx) (n : BitVec 1) (b : BitVec 7) (a : BitVec 7) (d : BitVec 7)
  /-- VA float maximum under totalOrder, a selection that raises no flag. (R131) -/
  | fmax (g : Pfx) (n : BitVec 1) (b : BitVec 7) (a : BitVec 7) (d : BitVec 7)
  /-- Packed add of two BF16 halves, RNE. (R192) -/
  | faddBf16x2 (g : Pfx) (n : BitVec 1) (b : BitVec 7) (a : BitVec 7) (d : BitVec 7)
  /-- Packed subtract of two BF16 halves, RNE. (R192) -/
  | fsubBf16x2 (g : Pfx) (n : BitVec 1) (b : BitVec 7) (a : BitVec 7) (d : BitVec 7)
  /-- Packed multiply of two BF16 halves, RNE. (R192) -/
  | fmulBf16x2 (g : Pfx) (n : BitVec 1) (b : BitVec 7) (a : BitVec 7) (d : BitVec 7)
  /-- Packed fused multiply-add of two BF16 halves. (R192) -/
  | ffmaBf16x2 (g : Pfx) (n : BitVec 1) (b : BitVec 7) (a : BitVec 7) (d : BitVec 7)
  /-- Packed BF16 minimum using 16-bit totalOrder keys. (R192) -/
  | fminBf16x2 (g : Pfx) (n : BitVec 1) (b : BitVec 7) (a : BitVec 7) (d : BitVec 7)
  /-- Packed BF16 maximum using 16-bit totalOrder keys. (R192) -/
  | fmaxBf16x2 (g : Pfx) (n : BitVec 1) (b : BitVec 7) (a : BitVec 7) (d : BitVec 7)
  /-- Each lane takes A from the lane that B mod 32 names. (R200) -/
  | shfl (g : Pfx) (n : BitVec 1) (b : BitVec 7) (a : BitVec 7) (d : BitVec 7)
  /-- Each lane takes A from lane i−n. (R200) -/
  | shflUp (g : Pfx) (n : BitVec 1) (b : BitVec 7) (a : BitVec 7) (d : BitVec 7)
  /-- Each lane takes A from lane i+n. (R200) -/
  | shflDn (g : Pfx) (n : BitVec 1) (b : BitVec 7) (a : BitVec 7) (d : BitVec 7)
  /-- Each lane takes A from lane i XOR n. (R200) -/
  | shflXor (g : Pfx) (n : BitVec 1) (b : BitVec 7) (a : BitVec 7) (d : BitVec 7)
  /-- VI move of the immediate X. (R172) -/
  | movImmediate (g : Pfx) (i : BitVec 8) (d : BitVec 7)
  /-- VI add of the immediate. (R172) -/
  | iaddImmediate (g : Pfx) (i : BitVec 8) (a : BitVec 7) (d : BitVec 7)
  /-- VI subtract of the immediate. (R172) -/
  | isubImmediate (g : Pfx) (i : BitVec 8) (a : BitVec 7) (d : BitVec 7)
  /-- VI multiply by the immediate. (R172) -/
  | imulImmediate (g : Pfx) (i : BitVec 8) (a : BitVec 7) (d : BitVec 7)
  /-- VI minimum with the immediate, signed or unsigned by the type bit. (R172) -/
  | iminImmediate (g : Pfx) (i : BitVec 8) (a : BitVec 7) (d : BitVec 7) (t : BitVec 1)
  /-- VI maximum with the immediate, signed or unsigned by the type bit. (R172) -/
  | imaxImmediate (g : Pfx) (i : BitVec 8) (a : BitVec 7) (d : BitVec 7) (t : BitVec 1)
  /-- VI AND with the immediate. (R172) -/
  | andImmediate (g : Pfx) (i : BitVec 8) (a : BitVec 7) (d : BitVec 7)
  /-- VI OR with the immediate. (R172) -/
  | orImmediate (g : Pfx) (i : BitVec 8) (a : BitVec 7) (d : BitVec 7)
  /-- VI XOR with the immediate. (R172) -/
  | xorImmediate (g : Pfx) (i : BitVec 8) (a : BitVec 7) (d : BitVec 7)
  /-- VI left shift by an immediate count. (R172) -/
  | shlImmediate (g : Pfx) (i : BitVec 8) (a : BitVec 7) (d : BitVec 7)
  /-- VI zero-filling right shift by an immediate count. (R172) -/
  | shrImmediate (g : Pfx) (i : BitVec 8) (a : BitVec 7) (d : BitVec 7)
  /-- VI sign-filling right shift by an immediate count. (R172) -/
  | sarImmediate (g : Pfx) (i : BitVec 8) (a : BitVec 7) (d : BitVec 7)
  /-- VI 64-bit add of a sign-extended immediate. (R172) -/
  | iaddS64Immediate (g : Pfx) (i : BitVec 8) (a : BitVec 7) (d : BitVec 7)
  /-- VI binary32 add of an immediate bit pattern, RNE. (R172) -/
  | faddImmediate (g : Pfx) (i : BitVec 8) (a : BitVec 7) (d : BitVec 7)
  /-- VI binary32 multiply by an immediate bit pattern, RNE. (R172) -/
  | fmulImmediate (g : Pfx) (i : BitVec 8) (a : BitVec 7) (d : BitVec 7)
  /-- VI float minimum with an immediate. (R172) -/
  | fminImmediate (g : Pfx) (i : BitVec 8) (a : BitVec 7) (d : BitVec 7)
  /-- VI float maximum with an immediate. (R172) -/
  | fmaxImmediate (g : Pfx) (i : BitVec 8) (a : BitVec 7) (d : BitVec 7)
  /-- Each active lane receives riser(seed, layer X, A) using the launch's latched seed. (R207) -/
  | rng (g : Pfx) (i : BitVec 8) (a : BitVec 7) (d : BitVec 7)
  /-- Compact parcel d ← s. (R167) -/
  | movCompact (g : Pfx) (s : BitVec 5) (d : BitVec 5)
  /-- Compact parcel d ← d + s. (R167) -/
  | iaddCompact (g : Pfx) (s : BitVec 5) (d : BitVec 5)
  /-- Compact parcel d ← d − s. (R167) -/
  | isubCompact (g : Pfx) (s : BitVec 5) (d : BitVec 5)
  /-- Compact parcel d ← low word of d × s. (R167) -/
  | imulCompact (g : Pfx) (s : BitVec 5) (d : BitVec 5)
  /-- Compact parcel for the signed minimum. (R167) -/
  | iminCompact (g : Pfx) (s : BitVec 5) (d : BitVec 5)
  /-- Compact parcel for the signed maximum. (R167) -/
  | imaxCompact (g : Pfx) (s : BitVec 5) (d : BitVec 5)
  /-- Compact parcel for bitwise AND. (R167) -/
  | andCompact (g : Pfx) (s : BitVec 5) (d : BitVec 5)
  /-- Compact parcel for bitwise OR. (R167) -/
  | orCompact (g : Pfx) (s : BitVec 5) (d : BitVec 5)
  /-- Compact parcel for bitwise XOR. (R167) -/
  | xorCompact (g : Pfx) (s : BitVec 5) (d : BitVec 5)
  /-- Compact parcel for the left shift. (R167) -/
  | shlCompact (g : Pfx) (s : BitVec 5) (d : BitVec 5)
  /-- Compact parcel for the zero-fill right shift. (R167) -/
  | shrCompact (g : Pfx) (s : BitVec 5) (d : BitVec 5)
  /-- Compact parcel for the binary32 add, RNE. (R167) -/
  | faddCompact (g : Pfx) (s : BitVec 5) (d : BitVec 5)
  /-- Compact parcel for the binary32 subtract, RNE. (R167) -/
  | fsubCompact (g : Pfx) (s : BitVec 5) (d : BitVec 5)
  /-- Compact parcel for the binary32 multiply, RNE. (R167) -/
  | fmulCompact (g : Pfx) (s : BitVec 5) (d : BitVec 5)
  /-- Compact parcel for the totalOrder minimum. (R167) -/
  | fminCompact (g : Pfx) (s : BitVec 5) (d : BitVec 5)
  /-- Compact parcel for the totalOrder maximum. (R167) -/
  | fmaxCompact (g : Pfx) (s : BitVec 5) (d : BitVec 5)
  /-- Integer compare of the chosen type that writes a predicate per active lane. (R197) -/
  | icmp (g : Pfx) (f : BitVec 4) (b : BitVec 7) (a : BitVec 7) (p : BitVec 4) (t : BitVec 2)
  /-- Float compare by totalOrder and bit equality, writing a predicate. (R197) -/
  | fcmp (g : Pfx) (f : BitVec 4) (b : BitVec 7) (a : BitVec 7) (p : BitVec 4)
  /-- Predicate logic through a 4-bit truth table. (R198) -/
  | plop (g : Pfx) (f : BitVec 4) (b : BitVec 4) (a : BitVec 4) (p : BitVec 4)
  /-- Conversion from the source type to the destination type under the rounding mode. (R193) -/
  | cvt (g : Pfx) (m : BitVec 2) (s : BitVec 4) (a : BitVec 7) (d : BitVec 7) (t : BitVec 4)
  /-- Decodes one narrow-code byte per lane into BF16 under the KSEL format word. (R195) -/
  | ndec (g : Pfx) (n : BitVec 2) (a : BitVec 7) (d : BitVec 7)
  /-- Encodes binary32 lanes into narrow codes under the KSEL format word. (R196) -/
  | nenc (g : Pfx) (a : BitVec 7) (d : BitVec 7)
  /-- Binary32 square root, rounded by the mode field. (R191) -/
  | fsqrt (g : Pfx) (m : BitVec 2) (a : BitVec 7) (d : BitVec 7)
  /-- Correctly rounded reciprocal. (R133) -/
  | rcp (g : Pfx) (a : BitVec 7) (d : BitVec 7)
  /-- Correctly rounded reciprocal square root. (R133) -/
  | rsq (g : Pfx) (a : BitVec 7) (d : BitVec 7)
  /-- Correctly rounded 2^x. (R133) -/
  | exp2 (g : Pfx) (a : BitVec 7) (d : BitVec 7)
  /-- Correctly rounded base-2 logarithm. (R133) -/
  | log2 (g : Pfx) (a : BitVec 7) (d : BitVec 7)
  /-- Correctly rounded sine of the exact operand. (R133) -/
  | sin (g : Pfx) (a : BitVec 7) (d : BitVec 7)
  /-- Correctly rounded cosine of the exact operand. (R133) -/
  | cos (g : Pfx) (a : BitVec 7) (d : BitVec 7)
  /-- Count of the 1 bits. (R189) -/
  | popc (g : Pfx) (a : BitVec 7) (d : BitVec 7)
  /-- Count of the leading zeros. (R189) -/
  | clz (g : Pfx) (a : BitVec 7) (d : BitVec 7)
  /-- Bit reversal. (R189) -/
  | brev (g : Pfx) (a : BitVec 7) (d : BitVec 7)
  /-- BALLOT, ANY or ALL of a predicate over the active lanes. (R201) -/
  | vote (g : Pfx) (f : BitVec 4) (p : BitVec 4) (d : BitVec 7)
  /-- Fixed pairwise-tree reduction over the active lanes. (R202) -/
  | redux (g : Pfx) (f : BitVec 4) (m : BitVec 2) (a : BitVec 7) (d : BitVec 7)
  /-- Writes 1 where the predicate holds and 0 elsewhere. (R199) -/
  | p2v (g : Pfx) (p : BitVec 4) (d : BitVec 7)
  /-- Clears bit 31. (R191) -/
  | fabs (g : Pfx) (a : BitVec 7) (d : BitVec 7)
  /-- Inverts bit 31. (R191) -/
  | fneg (g : Pfx) (a : BitVec 7) (d : BitVec 7)
  /-- Per-lane load of the given type and request type, one read event per lane. (R212) -/
  | ld (g : Pfx) (o : BitVec 8) (p : BitVec 7) (d : BitVec 7) (t : BitVec 3) (q : BitVec 2)
  /-- Per-lane 8-bit store. (R214) -/
  | st8 (g : Pfx) (o : BitVec 8) (p : BitVec 7) (d : BitVec 7) (q : BitVec 2)
  /-- Per-lane 16-bit store. (R214) -/
  | st16 (g : Pfx) (o : BitVec 8) (p : BitVec 7) (d : BitVec 7) (q : BitVec 2)
  /-- Per-lane 32-bit store. (R214) -/
  | st32 (g : Pfx) (o : BitVec 8) (p : BitVec 7) (d : BitVec 7) (q : BitVec 2)
  /-- Per-lane 64-bit store from a pair. (R214) -/
  | st64 (g : Pfx) (o : BitVec 8) (p : BitVec 7) (d : BitVec 7) (q : BitVec 2)
  /-- Acquire load: moves c to the scope's horizon, then reads. (R215) -/
  | ldAcq (g : Pfx) (s : BitVec 2) (q : BitVec 2) (p : BitVec 7) (d : BitVec 7) (t : BitVec 3)
  /-- 8-bit release store: waits for every earlier acknowledgement. (R215) -/
  | stRel8 (g : Pfx) (s : BitVec 2) (q : BitVec 2) (p : BitVec 7) (d : BitVec 7)
  /-- 16-bit release store. (R215) -/
  | stRel16 (g : Pfx) (s : BitVec 2) (q : BitVec 2) (p : BitVec 7) (d : BitVec 7)
  /-- 32-bit release store. (R215) -/
  | stRel32 (g : Pfx) (s : BitVec 2) (q : BitVec 2) (p : BitVec 7) (d : BitVec 7)
  /-- 64-bit release store. (R215) -/
  | stRel64 (g : Pfx) (s : BitVec 2) (q : BitVec 2) (p : BitVec 7) (d : BitVec 7)
  /-- Prefetch into L1 as a lease copy; makes no event and never faults. (R216) -/
  | pf (g : Pfx) (o : BitVec 8) (p : BitVec 7)
  /-- Prefetch into the home L2 slice only. (R216) -/
  | pfL2 (g : Pfx) (o : BitVec 8) (p : BitVec 7)
  /-- Atomic add, one read-modify-write event per lane in lane order. (R220) -/
  | atomAdd (g : Pfx) (w : BitVec 1) (b : BitVec 7) (p : BitVec 7) (d : BitVec 7)
  /-- Atomic signed minimum. (R220) -/
  | atomMinS (g : Pfx) (w : BitVec 1) (b : BitVec 7) (p : BitVec 7) (d : BitVec 7)
  /-- Atomic unsigned minimum. (R220) -/
  | atomMinN (g : Pfx) (w : BitVec 1) (b : BitVec 7) (p : BitVec 7) (d : BitVec 7)
  /-- Atomic signed maximum. (R220) -/
  | atomMaxS (g : Pfx) (w : BitVec 1) (b : BitVec 7) (p : BitVec 7) (d : BitVec 7)
  /-- Atomic unsigned maximum. (R220) -/
  | atomMaxN (g : Pfx) (w : BitVec 1) (b : BitVec 7) (p : BitVec 7) (d : BitVec 7)
  /-- Atomic AND. (R220) -/
  | atomAnd (g : Pfx) (w : BitVec 1) (b : BitVec 7) (p : BitVec 7) (d : BitVec 7)
  /-- Atomic OR. (R220) -/
  | atomOr (g : Pfx) (w : BitVec 1) (b : BitVec 7) (p : BitVec 7) (d : BitVec 7)
  /-- Atomic XOR. (R220) -/
  | atomXor (g : Pfx) (w : BitVec 1) (b : BitVec 7) (p : BitVec 7) (d : BitVec 7)
  /-- Atomic exchange. (R220) -/
  | atomXchg (g : Pfx) (w : BitVec 1) (b : BitVec 7) (p : BitVec 7) (d : BitVec 7)
  /-- Atomic compare-and-swap; a failed compare writes back the value read. (R220) -/
  | atomCas (g : Pfx) (w : BitVec 1) (b : BitVec 7) (p : BitVec 7) (d : BitVec 7)
  /-- Atomic float minimum under totalOrder, 32-bit only. (R220) -/
  | atomFmin (g : Pfx) (w : BitVec 1) (b : BitVec 7) (p : BitVec 7) (d : BitVec 7)
  /-- Atomic float maximum under totalOrder, 32-bit only. (R220) -/
  | atomFmax (g : Pfx) (w : BitVec 1) (b : BitVec 7) (p : BitVec 7) (d : BitVec 7)
  /-- Reduction: an ATOM with D = 124 whose old value reaches only the latch ring. (R223) -/
  | red (g : Pfx) (w : BitVec 1) (b : BitVec 7) (p : BitVec 7) (o : BitVec 4)
  /-- Uniform operation KD ← KD op KA, executed once per warp (KMOV, KADD … KMAX.n32 by code u). (R204) -/
  | kuRegisterOp (g : Pfx) (a : BitVec 8) (d : BitVec 8) (u : BitVec 4)
  /-- Uniform operation KD ← KA op X, executed once per warp. (R204) -/
  | kuImmediateOp (g : Pfx) (i : BitVec 6) (a : BitVec 8) (d : BitVec 8) (u : BitVec 4)
  /-- Copies one lane of a vector register into a k register. (R205) -/
  | krdl (g : Pfx) (n : BitVec 5) (a : BitVec 7) (d : BitVec 8)
  /-- One 32-bit plain load into a k register for the warp. (R206) -/
  | kld (g : Pfx) (i : BitVec 6) (a : BitVec 8) (d : BitVec 8)
  /-- One 32-bit plain store of a k register for the warp. (R206) -/
  | kst (g : Pfx) (i : BitVec 6) (a : BitVec 8) (d : BitVec 8)
  /-- Unconditional relative branch within the overlay. (R238) -/
  | bra (g : Pfx) (o : BitVec 22)
  /-- Call to an absolute offset in the own overlay, writing the link. (R240) -/
  | call (g : Pfx) (o : BitVec 15) (l : BitVec 7)
  /-- Call into the overlay named by the IMM prefix, writing the link. (R240) -/
  | fcall (g : Pfx) (o : BitVec 15) (l : BitVec 7)
  /-- Per-lane indirect jump to portable PCs, splitting by target. (R241) -/
  | jmpi (g : Pfx) (r : BitVec 7)
  /-- Per-lane indirect call: up to four target children and a remainder that executes the CALLI again. (R242) -/
  | calli (g : Pfx) (l : BitVec 7) (a : BitVec 7)
  /-- Per-lane return to portable PCs, marked as a return. (R241) -/
  | ret (g : Pfx) (r : BitVec 7)
  /-- Branch taken in lanes where the predicate holds; it diverges when lanes disagree. (R238) -/
  | brt (g : Pfx) (o : BitVec 22) (p : BitVec 4)
  /-- Branch taken in lanes where the predicate is false. (R238) -/
  | brf (g : Pfx) (o : BitVec 22) (p : BitVec 4)
  /-- BF16 32×32×K matrix operation that queues on the engine. (R262) -/
  | mmaBf16 (g : Pfx) (c : BitVec 1) (b : BitVec 7) (a : BitVec 7) (d : BitVec 7) (k : BitVec 2)
  /-- Integer 8-bit matrix operation into an FX64 tile pair. (R148) -/
  | mmaInteger (g : Pfx) (c : BitVec 1) (b : BitVec 7) (a : BitVec 7) (d : BitVec 7) (t : BitVec 4) (k : BitVec 2)
  /-- Matrix operation whose A rows are gathered through a descriptor. (R263) -/
  | mmag (g : Pfx) (c : BitVec 1) (b : BitVec 7) (a : BitVec 7) (d : BitVec 7) (k : BitVec 2)
  /-- Matrix operation whose B comes over the gallery broadcast bus in an episode. (R264) -/
  | mmab (g : Pfx) (c : BitVec 1) (b : BitVec 7) (a : BitVec 7) (d : BitVec 7) (k : BitVec 2)
  /-- Matrix operation whose A is drained from tiles to BF16. (R265) -/
  | mmaAb (g : Pfx) (c : BitVec 1) (b : BitVec 7) (a : BitVec 7) (d : BitVec 7) (k : BitVec 2)
  /-- Copies tile rows. (R268) -/
  | amov (g : Pfx) (a : BitVec 7) (d : BitVec 7)
  /-- Zeroes tile rows. (R268) -/
  | azero (g : Pfx) (d : BitVec 7)
  /-- Reads one tile element per row into a vector register. (R268) -/
  | ard (g : Pfx) (b : BitVec 7) (a : BitVec 7) (d : BitVec 7)
  /-- Writes one tile element per row from a vector register. (R268) -/
  | awr (g : Pfx) (b : BitVec 7) (a : BitVec 7) (d : BitVec 7)
  /-- Reads FX64 elements into a pair and sets AS for saturated rows. (R268) -/
  | ardFx64 (g : Pfx) (b : BitVec 7) (a : BitVec 7) (d : BitVec 7)
  /-- Writes FX64 elements from a pair. (R268) -/
  | awrFx64 (g : Pfx) (b : BitVec 7) (a : BitVec 7) (d : BitVec 7)
  /-- Tensor copy described by a layout record into landing bays; clears ks at issue. (R273) -/
  | cpy (g : Pfx) (k : BitVec 8) (l : BitVec 7) (c : BitVec 7)
  /-- Linear copy of a prefix-operand byte count into scratchpad or a shadow-paired region. (R275) -/
  | cpyl (g : Pfx) (k : BitVec 8) (s : BitVec 7) (d : BitVec 7)
  /-- Requests that an overlay of the kernel be made resident. (R277) -/
  | ovload (g : Pfx) (k : BitVec 8) (n : BitVec 8)
  /-- No effect beyond its prefixes. (R257) -/
  | nop (g : Pfx)
  /-- Removes the lanes of the reduced mask from the strand. (R245) -/
  | exit (g : Pfx)
  /-- Enters state 5 when PARENT is not 0, so that the strand may fuse and be released. (R74) -/
  | join (g : Pfx)
  /-- Barrier among the fibres of one warp slot. (R81) -/
  | fbar (g : Pfx)
  /-- Numbered barrier over every fibre of the team. (R246) -/
  | bar (g : Pfx) (n : BitVec 4)
  /-- Barrier over the gallery group. (R246) -/
  | gbar (g : Pfx)
  /-- Waits until a 64-bit counter reaches a value, starting with one acquire read. (R249) -/
  | waitc (g : Pfx) (k : BitVec 8) (p : BitVec 7)
  /-- Waits in state 4 for a status word with bit 31 set, then continues at the label. (R250) -/
  | yieldc (g : Pfx) (o : BitVec 14) (k : BitVec 8)
  /-- Doubles the warp's register block, in place or by a move. (R252) -/
  | reggrow (g : Pfx)
  /-- Halves the warp's register block. (R253) -/
  | regshrink (g : Pfx)
  /-- Releases earlier events and sends a launch record pointer to the hub. (R254) -/
  | launch (g : Pfx) (k : BitVec 8) (p : BitVec 7)
  /-- Freezes the strand and posts a software-trap record. (R256) -/
  | trap (g : Pfx) (c : BitVec 16)
  /-- Freezes the strand and posts a breakpoint record. (R256) -/
  | bkpt (g : Pfx) (c : BitVec 16)
  /-- Reads a special register into every active lane. (R280) -/
  | srd (g : Pfx) (s : BitVec 8) (d : BitVec 7)
  /-- Writes sr.seed (sent to the hub) or clears sr.fstat flags. (R281) -/
  | swr (g : Pfx) (s : BitVec 8) (a : BitVec 7)
  /-- Waits for every earlier acknowledgement, then moves c to the scope's horizon. (R217) -/
  | fence (g : Pfx) (s : BitVec 2)
  /-- Multi-word compare-and-swap over up to 8 words as one event. (R228) -/
  | mcas (g : Pfx) (k : BitVec 8) (p : BitVec 7)
  /-- Compensated float sum into an 8-byte sum-and-error pair as one event per lane. (R224) -/
  | redFaddc (g : Pfx) (a : BitVec 7) (p : BitVec 7)
  /-- Supervisor invalidation of cached translations described by a descriptor. (R283) -/
  | xinv (g : Pfx) (k : BitVec 8) (p : BitVec 7)
  /-- Supervisor write of a format window from a 32-byte image. (R284) -/
  | fwwr (g : Pfx) (p : BitVec 7) (w : BitVec 4)
  /-- Supervisor read of a format window into a 32-byte image. (R284) -/
  | fwrd (g : Pfx) (p : BitVec 7) (w : BitVec 4)
  /-- Supervisor write-back and invalidation of a range of lines in every cache. (R285) -/
  | lwbi (g : Pfx) (k : BitVec 8) (p : BitVec 7)
  /-- Supervisor reply that continues a frozen strand. (R345) -/
  | resume (g : Pfx) (p : BitVec 7)
  /-- Supervisor reply that continues a frozen strand at NEWPC. (R345) -/
  | redirect (g : Pfx) (p : BitVec 7)
  /-- Supervisor reply that exits a frozen strand's lanes. (R345) -/
  | kill (g : Pfx) (p : BitVec 7)
  /-- Each clock an issue slot chooses a warp slot and issues its holder's group, changing holders at switch points. (R118) -/
  | issueSelect (slot : Nat)
  /-- A holder of a lowest unfinished team that has not issued for 256 clocks is issued ahead of the normal choice. (R374) -/
  | starvationIssue (slot : Nat)
  /-- A pipelined result becomes readable, setting flags and clearing the scoreboard entry. (R187) -/
  | pipelineResult (warp id : Nat)
  /-- Loaded data and its timestamp reach the strand and the register or latch becomes readable. (R121) -/
  | loadDataReturn (id : Nat)
  /-- A home slice serves a read, write, RMW or lock request and assigns its timestamp. (R155) -/
  | homeSliceRequest (id : Nat)
  /-- A write's acknowledgement reaches its agent and is folded into the local scope horizons. (R160) -/
  | storeAck (id : Nat)
  /-- An acknowledgement passing the hub folds its timestamp into the .dev and .sys horizons. (R381) -/
  | horizonFold (ctx ts : Nat)
  /-- An L1 lease copy is dropped Lease clocks after its fill. (R155) -/
  | l1LeaseExpiry (cu line fill : Nat)
  /-- A hub walker walks the translation tables for a missing page and returns the leaf. (R105) -/
  | pageWalk (id : Nat)
  /-- The fence's horizon returns, c moves and the speculative window closes. (R161) -/
  | fenceComplete (uid : Nat)
  /-- A conflicting write arriving during a fence window discards speculative effects and reissues. (R162) -/
  | fenceRollback (uid : Nat)
  /-- Once every participant has arrived and its events are acknowledged, the barrier releases after its latency. (R247) -/
  | barrierRelease (id : Nat)
  /-- After a write performs on a watched counter, it is re-read and the strand is readied if satisfied. (R249) -/
  | waitcReread (uid : Nat)
  /-- An engine writes a status word to a k register, readying a YIELDC waiter when bit 31 is set. (R78) -/
  | statusWordWrite (warp k op : Nat) (v : BitVec 32)
  /-- A strand with an empty mask retires once its pending register writes land. (R245) -/
  | strandRetire (uid : Nat)
  /-- A team whose lanes exited, writes acknowledged and copies ended returns its resources. (R60) -/
  | teamFinish (team : Nat)
  /-- A grid whose teams and children are done retires and its DONE counter is atomically incremented. (R112) -/
  | gridRetire (grid : Nat)
  /-- The hub reads the launch record and window-map image, then accepts, numbers and queues the launch or refuses it. (R108) -/
  | launchAccept (id : Nat)
  /-- An SWR of sr.seed reaches the hub and becomes the context seed. (R152) -/
  | seedArrival (ctx : Nat) (v : BitVec 32)
  /-- After a write to a held launch's counter, the home slice re-reads it and the launch may be released. (R111) -/
  | dependenceCounterReread (grid : Nat)
  /-- Each clock the sequencer deals one unit per context to the CUs chosen by R114. (R113) -/
  | dealingStep
  /-- A launch that fails to fit for one whole budget period becomes reserved. (R113) -/
  | launchReservation (grid : Nat)
  /-- A dealt team's warps start 64 clocks after the deal once its grants are zeroed. (R114) -/
  | teamStart (team : Nat)
  /-- At each 4,096-clock boundary budgets reset and deferred work resumes. (R115) -/
  | budgetPeriod
  /-- A strand needing a non-resident overlay requests it, freezing on failure. (R341) -/
  | overlayRequest (id : Nat)
  /-- An overlay's code has been loaded into a bank (translated on Flight 2) and waiting strands become issuable. (R277) -/
  | overlayLoadComplete (id : Nat)
  /-- The copy engine moves up to two 64-byte units per clock, shared round robin. (R269) -/
  | copyUnitMove (cu : Nat)
  /-- A completed copy publishes as one event, swapping bays or flipping region selectors, and writes its status. (R274) -/
  | copyPublish (id : Nat)
  /-- Gathered MMAG rows arrive in the operand latch; the MMAG issues at the last. (R305) -/
  | gatherRowArrival (uid : Nat)
  /-- A queued matrix instruction starts on the engine and reads its operands. (R266) -/
  | matrixEngineStart (cu : Nat)
  /-- An MMAB episode starts when every participant is ready, broadcasting B. (R264) -/
  | mmabEpisodeStart (group rank : Nat)
  /-- The engine finishes, writes the tile rows and raises the flags. (R262) -/
  | matrixEngineFinish (cu : Nat)
  /-- A line lock of an MCAS is granted and returns, sending the next request. (R302) -/
  | mcasLockGrant (id : Nat)
  /-- With every line locked, the MCAS takes its timestamp, compares and writes all words or none. (R162) -/
  | mcasEvent (id : Nat)
  /-- An MCAS release reaches a home, writes the line and unlocks it. (R302) -/
  | mcasRelease (id : Nat)
  /-- A grow finishes in place or by a move and releases the warp. (R252) -/
  | reggrowComplete (warp : Nat)
  /-- A blocked REGGROW is re-attempted when the CU frees bank store. (R252) -/
  | reggrowRetry (cu : Nat)
  /-- A shrink completes and the upper half returns to the allocator. (R253) -/
  | regshrinkComplete (warp : Nat)
  /-- A CU detects register deadlock and spills other teams' warps for the favoured REGGROW. (R370) -/
  | registerDeadlock (cu : Nat)
  /-- One candidate warp's block is copied to the spill pool and freed. (R370) -/
  | warpSpill (warp : Nat)
  /-- A spilled warp's block is refilled from the pool when bank store frees. (R371) -/
  | warpRefill (warp : Nat)
  /-- A reserved launch that fits by total space starts moving blocks toward low addresses. (R372) -/
  | compaction (cu : Nat)
  /-- A strand waiting too long in states 2–5 is frozen with class 12, code 4. (R373) -/
  | watchdogExpiry (uid : Nat)
  /-- The hub writes a trap record into the ring, releases POSTED and signals MSI-X. (R336) -/
  | trapRecordPost (ctx : Nat)
  /-- While the ring is full, a write to TAKEN is re-read and posting resumes. (R336) -/
  | takenReread (ctx : Nat)
  /-- A reply reaches the hub, is checked against CTX and SEQ, and the named strand leaves state 6. (R383) -/
  | replyTakeEffect (id : Nat)
  /-- The home slice fills a view line by decoding storage bytes to BF16. (R143) -/
  | viewLineFill (line : Nat)
  /-- A dirty view line is encoded into narrow codes on write-back. (R143) -/
  | viewLineWriteback (line : Nat)
  /-- A released piece's bid reaches its home, which locks the lines and replies with rts + 1. (R327) -/
  | pieceBid (id : Nat)
  /-- A piece whose bid has returned takes its timestamp and its commit is sent. (R327) -/
  | pieceTimestamp
  /-- The home writes the piece at its timestamp, unlocks and acknowledges the route. (R327) -/
  | pieceCommit (id : Nat)
  /-- The last route acknowledgement folds the timestamp and releases later pieces of the domain. (R327) -/
  | pieceRouteAck (id : Nat)
  /-- A descriptor completes and reports through MSI-X and a status byte. (R309) -/
  | hubCopyComplete (id : Nat)
  /-- The host link goes down and outbound requests and descriptors end with an error. (R362) -/
  | hostLinkDown
  /-- Reset: the boot ROM verifies firmware and the dies join under the contract. (R324) -/
  | packageReset
  /-- A compute die trains, offers ranges, is checked, synchronises clocks and enters the pool. (R314) -/
  | dieJoin (site : Nat) (offer : JoinOffer)
  /-- The last CU finishes saving and the port reports the context stopped. (R318) -/
  | saveComplete (ctx : Nat)
  /-- A strand missing its migration point within 2,700 clocks makes the save fall back to MIG = 0. (R376) -/
  | migrationAbort (ctx : Nat)
  /-- A stop not complete within 2^24 clocks fails and the context is contained. (R375) -/
  | stopTimeout (ctx : Nat)
  /-- A CRC error makes the receiver request replay from the failed sequence number, in one direction of a link. (R357) -/
  | flitReplay (way : LinkWay)
  /-- A flit failing eight times makes the link retrain. (R357) -/
  | linkRetrain (link : Nat)
  /-- A lost link is routed around and its replay buffer resent on the new route. (R358) -/
  | linkLost (link : Nat)
  /-- The scrubber reads and corrects a DRAM line without making an event. (R348) -/
  | patrolScrub
  /-- An uncorrectable directory entry is rebuilt by probing every CU's L1. (R356) -/
  | directoryRecovery (line : Nat)
  /-- A CU not answering a probe within 65,536 clocks makes the line poisoned. (R356) -/
  | probeTimeout (line : Nat)
  /-- The host port trains after the link has gone down and resumes carrying traffic. (R307) -/
  | hostLinkUp
  /-- A bank loaded 256 clocks ago becomes replaceable, so an overlay load that was waiting can proceed. (R279) -/
  | overlayBankHoldExpiry (cu : Nat)
  /-- An XINV, FWWR, FWRD or LWBI finishes its package-wide work, and its strand is freed or its status is written. (R285) -/
  | supervisorOperationComplete (id : Nat)
  /-- A dead die, CU, or CU's copy engine is contained and affected contexts are halted. (R360) -/
  | agentDead (site : Nat) (part : Option DieAgent)
  /-- An inbound posted write is cut into 256-byte pieces that take sequence numbers. (R166) -/
  | hostPostedWrite (t : HostTlp) (data : List (BitVec 8))
  /-- An inbound host read is performed as a .sys acquire after its domain's earlier writes. (R166) -/
  | hostRead (t : HostTlp) (n : Nat)
  /-- Writes arriving on a peer port pass the ordering point as a domain of their own. (R310) -/
  | peerPortWrite (port addr : Nat) (data : List (BitVec 8))
  /-- The hub copy engine executes a BAR0 ring descriptor between host and device memory. (R309) -/
  | hubCopyDescriptor (d : HubDesc)
  /-- A BAR0 request with a nonce returns a signed attestation report. (R325) -/
  | attestationRequest (nonce : List (BitVec 8))
  /-- The host sets the watchdog limit, which takes effect at the next period boundary. (R373) -/
  | watchdogLimitSet (limit : Nat)
  /-- The management processor sets the power cap at the host's request. (R122) -/
  | powerCapSet (watts : Nat)
  /-- The boot ROM accepts and verifies a replacement firmware image through the mailbox. (R324) -/
  | firmwareReplacement (version : Nat) (image : List (BitVec 8))
  /-- Context command that reads and checks the record and accepts the root grid. (R313) -/
  | start (ctx addr : Nat)
  /-- Context command that halts issue, completes work, saves the context and frees its CUs. (R318) -/
  | preempt (ctx : Nat) (mig : Bool)
  /-- Context command that places teams, restores state, performs pending publishes and starts issue. (R321) -/
  | restore (ctx addr : Nat)
  /-- Context command that stops and saves as PREEMPT but keeps the CUs reserved. (R318) -/
  | halt (ctx : Nat) (mig : Bool)
  /-- Context command that restores a halted context onto its reserved CUs. (R321) -/
  | continueCtx (ctx : Nat)
  /-- Context command that stops the context and discards its state and pending publishes. (R313) -/
  | contextKill (ctx : Nat)
  /-- The management processor re-homes or unmaps the pages of a contained die, ending their contained state. (R360) -/
  | pageRehome (line site : Nat)
  /-- The host sends an ATS invalidation request for host-address translations held by the device. (R307) -/
  | atsInvalidation (addr : Nat)
  /-- The management processor re-keys an insecure IDE stream, so its TLPs are no longer discarded. (R362) -/
  | ideRekey (stream : Nat)
  /-- A die at 105 °C makes the clock drop one step per period until every die is below 100 °C. (R326) -/
  | thermalThrottle (site temp : Nat)
  /-- The management processor restores a lost Ubaro link or peer port, and routing returns to the fixed routes of R20. (R358) -/
  | linkRestore (link : Nat)
  deriving DecidableEq, Repr

end Sys2Proof
end

