-- ==== Sys2Proof/WellFormed.lean ====
section
/-! DEFINITION. Well-formed instructions: the values of the fields that the opcode maps accept (R167-R181), class 1,
code 2 where one is not. What a group's prefixes and the overlay's bounds ask is checked where the group is read or
runs. -/

namespace Sys2Proof

/-- A 7-bit source field: every code but 127 (R169). -/
def srcOk (c : BitVec 7) : Bool := decide (c.toNat < 127)

/-- A 7-bit destination field: a register or the discard code (R169). -/
def dstOk (c : BitVec 7) : Bool := decide (c.toNat < 120) || decide (c.toNat = 124)

/-- A 64-bit source (R170): an even register, b0 with b1, b2 with b3, zero, the lane index or the prefix operand. -/
def src64Ok (c : BitVec 7) : Bool :=
  (decide (c.toNat < 120) && decide (c.toNat % 2 = 0)) ||
    decide (c.toNat = 120) || decide (c.toNat = 122) || decide (c.toNat = 124) || decide (c.toNat = 125) || decide (c.toNat = 126)

/-- A 64-bit destination (R170). -/
def dst64Ok (c : BitVec 7) : Bool := (decide (c.toNat < 120) && decide (c.toNat % 2 = 0)) || decide (c.toNat = 124)

/-- An address pair (R170): an even register. -/
def addrOk (c : BitVec 7) : Bool := decide (c.toNat < 120) && decide (c.toNat % 2 = 0)

/-- A 4-bit predicate field (R170). -/
def predOk (p : BitVec 4) : Bool := decide (p.toNat < 12)

/-- A link field (R178). -/
def linkOk (l : BitVec 7) : Bool := decide (l.toNat < 120)

/-- A k field that names an even register (R170). -/
def evenK (k : BitVec 8) : Bool := decide (k.toNat % 2 = 0)

/-- A tile field that names an FX64 pair (R170). -/
def evenTile (t : BitVec 7) : Bool := decide (t.toNat % 2 = 0)

/-- The type codes of 64 bits (R174): .s64, .n64 and .fx64. -/
def wideType (t : Nat) : Bool := t == 3 || t == 7 || t == 11

/-- B of an atomic of operation op and width bit w (R175): CAS takes an even register, or a multiple of 4 in the 64-bit
form; FMIN and FMAX have no 64-bit form; the others take a source or a pair. -/
def atomOk (op : Nat) (w : BitVec 1) (b : BitVec 7) : Bool :=
  if op = 9 then decide (b.toNat < 120) && (if w = 1 then decide (b.toNat % 4 = 0) else decide (b.toNat % 2 = 0))
  else if w = 1 then decide (op < 10) && src64Ok b
  else srcOk b

/-- The prefix parcels a group may hold (R166, R167): predicate codes 0-11 and at most two IMM. -/
def Pfx.wf (g : Pfx) : Bool :=
  (match g.pred with | some (p, _) => predOk p | none => true) && decide (g.imm.length ≤ 2)

/-- The fields of the instruction parcel hold values the maps accept. The events of the part carry no fields. -/
def Instr.fieldsOk : Instr → Bool
  | .mov _ _ a d => srcOk a && dstOk d
  | .iadd _ _ b a d => srcOk a && srcOk b && dstOk d
  | .isub _ _ b a d => srcOk a && srcOk b && dstOk d
  | .imul _ _ b a d => srcOk a && srcOk b && dstOk d
  | .imulh _ _ b a d _ => srcOk a && srcOk b && dstOk d
  | .imin _ _ b a d _ => srcOk a && srcOk b && dstOk d
  | .imax _ _ b a d _ => srcOk a && srcOk b && dstOk d
  | .andV _ _ b a d => srcOk a && srcOk b && dstOk d
  | .orV _ _ b a d => srcOk a && srcOk b && dstOk d
  | .xorV _ _ b a d => srcOk a && srcOk b && dstOk d
  | .shl _ _ b a d => srcOk a && srcOk b && dstOk d
  | .shr _ _ b a d => srcOk a && srcOk b && dstOk d
  | .sar _ _ b a d => srcOk a && srcOk b && dstOk d
  | .imad _ _ b a d => srcOk a && srcOk b && dstOk d
  | .idivS32 _ _ b a d => srcOk a && srcOk b && dstOk d
  | .idivN32 _ _ b a d => srcOk a && srcOk b && dstOk d
  | .iremS32 _ _ b a d => srcOk a && srcOk b && dstOk d
  | .iremN32 _ _ b a d => srcOk a && srcOk b && dstOk d
  | .iaddS64 _ _ b a d => src64Ok a && src64Ok b && dst64Ok d
  | .isubS64 _ _ b a d => src64Ok a && src64Ok b && dst64Ok d
  | .imulS64 _ _ b a d => src64Ok a && src64Ok b && dst64Ok d
  | .shlS64 _ _ b a d => src64Ok a && srcOk b && dst64Ok d
  | .shrS64 _ _ b a d => src64Ok a && srcOk b && dst64Ok d
  | .sarS64 _ _ b a d => src64Ok a && srcOk b && dst64Ok d
  | .fadd _ _ b a d _ => srcOk a && srcOk b && dstOk d
  | .fsub _ _ b a d _ => srcOk a && srcOk b && dstOk d
  | .fmul _ _ b a d _ => srcOk a && srcOk b && dstOk d
  | .ffma _ _ b a d _ => srcOk a && srcOk b && dstOk d
  | .fdiv _ _ b a d _ => srcOk a && srcOk b && dstOk d
  | .fmin _ _ b a d => srcOk a && srcOk b && dstOk d
  | .fmax _ _ b a d => srcOk a && srcOk b && dstOk d
  | .faddBf16x2 _ _ b a d => srcOk a && srcOk b && dstOk d
  | .fsubBf16x2 _ _ b a d => srcOk a && srcOk b && dstOk d
  | .fmulBf16x2 _ _ b a d => srcOk a && srcOk b && dstOk d
  | .ffmaBf16x2 _ _ b a d => srcOk a && srcOk b && dstOk d
  | .fminBf16x2 _ _ b a d => srcOk a && srcOk b && dstOk d
  | .fmaxBf16x2 _ _ b a d => srcOk a && srcOk b && dstOk d
  | .shfl _ _ b a d => srcOk a && srcOk b && dstOk d
  | .shflUp _ _ b a d => srcOk a && srcOk b && dstOk d
  | .shflDn _ _ b a d => srcOk a && srcOk b && dstOk d
  | .shflXor _ _ b a d => srcOk a && srcOk b && dstOk d
  | .movImmediate _ _ d => dstOk d
  | .iaddImmediate _ _ a d => srcOk a && dstOk d
  | .isubImmediate _ _ a d => srcOk a && dstOk d
  | .imulImmediate _ _ a d => srcOk a && dstOk d
  | .iminImmediate _ _ a d _ => srcOk a && dstOk d
  | .imaxImmediate _ _ a d _ => srcOk a && dstOk d
  | .andImmediate _ _ a d => srcOk a && dstOk d
  | .orImmediate _ _ a d => srcOk a && dstOk d
  | .xorImmediate _ _ a d => srcOk a && dstOk d
  | .shlImmediate _ _ a d => srcOk a && dstOk d
  | .shrImmediate _ _ a d => srcOk a && dstOk d
  | .sarImmediate _ _ a d => srcOk a && dstOk d
  | .iaddS64Immediate _ _ a d => src64Ok a && dst64Ok d
  | .faddImmediate _ _ a d => srcOk a && dstOk d
  | .fmulImmediate _ _ a d => srcOk a && dstOk d
  | .fminImmediate _ _ a d => srcOk a && dstOk d
  | .fmaxImmediate _ _ a d => srcOk a && dstOk d
  | .rng _ _ a d => srcOk a && dstOk d
  | .movCompact _ _ _ => true
  | .iaddCompact _ _ _ => true
  | .isubCompact _ _ _ => true
  | .imulCompact _ _ _ => true
  | .iminCompact _ _ _ => true
  | .imaxCompact _ _ _ => true
  | .andCompact _ _ _ => true
  | .orCompact _ _ _ => true
  | .xorCompact _ _ _ => true
  | .shlCompact _ _ _ => true
  | .shrCompact _ _ _ => true
  | .faddCompact _ _ _ => true
  | .fsubCompact _ _ _ => true
  | .fmulCompact _ _ _ => true
  | .fminCompact _ _ _ => true
  | .fmaxCompact _ _ _ => true
  | .icmp _ f b a p t => decide (f.toNat < 6) && predOk p && (if t.toNat < 2 then srcOk a && srcOk b else src64Ok a && src64Ok b)
  | .fcmp _ f b a p => decide (f.toNat < 6) && predOk p && srcOk a && srcOk b
  | .plop _ _ b a p => predOk a && predOk b && predOk p
  | .cvt _ _ s a d t => decide (t.toNat < 12) && decide (s.toNat < 12) && decide (s ≠ t) && (if wideType s.toNat then src64Ok a else srcOk a) && (if wideType t.toNat then dst64Ok d else dstOk d)
  | .ndec _ _ a d => srcOk a && dstOk d
  | .nenc _ a d => srcOk a && dstOk d
  | .fsqrt _ _ a d => srcOk a && dstOk d
  | .rcp _ a d => srcOk a && dstOk d
  | .rsq _ a d => srcOk a && dstOk d
  | .exp2 _ a d => srcOk a && dstOk d
  | .log2 _ a d => srcOk a && dstOk d
  | .sin _ a d => srcOk a && dstOk d
  | .cos _ a d => srcOk a && dstOk d
  | .popc _ a d => srcOk a && dstOk d
  | .clz _ a d => srcOk a && dstOk d
  | .brev _ a d => srcOk a && dstOk d
  | .vote _ f p d => decide (f.toNat < 3) && predOk p && dstOk d
  | .redux _ f m a d => decide (f.toNat < 11) && decide (m = 0 ∨ f = 8) && srcOk a && dstOk d
  | .p2v _ p d => predOk p && dstOk d
  | .fabs _ a d => srcOk a && dstOk d
  | .fneg _ a d => srcOk a && dstOk d
  | .ld _ _ p d t _ => decide (t.toNat < 6) && addrOk p && (if t = 5 then dst64Ok d else dstOk d)
  | .st8 _ _ p d _ => addrOk p && srcOk d
  | .st16 _ _ p d _ => addrOk p && srcOk d
  | .st32 _ _ p d _ => addrOk p && srcOk d
  | .st64 _ _ p d _ => addrOk p && src64Ok d
  | .ldAcq _ _ _ p d t => decide (t.toNat < 6) && addrOk p && (if t = 5 then dst64Ok d else dstOk d)
  | .stRel8 _ _ _ p d => addrOk p && srcOk d
  | .stRel16 _ _ _ p d => addrOk p && srcOk d
  | .stRel32 _ _ _ p d => addrOk p && srcOk d
  | .stRel64 _ _ _ p d => addrOk p && src64Ok d
  | .pf _ _ p => addrOk p
  | .pfL2 _ _ p => addrOk p
  | .atomAdd _ w b p d => addrOk p && atomOk 0 w b && decide (d ≠ 124) && (if w = 1 then dst64Ok d else dstOk d)
  | .atomMinS _ w b p d => addrOk p && atomOk 1 w b && decide (d ≠ 124) && (if w = 1 then dst64Ok d else dstOk d)
  | .atomMinN _ w b p d => addrOk p && atomOk 2 w b && decide (d ≠ 124) && (if w = 1 then dst64Ok d else dstOk d)
  | .atomMaxS _ w b p d => addrOk p && atomOk 3 w b && decide (d ≠ 124) && (if w = 1 then dst64Ok d else dstOk d)
  | .atomMaxN _ w b p d => addrOk p && atomOk 4 w b && decide (d ≠ 124) && (if w = 1 then dst64Ok d else dstOk d)
  | .atomAnd _ w b p d => addrOk p && atomOk 5 w b && decide (d ≠ 124) && (if w = 1 then dst64Ok d else dstOk d)
  | .atomOr _ w b p d => addrOk p && atomOk 6 w b && decide (d ≠ 124) && (if w = 1 then dst64Ok d else dstOk d)
  | .atomXor _ w b p d => addrOk p && atomOk 7 w b && decide (d ≠ 124) && (if w = 1 then dst64Ok d else dstOk d)
  | .atomXchg _ w b p d => addrOk p && atomOk 8 w b && decide (d ≠ 124) && (if w = 1 then dst64Ok d else dstOk d)
  | .atomCas _ w b p d => addrOk p && atomOk 9 w b && decide (d ≠ 124) && (if w = 1 then dst64Ok d else dstOk d)
  | .atomFmin _ w b p d => addrOk p && atomOk 10 w b && decide (d ≠ 124) && (if w = 1 then dst64Ok d else dstOk d)
  | .atomFmax _ w b p d => addrOk p && atomOk 11 w b && decide (d ≠ 124) && (if w = 1 then dst64Ok d else dstOk d)
  | .red _ w b p o => decide (4 ≤ o.toNat) && addrOk p && atomOk (o.toNat - 4) w b
  | .kuRegisterOp _ _ _ u => decide (u.toNat < 14)
  | .kuImmediateOp _ _ a _ u => decide (u.toNat < 14) && decide (u ≠ 0 ∨ a = 0)
  | .krdl _ _ a _ => decide (a.toNat < 120)
  | .kld _ _ a _ => evenK a
  | .kst _ _ a _ => evenK a
  | .bra _ _ => true
  | .call _ _ l => linkOk l
  | .fcall _ _ l => linkOk l
  | .jmpi _ r => srcOk r
  | .calli _ l a => linkOk l && srcOk a
  | .ret _ r => srcOk r
  | .brt _ _ p => predOk p
  | .brf _ _ p => predOk p
  | .mmaBf16 _ _ b a _ _ => addrOk a && addrOk b
  | .mmaInteger _ _ b a d t _ => decide (1 ≤ t.toNat) && decide (t.toNat < 5) && evenTile d && addrOk a && addrOk b
  | .mmag _ _ b a _ _ => srcOk a && addrOk b
  | .mmab _ _ b a _ _ => addrOk a && addrOk b
  | .mmaAb _ _ b _ _ _ => addrOk b
  | .amov _ _ _ => true
  | .azero _ _ => true
  | .ard _ b _ d => srcOk b && dstOk d
  | .awr _ b a _ => srcOk b && srcOk a
  | .ardFx64 _ b a d => srcOk b && evenTile a && dst64Ok d
  | .awrFx64 _ b a d => srcOk b && src64Ok a && evenTile d
  | .cpy _ _ l c => addrOk l && srcOk c
  | .cpyl _ _ s d => addrOk s && addrOk d
  | .ovload _ _ _ => true
  | .nop _ => true
  | .exit _ => true
  | .join _ => true
  | .fbar _ => true
  | .bar _ _ => true
  | .gbar _ => true
  | .waitc _ k p => evenK k && addrOk p
  | .yieldc _ _ _ => true
  | .reggrow _ => true
  | .regshrink _ => true
  | .launch _ _ p => addrOk p
  | .trap _ _ => true
  | .bkpt _ _ => true
  | .srd _ s d => decide (s.toNat < 16) && (if s = 13 then dst64Ok d else dstOk d)
  | .swr _ s a => decide (s = 14 ∨ s = 15) && srcOk a
  | .fence _ _ => true
  | .mcas _ _ p => addrOk p
  | .redFaddc _ a p => addrOk p && srcOk a
  | .xinv _ _ p => addrOk p
  | .fwwr _ p _ => addrOk p
  | .fwrd _ p _ => addrOk p
  | .lwbi _ _ p => addrOk p
  | .resume _ p => addrOk p
  | .redirect _ p => addrOk p
  | .kill _ p => addrOk p
  | .issueSelect _ => true
  | .starvationIssue _ => true
  | .pipelineResult _ _ => true
  | .loadDataReturn _ => true
  | .homeSliceRequest _ => true
  | .storeAck _ => true
  | .horizonFold _ _ => true
  | .l1LeaseExpiry _ _ _ => true
  | .pageWalk _ => true
  | .fenceComplete _ => true
  | .fenceRollback _ => true
  | .barrierRelease _ => true
  | .waitcReread _ => true
  | .statusWordWrite _ _ _ _ => true
  | .strandRetire _ => true
  | .teamFinish _ => true
  | .gridRetire _ => true
  | .launchAccept _ => true
  | .seedArrival _ _ => true
  | .dependenceCounterReread _ => true
  | .dealingStep => true
  | .launchReservation _ => true
  | .teamStart _ => true
  | .budgetPeriod => true
  | .thermalThrottle _ _ => true
  | .overlayRequest _ => true
  | .overlayLoadComplete _ => true
  | .copyUnitMove _ => true
  | .copyPublish _ => true
  | .gatherRowArrival _ => true
  | .matrixEngineStart _ => true
  | .mmabEpisodeStart _ _ => true
  | .matrixEngineFinish _ => true
  | .mcasLockGrant _ => true
  | .mcasEvent _ => true
  | .mcasRelease _ => true
  | .reggrowComplete _ => true
  | .reggrowRetry _ => true
  | .regshrinkComplete _ => true
  | .registerDeadlock _ => true
  | .warpSpill _ => true
  | .warpRefill _ => true
  | .compaction _ => true
  | .watchdogExpiry _ => true
  | .trapRecordPost _ => true
  | .takenReread _ => true
  | .replyTakeEffect _ => true
  | .viewLineFill _ => true
  | .viewLineWriteback _ => true
  | .hostPostedWrite _ _ => true
  | .pieceBid _ => true
  | .pieceTimestamp => true
  | .pieceCommit _ => true
  | .pieceRouteAck _ => true
  | .hostRead _ _ => true
  | .peerPortWrite _ _ _ => true
  | .hubCopyDescriptor _ => true
  | .hubCopyComplete _ => true
  | .hostLinkDown => true
  | .attestationRequest _ => true
  | .watchdogLimitSet _ => true
  | .powerCapSet _ => true
  | .firmwareReplacement _ _ => true
  | .packageReset => true
  | .dieJoin _ _ => true
  | .start _ _ => true
  | .preempt _ _ => true
  | .restore _ _ => true
  | .halt _ _ => true
  | .continueCtx _ => true
  | .contextKill _ => true
  | .saveComplete _ => true
  | .migrationAbort _ => true
  | .stopTimeout _ => true
  | .flitReplay _ => true
  | .linkRetrain _ => true
  | .linkLost _ => true
  | .agentDead _ _ => true
  | .patrolScrub => true
  | .directoryRecovery _ => true
  | .probeTimeout _ => true
  | .linkRestore _ => true
  | .hostLinkUp => true
  | .ideRekey _ => true
  | .overlayBankHoldExpiry _ => true
  | .supervisorOperationComplete _ => true
  | .pageRehome _ _ => true
  | .atsInvalidation _ => true

/-- The prefix group of an encoded instruction; an event has none. -/
def Instr.pfx : Instr → Pfx
  | .mov g _ _ _ => g
  | .iadd g _ _ _ _ => g
  | .isub g _ _ _ _ => g
  | .imul g _ _ _ _ => g
  | .imulh g _ _ _ _ _ => g
  | .imin g _ _ _ _ _ => g
  | .imax g _ _ _ _ _ => g
  | .andV g _ _ _ _ => g
  | .orV g _ _ _ _ => g
  | .xorV g _ _ _ _ => g
  | .shl g _ _ _ _ => g
  | .shr g _ _ _ _ => g
  | .sar g _ _ _ _ => g
  | .imad g _ _ _ _ => g
  | .idivS32 g _ _ _ _ => g
  | .idivN32 g _ _ _ _ => g
  | .iremS32 g _ _ _ _ => g
  | .iremN32 g _ _ _ _ => g
  | .iaddS64 g _ _ _ _ => g
  | .isubS64 g _ _ _ _ => g
  | .imulS64 g _ _ _ _ => g
  | .shlS64 g _ _ _ _ => g
  | .shrS64 g _ _ _ _ => g
  | .sarS64 g _ _ _ _ => g
  | .fadd g _ _ _ _ _ => g
  | .fsub g _ _ _ _ _ => g
  | .fmul g _ _ _ _ _ => g
  | .ffma g _ _ _ _ _ => g
  | .fdiv g _ _ _ _ _ => g
  | .fmin g _ _ _ _ => g
  | .fmax g _ _ _ _ => g
  | .faddBf16x2 g _ _ _ _ => g
  | .fsubBf16x2 g _ _ _ _ => g
  | .fmulBf16x2 g _ _ _ _ => g
  | .ffmaBf16x2 g _ _ _ _ => g
  | .fminBf16x2 g _ _ _ _ => g
  | .fmaxBf16x2 g _ _ _ _ => g
  | .shfl g _ _ _ _ => g
  | .shflUp g _ _ _ _ => g
  | .shflDn g _ _ _ _ => g
  | .shflXor g _ _ _ _ => g
  | .movImmediate g _ _ => g
  | .iaddImmediate g _ _ _ => g
  | .isubImmediate g _ _ _ => g
  | .imulImmediate g _ _ _ => g
  | .iminImmediate g _ _ _ _ => g
  | .imaxImmediate g _ _ _ _ => g
  | .andImmediate g _ _ _ => g
  | .orImmediate g _ _ _ => g
  | .xorImmediate g _ _ _ => g
  | .shlImmediate g _ _ _ => g
  | .shrImmediate g _ _ _ => g
  | .sarImmediate g _ _ _ => g
  | .iaddS64Immediate g _ _ _ => g
  | .faddImmediate g _ _ _ => g
  | .fmulImmediate g _ _ _ => g
  | .fminImmediate g _ _ _ => g
  | .fmaxImmediate g _ _ _ => g
  | .rng g _ _ _ => g
  | .movCompact g _ _ => g
  | .iaddCompact g _ _ => g
  | .isubCompact g _ _ => g
  | .imulCompact g _ _ => g
  | .iminCompact g _ _ => g
  | .imaxCompact g _ _ => g
  | .andCompact g _ _ => g
  | .orCompact g _ _ => g
  | .xorCompact g _ _ => g
  | .shlCompact g _ _ => g
  | .shrCompact g _ _ => g
  | .faddCompact g _ _ => g
  | .fsubCompact g _ _ => g
  | .fmulCompact g _ _ => g
  | .fminCompact g _ _ => g
  | .fmaxCompact g _ _ => g
  | .icmp g _ _ _ _ _ => g
  | .fcmp g _ _ _ _ => g
  | .plop g _ _ _ _ => g
  | .cvt g _ _ _ _ _ => g
  | .ndec g _ _ _ => g
  | .nenc g _ _ => g
  | .fsqrt g _ _ _ => g
  | .rcp g _ _ => g
  | .rsq g _ _ => g
  | .exp2 g _ _ => g
  | .log2 g _ _ => g
  | .sin g _ _ => g
  | .cos g _ _ => g
  | .popc g _ _ => g
  | .clz g _ _ => g
  | .brev g _ _ => g
  | .vote g _ _ _ => g
  | .redux g _ _ _ _ => g
  | .p2v g _ _ => g
  | .fabs g _ _ => g
  | .fneg g _ _ => g
  | .ld g _ _ _ _ _ => g
  | .st8 g _ _ _ _ => g
  | .st16 g _ _ _ _ => g
  | .st32 g _ _ _ _ => g
  | .st64 g _ _ _ _ => g
  | .ldAcq g _ _ _ _ _ => g
  | .stRel8 g _ _ _ _ => g
  | .stRel16 g _ _ _ _ => g
  | .stRel32 g _ _ _ _ => g
  | .stRel64 g _ _ _ _ => g
  | .pf g _ _ => g
  | .pfL2 g _ _ => g
  | .atomAdd g _ _ _ _ => g
  | .atomMinS g _ _ _ _ => g
  | .atomMinN g _ _ _ _ => g
  | .atomMaxS g _ _ _ _ => g
  | .atomMaxN g _ _ _ _ => g
  | .atomAnd g _ _ _ _ => g
  | .atomOr g _ _ _ _ => g
  | .atomXor g _ _ _ _ => g
  | .atomXchg g _ _ _ _ => g
  | .atomCas g _ _ _ _ => g
  | .atomFmin g _ _ _ _ => g
  | .atomFmax g _ _ _ _ => g
  | .red g _ _ _ _ => g
  | .kuRegisterOp g _ _ _ => g
  | .kuImmediateOp g _ _ _ _ => g
  | .krdl g _ _ _ => g
  | .kld g _ _ _ => g
  | .kst g _ _ _ => g
  | .bra g _ => g
  | .call g _ _ => g
  | .fcall g _ _ => g
  | .jmpi g _ => g
  | .calli g _ _ => g
  | .ret g _ => g
  | .brt g _ _ => g
  | .brf g _ _ => g
  | .mmaBf16 g _ _ _ _ _ => g
  | .mmaInteger g _ _ _ _ _ _ => g
  | .mmag g _ _ _ _ _ => g
  | .mmab g _ _ _ _ _ => g
  | .mmaAb g _ _ _ _ _ => g
  | .amov g _ _ => g
  | .azero g _ => g
  | .ard g _ _ _ => g
  | .awr g _ _ _ => g
  | .ardFx64 g _ _ _ => g
  | .awrFx64 g _ _ _ => g
  | .cpy g _ _ _ => g
  | .cpyl g _ _ _ => g
  | .ovload g _ _ => g
  | .nop g => g
  | .exit g => g
  | .join g => g
  | .fbar g => g
  | .bar g _ => g
  | .gbar g => g
  | .waitc g _ _ => g
  | .yieldc g _ _ => g
  | .reggrow g => g
  | .regshrink g => g
  | .launch g _ _ => g
  | .trap g _ => g
  | .bkpt g _ => g
  | .srd g _ _ => g
  | .swr g _ _ => g
  | .fence g _ => g
  | .mcas g _ _ => g
  | .redFaddc g _ _ => g
  | .xinv g _ _ => g
  | .fwwr g _ _ => g
  | .fwrd g _ _ => g
  | .lwbi g _ _ => g
  | .resume g _ => g
  | .redirect g _ => g
  | .kill g _ => g
  | .issueSelect _ => {}
  | .starvationIssue _ => {}
  | .pipelineResult _ _ => {}
  | .loadDataReturn _ => {}
  | .homeSliceRequest _ => {}
  | .storeAck _ => {}
  | .horizonFold _ _ => {}
  | .l1LeaseExpiry _ _ _ => {}
  | .pageWalk _ => {}
  | .fenceComplete _ => {}
  | .fenceRollback _ => {}
  | .barrierRelease _ => {}
  | .waitcReread _ => {}
  | .statusWordWrite _ _ _ _ => {}
  | .strandRetire _ => {}
  | .teamFinish _ => {}
  | .gridRetire _ => {}
  | .launchAccept _ => {}
  | .seedArrival _ _ => {}
  | .dependenceCounterReread _ => {}
  | .dealingStep => {}
  | .launchReservation _ => {}
  | .teamStart _ => {}
  | .budgetPeriod => {}
  | .thermalThrottle _ _ => {}
  | .overlayRequest _ => {}
  | .overlayLoadComplete _ => {}
  | .copyUnitMove _ => {}
  | .copyPublish _ => {}
  | .gatherRowArrival _ => {}
  | .matrixEngineStart _ => {}
  | .mmabEpisodeStart _ _ => {}
  | .matrixEngineFinish _ => {}
  | .mcasLockGrant _ => {}
  | .mcasEvent _ => {}
  | .mcasRelease _ => {}
  | .reggrowComplete _ => {}
  | .reggrowRetry _ => {}
  | .regshrinkComplete _ => {}
  | .registerDeadlock _ => {}
  | .warpSpill _ => {}
  | .warpRefill _ => {}
  | .compaction _ => {}
  | .watchdogExpiry _ => {}
  | .trapRecordPost _ => {}
  | .takenReread _ => {}
  | .replyTakeEffect _ => {}
  | .viewLineFill _ => {}
  | .viewLineWriteback _ => {}
  | .hostPostedWrite _ _ => {}
  | .pieceBid _ => {}
  | .pieceTimestamp => {}
  | .pieceCommit _ => {}
  | .pieceRouteAck _ => {}
  | .hostRead _ _ => {}
  | .peerPortWrite _ _ _ => {}
  | .hubCopyDescriptor _ => {}
  | .hubCopyComplete _ => {}
  | .hostLinkDown => {}
  | .attestationRequest _ => {}
  | .watchdogLimitSet _ => {}
  | .powerCapSet _ => {}
  | .firmwareReplacement _ _ => {}
  | .packageReset => {}
  | .dieJoin _ _ => {}
  | .start _ _ => {}
  | .preempt _ _ => {}
  | .restore _ _ => {}
  | .halt _ _ => {}
  | .continueCtx _ => {}
  | .contextKill _ => {}
  | .saveComplete _ => {}
  | .migrationAbort _ => {}
  | .stopTimeout _ => {}
  | .flitReplay _ => {}
  | .linkRetrain _ => {}
  | .linkLost _ => {}
  | .agentDead _ _ => {}
  | .patrolScrub => {}
  | .directoryRecovery _ => {}
  | .probeTimeout _ => {}
  | .linkRestore _ => {}
  | .hostLinkUp => {}
  | .ideRekey _ => {}
  | .overlayBankHoldExpiry _ => {}
  | .supervisorOperationComplete _ => {}
  | .pageRehome _ _ => {}
  | .atsInvalidation _ => {}

/-- The row's instruction parcel: a compact parcel of one halfword, a 32-bit parcel of two, or an event, which has no
encoding (R165). -/
def Instr.parcelLen : Instr → Nat
  | .mov _ _ _ _ => 2
  | .iadd _ _ _ _ _ => 2
  | .isub _ _ _ _ _ => 2
  | .imul _ _ _ _ _ => 2
  | .imulh _ _ _ _ _ _ => 2
  | .imin _ _ _ _ _ _ => 2
  | .imax _ _ _ _ _ _ => 2
  | .andV _ _ _ _ _ => 2
  | .orV _ _ _ _ _ => 2
  | .xorV _ _ _ _ _ => 2
  | .shl _ _ _ _ _ => 2
  | .shr _ _ _ _ _ => 2
  | .sar _ _ _ _ _ => 2
  | .imad _ _ _ _ _ => 2
  | .idivS32 _ _ _ _ _ => 2
  | .idivN32 _ _ _ _ _ => 2
  | .iremS32 _ _ _ _ _ => 2
  | .iremN32 _ _ _ _ _ => 2
  | .iaddS64 _ _ _ _ _ => 2
  | .isubS64 _ _ _ _ _ => 2
  | .imulS64 _ _ _ _ _ => 2
  | .shlS64 _ _ _ _ _ => 2
  | .shrS64 _ _ _ _ _ => 2
  | .sarS64 _ _ _ _ _ => 2
  | .fadd _ _ _ _ _ _ => 2
  | .fsub _ _ _ _ _ _ => 2
  | .fmul _ _ _ _ _ _ => 2
  | .ffma _ _ _ _ _ _ => 2
  | .fdiv _ _ _ _ _ _ => 2
  | .fmin _ _ _ _ _ => 2
  | .fmax _ _ _ _ _ => 2
  | .faddBf16x2 _ _ _ _ _ => 2
  | .fsubBf16x2 _ _ _ _ _ => 2
  | .fmulBf16x2 _ _ _ _ _ => 2
  | .ffmaBf16x2 _ _ _ _ _ => 2
  | .fminBf16x2 _ _ _ _ _ => 2
  | .fmaxBf16x2 _ _ _ _ _ => 2
  | .shfl _ _ _ _ _ => 2
  | .shflUp _ _ _ _ _ => 2
  | .shflDn _ _ _ _ _ => 2
  | .shflXor _ _ _ _ _ => 2
  | .movImmediate _ _ _ => 2
  | .iaddImmediate _ _ _ _ => 2
  | .isubImmediate _ _ _ _ => 2
  | .imulImmediate _ _ _ _ => 2
  | .iminImmediate _ _ _ _ _ => 2
  | .imaxImmediate _ _ _ _ _ => 2
  | .andImmediate _ _ _ _ => 2
  | .orImmediate _ _ _ _ => 2
  | .xorImmediate _ _ _ _ => 2
  | .shlImmediate _ _ _ _ => 2
  | .shrImmediate _ _ _ _ => 2
  | .sarImmediate _ _ _ _ => 2
  | .iaddS64Immediate _ _ _ _ => 2
  | .faddImmediate _ _ _ _ => 2
  | .fmulImmediate _ _ _ _ => 2
  | .fminImmediate _ _ _ _ => 2
  | .fmaxImmediate _ _ _ _ => 2
  | .rng _ _ _ _ => 2
  | .movCompact _ _ _ => 1
  | .iaddCompact _ _ _ => 1
  | .isubCompact _ _ _ => 1
  | .imulCompact _ _ _ => 1
  | .iminCompact _ _ _ => 1
  | .imaxCompact _ _ _ => 1
  | .andCompact _ _ _ => 1
  | .orCompact _ _ _ => 1
  | .xorCompact _ _ _ => 1
  | .shlCompact _ _ _ => 1
  | .shrCompact _ _ _ => 1
  | .faddCompact _ _ _ => 1
  | .fsubCompact _ _ _ => 1
  | .fmulCompact _ _ _ => 1
  | .fminCompact _ _ _ => 1
  | .fmaxCompact _ _ _ => 1
  | .icmp _ _ _ _ _ _ => 2
  | .fcmp _ _ _ _ _ => 2
  | .plop _ _ _ _ _ => 2
  | .cvt _ _ _ _ _ _ => 2
  | .ndec _ _ _ _ => 2
  | .nenc _ _ _ => 2
  | .fsqrt _ _ _ _ => 2
  | .rcp _ _ _ => 2
  | .rsq _ _ _ => 2
  | .exp2 _ _ _ => 2
  | .log2 _ _ _ => 2
  | .sin _ _ _ => 2
  | .cos _ _ _ => 2
  | .popc _ _ _ => 2
  | .clz _ _ _ => 2
  | .brev _ _ _ => 2
  | .vote _ _ _ _ => 2
  | .redux _ _ _ _ _ => 2
  | .p2v _ _ _ => 2
  | .fabs _ _ _ => 2
  | .fneg _ _ _ => 2
  | .ld _ _ _ _ _ _ => 2
  | .st8 _ _ _ _ _ => 2
  | .st16 _ _ _ _ _ => 2
  | .st32 _ _ _ _ _ => 2
  | .st64 _ _ _ _ _ => 2
  | .ldAcq _ _ _ _ _ _ => 2
  | .stRel8 _ _ _ _ _ => 2
  | .stRel16 _ _ _ _ _ => 2
  | .stRel32 _ _ _ _ _ => 2
  | .stRel64 _ _ _ _ _ => 2
  | .pf _ _ _ => 2
  | .pfL2 _ _ _ => 2
  | .atomAdd _ _ _ _ _ => 2
  | .atomMinS _ _ _ _ _ => 2
  | .atomMinN _ _ _ _ _ => 2
  | .atomMaxS _ _ _ _ _ => 2
  | .atomMaxN _ _ _ _ _ => 2
  | .atomAnd _ _ _ _ _ => 2
  | .atomOr _ _ _ _ _ => 2
  | .atomXor _ _ _ _ _ => 2
  | .atomXchg _ _ _ _ _ => 2
  | .atomCas _ _ _ _ _ => 2
  | .atomFmin _ _ _ _ _ => 2
  | .atomFmax _ _ _ _ _ => 2
  | .red _ _ _ _ _ => 2
  | .kuRegisterOp _ _ _ _ => 2
  | .kuImmediateOp _ _ _ _ _ => 2
  | .krdl _ _ _ _ => 2
  | .kld _ _ _ _ => 2
  | .kst _ _ _ _ => 2
  | .bra _ _ => 2
  | .call _ _ _ => 2
  | .fcall _ _ _ => 2
  | .jmpi _ _ => 2
  | .calli _ _ _ => 2
  | .ret _ _ => 2
  | .brt _ _ _ => 2
  | .brf _ _ _ => 2
  | .mmaBf16 _ _ _ _ _ _ => 2
  | .mmaInteger _ _ _ _ _ _ _ => 2
  | .mmag _ _ _ _ _ _ => 2
  | .mmab _ _ _ _ _ _ => 2
  | .mmaAb _ _ _ _ _ _ => 2
  | .amov _ _ _ => 2
  | .azero _ _ => 2
  | .ard _ _ _ _ => 2
  | .awr _ _ _ _ => 2
  | .ardFx64 _ _ _ _ => 2
  | .awrFx64 _ _ _ _ => 2
  | .cpy _ _ _ _ => 2
  | .cpyl _ _ _ _ => 2
  | .ovload _ _ _ => 2
  | .nop _ => 2
  | .exit _ => 2
  | .join _ => 2
  | .fbar _ => 2
  | .bar _ _ => 2
  | .gbar _ => 2
  | .waitc _ _ _ => 2
  | .yieldc _ _ _ => 2
  | .reggrow _ => 2
  | .regshrink _ => 2
  | .launch _ _ _ => 2
  | .trap _ _ => 2
  | .bkpt _ _ => 2
  | .srd _ _ _ => 2
  | .swr _ _ _ => 2
  | .fence _ _ => 2
  | .mcas _ _ _ => 2
  | .redFaddc _ _ _ => 2
  | .xinv _ _ _ => 2
  | .fwwr _ _ _ => 2
  | .fwrd _ _ _ => 2
  | .lwbi _ _ _ => 2
  | .resume _ _ => 2
  | .redirect _ _ => 2
  | .kill _ _ => 2
  | .issueSelect _ => 0
  | .starvationIssue _ => 0
  | .pipelineResult _ _ => 0
  | .loadDataReturn _ => 0
  | .homeSliceRequest _ => 0
  | .storeAck _ => 0
  | .horizonFold _ _ => 0
  | .l1LeaseExpiry _ _ _ => 0
  | .pageWalk _ => 0
  | .fenceComplete _ => 0
  | .fenceRollback _ => 0
  | .barrierRelease _ => 0
  | .waitcReread _ => 0
  | .statusWordWrite _ _ _ _ => 0
  | .strandRetire _ => 0
  | .teamFinish _ => 0
  | .gridRetire _ => 0
  | .launchAccept _ => 0
  | .seedArrival _ _ => 0
  | .dependenceCounterReread _ => 0
  | .dealingStep => 0
  | .launchReservation _ => 0
  | .teamStart _ => 0
  | .budgetPeriod => 0
  | .thermalThrottle _ _ => 0
  | .overlayRequest _ => 0
  | .overlayLoadComplete _ => 0
  | .copyUnitMove _ => 0
  | .copyPublish _ => 0
  | .gatherRowArrival _ => 0
  | .matrixEngineStart _ => 0
  | .mmabEpisodeStart _ _ => 0
  | .matrixEngineFinish _ => 0
  | .mcasLockGrant _ => 0
  | .mcasEvent _ => 0
  | .mcasRelease _ => 0
  | .reggrowComplete _ => 0
  | .reggrowRetry _ => 0
  | .regshrinkComplete _ => 0
  | .registerDeadlock _ => 0
  | .warpSpill _ => 0
  | .warpRefill _ => 0
  | .compaction _ => 0
  | .watchdogExpiry _ => 0
  | .trapRecordPost _ => 0
  | .takenReread _ => 0
  | .replyTakeEffect _ => 0
  | .viewLineFill _ => 0
  | .viewLineWriteback _ => 0
  | .hostPostedWrite _ _ => 0
  | .pieceBid _ => 0
  | .pieceTimestamp => 0
  | .pieceCommit _ => 0
  | .pieceRouteAck _ => 0
  | .hostRead _ _ => 0
  | .peerPortWrite _ _ _ => 0
  | .hubCopyDescriptor _ => 0
  | .hubCopyComplete _ => 0
  | .hostLinkDown => 0
  | .attestationRequest _ => 0
  | .watchdogLimitSet _ => 0
  | .powerCapSet _ => 0
  | .firmwareReplacement _ _ => 0
  | .packageReset => 0
  | .dieJoin _ _ => 0
  | .start _ _ => 0
  | .preempt _ _ => 0
  | .restore _ _ => 0
  | .halt _ _ => 0
  | .continueCtx _ => 0
  | .contextKill _ => 0
  | .saveComplete _ => 0
  | .migrationAbort _ => 0
  | .stopTimeout _ => 0
  | .flitReplay _ => 0
  | .linkRetrain _ => 0
  | .linkLost _ => 0
  | .agentDead _ _ => 0
  | .patrolScrub => 0
  | .directoryRecovery _ => 0
  | .probeTimeout _ => 0
  | .linkRestore _ => 0
  | .hostLinkUp => 0
  | .ideRekey _ => 0
  | .overlayBankHoldExpiry _ => 0
  | .supervisorOperationComplete _ => 0
  | .pageRehome _ _ => 0
  | .atsInvalidation _ => 0

/-- The number of prefix parcels of a group (R165). -/
def Pfx.len (g : Pfx) : Nat :=
  (if g.pred.isSome then 1 else 0) + (if g.ksel.isSome then 1 else 0) + g.imm.length + (if g.sw.isSome then 1 else 0)

/-- The length of a group in parcel offsets (R165). -/
def Instr.len (i : Instr) : Nat := i.pfx.len + i.parcelLen

/-- Whether the constructor is an encoded row of the table. -/
def Instr.encoded (i : Instr) : Bool := decide (i.parcelLen ≠ 0)

/-- A well-formed instruction. -/
def Instr.wf (i : Instr) : Bool := i.pfx.wf && i.fieldsOk

end Sys2Proof
end

