-- ==== Sys2Proof/Decode.lean ====
section
/-! DEFINITION. The decoder from halfwords to instructions or a class-1 code (R165-R182, R338), total on any
halfwords, and the encoder, both written from the encoding maps. What depends on the instruction's use of its
prefixes (codes 5 and 6) and on the place of the group (code 8) is checked where the group runs. -/

namespace Sys2Proof

/-- The len bits of w from bit lo up. -/
def fld (w lo len : Nat) : BitVec len := BitVec.ofNat len (w / 2 ^ lo)

/-- The outcome of reading one instruction parcel: an instruction, or the class-1 code of the parcel (R181). -/
inductive Parcel where
  | ok (i : Instr)
  | bad (code : Nat)
  deriving DecidableEq, Repr

/-- The outcome of reading a group: the instruction and the group's length in parcel offsets, or a decode trap with its
code, the failing parcel's offset in the group and the failing parcel (R335, R338). -/
inductive Decoded where
  | ok (i : Instr) (len : Nat)
  | trap (code off parcel : Nat)
  deriving DecidableEq, Repr

/-- A parcel of class VA (R171), of opcode op. -/
def parcelVA (g : Pfx) (w op : Nat) : Parcel :=
  if op = 0 then if w / 2 ^ 24 % 128 = 124 then .ok (.mov g (fld w 31 1) (fld w 17 7) (fld w 10 7)) else .bad 2
  else if op = 1 then .ok (.iadd g (fld w 31 1) (fld w 24 7) (fld w 17 7) (fld w 10 7))
  else if op = 2 then .ok (.isub g (fld w 31 1) (fld w 24 7) (fld w 17 7) (fld w 10 7))
  else if op = 3 then .ok (.imul g (fld w 31 1) (fld w 24 7) (fld w 17 7) (fld w 10 7))
  else if op < 6 then .ok (.imulh g (fld w 31 1) (fld w 24 7) (fld w 17 7) (fld w 10 7) (fld w 4 1))
  else if op < 8 then .ok (.imin g (fld w 31 1) (fld w 24 7) (fld w 17 7) (fld w 10 7) (fld w 4 1))
  else if op < 10 then .ok (.imax g (fld w 31 1) (fld w 24 7) (fld w 17 7) (fld w 10 7) (fld w 4 1))
  else if op = 10 then .ok (.andV g (fld w 31 1) (fld w 24 7) (fld w 17 7) (fld w 10 7))
  else if op = 11 then .ok (.orV g (fld w 31 1) (fld w 24 7) (fld w 17 7) (fld w 10 7))
  else if op = 12 then .ok (.xorV g (fld w 31 1) (fld w 24 7) (fld w 17 7) (fld w 10 7))
  else if op = 13 then .ok (.shl g (fld w 31 1) (fld w 24 7) (fld w 17 7) (fld w 10 7))
  else if op = 14 then .ok (.shr g (fld w 31 1) (fld w 24 7) (fld w 17 7) (fld w 10 7))
  else if op = 15 then .ok (.sar g (fld w 31 1) (fld w 24 7) (fld w 17 7) (fld w 10 7))
  else if op = 16 then .ok (.imad g (fld w 31 1) (fld w 24 7) (fld w 17 7) (fld w 10 7))
  else if op = 17 then .ok (.idivS32 g (fld w 31 1) (fld w 24 7) (fld w 17 7) (fld w 10 7))
  else if op = 18 then .ok (.idivN32 g (fld w 31 1) (fld w 24 7) (fld w 17 7) (fld w 10 7))
  else if op = 19 then .ok (.iremS32 g (fld w 31 1) (fld w 24 7) (fld w 17 7) (fld w 10 7))
  else if op = 20 then .ok (.iremN32 g (fld w 31 1) (fld w 24 7) (fld w 17 7) (fld w 10 7))
  else if op = 21 then .ok (.iaddS64 g (fld w 31 1) (fld w 24 7) (fld w 17 7) (fld w 10 7))
  else if op = 22 then .ok (.isubS64 g (fld w 31 1) (fld w 24 7) (fld w 17 7) (fld w 10 7))
  else if op = 23 then .ok (.imulS64 g (fld w 31 1) (fld w 24 7) (fld w 17 7) (fld w 10 7))
  else if op = 24 then .ok (.shlS64 g (fld w 31 1) (fld w 24 7) (fld w 17 7) (fld w 10 7))
  else if op = 25 then .ok (.shrS64 g (fld w 31 1) (fld w 24 7) (fld w 17 7) (fld w 10 7))
  else if op = 26 then .ok (.sarS64 g (fld w 31 1) (fld w 24 7) (fld w 17 7) (fld w 10 7))
  else if op < 32 then .bad 1
  else if op < 36 then .ok (.fadd g (fld w 31 1) (fld w 24 7) (fld w 17 7) (fld w 10 7) (fld w 4 2))
  else if op < 40 then .ok (.fsub g (fld w 31 1) (fld w 24 7) (fld w 17 7) (fld w 10 7) (fld w 4 2))
  else if op < 44 then .ok (.fmul g (fld w 31 1) (fld w 24 7) (fld w 17 7) (fld w 10 7) (fld w 4 2))
  else if op < 48 then .ok (.ffma g (fld w 31 1) (fld w 24 7) (fld w 17 7) (fld w 10 7) (fld w 4 2))
  else if op < 52 then .ok (.fdiv g (fld w 31 1) (fld w 24 7) (fld w 17 7) (fld w 10 7) (fld w 4 2))
  else if op = 52 then .ok (.fmin g (fld w 31 1) (fld w 24 7) (fld w 17 7) (fld w 10 7))
  else if op = 53 then .ok (.fmax g (fld w 31 1) (fld w 24 7) (fld w 17 7) (fld w 10 7))
  else if op = 54 then .ok (.faddBf16x2 g (fld w 31 1) (fld w 24 7) (fld w 17 7) (fld w 10 7))
  else if op = 55 then .ok (.fsubBf16x2 g (fld w 31 1) (fld w 24 7) (fld w 17 7) (fld w 10 7))
  else if op = 56 then .ok (.fmulBf16x2 g (fld w 31 1) (fld w 24 7) (fld w 17 7) (fld w 10 7))
  else if op = 57 then .ok (.ffmaBf16x2 g (fld w 31 1) (fld w 24 7) (fld w 17 7) (fld w 10 7))
  else if op = 58 then .ok (.fminBf16x2 g (fld w 31 1) (fld w 24 7) (fld w 17 7) (fld w 10 7))
  else if op = 59 then .ok (.fmaxBf16x2 g (fld w 31 1) (fld w 24 7) (fld w 17 7) (fld w 10 7))
  else if op = 60 then .ok (.shfl g (fld w 31 1) (fld w 24 7) (fld w 17 7) (fld w 10 7))
  else if op = 61 then .ok (.shflUp g (fld w 31 1) (fld w 24 7) (fld w 17 7) (fld w 10 7))
  else if op = 62 then .ok (.shflDn g (fld w 31 1) (fld w 24 7) (fld w 17 7) (fld w 10 7))
  else if op = 63 then .ok (.shflXor g (fld w 31 1) (fld w 24 7) (fld w 17 7) (fld w 10 7))
  else .bad 1

/-- A parcel of class VI (R172), of opcode op. -/
def parcelVI (g : Pfx) (w op : Nat) : Parcel :=
  if op = 0 then if w / 2 ^ 17 % 128 = 124 then .ok (.movImmediate g (fld w 24 8) (fld w 10 7)) else .bad 2
  else if op = 1 then .ok (.iaddImmediate g (fld w 24 8) (fld w 17 7) (fld w 10 7))
  else if op = 2 then .ok (.isubImmediate g (fld w 24 8) (fld w 17 7) (fld w 10 7))
  else if op = 3 then .ok (.imulImmediate g (fld w 24 8) (fld w 17 7) (fld w 10 7))
  else if op < 6 then .ok (.iminImmediate g (fld w 24 8) (fld w 17 7) (fld w 10 7) (fld w 4 1))
  else if op < 8 then .ok (.imaxImmediate g (fld w 24 8) (fld w 17 7) (fld w 10 7) (fld w 4 1))
  else if op = 8 then .ok (.andImmediate g (fld w 24 8) (fld w 17 7) (fld w 10 7))
  else if op = 9 then .ok (.orImmediate g (fld w 24 8) (fld w 17 7) (fld w 10 7))
  else if op = 10 then .ok (.xorImmediate g (fld w 24 8) (fld w 17 7) (fld w 10 7))
  else if op = 11 then .ok (.shlImmediate g (fld w 24 8) (fld w 17 7) (fld w 10 7))
  else if op = 12 then .ok (.shrImmediate g (fld w 24 8) (fld w 17 7) (fld w 10 7))
  else if op = 13 then .ok (.sarImmediate g (fld w 24 8) (fld w 17 7) (fld w 10 7))
  else if op = 14 then .ok (.iaddS64Immediate g (fld w 24 8) (fld w 17 7) (fld w 10 7))
  else if op = 15 then .ok (.faddImmediate g (fld w 24 8) (fld w 17 7) (fld w 10 7))
  else if op = 16 then .ok (.fmulImmediate g (fld w 24 8) (fld w 17 7) (fld w 10 7))
  else if op = 17 then .ok (.fminImmediate g (fld w 24 8) (fld w 17 7) (fld w 10 7))
  else if op = 18 then .ok (.fmaxImmediate g (fld w 24 8) (fld w 17 7) (fld w 10 7))
  else if op = 19 then .ok (.rng g (fld w 24 8) (fld w 17 7) (fld w 10 7))
  else .bad 1

/-- A parcel of class VM (R175); an atomic with D = 124 is a RED (R176), of opcode op. -/
def parcelVM (g : Pfx) (w op : Nat) : Parcel :=
  if op < 24 then .ok (.ld g (fld w 24 8) (fld w 17 7) (fld w 10 7) (fld w 6 3) (fld w 4 2))
  else if op < 28 then .ok (.st8 g (fld w 24 8) (fld w 17 7) (fld w 10 7) (fld w 4 2))
  else if op < 32 then .ok (.st16 g (fld w 24 8) (fld w 17 7) (fld w 10 7) (fld w 4 2))
  else if op < 36 then .ok (.st32 g (fld w 24 8) (fld w 17 7) (fld w 10 7) (fld w 4 2))
  else if op < 40 then .ok (.st64 g (fld w 24 8) (fld w 17 7) (fld w 10 7) (fld w 4 2))
  else if op < 46 then if w / 2 ^ 24 % 16 = 0 then .ok (.ldAcq g (fld w 30 2) (fld w 28 2) (fld w 17 7) (fld w 10 7) (fld w 4 3)) else .bad 1
  else if op = 46 then if w / 2 ^ 24 % 16 = 0 then .ok (.stRel8 g (fld w 30 2) (fld w 28 2) (fld w 17 7) (fld w 10 7)) else .bad 1
  else if op = 47 then if w / 2 ^ 24 % 16 = 0 then .ok (.stRel16 g (fld w 30 2) (fld w 28 2) (fld w 17 7) (fld w 10 7)) else .bad 1
  else if op = 48 then if w / 2 ^ 24 % 16 = 0 then .ok (.stRel32 g (fld w 30 2) (fld w 28 2) (fld w 17 7) (fld w 10 7)) else .bad 1
  else if op = 49 then if w / 2 ^ 24 % 16 = 0 then .ok (.stRel64 g (fld w 30 2) (fld w 28 2) (fld w 17 7) (fld w 10 7)) else .bad 1
  else if op = 50 then if w / 2 ^ 10 % 128 = 124 then .ok (.pf g (fld w 24 8) (fld w 17 7)) else .bad 2
  else if op = 51 then if w / 2 ^ 10 % 128 = 124 then .ok (.pfL2 g (fld w 24 8) (fld w 17 7)) else .bad 2
  else if op = 52 then if w / 2 ^ 10 % 128 = 124 then .ok (.red g (fld w 31 1) (fld w 24 7) (fld w 17 7) (fld w 4 4)) else .ok (.atomAdd g (fld w 31 1) (fld w 24 7) (fld w 17 7) (fld w 10 7))
  else if op = 53 then if w / 2 ^ 10 % 128 = 124 then .ok (.red g (fld w 31 1) (fld w 24 7) (fld w 17 7) (fld w 4 4)) else .ok (.atomMinS g (fld w 31 1) (fld w 24 7) (fld w 17 7) (fld w 10 7))
  else if op = 54 then if w / 2 ^ 10 % 128 = 124 then .ok (.red g (fld w 31 1) (fld w 24 7) (fld w 17 7) (fld w 4 4)) else .ok (.atomMinN g (fld w 31 1) (fld w 24 7) (fld w 17 7) (fld w 10 7))
  else if op = 55 then if w / 2 ^ 10 % 128 = 124 then .ok (.red g (fld w 31 1) (fld w 24 7) (fld w 17 7) (fld w 4 4)) else .ok (.atomMaxS g (fld w 31 1) (fld w 24 7) (fld w 17 7) (fld w 10 7))
  else if op = 56 then if w / 2 ^ 10 % 128 = 124 then .ok (.red g (fld w 31 1) (fld w 24 7) (fld w 17 7) (fld w 4 4)) else .ok (.atomMaxN g (fld w 31 1) (fld w 24 7) (fld w 17 7) (fld w 10 7))
  else if op = 57 then if w / 2 ^ 10 % 128 = 124 then .ok (.red g (fld w 31 1) (fld w 24 7) (fld w 17 7) (fld w 4 4)) else .ok (.atomAnd g (fld w 31 1) (fld w 24 7) (fld w 17 7) (fld w 10 7))
  else if op = 58 then if w / 2 ^ 10 % 128 = 124 then .ok (.red g (fld w 31 1) (fld w 24 7) (fld w 17 7) (fld w 4 4)) else .ok (.atomOr g (fld w 31 1) (fld w 24 7) (fld w 17 7) (fld w 10 7))
  else if op = 59 then if w / 2 ^ 10 % 128 = 124 then .ok (.red g (fld w 31 1) (fld w 24 7) (fld w 17 7) (fld w 4 4)) else .ok (.atomXor g (fld w 31 1) (fld w 24 7) (fld w 17 7) (fld w 10 7))
  else if op = 60 then if w / 2 ^ 10 % 128 = 124 then .ok (.red g (fld w 31 1) (fld w 24 7) (fld w 17 7) (fld w 4 4)) else .ok (.atomXchg g (fld w 31 1) (fld w 24 7) (fld w 17 7) (fld w 10 7))
  else if op = 61 then if w / 2 ^ 10 % 128 = 124 then .ok (.red g (fld w 31 1) (fld w 24 7) (fld w 17 7) (fld w 4 4)) else .ok (.atomCas g (fld w 31 1) (fld w 24 7) (fld w 17 7) (fld w 10 7))
  else if op = 62 then if w / 2 ^ 10 % 128 = 124 then .ok (.red g (fld w 31 1) (fld w 24 7) (fld w 17 7) (fld w 4 4)) else .ok (.atomFmin g (fld w 31 1) (fld w 24 7) (fld w 17 7) (fld w 10 7))
  else if op = 63 then if w / 2 ^ 10 % 128 = 124 then .ok (.red g (fld w 31 1) (fld w 24 7) (fld w 17 7) (fld w 4 4)) else .ok (.atomFmax g (fld w 31 1) (fld w 24 7) (fld w 17 7) (fld w 10 7))
  else .bad 1

/-- A parcel of class VX (R173, R174), of opcode op. -/
def parcelVX (g : Pfx) (w op : Nat) : Parcel :=
  if op < 4 then .ok (.icmp g (fld w 28 4) (fld w 21 7) (fld w 14 7) (fld w 10 4) (fld w 4 2))
  else if op = 4 then .ok (.fcmp g (fld w 28 4) (fld w 21 7) (fld w 14 7) (fld w 10 4))
  else if op = 5 then if w / 2 ^ 18 % 8 = 0 ∧ w / 2 ^ 25 % 8 = 0 then .ok (.plop g (fld w 28 4) (fld w 21 4) (fld w 14 4) (fld w 10 4)) else .bad 2
  else if op < 32 then .bad 1
  else if op < 44 then if w / 2 ^ 30 % 4 = 0 then .ok (.cvt g (fld w 28 2) (fld w 24 4) (fld w 17 7) (fld w 10 7) (fld w 4 4)) else .bad 2
  else if op = 44 then if w / 2 ^ 26 % 64 = 0 then .ok (.ndec g (fld w 24 2) (fld w 17 7) (fld w 10 7)) else .bad 2
  else if op = 45 then if w / 2 ^ 24 % 256 = 0 then .ok (.nenc g (fld w 17 7) (fld w 10 7)) else .bad 2
  else if op = 46 then if w / 2 ^ 24 % 16 = 0 ∧ w / 2 ^ 30 % 4 = 0 then .ok (.fsqrt g (fld w 28 2) (fld w 17 7) (fld w 10 7)) else .bad 2
  else if op = 47 then if w / 2 ^ 24 % 256 = 0 then .ok (.rcp g (fld w 17 7) (fld w 10 7)) else .bad 2
  else if op = 48 then if w / 2 ^ 24 % 256 = 0 then .ok (.rsq g (fld w 17 7) (fld w 10 7)) else .bad 2
  else if op = 49 then if w / 2 ^ 24 % 256 = 0 then .ok (.exp2 g (fld w 17 7) (fld w 10 7)) else .bad 2
  else if op = 50 then if w / 2 ^ 24 % 256 = 0 then .ok (.log2 g (fld w 17 7) (fld w 10 7)) else .bad 2
  else if op = 51 then if w / 2 ^ 24 % 256 = 0 then .ok (.sin g (fld w 17 7) (fld w 10 7)) else .bad 2
  else if op = 52 then if w / 2 ^ 24 % 256 = 0 then .ok (.cos g (fld w 17 7) (fld w 10 7)) else .bad 2
  else if op = 53 then if w / 2 ^ 24 % 256 = 0 then .ok (.popc g (fld w 17 7) (fld w 10 7)) else .bad 2
  else if op = 54 then if w / 2 ^ 24 % 256 = 0 then .ok (.clz g (fld w 17 7) (fld w 10 7)) else .bad 2
  else if op = 55 then if w / 2 ^ 24 % 256 = 0 then .ok (.brev g (fld w 17 7) (fld w 10 7)) else .bad 2
  else if op = 56 then if w / 2 ^ 17 % 128 = 124 then .ok (.vote g (fld w 28 4) (fld w 24 4) (fld w 10 7)) else .bad 2
  else if op = 57 then if w / 2 ^ 26 % 4 = 0 then .ok (.redux g (fld w 28 4) (fld w 24 2) (fld w 17 7) (fld w 10 7)) else .bad 2
  else if op = 58 then if w / 2 ^ 17 % 128 = 124 ∧ w / 2 ^ 28 % 16 = 0 then .ok (.p2v g (fld w 24 4) (fld w 10 7)) else .bad 2
  else if op = 59 then if w / 2 ^ 24 % 256 = 0 then .ok (.fabs g (fld w 17 7) (fld w 10 7)) else .bad 2
  else if op = 60 then if w / 2 ^ 24 % 256 = 0 then .ok (.fneg g (fld w 17 7) (fld w 10 7)) else .bad 2
  else .bad 1

/-- A parcel of class KU (R177), of opcode op. -/
def parcelKU (g : Pfx) (w op : Nat) : Parcel :=
  if op < 14 then if w / 2 ^ 26 % 64 = 0 then .ok (.kuRegisterOp g (fld w 18 8) (fld w 10 8) (fld w 4 4)) else .bad 2
  else if op < 16 then .bad 1
  else if op < 30 then .ok (.kuImmediateOp g (fld w 26 6) (fld w 18 8) (fld w 10 8) (fld w 4 4))
  else if op < 32 then .bad 1
  else if op = 32 then if w / 2 ^ 25 % 2 = 0 ∧ w / 2 ^ 31 % 2 = 0 then .ok (.krdl g (fld w 26 5) (fld w 18 7) (fld w 10 8)) else .bad 2
  else if op = 33 then .ok (.kld g (fld w 26 6) (fld w 18 8) (fld w 10 8))
  else if op = 34 then .ok (.kst g (fld w 26 6) (fld w 18 8) (fld w 10 8))
  else .bad 1

/-- A parcel of class BR (R178), of opcode op.

DEDUCED (log entry 10, unsafe): branch opcodes of predicates 12-15 trap with code 1. -/
def parcelBR (g : Pfx) (w op : Nat) : Parcel :=
  if op = 0 then .ok (.bra g (fld w 10 22))
  else if op = 1 then .ok (.call g (fld w 17 15) (fld w 10 7))
  else if op = 2 then .ok (.fcall g (fld w 17 15) (fld w 10 7))
  else if op = 3 then if w / 2 ^ 17 % 32768 = 0 then .ok (.jmpi g (fld w 10 7)) else .bad 1
  else if op = 4 then if w / 2 ^ 24 % 256 = 0 then .ok (.calli g (fld w 17 7) (fld w 10 7)) else .bad 1
  else if op = 5 then if w / 2 ^ 17 % 32768 = 0 then .ok (.ret g (fld w 10 7)) else .bad 1
  else if op < 16 then .bad 1
  else if op < 28 then .ok (.brt g (fld w 10 22) (fld w 4 4))
  else if op < 32 then .bad 1
  else if op < 44 then .ok (.brf g (fld w 10 22) (fld w 4 4))
  else .bad 1

/-- A parcel of class MX (R179), of opcode op. -/
def parcelMX (g : Pfx) (w op : Nat) : Parcel :=
  if op < 4 then .ok (.mmaBf16 g (fld w 31 1) (fld w 24 7) (fld w 17 7) (fld w 10 7) (fld w 4 2))
  else if op < 20 then .ok (.mmaInteger g (fld w 31 1) (fld w 24 7) (fld w 17 7) (fld w 10 7) (fld w 6 4) (fld w 4 2))
  else if op < 24 then .ok (.mmag g (fld w 31 1) (fld w 24 7) (fld w 17 7) (fld w 10 7) (fld w 4 2))
  else if op < 28 then .ok (.mmab g (fld w 31 1) (fld w 24 7) (fld w 17 7) (fld w 10 7) (fld w 4 2))
  else if op < 32 then .ok (.mmaAb g (fld w 31 1) (fld w 24 7) (fld w 17 7) (fld w 10 7) (fld w 4 2))
  else if op = 32 then if w / 2 ^ 24 % 256 = 124 then .ok (.amov g (fld w 17 7) (fld w 10 7)) else .bad 2
  else if op = 33 then if w / 2 ^ 17 % 32768 = 15996 then .ok (.azero g (fld w 10 7)) else .bad 2
  else if op = 34 then if w / 2 ^ 31 % 2 = 0 then .ok (.ard g (fld w 24 7) (fld w 17 7) (fld w 10 7)) else .bad 2
  else if op = 35 then if w / 2 ^ 31 % 2 = 0 then .ok (.awr g (fld w 24 7) (fld w 17 7) (fld w 10 7)) else .bad 2
  else if op = 36 then if w / 2 ^ 31 % 2 = 0 then .ok (.ardFx64 g (fld w 24 7) (fld w 17 7) (fld w 10 7)) else .bad 2
  else if op = 37 then if w / 2 ^ 31 % 2 = 0 then .ok (.awrFx64 g (fld w 24 7) (fld w 17 7) (fld w 10 7)) else .bad 2
  else if op < 40 then .bad 1
  else if op = 40 then .ok (.cpy g (fld w 24 8) (fld w 17 7) (fld w 10 7))
  else if op = 41 then .ok (.cpyl g (fld w 24 8) (fld w 17 7) (fld w 10 7))
  else if op = 42 then if w / 2 ^ 18 % 64 = 0 then .ok (.ovload g (fld w 24 8) (fld w 10 8)) else .bad 1
  else .bad 1

/-- A parcel of class SY (R180), of opcode op.

DEDUCED (log entry 11, unsafe): which of codes 1 and 2 a bad bit gives is read from R181's own distinction. -/
def parcelSY (g : Pfx) (w op : Nat) : Parcel :=
  if op = 0 then (if w / 2 ^ 10 % 4194304 = 0 then .ok (.nop g) else .bad 1)
  else if op = 1 then (if w / 2 ^ 10 % 4194304 = 0 then .ok (.exit g) else .bad 1)
  else if op = 2 then (if w / 2 ^ 10 % 4194304 = 0 then .ok (.join g) else .bad 1)
  else if op = 3 then (if w / 2 ^ 10 % 4194304 = 0 then .ok (.fbar g) else .bad 1)
  else if op = 4 then if w / 2 ^ 14 % 262144 = 0 then .ok (.bar g (fld w 10 4)) else .bad 1
  else if op = 5 then (if w / 2 ^ 10 % 4194304 = 0 then .ok (.gbar g) else .bad 1)
  else if op = 6 then if w / 2 ^ 25 % 128 = 0 then .ok (.waitc g (fld w 17 8) (fld w 10 7)) else .bad 1
  else if op = 7 then .ok (.yieldc g (fld w 18 14) (fld w 10 8))
  else if op = 8 then (if w / 2 ^ 10 % 4194304 = 0 then .ok (.reggrow g) else .bad 1)
  else if op = 9 then (if w / 2 ^ 10 % 4194304 = 0 then .ok (.regshrink g) else .bad 1)
  else if op = 10 then if w / 2 ^ 25 % 128 = 0 then .ok (.launch g (fld w 17 8) (fld w 10 7)) else .bad 1
  else if op = 11 then if w / 2 ^ 26 % 64 = 0 then .ok (.trap g (fld w 10 16)) else .bad 1
  else if op = 12 then if w / 2 ^ 26 % 64 = 0 then .ok (.bkpt g (fld w 10 16)) else .bad 1
  else if op = 13 then if w / 2 ^ 25 % 128 = 0 then .ok (.srd g (fld w 17 8) (fld w 10 7)) else .bad 1
  else if op = 14 then if w / 2 ^ 25 % 128 = 0 then .ok (.swr g (fld w 17 8) (fld w 10 7)) else .bad 1
  else if op = 15 then if w / 2 ^ 12 % 1048576 = 0 then .ok (.fence g (fld w 10 2)) else .bad 1
  else if op = 16 then if w / 2 ^ 25 % 128 = 0 then .ok (.mcas g (fld w 17 8) (fld w 10 7)) else .bad 1
  else if op = 17 then if w / 2 ^ 24 % 256 = 0 then .ok (.redFaddc g (fld w 17 7) (fld w 10 7)) else .bad 1
  else if op < 24 then .bad 1
  else if op = 24 then if w / 2 ^ 25 % 128 = 0 then .ok (.xinv g (fld w 17 8) (fld w 10 7)) else .bad 1
  else if op = 25 then if w / 2 ^ 14 % 8 = 0 ∧ w / 2 ^ 24 % 256 = 0 then .ok (.fwwr g (fld w 17 7) (fld w 10 4)) else .bad 1
  else if op = 26 then if w / 2 ^ 14 % 8 = 0 ∧ w / 2 ^ 24 % 256 = 0 then .ok (.fwrd g (fld w 17 7) (fld w 10 4)) else .bad 1
  else if op = 27 then if w / 2 ^ 25 % 128 = 0 then .ok (.lwbi g (fld w 17 8) (fld w 10 7)) else .bad 1
  else if op = 28 then if w / 2 ^ 17 % 32768 = 0 then .ok (.resume g (fld w 10 7)) else .bad 1
  else if op = 29 then if w / 2 ^ 17 % 32768 = 0 then .ok (.redirect g (fld w 10 7)) else .bad 1
  else if op = 30 then if w / 2 ^ 17 % 32768 = 0 then .ok (.kill g (fld w 10 7)) else .bad 1
  else .bad 1

/-- A 32-bit parcel: the class in [3:1] and the opcode in [9:4] (R168); a field outside the maps is code 2 (R181). -/
def parcel32 (g : Pfx) (w : Nat) : Parcel :=
  let op := w / 2 ^ 4 % 64
  let c := w / 2 % 8
  let r :=
    if c = 0 then parcelVA g w op
    else if c = 1 then parcelVI g w op
    else if c = 2 then parcelVM g w op
    else if c = 3 then parcelVX g w op
    else if c = 4 then parcelKU g w op
    else if c = 5 then parcelBR g w op
    else if c = 6 then parcelMX g w op
    else parcelSY g w op
  match r with
  | .ok i => if i.fieldsOk then .ok i else .bad 2
  | .bad k => .bad k

/-- A compact parcel (R167): every pattern with [1:0] = 0 is one of sixteen operations. -/
def parcel16 (g : Pfx) (w : Nat) : Instr :=
  let op := w / 2 ^ 2 % 16
  let s := fld w 11 5
  let d := fld w 6 5
  if op = 0 then .movCompact g s d
  else if op = 1 then .iaddCompact g s d
  else if op = 2 then .isubCompact g s d
  else if op = 3 then .imulCompact g s d
  else if op = 4 then .iminCompact g s d
  else if op = 5 then .imaxCompact g s d
  else if op = 6 then .andCompact g s d
  else if op = 7 then .orCompact g s d
  else if op = 8 then .xorCompact g s d
  else if op = 9 then .shlCompact g s d
  else if op = 10 then .shrCompact g s d
  else if op = 11 then .faddCompact g s d
  else if op = 12 then .fsubCompact g s d
  else if op = 13 then .fmulCompact g s d
  else if op = 14 then .fminCompact g s d
  else .fmaxCompact g s d

/-- Of two failures of one group the one of the lower code is reported (R332); the earlier parcel on equal codes. -/
def worseOf (a : Option (Nat × Nat × Nat)) (b : Nat × Nat × Nat) : Nat × Nat × Nat :=
  match a with
  | none => b
  | some x => if x.1 ≤ b.1 then x else b

/-- What a prefix parcel of kind kind and payload pay does to the group so far (R166, R167, R170): the new prefixes, how
far the order PRED, KSEL, IMM, IMM, SW has come (1 to 5), and the parcel's own failure. -/
def addPrefix (g : Pfx) (stage kind pay : Nat) : Pfx × Nat × Option Nat :=
  if kind = 1 then
    if stage = 0 then
      (if pay % 16 < 12 then
        ({ g with pred := some (BitVec.ofNat 4 pay, decide (pay / 16 % 2 = 1)) }, 1, if pay / 32 = 0 then none else some 4)
      else (g, 1, some 2))
    else (g, stage, some 3)
  else if kind = 2 then
    if stage ≤ 1 then ({ g with ksel := some (BitVec.ofNat 8 pay) }, 2, if pay / 256 = 0 then none else some 4)
    else (g, stage, some 3)
  else if kind = 0 then
    if stage ≤ 2 then ({ g with imm := [BitVec.ofNat 12 pay] }, 3, none)
    else if stage = 3 then ({ g with imm := g.imm ++ [BitVec.ofNat 12 pay] }, 4, none)
    else (g, stage, some 3)
  else
    if stage ≤ 4 then ({ g with sw := some (decide (pay % 2 = 1)) }, 5, if pay / 2 = 0 then none else some 4)
    else (g, stage, some 3)

/-- The end of a group: its instruction, unless one of its parcels failed. -/
def finishGroup (i : Instr) (len : Nat) : Option (Nat × Nat × Nat) → Decoded
  | none => .ok i len
  | some (c, o, p) => .trap c o p

/-- Reads the parcels of a group from the halfwords that lie before the overlay's loaded length and before offset
32,768; a group that runs past them is code 7 (R182).

DESIGN CHOICE (log entry 79, unsafe): PARCEL of a group that runs past its overlay. -/
def decodeFrom : List (BitVec 16) → Pfx → Nat → Nat → Option (Nat × Nat × Nat) → Decoded
  | [], _, _, off, e => let x := worseOf e (7, off, 0); .trap x.1 x.2.1 x.2.2
  | h :: t, g, stage, off, e =>
    if h.toNat % 4 = 2 then
      let r := addPrefix g stage (h.toNat / 4 % 4) (h.toNat / 16)
      decodeFrom t r.1 r.2.1 (off + 1) (match r.2.2 with | none => e | some c => some (worseOf e (c, off, h.toNat)))
    else if h.toNat % 2 = 0 then finishGroup (parcel16 g h.toNat) (off + 1) e
    else
      match t with
      | [] => let x := worseOf e (7, off, h.toNat); .trap x.1 x.2.1 x.2.2
      | h2 :: _ =>
        let w := h.toNat + 65536 * h2.toNat
        match parcel32 g w with
        | .ok i => finishGroup i (off + 2) e
        | .bad c => let x := worseOf e (c, off, w); .trap x.1 x.2.1 x.2.2

/-- The group at the head of the halfwords. -/
def decode (hs : List (BitVec 16)) : Decoded := decodeFrom hs {} 0 0 none

/-- The instruction parcel of an instruction as a number, from the encoding maps (R167, R171-R180). -/
def Instr.word : Instr → Nat
  | .mov _ n a d => 0x7c000001 + n.toNat * 2147483648 + a.toNat * 131072 + d.toNat * 1024
  | .iadd _ n b a d => 0x11 + n.toNat * 2147483648 + b.toNat * 16777216 + a.toNat * 131072 + d.toNat * 1024
  | .isub _ n b a d => 0x21 + n.toNat * 2147483648 + b.toNat * 16777216 + a.toNat * 131072 + d.toNat * 1024
  | .imul _ n b a d => 0x31 + n.toNat * 2147483648 + b.toNat * 16777216 + a.toNat * 131072 + d.toNat * 1024
  | .imulh _ n b a d t => 0x41 + n.toNat * 2147483648 + b.toNat * 16777216 + a.toNat * 131072 + d.toNat * 1024 + t.toNat * 16
  | .imin _ n b a d t => 0x61 + n.toNat * 2147483648 + b.toNat * 16777216 + a.toNat * 131072 + d.toNat * 1024 + t.toNat * 16
  | .imax _ n b a d t => 0x81 + n.toNat * 2147483648 + b.toNat * 16777216 + a.toNat * 131072 + d.toNat * 1024 + t.toNat * 16
  | .andV _ n b a d => 0xa1 + n.toNat * 2147483648 + b.toNat * 16777216 + a.toNat * 131072 + d.toNat * 1024
  | .orV _ n b a d => 0xb1 + n.toNat * 2147483648 + b.toNat * 16777216 + a.toNat * 131072 + d.toNat * 1024
  | .xorV _ n b a d => 0xc1 + n.toNat * 2147483648 + b.toNat * 16777216 + a.toNat * 131072 + d.toNat * 1024
  | .shl _ n b a d => 0xd1 + n.toNat * 2147483648 + b.toNat * 16777216 + a.toNat * 131072 + d.toNat * 1024
  | .shr _ n b a d => 0xe1 + n.toNat * 2147483648 + b.toNat * 16777216 + a.toNat * 131072 + d.toNat * 1024
  | .sar _ n b a d => 0xf1 + n.toNat * 2147483648 + b.toNat * 16777216 + a.toNat * 131072 + d.toNat * 1024
  | .imad _ n b a d => 0x101 + n.toNat * 2147483648 + b.toNat * 16777216 + a.toNat * 131072 + d.toNat * 1024
  | .idivS32 _ n b a d => 0x111 + n.toNat * 2147483648 + b.toNat * 16777216 + a.toNat * 131072 + d.toNat * 1024
  | .idivN32 _ n b a d => 0x121 + n.toNat * 2147483648 + b.toNat * 16777216 + a.toNat * 131072 + d.toNat * 1024
  | .iremS32 _ n b a d => 0x131 + n.toNat * 2147483648 + b.toNat * 16777216 + a.toNat * 131072 + d.toNat * 1024
  | .iremN32 _ n b a d => 0x141 + n.toNat * 2147483648 + b.toNat * 16777216 + a.toNat * 131072 + d.toNat * 1024
  | .iaddS64 _ n b a d => 0x151 + n.toNat * 2147483648 + b.toNat * 16777216 + a.toNat * 131072 + d.toNat * 1024
  | .isubS64 _ n b a d => 0x161 + n.toNat * 2147483648 + b.toNat * 16777216 + a.toNat * 131072 + d.toNat * 1024
  | .imulS64 _ n b a d => 0x171 + n.toNat * 2147483648 + b.toNat * 16777216 + a.toNat * 131072 + d.toNat * 1024
  | .shlS64 _ n b a d => 0x181 + n.toNat * 2147483648 + b.toNat * 16777216 + a.toNat * 131072 + d.toNat * 1024
  | .shrS64 _ n b a d => 0x191 + n.toNat * 2147483648 + b.toNat * 16777216 + a.toNat * 131072 + d.toNat * 1024
  | .sarS64 _ n b a d => 0x1a1 + n.toNat * 2147483648 + b.toNat * 16777216 + a.toNat * 131072 + d.toNat * 1024
  | .fadd _ n b a d m => 0x201 + n.toNat * 2147483648 + b.toNat * 16777216 + a.toNat * 131072 + d.toNat * 1024 + m.toNat * 16
  | .fsub _ n b a d m => 0x241 + n.toNat * 2147483648 + b.toNat * 16777216 + a.toNat * 131072 + d.toNat * 1024 + m.toNat * 16
  | .fmul _ n b a d m => 0x281 + n.toNat * 2147483648 + b.toNat * 16777216 + a.toNat * 131072 + d.toNat * 1024 + m.toNat * 16
  | .ffma _ n b a d m => 0x2c1 + n.toNat * 2147483648 + b.toNat * 16777216 + a.toNat * 131072 + d.toNat * 1024 + m.toNat * 16
  | .fdiv _ n b a d m => 0x301 + n.toNat * 2147483648 + b.toNat * 16777216 + a.toNat * 131072 + d.toNat * 1024 + m.toNat * 16
  | .fmin _ n b a d => 0x341 + n.toNat * 2147483648 + b.toNat * 16777216 + a.toNat * 131072 + d.toNat * 1024
  | .fmax _ n b a d => 0x351 + n.toNat * 2147483648 + b.toNat * 16777216 + a.toNat * 131072 + d.toNat * 1024
  | .faddBf16x2 _ n b a d => 0x361 + n.toNat * 2147483648 + b.toNat * 16777216 + a.toNat * 131072 + d.toNat * 1024
  | .fsubBf16x2 _ n b a d => 0x371 + n.toNat * 2147483648 + b.toNat * 16777216 + a.toNat * 131072 + d.toNat * 1024
  | .fmulBf16x2 _ n b a d => 0x381 + n.toNat * 2147483648 + b.toNat * 16777216 + a.toNat * 131072 + d.toNat * 1024
  | .ffmaBf16x2 _ n b a d => 0x391 + n.toNat * 2147483648 + b.toNat * 16777216 + a.toNat * 131072 + d.toNat * 1024
  | .fminBf16x2 _ n b a d => 0x3a1 + n.toNat * 2147483648 + b.toNat * 16777216 + a.toNat * 131072 + d.toNat * 1024
  | .fmaxBf16x2 _ n b a d => 0x3b1 + n.toNat * 2147483648 + b.toNat * 16777216 + a.toNat * 131072 + d.toNat * 1024
  | .shfl _ n b a d => 0x3c1 + n.toNat * 2147483648 + b.toNat * 16777216 + a.toNat * 131072 + d.toNat * 1024
  | .shflUp _ n b a d => 0x3d1 + n.toNat * 2147483648 + b.toNat * 16777216 + a.toNat * 131072 + d.toNat * 1024
  | .shflDn _ n b a d => 0x3e1 + n.toNat * 2147483648 + b.toNat * 16777216 + a.toNat * 131072 + d.toNat * 1024
  | .shflXor _ n b a d => 0x3f1 + n.toNat * 2147483648 + b.toNat * 16777216 + a.toNat * 131072 + d.toNat * 1024
  | .movImmediate _ i d => 0xf80003 + i.toNat * 16777216 + d.toNat * 1024
  | .iaddImmediate _ i a d => 0x13 + i.toNat * 16777216 + a.toNat * 131072 + d.toNat * 1024
  | .isubImmediate _ i a d => 0x23 + i.toNat * 16777216 + a.toNat * 131072 + d.toNat * 1024
  | .imulImmediate _ i a d => 0x33 + i.toNat * 16777216 + a.toNat * 131072 + d.toNat * 1024
  | .iminImmediate _ i a d t => 0x43 + i.toNat * 16777216 + a.toNat * 131072 + d.toNat * 1024 + t.toNat * 16
  | .imaxImmediate _ i a d t => 0x63 + i.toNat * 16777216 + a.toNat * 131072 + d.toNat * 1024 + t.toNat * 16
  | .andImmediate _ i a d => 0x83 + i.toNat * 16777216 + a.toNat * 131072 + d.toNat * 1024
  | .orImmediate _ i a d => 0x93 + i.toNat * 16777216 + a.toNat * 131072 + d.toNat * 1024
  | .xorImmediate _ i a d => 0xa3 + i.toNat * 16777216 + a.toNat * 131072 + d.toNat * 1024
  | .shlImmediate _ i a d => 0xb3 + i.toNat * 16777216 + a.toNat * 131072 + d.toNat * 1024
  | .shrImmediate _ i a d => 0xc3 + i.toNat * 16777216 + a.toNat * 131072 + d.toNat * 1024
  | .sarImmediate _ i a d => 0xd3 + i.toNat * 16777216 + a.toNat * 131072 + d.toNat * 1024
  | .iaddS64Immediate _ i a d => 0xe3 + i.toNat * 16777216 + a.toNat * 131072 + d.toNat * 1024
  | .faddImmediate _ i a d => 0xf3 + i.toNat * 16777216 + a.toNat * 131072 + d.toNat * 1024
  | .fmulImmediate _ i a d => 0x103 + i.toNat * 16777216 + a.toNat * 131072 + d.toNat * 1024
  | .fminImmediate _ i a d => 0x113 + i.toNat * 16777216 + a.toNat * 131072 + d.toNat * 1024
  | .fmaxImmediate _ i a d => 0x123 + i.toNat * 16777216 + a.toNat * 131072 + d.toNat * 1024
  | .rng _ i a d => 0x133 + i.toNat * 16777216 + a.toNat * 131072 + d.toNat * 1024
  | .movCompact _ s d => 0x0 + s.toNat * 2048 + d.toNat * 64
  | .iaddCompact _ s d => 0x4 + s.toNat * 2048 + d.toNat * 64
  | .isubCompact _ s d => 0x8 + s.toNat * 2048 + d.toNat * 64
  | .imulCompact _ s d => 0xc + s.toNat * 2048 + d.toNat * 64
  | .iminCompact _ s d => 0x10 + s.toNat * 2048 + d.toNat * 64
  | .imaxCompact _ s d => 0x14 + s.toNat * 2048 + d.toNat * 64
  | .andCompact _ s d => 0x18 + s.toNat * 2048 + d.toNat * 64
  | .orCompact _ s d => 0x1c + s.toNat * 2048 + d.toNat * 64
  | .xorCompact _ s d => 0x20 + s.toNat * 2048 + d.toNat * 64
  | .shlCompact _ s d => 0x24 + s.toNat * 2048 + d.toNat * 64
  | .shrCompact _ s d => 0x28 + s.toNat * 2048 + d.toNat * 64
  | .faddCompact _ s d => 0x2c + s.toNat * 2048 + d.toNat * 64
  | .fsubCompact _ s d => 0x30 + s.toNat * 2048 + d.toNat * 64
  | .fmulCompact _ s d => 0x34 + s.toNat * 2048 + d.toNat * 64
  | .fminCompact _ s d => 0x38 + s.toNat * 2048 + d.toNat * 64
  | .fmaxCompact _ s d => 0x3c + s.toNat * 2048 + d.toNat * 64
  | .icmp _ f b a p t => 0x7 + f.toNat * 268435456 + b.toNat * 2097152 + a.toNat * 16384 + p.toNat * 1024 + t.toNat * 16
  | .fcmp _ f b a p => 0x47 + f.toNat * 268435456 + b.toNat * 2097152 + a.toNat * 16384 + p.toNat * 1024
  | .plop _ f b a p => 0x57 + f.toNat * 268435456 + b.toNat * 2097152 + a.toNat * 16384 + p.toNat * 1024
  | .cvt _ m s a d t => 0x207 + m.toNat * 268435456 + s.toNat * 16777216 + a.toNat * 131072 + d.toNat * 1024 + t.toNat * 16
  | .ndec _ n a d => 0x2c7 + n.toNat * 16777216 + a.toNat * 131072 + d.toNat * 1024
  | .nenc _ a d => 0x2d7 + a.toNat * 131072 + d.toNat * 1024
  | .fsqrt _ m a d => 0x2e7 + m.toNat * 268435456 + a.toNat * 131072 + d.toNat * 1024
  | .rcp _ a d => 0x2f7 + a.toNat * 131072 + d.toNat * 1024
  | .rsq _ a d => 0x307 + a.toNat * 131072 + d.toNat * 1024
  | .exp2 _ a d => 0x317 + a.toNat * 131072 + d.toNat * 1024
  | .log2 _ a d => 0x327 + a.toNat * 131072 + d.toNat * 1024
  | .sin _ a d => 0x337 + a.toNat * 131072 + d.toNat * 1024
  | .cos _ a d => 0x347 + a.toNat * 131072 + d.toNat * 1024
  | .popc _ a d => 0x357 + a.toNat * 131072 + d.toNat * 1024
  | .clz _ a d => 0x367 + a.toNat * 131072 + d.toNat * 1024
  | .brev _ a d => 0x377 + a.toNat * 131072 + d.toNat * 1024
  | .vote _ f p d => 0xf80387 + f.toNat * 268435456 + p.toNat * 16777216 + d.toNat * 1024
  | .redux _ f m a d => 0x397 + f.toNat * 268435456 + m.toNat * 16777216 + a.toNat * 131072 + d.toNat * 1024
  | .p2v _ p d => 0xf803a7 + p.toNat * 16777216 + d.toNat * 1024
  | .fabs _ a d => 0x3b7 + a.toNat * 131072 + d.toNat * 1024
  | .fneg _ a d => 0x3c7 + a.toNat * 131072 + d.toNat * 1024
  | .ld _ o p d t q => 0x5 + o.toNat * 16777216 + p.toNat * 131072 + d.toNat * 1024 + t.toNat * 64 + q.toNat * 16
  | .st8 _ o p d q => 0x185 + o.toNat * 16777216 + p.toNat * 131072 + d.toNat * 1024 + q.toNat * 16
  | .st16 _ o p d q => 0x1c5 + o.toNat * 16777216 + p.toNat * 131072 + d.toNat * 1024 + q.toNat * 16
  | .st32 _ o p d q => 0x205 + o.toNat * 16777216 + p.toNat * 131072 + d.toNat * 1024 + q.toNat * 16
  | .st64 _ o p d q => 0x245 + o.toNat * 16777216 + p.toNat * 131072 + d.toNat * 1024 + q.toNat * 16
  | .ldAcq _ s q p d t => 0x285 + s.toNat * 1073741824 + q.toNat * 268435456 + p.toNat * 131072 + d.toNat * 1024 + t.toNat * 16
  | .stRel8 _ s q p d => 0x2e5 + s.toNat * 1073741824 + q.toNat * 268435456 + p.toNat * 131072 + d.toNat * 1024
  | .stRel16 _ s q p d => 0x2f5 + s.toNat * 1073741824 + q.toNat * 268435456 + p.toNat * 131072 + d.toNat * 1024
  | .stRel32 _ s q p d => 0x305 + s.toNat * 1073741824 + q.toNat * 268435456 + p.toNat * 131072 + d.toNat * 1024
  | .stRel64 _ s q p d => 0x315 + s.toNat * 1073741824 + q.toNat * 268435456 + p.toNat * 131072 + d.toNat * 1024
  | .pf _ o p => 0x1f325 + o.toNat * 16777216 + p.toNat * 131072
  | .pfL2 _ o p => 0x1f335 + o.toNat * 16777216 + p.toNat * 131072
  | .atomAdd _ w b p d => 0x345 + w.toNat * 2147483648 + b.toNat * 16777216 + p.toNat * 131072 + d.toNat * 1024
  | .atomMinS _ w b p d => 0x355 + w.toNat * 2147483648 + b.toNat * 16777216 + p.toNat * 131072 + d.toNat * 1024
  | .atomMinN _ w b p d => 0x365 + w.toNat * 2147483648 + b.toNat * 16777216 + p.toNat * 131072 + d.toNat * 1024
  | .atomMaxS _ w b p d => 0x375 + w.toNat * 2147483648 + b.toNat * 16777216 + p.toNat * 131072 + d.toNat * 1024
  | .atomMaxN _ w b p d => 0x385 + w.toNat * 2147483648 + b.toNat * 16777216 + p.toNat * 131072 + d.toNat * 1024
  | .atomAnd _ w b p d => 0x395 + w.toNat * 2147483648 + b.toNat * 16777216 + p.toNat * 131072 + d.toNat * 1024
  | .atomOr _ w b p d => 0x3a5 + w.toNat * 2147483648 + b.toNat * 16777216 + p.toNat * 131072 + d.toNat * 1024
  | .atomXor _ w b p d => 0x3b5 + w.toNat * 2147483648 + b.toNat * 16777216 + p.toNat * 131072 + d.toNat * 1024
  | .atomXchg _ w b p d => 0x3c5 + w.toNat * 2147483648 + b.toNat * 16777216 + p.toNat * 131072 + d.toNat * 1024
  | .atomCas _ w b p d => 0x3d5 + w.toNat * 2147483648 + b.toNat * 16777216 + p.toNat * 131072 + d.toNat * 1024
  | .atomFmin _ w b p d => 0x3e5 + w.toNat * 2147483648 + b.toNat * 16777216 + p.toNat * 131072 + d.toNat * 1024
  | .atomFmax _ w b p d => 0x3f5 + w.toNat * 2147483648 + b.toNat * 16777216 + p.toNat * 131072 + d.toNat * 1024
  | .red _ w b p o => 0x1f305 + w.toNat * 2147483648 + b.toNat * 16777216 + p.toNat * 131072 + o.toNat * 16
  | .kuRegisterOp _ a d u => 0x9 + a.toNat * 262144 + d.toNat * 1024 + u.toNat * 16
  | .kuImmediateOp _ i a d u => 0x109 + i.toNat * 67108864 + a.toNat * 262144 + d.toNat * 1024 + u.toNat * 16
  | .krdl _ n a d => 0x209 + n.toNat * 67108864 + a.toNat * 262144 + d.toNat * 1024
  | .kld _ i a d => 0x219 + i.toNat * 67108864 + a.toNat * 262144 + d.toNat * 1024
  | .kst _ i a d => 0x229 + i.toNat * 67108864 + a.toNat * 262144 + d.toNat * 1024
  | .bra _ o => 0xb + o.toNat * 1024
  | .call _ o l => 0x1b + o.toNat * 131072 + l.toNat * 1024
  | .fcall _ o l => 0x2b + o.toNat * 131072 + l.toNat * 1024
  | .jmpi _ r => 0x3b + r.toNat * 1024
  | .calli _ l a => 0x4b + l.toNat * 131072 + a.toNat * 1024
  | .ret _ r => 0x5b + r.toNat * 1024
  | .brt _ o p => 0x10b + o.toNat * 1024 + p.toNat * 16
  | .brf _ o p => 0x20b + o.toNat * 1024 + p.toNat * 16
  | .mmaBf16 _ c b a d k => 0xd + c.toNat * 2147483648 + b.toNat * 16777216 + a.toNat * 131072 + d.toNat * 1024 + k.toNat * 16
  | .mmaInteger _ c b a d t k => 0xd + c.toNat * 2147483648 + b.toNat * 16777216 + a.toNat * 131072 + d.toNat * 1024 + t.toNat * 64 + k.toNat * 16
  | .mmag _ c b a d k => 0x14d + c.toNat * 2147483648 + b.toNat * 16777216 + a.toNat * 131072 + d.toNat * 1024 + k.toNat * 16
  | .mmab _ c b a d k => 0x18d + c.toNat * 2147483648 + b.toNat * 16777216 + a.toNat * 131072 + d.toNat * 1024 + k.toNat * 16
  | .mmaAb _ c b a d k => 0x1cd + c.toNat * 2147483648 + b.toNat * 16777216 + a.toNat * 131072 + d.toNat * 1024 + k.toNat * 16
  | .amov _ a d => 0x7c00020d + a.toNat * 131072 + d.toNat * 1024
  | .azero _ d => 0x7cf8021d + d.toNat * 1024
  | .ard _ b a d => 0x22d + b.toNat * 16777216 + a.toNat * 131072 + d.toNat * 1024
  | .awr _ b a d => 0x23d + b.toNat * 16777216 + a.toNat * 131072 + d.toNat * 1024
  | .ardFx64 _ b a d => 0x24d + b.toNat * 16777216 + a.toNat * 131072 + d.toNat * 1024
  | .awrFx64 _ b a d => 0x25d + b.toNat * 16777216 + a.toNat * 131072 + d.toNat * 1024
  | .cpy _ k l c => 0x28d + k.toNat * 16777216 + l.toNat * 131072 + c.toNat * 1024
  | .cpyl _ k s d => 0x29d + k.toNat * 16777216 + s.toNat * 131072 + d.toNat * 1024
  | .ovload _ k n => 0x2ad + k.toNat * 16777216 + n.toNat * 1024
  | .nop _ => 0xf
  | .exit _ => 0x1f
  | .join _ => 0x2f
  | .fbar _ => 0x3f
  | .bar _ n => 0x4f + n.toNat * 1024
  | .gbar _ => 0x5f
  | .waitc _ k p => 0x6f + k.toNat * 131072 + p.toNat * 1024
  | .yieldc _ o k => 0x7f + o.toNat * 262144 + k.toNat * 1024
  | .reggrow _ => 0x8f
  | .regshrink _ => 0x9f
  | .launch _ k p => 0xaf + k.toNat * 131072 + p.toNat * 1024
  | .trap _ c => 0xbf + c.toNat * 1024
  | .bkpt _ c => 0xcf + c.toNat * 1024
  | .srd _ s d => 0xdf + s.toNat * 131072 + d.toNat * 1024
  | .swr _ s a => 0xef + s.toNat * 131072 + a.toNat * 1024
  | .fence _ s => 0xff + s.toNat * 1024
  | .mcas _ k p => 0x10f + k.toNat * 131072 + p.toNat * 1024
  | .redFaddc _ a p => 0x11f + a.toNat * 131072 + p.toNat * 1024
  | .xinv _ k p => 0x18f + k.toNat * 131072 + p.toNat * 1024
  | .fwwr _ p w => 0x19f + p.toNat * 131072 + w.toNat * 1024
  | .fwrd _ p w => 0x1af + p.toNat * 131072 + w.toNat * 1024
  | .lwbi _ k p => 0x1bf + k.toNat * 131072 + p.toNat * 1024
  | .resume _ p => 0x1cf + p.toNat * 1024
  | .redirect _ p => 0x1df + p.toNat * 1024
  | .kill _ p => 0x1ef + p.toNat * 1024
  | .issueSelect _ => 0
  | .starvationIssue _ => 0
  | .pipelineResult _ _ => 0
  | .loadDataReturn _ => 0
  | .homeSliceRequest _ => 0
  | .storeAck _ => 0
  | .horizonFold _ _ => 0
  | .l1LeaseExpiry _ _ _ => 0
  | .pageWalk _ => 0
  | .fenceComplete _ => 0
  | .fenceRollback _ => 0
  | .barrierRelease _ => 0
  | .waitcReread _ => 0
  | .statusWordWrite _ _ _ _ => 0
  | .strandRetire _ => 0
  | .teamFinish _ => 0
  | .gridRetire _ => 0
  | .launchAccept _ => 0
  | .seedArrival _ _ => 0
  | .dependenceCounterReread _ => 0
  | .dealingStep => 0
  | .launchReservation _ => 0
  | .teamStart _ => 0
  | .budgetPeriod => 0
  | .thermalThrottle _ _ => 0
  | .overlayRequest _ => 0
  | .overlayLoadComplete _ => 0
  | .copyUnitMove _ => 0
  | .copyPublish _ => 0
  | .gatherRowArrival _ => 0
  | .matrixEngineStart _ => 0
  | .mmabEpisodeStart _ _ => 0
  | .matrixEngineFinish _ => 0
  | .mcasLockGrant _ => 0
  | .mcasEvent _ => 0
  | .mcasRelease _ => 0
  | .reggrowComplete _ => 0
  | .reggrowRetry _ => 0
  | .regshrinkComplete _ => 0
  | .registerDeadlock _ => 0
  | .warpSpill _ => 0
  | .warpRefill _ => 0
  | .compaction _ => 0
  | .watchdogExpiry _ => 0
  | .trapRecordPost _ => 0
  | .takenReread _ => 0
  | .replyTakeEffect _ => 0
  | .viewLineFill _ => 0
  | .viewLineWriteback _ => 0
  | .hostPostedWrite _ _ => 0
  | .pieceBid _ => 0
  | .pieceTimestamp => 0
  | .pieceCommit _ => 0
  | .pieceRouteAck _ => 0
  | .hostRead _ _ => 0
  | .peerPortWrite _ _ _ => 0
  | .hubCopyDescriptor _ => 0
  | .hubCopyComplete _ => 0
  | .hostLinkDown => 0
  | .attestationRequest _ => 0
  | .watchdogLimitSet _ => 0
  | .powerCapSet _ => 0
  | .firmwareReplacement _ _ => 0
  | .packageReset => 0
  | .dieJoin _ _ => 0
  | .start _ _ => 0
  | .preempt _ _ => 0
  | .restore _ _ => 0
  | .halt _ _ => 0
  | .continueCtx _ => 0
  | .contextKill _ => 0
  | .saveComplete _ => 0
  | .migrationAbort _ => 0
  | .stopTimeout _ => 0
  | .flitReplay _ => 0
  | .linkRetrain _ => 0
  | .linkLost _ => 0
  | .agentDead _ _ => 0
  | .patrolScrub => 0
  | .directoryRecovery _ => 0
  | .probeTimeout _ => 0
  | .linkRestore _ => 0
  | .hostLinkUp => 0
  | .ideRekey _ => 0
  | .overlayBankHoldExpiry _ => 0
  | .supervisorOperationComplete _ => 0
  | .pageRehome _ _ => 0
  | .atsInvalidation _ => 0

/-- The prefix parcels of a group in their order (R166). -/
def Pfx.words (g : Pfx) : List (BitVec 16) :=
  (match g.pred with | some (p, neg) => [BitVec.ofNat 16 (6 + 16 * (p.toNat + if neg then 16 else 0))] | none => []) ++
  (match g.ksel with | some k => [BitVec.ofNat 16 (10 + 16 * k.toNat)] | none => []) ++
  g.imm.map (fun p => BitVec.ofNat 16 (2 + 16 * p.toNat)) ++
  (match g.sw with | some y => [BitVec.ofNat 16 (14 + 16 * if y then 1 else 0)] | none => [])

/-- The halfwords of an instruction parcel, the one with bit 0 first (R42). -/
def Instr.parcelWords (i : Instr) : List (BitVec 16) :=
  if i.parcelLen = 0 then []
  else if i.parcelLen = 1 then [BitVec.ofNat 16 i.word]
  else [BitVec.ofNat 16 i.word, BitVec.ofNat 16 (i.word / 65536)]

/-- The halfwords of a group in memory order (R37, R42). -/
def encode (i : Instr) : List (BitVec 16) := i.pfx.words ++ i.parcelWords

/-- The halfwords of the number w from its low end, and zero halfwords to the longest group of seven (R165). -/
def wordHalfs (nbits w : Nat) : List (BitVec 16) :=
  (List.range 8).map fun k => if 16 * k < nbits then BitVec.ofNat 16 (w % 2 ^ nbits / 2 ^ (16 * k)) else 0

/-- The instruction the decoder reads from an instruction whose bits are w. -/
def decodeTableWord (nbits w : Nat) : Option Instr :=
  match decode (wordHalfs nbits w) with
  | .ok i _ => some i
  | .trap _ _ _ => none

end Sys2Proof
end

