-- ==== Sys2Proof/Machine/Info.lean ====
section
/-! DEFINITION. What each instruction reads and writes and which prefixes it takes: the one table that the issue rules
(R118, R218, R237, R287), the prefix rules (the KSEL and IMM rules, R167) and the register, latch and poison checks
(R339, R342, R351) share. -/

namespace Sys2Proof

/-- What an IMM prefix becomes (the IMM rule of 08_encoding): nothing, the low immediate of VI or KU, the prefix operand of
a source code 126, CPYL's byte count, an atomic's modifier, FCALL's overlay. -/
inductive ImmUse where
  | none | vi | ku | operand | count | modifier | fcall
  deriving DecidableEq, Repr

/-- What an instruction reads, writes and accepts. Vector sources are operand codes (128 is the compact constant 1) with a
mark for pairs. -/
structure Info where
  guard : Bool := true
  srcs : List (Nat × Bool) := []
  /-- sources of which only the lowest active lane is read: the operand pointers of the matrix forms (R261) -/
  firstSrcs : List (Nat × Bool) := []
  /-- CPY's coordinates: lanes below RANK are read (R273) -/
  coords : Option Nat := Option.none
  dst : Option (Nat × Bool) := Option.none
  imm : ImmUse := .none
  kneed : Bool := false
  kquad : Bool := false
  psrcs : List Nat := []
  pdst : List Nat := []
  ksrcs : List Nat := []
  kdst : List Nat := []
  /-- status k registers of copies, MCAS, LAUNCH and XINV -/
  ksts : List Nat := []
  kyield : List Nat := []
  lane1 : Option (Nat × Nat) := Option.none
  tsrcs : List Nat := []
  tdst : List Nat := []
  /-- stalls in a speculative fence window: writes memory or an engine (R162, R287) -/
  writes : Bool := false
  /-- stalls in a speculative fence window: the control instructions of R237 and FENCE (R218) -/
  sync : Bool := false
  /-- a transfer that stalls in a speculative fence window when its lanes disagree (R237) -/
  control : Bool := false
  mat : Bool := false
  sup : Bool := false
  /-- the address pair whose pointers may be of space 15, with the displacement (R208, R209) -/
  ptr : Option (Nat × Int) := Option.none
  /-- takes its per-lane operands from the lowest active lane only -/
  once : Bool := false
  /-- reads or writes fstat (R129) -/
  fstat : Bool := false
  flags : Bool := false
  deriving Repr

/-- The 7-bit operand code of a compact S code (R169); the constant 1 has none and takes 128. -/
def compactCode (s : BitVec 5) : Nat :=
  if s.toNat < 24 then s.toNat
  else if s.toNat < 28 then s.toNat + 96
  else if s.toNat = 28 then 126
  else if s.toNat = 29 then 125
  else if s.toNat = 30 then 128
  else 124

/-- Every vector source. -/
def Info.allSrcs (x : Info) : List (Nat × Bool) :=
  x.srcs ++ x.firstSrcs ++ (match x.coords with | some c => [(c, false)] | Option.none => [])

/-- The bytes of a load of type code t (R212). -/
def loadSize (t : BitVec 3) : Int := if t.toNat < 2 then 1 else if t.toNat < 4 then 2 else if t.toNat = 4 then 4 else 8

/-- The registers B of an atomic names (R175, R219). -/
def atomSrcs (op : Nat) (w : BitVec 1) (b : BitVec 7) : List (Nat × Bool) :=
  if op = 9 then
    (if w = 1 then [(b.toNat, true), (b.toNat + 2, true)] else [(b.toNat, false), (b.toNat + 1, false)])
  else [(b.toNat, decide (w = 1))]

/-- The table. -/
def Instr.info : Instr → Info
  | .mov _ _ a d => { srcs := [(a.toNat, false)], dst := some (d.toNat, false), imm := .operand }
  | .iadd _ _ b a d => { srcs := [(a.toNat, false), (b.toNat, false)], dst := some (d.toNat, false), imm := .operand }
  | .isub _ _ b a d => { srcs := [(a.toNat, false), (b.toNat, false)], dst := some (d.toNat, false), imm := .operand }
  | .imul _ _ b a d => { srcs := [(a.toNat, false), (b.toNat, false)], dst := some (d.toNat, false), imm := .operand }
  | .imulh _ _ b a d _ => { srcs := [(a.toNat, false), (b.toNat, false)], dst := some (d.toNat, false), imm := .operand }
  | .imin _ _ b a d _ => { srcs := [(a.toNat, false), (b.toNat, false)], dst := some (d.toNat, false), imm := .operand }
  | .imax _ _ b a d _ => { srcs := [(a.toNat, false), (b.toNat, false)], dst := some (d.toNat, false), imm := .operand }
  | .andV _ _ b a d => { srcs := [(a.toNat, false), (b.toNat, false)], dst := some (d.toNat, false), imm := .operand }
  | .orV _ _ b a d => { srcs := [(a.toNat, false), (b.toNat, false)], dst := some (d.toNat, false), imm := .operand }
  | .xorV _ _ b a d => { srcs := [(a.toNat, false), (b.toNat, false)], dst := some (d.toNat, false), imm := .operand }
  | .shl _ _ b a d => { srcs := [(a.toNat, false), (b.toNat, false)], dst := some (d.toNat, false), imm := .operand }
  | .shr _ _ b a d => { srcs := [(a.toNat, false), (b.toNat, false)], dst := some (d.toNat, false), imm := .operand }
  | .sar _ _ b a d => { srcs := [(a.toNat, false), (b.toNat, false)], dst := some (d.toNat, false), imm := .operand }
  | .imad _ _ b a d => { srcs := [(a.toNat, false), (b.toNat, false), (d.toNat, false)], dst := some (d.toNat, false), imm := .operand }
  | .idivS32 _ _ b a d => { srcs := [(a.toNat, false), (b.toNat, false)], dst := some (d.toNat, false), imm := .operand }
  | .idivN32 _ _ b a d => { srcs := [(a.toNat, false), (b.toNat, false)], dst := some (d.toNat, false), imm := .operand }
  | .iremS32 _ _ b a d => { srcs := [(a.toNat, false), (b.toNat, false)], dst := some (d.toNat, false), imm := .operand }
  | .iremN32 _ _ b a d => { srcs := [(a.toNat, false), (b.toNat, false)], dst := some (d.toNat, false), imm := .operand }
  | .iaddS64 _ _ b a d => { srcs := [(a.toNat, true), (b.toNat, true)], dst := some (d.toNat, true), imm := .operand }
  | .isubS64 _ _ b a d => { srcs := [(a.toNat, true), (b.toNat, true)], dst := some (d.toNat, true), imm := .operand }
  | .imulS64 _ _ b a d => { srcs := [(a.toNat, true), (b.toNat, true)], dst := some (d.toNat, true), imm := .operand }
  | .shlS64 _ _ b a d => { srcs := [(a.toNat, true), (b.toNat, false)], dst := some (d.toNat, true), imm := .operand }
  | .shrS64 _ _ b a d => { srcs := [(a.toNat, true), (b.toNat, false)], dst := some (d.toNat, true), imm := .operand }
  | .sarS64 _ _ b a d => { srcs := [(a.toNat, true), (b.toNat, false)], dst := some (d.toNat, true), imm := .operand }
  | .fadd _ _ b a d _ => { srcs := [(a.toNat, false), (b.toNat, false)], dst := some (d.toNat, false), imm := .operand, flags := true }
  | .fsub _ _ b a d _ => { srcs := [(a.toNat, false), (b.toNat, false)], dst := some (d.toNat, false), imm := .operand, flags := true }
  | .fmul _ _ b a d _ => { srcs := [(a.toNat, false), (b.toNat, false)], dst := some (d.toNat, false), imm := .operand, flags := true }
  | .ffma _ _ b a d _ => { srcs := [(a.toNat, false), (b.toNat, false), (d.toNat, false)], dst := some (d.toNat, false), imm := .operand, flags := true }
  | .fdiv _ _ b a d _ => { srcs := [(a.toNat, false), (b.toNat, false)], dst := some (d.toNat, false), imm := .operand, flags := true }
  | .fmin _ _ b a d => { srcs := [(a.toNat, false), (b.toNat, false)], dst := some (d.toNat, false), imm := .operand }
  | .fmax _ _ b a d => { srcs := [(a.toNat, false), (b.toNat, false)], dst := some (d.toNat, false), imm := .operand }
  | .faddBf16x2 _ _ b a d => { srcs := [(a.toNat, false), (b.toNat, false)], dst := some (d.toNat, false), imm := .operand, flags := true }
  | .fsubBf16x2 _ _ b a d => { srcs := [(a.toNat, false), (b.toNat, false)], dst := some (d.toNat, false), imm := .operand, flags := true }
  | .fmulBf16x2 _ _ b a d => { srcs := [(a.toNat, false), (b.toNat, false)], dst := some (d.toNat, false), imm := .operand, flags := true }
  | .ffmaBf16x2 _ _ b a d => { srcs := [(a.toNat, false), (b.toNat, false), (d.toNat, false)], dst := some (d.toNat, false), imm := .operand, flags := true }
  | .fminBf16x2 _ _ b a d => { srcs := [(a.toNat, false), (b.toNat, false)], dst := some (d.toNat, false), imm := .operand }
  | .fmaxBf16x2 _ _ b a d => { srcs := [(a.toNat, false), (b.toNat, false)], dst := some (d.toNat, false), imm := .operand }
  | .shfl _ _ b a d => { srcs := [(a.toNat, false), (b.toNat, false)], dst := some (d.toNat, false), imm := .operand }
  | .shflUp _ _ b a d => { srcs := [(a.toNat, false), (b.toNat, false)], dst := some (d.toNat, false), imm := .operand }
  | .shflDn _ _ b a d => { srcs := [(a.toNat, false), (b.toNat, false)], dst := some (d.toNat, false), imm := .operand }
  | .shflXor _ _ b a d => { srcs := [(a.toNat, false), (b.toNat, false)], dst := some (d.toNat, false), imm := .operand }
  | .movImmediate _ _ d => { dst := some (d.toNat, false), imm := .vi }
  | .iaddImmediate _ _ a d => { srcs := [(a.toNat, false)], dst := some (d.toNat, false), imm := .vi }
  | .isubImmediate _ _ a d => { srcs := [(a.toNat, false)], dst := some (d.toNat, false), imm := .vi }
  | .imulImmediate _ _ a d => { srcs := [(a.toNat, false)], dst := some (d.toNat, false), imm := .vi }
  | .iminImmediate _ _ a d _ => { srcs := [(a.toNat, false)], dst := some (d.toNat, false), imm := .vi }
  | .imaxImmediate _ _ a d _ => { srcs := [(a.toNat, false)], dst := some (d.toNat, false), imm := .vi }
  | .andImmediate _ _ a d => { srcs := [(a.toNat, false)], dst := some (d.toNat, false), imm := .vi }
  | .orImmediate _ _ a d => { srcs := [(a.toNat, false)], dst := some (d.toNat, false), imm := .vi }
  | .xorImmediate _ _ a d => { srcs := [(a.toNat, false)], dst := some (d.toNat, false), imm := .vi }
  | .shlImmediate _ _ a d => { srcs := [(a.toNat, false)], dst := some (d.toNat, false), imm := .vi }
  | .shrImmediate _ _ a d => { srcs := [(a.toNat, false)], dst := some (d.toNat, false), imm := .vi }
  | .sarImmediate _ _ a d => { srcs := [(a.toNat, false)], dst := some (d.toNat, false), imm := .vi }
  | .iaddS64Immediate _ _ a d => { srcs := [(a.toNat, true)], dst := some (d.toNat, true), imm := .vi }
  | .faddImmediate _ _ a d => { srcs := [(a.toNat, false)], dst := some (d.toNat, false), imm := .vi, flags := true }
  | .fmulImmediate _ _ a d => { srcs := [(a.toNat, false)], dst := some (d.toNat, false), imm := .vi, flags := true }
  | .fminImmediate _ _ a d => { srcs := [(a.toNat, false)], dst := some (d.toNat, false), imm := .vi }
  | .fmaxImmediate _ _ a d => { srcs := [(a.toNat, false)], dst := some (d.toNat, false), imm := .vi }
  | .rng _ _ a d => { srcs := [(a.toNat, false)], dst := some (d.toNat, false), imm := .vi }
  | .movCompact _ s d => { srcs := [(compactCode s, false)], dst := some (d.toNat, false), imm := .operand }
  | .iaddCompact _ s d => { srcs := [(d.toNat, false), (compactCode s, false)], dst := some (d.toNat, false), imm := .operand }
  | .isubCompact _ s d => { srcs := [(d.toNat, false), (compactCode s, false)], dst := some (d.toNat, false), imm := .operand }
  | .imulCompact _ s d => { srcs := [(d.toNat, false), (compactCode s, false)], dst := some (d.toNat, false), imm := .operand }
  | .iminCompact _ s d => { srcs := [(d.toNat, false), (compactCode s, false)], dst := some (d.toNat, false), imm := .operand }
  | .imaxCompact _ s d => { srcs := [(d.toNat, false), (compactCode s, false)], dst := some (d.toNat, false), imm := .operand }
  | .andCompact _ s d => { srcs := [(d.toNat, false), (compactCode s, false)], dst := some (d.toNat, false), imm := .operand }
  | .orCompact _ s d => { srcs := [(d.toNat, false), (compactCode s, false)], dst := some (d.toNat, false), imm := .operand }
  | .xorCompact _ s d => { srcs := [(d.toNat, false), (compactCode s, false)], dst := some (d.toNat, false), imm := .operand }
  | .shlCompact _ s d => { srcs := [(d.toNat, false), (compactCode s, false)], dst := some (d.toNat, false), imm := .operand }
  | .shrCompact _ s d => { srcs := [(d.toNat, false), (compactCode s, false)], dst := some (d.toNat, false), imm := .operand }
  | .faddCompact _ s d => { srcs := [(d.toNat, false), (compactCode s, false)], dst := some (d.toNat, false), imm := .operand, flags := true }
  | .fsubCompact _ s d => { srcs := [(d.toNat, false), (compactCode s, false)], dst := some (d.toNat, false), imm := .operand, flags := true }
  | .fmulCompact _ s d => { srcs := [(d.toNat, false), (compactCode s, false)], dst := some (d.toNat, false), imm := .operand, flags := true }
  | .fminCompact _ s d => { srcs := [(d.toNat, false), (compactCode s, false)], dst := some (d.toNat, false), imm := .operand }
  | .fmaxCompact _ s d => { srcs := [(d.toNat, false), (compactCode s, false)], dst := some (d.toNat, false), imm := .operand }
  | .icmp _ _ b a p t => { srcs := [(a.toNat, decide (2 ≤ t.toNat)), (b.toNat, decide (2 ≤ t.toNat))], imm := .operand, pdst := [p.toNat] }
  | .fcmp _ _ b a p => { srcs := [(a.toNat, false), (b.toNat, false)], imm := .operand, pdst := [p.toNat] }
  | .plop _ _ b a p => { psrcs := [a.toNat, b.toNat], pdst := [p.toNat] }
  | .cvt _ _ s a d t => { srcs := [(a.toNat, wideType s.toNat)], dst := some (d.toNat, wideType t.toNat), imm := .operand, flags := true }
  | .ndec _ _ a d => { srcs := [(a.toNat, false)], dst := some (d.toNat, false), kneed := true }
  | .nenc _ a d => { srcs := [(a.toNat, false)], dst := some (d.toNat, false), kneed := true, flags := true }
  | .fsqrt _ _ a d => { srcs := [(a.toNat, false)], dst := some (d.toNat, false), imm := .operand, flags := true }
  | .rcp _ a d => { srcs := [(a.toNat, false)], dst := some (d.toNat, false), imm := .operand, flags := true }
  | .rsq _ a d => { srcs := [(a.toNat, false)], dst := some (d.toNat, false), imm := .operand, flags := true }
  | .exp2 _ a d => { srcs := [(a.toNat, false)], dst := some (d.toNat, false), imm := .operand, flags := true }
  | .log2 _ a d => { srcs := [(a.toNat, false)], dst := some (d.toNat, false), imm := .operand, flags := true }
  | .sin _ a d => { srcs := [(a.toNat, false)], dst := some (d.toNat, false), imm := .operand, flags := true }
  | .cos _ a d => { srcs := [(a.toNat, false)], dst := some (d.toNat, false), imm := .operand, flags := true }
  | .popc _ a d => { srcs := [(a.toNat, false)], dst := some (d.toNat, false), imm := .operand }
  | .clz _ a d => { srcs := [(a.toNat, false)], dst := some (d.toNat, false), imm := .operand }
  | .brev _ a d => { srcs := [(a.toNat, false)], dst := some (d.toNat, false), imm := .operand }
  | .vote _ _ p d => { dst := some (d.toNat, false), psrcs := [p.toNat] }
  | .redux _ _ _ a d => { srcs := [(a.toNat, false)], dst := some (d.toNat, false), imm := .operand, flags := true }
  | .p2v _ p d => { dst := some (d.toNat, false), psrcs := [p.toNat] }
  | .fabs _ a d => { srcs := [(a.toNat, false)], dst := some (d.toNat, false), imm := .operand }
  | .fneg _ a d => { srcs := [(a.toNat, false)], dst := some (d.toNat, false), imm := .operand }
  | .ld _ o p d t _ => { srcs := [(p.toNat, true)], dst := some (d.toNat, decide (t = 5)), ptr := some (p.toNat, o.toInt * loadSize t) }
  | .st8 _ o p d _ => { srcs := [(p.toNat, true), (d.toNat, false)], imm := .operand, writes := true, ptr := some (p.toNat, o.toInt * 1) }
  | .st16 _ o p d _ => { srcs := [(p.toNat, true), (d.toNat, false)], imm := .operand, writes := true, ptr := some (p.toNat, o.toInt * 2) }
  | .st32 _ o p d _ => { srcs := [(p.toNat, true), (d.toNat, false)], imm := .operand, writes := true, ptr := some (p.toNat, o.toInt * 4) }
  | .st64 _ o p d _ => { srcs := [(p.toNat, true), (d.toNat, true)], imm := .operand, writes := true, ptr := some (p.toNat, o.toInt * 8) }
  | .ldAcq _ _ _ p d t => { srcs := [(p.toNat, true)], dst := some (d.toNat, decide (t = 5)), ptr := some (p.toNat, 0) }
  | .stRel8 _ _ _ p d => { srcs := [(p.toNat, true), (d.toNat, false)], imm := .operand, writes := true, ptr := some (p.toNat, 0) }
  | .stRel16 _ _ _ p d => { srcs := [(p.toNat, true), (d.toNat, false)], imm := .operand, writes := true, ptr := some (p.toNat, 0) }
  | .stRel32 _ _ _ p d => { srcs := [(p.toNat, true), (d.toNat, false)], imm := .operand, writes := true, ptr := some (p.toNat, 0) }
  | .stRel64 _ _ _ p d => { srcs := [(p.toNat, true), (d.toNat, true)], imm := .operand, writes := true, ptr := some (p.toNat, 0) }
  | .pf _ _ p => { srcs := [(p.toNat, true)] }
  | .pfL2 _ _ p => { srcs := [(p.toNat, true)] }
  | .atomAdd _ w b p d => { srcs := (p.toNat, true) :: atomSrcs 0 w b, dst := some (d.toNat, decide (w = 1)), imm := .modifier, writes := true }
  | .atomMinS _ w b p d => { srcs := (p.toNat, true) :: atomSrcs 1 w b, dst := some (d.toNat, decide (w = 1)), imm := .modifier, writes := true }
  | .atomMinN _ w b p d => { srcs := (p.toNat, true) :: atomSrcs 2 w b, dst := some (d.toNat, decide (w = 1)), imm := .modifier, writes := true }
  | .atomMaxS _ w b p d => { srcs := (p.toNat, true) :: atomSrcs 3 w b, dst := some (d.toNat, decide (w = 1)), imm := .modifier, writes := true }
  | .atomMaxN _ w b p d => { srcs := (p.toNat, true) :: atomSrcs 4 w b, dst := some (d.toNat, decide (w = 1)), imm := .modifier, writes := true }
  | .atomAnd _ w b p d => { srcs := (p.toNat, true) :: atomSrcs 5 w b, dst := some (d.toNat, decide (w = 1)), imm := .modifier, writes := true }
  | .atomOr _ w b p d => { srcs := (p.toNat, true) :: atomSrcs 6 w b, dst := some (d.toNat, decide (w = 1)), imm := .modifier, writes := true }
  | .atomXor _ w b p d => { srcs := (p.toNat, true) :: atomSrcs 7 w b, dst := some (d.toNat, decide (w = 1)), imm := .modifier, writes := true }
  | .atomXchg _ w b p d => { srcs := (p.toNat, true) :: atomSrcs 8 w b, dst := some (d.toNat, decide (w = 1)), imm := .modifier, writes := true }
  | .atomCas _ w b p d => { srcs := (p.toNat, true) :: atomSrcs 9 w b, dst := some (d.toNat, decide (w = 1)), imm := .modifier, writes := true }
  | .atomFmin _ w b p d => { srcs := (p.toNat, true) :: atomSrcs 10 w b, dst := some (d.toNat, decide (w = 1)), imm := .modifier, writes := true }
  | .atomFmax _ w b p d => { srcs := (p.toNat, true) :: atomSrcs 11 w b, dst := some (d.toNat, decide (w = 1)), imm := .modifier, writes := true }
  | .red _ w b p o => { srcs := (p.toNat, true) :: atomSrcs (o.toNat - 4) w b, dst := some (124, decide (w = 1)), imm := .modifier, writes := true }
  | .kuRegisterOp _ a d u => { ksrcs := if u = 0 then [a.toNat] else [d.toNat, a.toNat], kdst := [d.toNat] }
  | .kuImmediateOp _ _ a d u => { imm := .ku, ksrcs := if u = 0 then [] else [a.toNat], kdst := [d.toNat] }
  | .krdl _ n a d => { kdst := [d.toNat], lane1 := some (a.toNat, n.toNat) }
  | .kld _ _ a d => { ksrcs := [a.toNat, a.toNat + 1], kdst := [d.toNat] }
  | .kst _ _ a d => { ksrcs := [a.toNat, a.toNat + 1, d.toNat], writes := true }
  | .bra _ _ => { guard := false }
  | .call _ _ l => { guard := false, dst := some (l.toNat, false) }
  | .fcall _ _ l => { guard := false, dst := some (l.toNat, false), imm := .fcall }
  | .jmpi _ r => { guard := false, srcs := [(r.toNat, false)], control := true }
  | .calli _ l a => { guard := false, srcs := [(a.toNat, false)], dst := some (l.toNat, false), control := true }
  | .ret _ r => { guard := false, srcs := [(r.toNat, false)], control := true }
  | .brt _ _ p => { guard := false, psrcs := [p.toNat], control := true }
  | .brf _ _ p => { guard := false, psrcs := [p.toNat], control := true }
  | .mmaBf16 _ c b a d _ => { firstSrcs := [(a.toNat, true), (b.toNat, true)], tsrcs := if c = 1 then [d.toNat] else [], tdst := [d.toNat], writes := true, mat := true }
  | .mmaInteger _ c b a d _ _ => { firstSrcs := [(a.toNat, true), (b.toNat, true)], tsrcs := if c = 1 then [d.toNat, d.toNat + 1] else [], tdst := [d.toNat, d.toNat + 1], writes := true, mat := true }
  | .mmag _ c b a d _ => { srcs := [(a.toNat, false)], firstSrcs := [(b.toNat, true)], kneed := true, kquad := true, tsrcs := if c = 1 then [d.toNat] else [], tdst := [d.toNat], writes := true, mat := true }
  | .mmab _ c b a d _ => { firstSrcs := [(a.toNat, true), (b.toNat, true)], tsrcs := if c = 1 then [d.toNat] else [], tdst := [d.toNat], writes := true, mat := true }
  | .mmaAb _ c b a d k => { firstSrcs := [(b.toNat, true)], tsrcs := (List.range (k.toNat + 1)).map (fun j => a.toNat + j) ++ if c = 1 then [d.toNat] else [], tdst := [d.toNat], writes := true, mat := true }
  | .amov _ a d => { tsrcs := [a.toNat], tdst := [d.toNat], writes := true }
  | .azero _ d => { tdst := [d.toNat], writes := true }
  | .ard _ b a d => { srcs := [(b.toNat, false)], dst := some (d.toNat, false), imm := .operand, tsrcs := [a.toNat] }
  | .awr _ b a d => { srcs := [(a.toNat, false), (b.toNat, false)], imm := .operand, tdst := [d.toNat], writes := true }
  | .ardFx64 _ b a d => { srcs := [(b.toNat, false)], dst := some (d.toNat, true), imm := .operand, tsrcs := [a.toNat, a.toNat + 1], flags := true }
  | .awrFx64 _ b a d => { srcs := [(a.toNat, true), (b.toNat, false)], imm := .operand, tdst := [d.toNat, d.toNat + 1], writes := true }
  | .cpy _ k l c => { firstSrcs := [(l.toNat, true)], coords := some c.toNat, imm := .operand, ksts := [k.toNat], writes := true, once := true }
  | .cpyl _ k s d => { srcs := [(s.toNat, true), (d.toNat, true)], imm := .count, ksts := [k.toNat], writes := true, once := true }
  | .ovload _ k _ => { ksts := [k.toNat], writes := true }
  | .nop _ => {}
  | .exit _ => { sync := true }
  | .join _ => { guard := false, sync := true }
  | .fbar _ => { guard := false, sync := true }
  | .bar _ _ => { guard := false, sync := true }
  | .gbar _ => { guard := false, sync := true }
  | .waitc _ k p => { guard := false, srcs := [(p.toNat, true)], ksrcs := [k.toNat, k.toNat + 1], sync := true, once := true }
  | .yieldc _ _ k => { guard := false, kyield := [k.toNat], sync := true }
  | .reggrow _ => { guard := false, sync := true }
  | .regshrink _ => { guard := false, sync := true }
  | .launch _ k p => { srcs := [(p.toNat, true)], ksts := [k.toNat], writes := true, sync := true, once := true }
  | .trap _ _ => { sync := true }
  | .bkpt _ _ => { sync := true }
  | .srd _ s d => { dst := some (d.toNat, decide (s = 13)), fstat := decide (s = 15) }
  | .swr _ s a => { srcs := [(a.toNat, false)], imm := .operand, writes := true, once := true, fstat := decide (s = 15) }
  | .fence _ _ => { sync := true }
  | .mcas _ k p => { srcs := [(p.toNat, true)], ksts := [k.toNat], writes := true, once := true }
  | .redFaddc _ a p => { srcs := [(p.toNat, true), (a.toNat, false)], imm := .operand, writes := true }
  | .xinv _ k p => { srcs := [(p.toNat, true)], ksts := [k.toNat], writes := true, sup := true, once := true }
  | .fwwr _ p _ => { srcs := [(p.toNat, true)], writes := true, sup := true, once := true }
  | .fwrd _ p _ => { srcs := [(p.toNat, true)], writes := true, sup := true, once := true }
  | .lwbi _ k p => { srcs := [(p.toNat, true)], ksrcs := [k.toNat], writes := true, sup := true, once := true }
  | .resume _ p => { srcs := [(p.toNat, true)], writes := true, sup := true, once := true }
  | .redirect _ p => { srcs := [(p.toNat, true)], writes := true, sup := true, once := true }
  | .kill _ p => { srcs := [(p.toNat, true)], writes := true, sup := true, once := true }
  | .issueSelect _ => {}
  | .starvationIssue _ => {}
  | .pipelineResult _ _ => {}
  | .loadDataReturn _ => {}
  | .homeSliceRequest _ => {}
  | .storeAck _ => {}
  | .horizonFold _ _ => {}
  | .l1LeaseExpiry _ _ _ => {}
  | .pageWalk _ => {}
  | .fenceComplete _ => {}
  | .fenceRollback _ => {}
  | .barrierRelease _ => {}
  | .waitcReread _ => {}
  | .statusWordWrite _ _ _ _ => {}
  | .strandRetire _ => {}
  | .teamFinish _ => {}
  | .gridRetire _ => {}
  | .launchAccept _ => {}
  | .seedArrival _ _ => {}
  | .dependenceCounterReread _ => {}
  | .dealingStep => {}
  | .launchReservation _ => {}
  | .teamStart _ => {}
  | .budgetPeriod => {}
  | .thermalThrottle _ _ => {}
  | .overlayRequest _ => {}
  | .overlayLoadComplete _ => {}
  | .copyUnitMove _ => {}
  | .copyPublish _ => {}
  | .gatherRowArrival _ => {}
  | .matrixEngineStart _ => {}
  | .mmabEpisodeStart _ _ => {}
  | .matrixEngineFinish _ => {}
  | .mcasLockGrant _ => {}
  | .mcasEvent _ => {}
  | .mcasRelease _ => {}
  | .reggrowComplete _ => {}
  | .reggrowRetry _ => {}
  | .regshrinkComplete _ => {}
  | .registerDeadlock _ => {}
  | .warpSpill _ => {}
  | .warpRefill _ => {}
  | .compaction _ => {}
  | .watchdogExpiry _ => {}
  | .trapRecordPost _ => {}
  | .takenReread _ => {}
  | .replyTakeEffect _ => {}
  | .viewLineFill _ => {}
  | .viewLineWriteback _ => {}
  | .hostPostedWrite _ _ => {}
  | .pieceBid _ => {}
  | .pieceTimestamp => {}
  | .pieceCommit _ => {}
  | .pieceRouteAck _ => {}
  | .hostRead _ _ => {}
  | .peerPortWrite _ _ _ => {}
  | .hubCopyDescriptor _ => {}
  | .hubCopyComplete _ => {}
  | .hostLinkDown => {}
  | .attestationRequest _ => {}
  | .watchdogLimitSet _ => {}
  | .powerCapSet _ => {}
  | .firmwareReplacement _ _ => {}
  | .packageReset => {}
  | .dieJoin _ _ => {}
  | .start _ _ => {}
  | .preempt _ _ => {}
  | .restore _ _ => {}
  | .halt _ _ => {}
  | .continueCtx _ => {}
  | .contextKill _ => {}
  | .saveComplete _ => {}
  | .migrationAbort _ => {}
  | .stopTimeout _ => {}
  | .flitReplay _ => {}
  | .linkRetrain _ => {}
  | .linkLost _ => {}
  | .agentDead _ _ => {}
  | .patrolScrub => {}
  | .directoryRecovery _ => {}
  | .probeTimeout _ => {}
  | .linkRestore _ => {}
  | .hostLinkUp => {}
  | .ideRekey _ => {}
  | .overlayBankHoldExpiry _ => {}
  | .supervisorOperationComplete _ => {}
  | .pageRehome _ _ => {}
  | .atsInvalidation _ => {}

/-- Whether the instruction names the prefix operand (R169, R175). -/
def Info.usesPrefix (x : Info) : Bool := x.allSrcs.any (fun c => c.1 == 126) || decide (x.imm = .count)

/-- Whether the prefix operand is wanted as a 64-bit value. -/
def Info.widePrefix (x : Info) : Bool := x.srcs.any fun c => c.1 == 126 && c.2

/-- The failures of a group whose prefixes its instruction does not take, or that lacks one it needs (codes 2, 4, 5, 6 of
R338), each with the number of the failing parcel in the group.

DEDUCED (log entry 12, unsafe): an odd KSEL for a 64-bit source gives code 2. -/
def prefixFailures (x : Info) (g : Pfx) : List (Nat × Nat) :=
  let kselAt := if g.pred.isSome then 1 else 0
  let immAt := kselAt + if g.ksel.isSome then 1 else 0
  let useOp := x.usesPrefix
  let immOk :=
    match x.imm with
    | .none => decide (g.imm = [])
    | .vi | .ku => true
    | .operand | .count => decide (g.imm = []) || useOp
    | .modifier => decide (g.imm.length ≤ 1)
    | .fcall => decide (g.imm.length = 1)
  let immSupplies := decide (g.imm ≠ []) && (decide (x.imm = .operand) || decide (x.imm = .count)) && useOp
  let missing := (useOp && g.ksel.isNone && !immSupplies) || (x.kneed && g.ksel.isNone)
  let quad := x.kquad && (match g.ksel with | some k => decide (k.toNat % 4 ≠ 0) | none => false)
  let oddWide := x.widePrefix && (match g.ksel with | some k => decide (k.toNat % 2 = 1) | none => false)
  let badPay :=
    match x.imm, g.imm with
    | .modifier, [p] =>
      let p := p.toNat
      decide (p / 64 ≠ 0) || decide (p / 4 % 4 = 3) || decide (p % 4 = 3) || (decide (p / 4 % 4 = 0) && decide (p / 16 % 4 ≠ 0))
    | .fcall, [p] => decide (256 ≤ p.toNat)
    | _, _ => false
  (if quad || oddWide then [(2, kselAt)] else []) ++
  (if badPay then [(4, immAt)] else []) ++
  (if !immOk then [(5, if g.imm = [] then g.len else if x.imm = .modifier ∨ x.imm = .fcall then immAt + 1 else immAt)] else []) ++
  (if g.ksel.isSome && !(x.kneed || useOp) then [(5, kselAt)] else []) ++
  (if g.ksel.isSome && immSupplies then [(5, immAt)] else []) ++
  (if missing then [(5, g.len)] else []) ++
  (if g.pred.isSome && !x.guard then [(6, 0)] else [])

/-- The failure reported: the one of the lowest code (R332), the earlier in the list on equal codes. -/
def prefixFailure (x : Info) (g : Pfx) : Option (Nat × Nat) :=
  (prefixFailures x g).foldl (fun a b => match a with | none => some b | some c => if b.1 < c.1 then some b else some c) none

end Sys2Proof
end

