-- ==== Sys2Proof/Word.lean ====
section
/-! DEFINITION. The machine's words: lane words, 64-bit values and bytes (R7, R89, R90). -/

namespace Sys2Proof

/-- A 32-bit lane word, k register or parcel. -/
abbrev Word := BitVec 32

/-- A 64-bit value: a register pair, a pointer, an FX64 element. -/
abbrev DWord := BitVec 64

/-- A byte of memory. -/
abbrev Byte := BitVec 8

end Sys2Proof
end

