-- ==== Sys2Proof/Config.lean ====
section
/-! DEFINITION. What the package fixes (R15, R16, R20, R26, R100) and the free values: constants with no body, of which
nothing can be proved, for what the spec leaves open (log entries 4 and 56, safe). -/

namespace Sys2Proof.Config

/-- The Flight of the die at a site (R15). -/
def flight (site : Nat) : Nat := if site % 2 = 0 then 1 else 2

/-- CUs of the die at a site (R16). -/
def cus (site : Nat) : Nat := if site % 2 = 0 then 24 else 40

/-- Bank-store bytes of a CU at a site (R16). -/
def bankBytes (site : Nat) : Nat := if site % 2 = 0 then 1048576 else 1572864

/-- Grantable bank-store bytes of a CU at a site (R26). -/
def grantable (site : Nat) : Nat := if site % 2 = 0 then 983040 else 1507328

/-- DRAM bytes of the die at a site (R16, R100). -/
def dramBytes (site : Nat) : Nat := if site % 2 = 0 then 34359738368 else 51539607552

/-- L2 bytes of each of the 64 slices of the die at a site (R16, R22). -/
def sliceBytes (site : Nat) : Nat := if site % 2 = 0 then 1048576 else 1572864

/-- Bank-store bytes of a CU that are never granted and hold its L1 lines (R26). -/
def reserveBytes : Nat := 65536

/-- Page walkers of the hub (R18). -/
def walkers : Nat := 64

/-- Accumulator-store bytes of a CU (R16). -/
def accBytes : Nat := 524288

/-- FREE VALUES. The stepping of the part and its firmware and Damam versions, as the attestation report codes them (R325). -/
opaque stepping : Nat
opaque firmwareVersion : Nat
opaque damamVersion : Nat

/-- Clocks of a budget period (R115). -/
def period : Nat := 4096

/-- Blocks of the spill pool of a die, counted in 4 KiB (R370): the management processor's choice.

DESIGN CHOICE (log entry 61, unsafe): size and place of the spill pool. -/
def spillPoolBlocks : Nat := 65536

/-- Where the spill pool of a die begins in its DRAM (R370): memory outside every context's translation. -/
def spillPoolBase (site : Nat) : Nat := dramBytes site - spillPoolBlocks * 4096

/-- FREE VALUE. The contention predictor of R222 chooses near (true) or home for each atomic, by a rule left to the
part. -/
opaque predictNear : Nat → Bool

/-- FREE VALUE. Which of the values that R164 allows the side port returns for a byte. -/
opaque sidePortPick : Nat → Nat

/-- FREE VALUE. Whether an MCAS block byte that the strand stored to while the MCAS ran keeps the stored value (R231). -/
opaque mcasKeepsStore : Nat → Bool

/-- FREE VALUE. The SM3 digest of a byte string (R324, R325): a published function the spec does not state. -/
opaque sm3 : List (BitVec 8) → BitVec 256

/-- FREE VALUE. The SM2 signature by the device identity key over a digest (R325). -/
opaque sm2Sign : BitVec 256 → BitVec 512

/-- FREE VALUE. The identity public key of the device (R325). -/
opaque identityKey : List (BitVec 8)

/-- FREE VALUE. Whether a firmware image passes verification, and the image the part is shipped with (R324). -/
opaque firmwareVerifies : List (BitVec 8) → Bool
opaque shippedFirmware : List (BitVec 8)

/-- FREE VALUE. The steps of 100 MHz by which a power cap lowers the package clock (R122). -/
opaque capSteps : Nat → Nat

/-- FREE VALUE. The clocks that the retraining of a link takes, of which R357 gives the bound. -/
opaque retrainClocks : Nat → Nat

/-- FREE VALUE. Which line of n a full cache gives up (R22, R26). -/
opaque victim : Nat → Nat

/-- FREE VALUE. The host page that the host's translation agent gives for one (R307, R309). -/
opaque hostPage : Nat → Nat

/-- FREE VALUE. The bytes of the save area that the spec gives a size and no layout (R320). -/
opaque saveByte : Nat → BitVec 8

/-- FREE VALUE. The MSI-X vector and the status byte that report a hub copy descriptor's end, whether well or with an error (R309, R362). -/
opaque copyVector : Nat
opaque copyStatus : Bool → BitVec 8

end Sys2Proof.Config
end

