-- ==== Sys2Proof/Machine/State.lean ====
section
/-! DEFINITION. The state of the package as plain data: everything the spec names, the operations in progress, and the
model's own few fields; the reasons a step stops; and the state right after reset. -/

namespace Sys2Proof.Machine

/-- A finite map in ascending key order, as a list of pairs. -/
abbrev AMap (α : Type) := List (Nat × α)

/-- A map to bit vectors in which an unlisted key reads 0: ascending keys, no entry equal to 0. -/
abbrev Sparse (w : Nat) := List (Nat × BitVec w)

/-- The states of a strand (R68). -/
inductive StrandState where
  | free | ready | barrier | countWait | statusWait | atJoin | frozen
  deriving DecidableEq, Repr, Inhabited

/-- Why a strand does not issue beyond its scoreboard: nothing; a stall that a switch mark may leave (translation miss,
gather, directory read of an indirect target: R331, R241, R263); or an operation that holds the strand at issue and that
no switch mark leaves (R249, R282, R355, R252). -/
inductive Hold where
  | none
  | stall (op : Nat)
  | busy (op : Nat)
  deriving DecidableEq, Repr, Inhabited

/-- A bypass latch (R92): 32 lanes, a validity bit, the clock from which it can be read, and the load whose data it waits
for with the half of the loaded value it takes. -/
structure Latch where
  valid : Bool := false
  data : Sparse 32 := []
  ready : Nat := 0
  load : Option (Nat × Bool) := none
  deriving DecidableEq, Repr, Inhabited

/-- One undo entry of a speculative window (R162). -/
inductive Undo where
  | bytes (a : Nat) (old : List Byte) (pois : List (Nat × Nat))
  | pred (warp fibre p : Nat) (lanes old : Word) (pois : Option Nat)
  | kreg (warp k : Nat) (old : Word) (pois : Option Nat)
  deriving DecidableEq, Repr, Inhabited

/-- A fence in step 2 (R161, R162, R217, R218): its scope, the number of groups issued past it, the PC after it, the
horizon once taken, the speculative reads, the timestamps of writes that met them, the operation number from which
effects are speculative, the flags raised in it, and a held trap: its class, the group's successor and its record. -/
structure FenceWindow where
  scope : Nat
  issued : Nat := 0
  pc : BitVec 23
  horizon : Option Nat := none
  reads : List (Nat × Nat) := []
  met : List Nat := []
  firstOp : Nat := 0
  flags : BitVec 6 := 0
  trap : Option (Nat × BitVec 23 × Nat) := none
  deriving DecidableEq, Repr, Inhabited

/-- A strand: its table entry (R67), its latches (R92), logical clock (R155), and what the part keeps of it for issue, waits
(the successor of the group it waits or trapped at, the clock from which it may issue again), the watchdog, the fence, the
side port, the trap replies, the failed walks it waited for, the instruction parcel it issued last, whether it stands at its
migration point in a stop with MIG (R319), whether its PC has run past offset 32,767 of its overlay (R182), and, in deterministic mode,
whether its group's request has gone its way to the homes, so that it performs as it issues (R163). -/
structure Strand where
  uid : Nat := 0
  state : StrandState := .free
  fibre : Nat := 0
  parent : Nat := 0
  mask : Word := 0
  pc : BitVec 23 := 0
  waitk : BitVec 8 := 0
  latches : List Latch := [{}, {}, {}, {}]
  c : Nat := 0
  lastIssue : Nat := 0
  hold : Hold := .none
  switched : Bool := false
  waitSince : Nat := 0
  waitBar : Nat := 0
  waitAddr : Nat := 0
  waitPhys : Nat := 0
  waitVal : Nat := 0
  fenceStep1 : Option Nat := none
  fence : Option FenceWindow := none
  sideAt : Nat := 0
  seq : Option Nat := none
  succ : BitVec 23 := 0
  issuableAt : Nat := 0
  trapClass : Nat := 0
  trapPosted : Bool := false
  kin : List Nat := []
  vc : AMap Nat := []
  ovlWait : Option Nat := none
  walked : List (Nat × Nat) := []
  waitTs : Option Nat := none
  parcel : Nat := 0
  stopped : Bool := false
  ranPast : Bool := false
  atHome : Bool := false
  deriving DecidableEq, Repr, Inhabited

/-- A parked path (R76): the low 64 bits of an entry's image, and the strand's identity and clock. -/
structure Parked where
  uid : Nat
  fibre : Nat
  parent : Nat
  mask : Word
  pc : BitVec 23
  atJoin : Bool
  c : Nat
  kin : List Nat
  sideAt : Nat := 0
  vc : AMap Nat := []
  succ : BitVec 23 := 0
  since : Nat := 0
  ranPast : Bool := false
  deriving DecidableEq, Repr, Inhabited

/-- What a scoreboard entry covers (R118): a physical vector register of the warp's block, a k register, a predicate of a
fibre. -/
inductive Res where
  | vreg (n : Nat)
  | kreg (n : Nat)
  | pred (fibre p : Nat)
  deriving DecidableEq, Repr, Inhabited

/-- A scoreboard entry: what it covers, the fibre whose flags it will OR, the strand that issued it, and the flags (R129). -/
structure Pipe where
  res : List Res
  fibre : Nat
  uid : Nat := 0
  flags : BitVec 6 := 0
  mayFlag : Bool := false
  deriving DecidableEq, Repr, Inhabited

/-- A fibre (R65): predicates p0-p11 as lane masks, their poison by predicate (R349: one 32-bit word), fstat, and the split tokens in use with their
parents (R71). -/
structure Fibre where
  preds : Sparse 32 := []
  predPoison : AMap Nat := []
  fstat : BitVec 6 := 0
  tokens : AMap Nat := []
  deriving DecidableEq, Repr, Inhabited

/-- An operation on a warp's register block in progress (R251-R253, R370-R372): a grow or shrink waiting for pending
writes, blocked, or running; a move of the block; a spill or refill. -/
inductive BlockOp where
  | grow (entry : Nat)
  | growBlocked (entry since : Nat)
  | growTo (entry dst : Nat)
  | shrink (entry : Nat)
  | shrinkRun (entry : Nat)
  | spilling (pool : Nat)
  | refilling (dst : Nat)
  | moving (dst : Nat)
  deriving DecidableEq, Repr, Inhabited

/-- A resident warp (R58, R65, R67): its k registers, register block, window map, fibres, strand table, overflow records, holder (R118; vacated: it
has left, in the clock leftAt, and R119 chooses), scoreboard, pending status writes with the strands that asked for them, and the clocks that landed
ones carry (R78, R168), block operation, spill place, and whether the spill found a blocked REGGROW of it (R369). -/
structure Warp where
  team : Nat
  number : Nat := 0
  k : Sparse 32 := []
  kPoison : AMap Nat := []
  block : Nat := 0
  blockBytes : Nat := 4096
  winmap : Sparse 8 := []
  fibres : List Fibre := [{}]
  table : List Strand := []
  overflow : List Parked := []
  holder : Option Nat := none
  vacated : Bool := false
  leftAt : Nat := 0
  lastFibre : Nat := 0
  lastIssue : Nat := 0
  pipe : AMap Pipe := []
  kpend : List (Nat × Nat) := []
  kops : AMap Nat := []
  kts : AMap (Nat × AMap Nat) := []
  op : Option BlockOp := none
  spilled : Option Nat := none
  regrow : Bool := false
  deriving DecidableEq, Repr, Inhabited

/-- An overlay bank (R279): its tag, the loaded length in parcels, its code, the clock of its load and of its most recent
fetch. -/
structure Bank where
  ctx : Nat
  dir : Nat
  ovl : Nat
  len : Nat
  code : Sparse 16
  loadedAt : Nat := 0
  fetchedAt : Nat := 0
  deriving DecidableEq, Repr, Inhabited

/-- Forms of matrix operations (R260). -/
inductive MatForm where
  | bf16 | int (a b : Bool) | gather | broadcast | fromTiles
  deriving DecidableEq, Repr, Inhabited

/-- A matrix operation on an engine's queue (R266): the strand's place, the rows, K, the tile (its number within the CU), the scratchpad offsets and
ranks of A and B, the A rows with a poison bit a row (for MMAG from the gather, whose 64-byte chunks are listed as lane, number, physical and tagged
address; for an `.AB` form the list holds the source tiles), the clock from which it may start, whether its operands have been read, its finish, the
clock it carries (R163), its MXS charge with the period it was made in, and its instruction parcel. -/
structure MatOp where
  id : Nat
  warp : Nat
  uid : Nat
  fibre : Nat
  team : Nat
  form : MatForm
  k : Nat
  acc : Bool
  rows : Word
  tile : Nat
  aAddr : Nat := 0
  bAddr : Nat := 0
  aRank : Nat := 0
  bRank : Nat := 0
  aBytes : List Byte := []
  aPoison : Word := 0
  chunks : List (Nat × Nat × Nat × Nat) := []
  notBefore : Nat := 0
  fetched : Bool := false
  bBytes : List Byte := []
  bPoison : Bool := false
  until_ : Nat := 0
  ptrB : DWord := 0
  c : Nat := 0
  kin : List Nat := []
  mxs : Nat := 0
  mxsAt : Nat := 0
  parcel : Nat := 0
  deriving DecidableEq, Repr, Inhabited

/-- A CU (R25): its overlay banks, its matrix engine, its copy engine's list, the grants of its bank store (offset, bytes, team), its issue history
(for each issue slot the warp slot that issued last and when), the copy engine's clock (R155), accumulator moves whose tiles are not readable yet,
and the rare conditions of the failure chapters: blocked REGGROWs, deadlock, the favoured warp, spilled warps in spill order, compaction for a grid
with its running move (from, bytes, to), and what it keeps for reserved launches: blocks (offset, bytes, grid) and warp slots (slot, grid); whether
it, or its copy engine alone, is dead; and, as inputs, whether it or its copy engine answers nothing, with the clocks since which a request of the
CU, and of its engine, has stood unanswered (R356, R359). -/
structure Cu where
  banks : List Bank := []
  running : Option MatOp := none
  queue : List MatOp := []
  tileBusy : AMap (List Nat) := []
  gather : List Nat := []
  gatherTill : Nat := 0
  copies : List Nat := []
  rr : Nat := 0
  engineC : Nat := 0
  grants : List (Nat × Nat × Nat) := []
  lastSlot : AMap (Nat × Nat) := []
  blocked : List Nat := []
  deadlockAt : Option Nat := none
  favoured : Option Nat := none
  spillList : List Nat := []
  compacting : Option Nat := none
  kept : List (Nat × Nat × Nat) := []
  keptSlots : List (Nat × Nat) := []
  moving : Option (Nat × Nat × Nat) := none
  dead : Bool := false
  engineDead : Bool := false
  mute : Bool := false
  engineMute : Bool := false
  silentFrom : Option Nat := none
  engineFrom : Option Nat := none
  deriving DecidableEq, Repr, Inhabited

/-- A resident team (R58-R64, R96): grid, index, group and rank, CU, warps, the bay map (N logical bays, then S spare
ones) as physical offsets, and the log of scratchpad writes the side port draws on (R164). -/
structure Team where
  grid : Nat
  index : Nat
  group : Nat
  rank : Nat
  cu : Nat
  warps : List Nat
  bays : List Nat
  spares : List Nat
  startAt : Nat := 0
  started : Bool := false
  c0 : Nat := 0
  episodes : AMap Nat := []
  copies : List Nat := []
  spLog : List (Nat × Byte) := []
  lost : Bool := false
  bayMoving : Bool := false
  vc0 : AMap Nat := []
  deriving DecidableEq, Repr, Inhabited

/-- The fields of a launch record (R107). -/
structure LaunchRec where
  param : List Byte := []
  done : Nat := 0
  waitn : Nat := 0
  waitc : Nat := 0
  winmapAt : Nat := 0
  prio : Nat := 0
  group : Nat := 0
  rr : Bool := false
  det : Bool := false
  spare : Nat := 0
  bays : Nat := 0
  regs : Nat := 0
  fibres : Nat := 1
  warps : Nat := 1
  gridx : Nat := 1
  gridy : Nat := 1
  gridz : Nat := 1
  entry : BitVec 23 := 0
  code : Nat := 0
  deriving DecidableEq, Repr, Inhabited

/-- The issuer of a launch, kept for notice records (R365). -/
structure Issuer where
  team : Nat := 0
  warp : Nat := 0
  fibre : Nat := 0
  entry : Nat := 0
  deriving DecidableEq, Repr, Inhabited

/-- An accepted launch and its grid (R56, R60, R108-R113). -/
structure Grid where
  ctx : Nat
  number : Nat := 0
  parent : Option Nat := none
  depth : Nat := 0
  lr : LaunchRec := {}
  det : Bool := false
  winmap : Sparse 8 := []
  seed : Word := 0
  c : Nat := 0
  issuer : Issuer := {}
  nextTeam : Nat := 0
  finished : List Nat := []
  children : Nat := 0
  held : Bool := false
  dropped : Bool := false
  acquireTs : Nat := 0
  dealFrom : Nat := 0
  failSince : Option Nat := none
  waitPhys : Nat := 0
  reserved : Bool := false
  retired : Bool := false
  vc : AMap Nat := []
  vcEnd : AMap Nat := []
  deriving DecidableEq, Repr, Inhabited

/-- A launch on its way to acceptance (R108, R254): its issuer's place, the record's address, how far it has come, and the group that asked
for it with the lane whose pointer it took. -/
structure Launch where
  ctx : Nat
  grid : Option Nat := none
  warp : Nat := 0
  uid : Nat := 0
  ks : Nat := 0
  addr : Nat := 0
  depth : Nat := 0
  det : Bool := false
  wNum : Nat := 0
  issuer : Issuer := {}
  c : Nat := 0
  stage : Nat := 0
  recBytes : List Byte := []
  order : Nat := 0
  pc : BitVec 23 := 0
  lane : Nat := 0
  parcel : Nat := 0
  kin : List Nat := []
  vc : AMap Nat := []
  deriving DecidableEq, Repr, Inhabited

/-- A shadow-paired region (R276, R312) and its selector. -/
structure Shadow where
  base : Nat
  bytes : Nat
  delta : Int
  second : Bool := false
  deriving DecidableEq, Repr, Inhabited

/-- The run states of a context (R313, R318, R360). -/
inductive CtxState where
  | running | stopping | halted | preempted | contained
  deriving DecidableEq, Repr, Inhabited

/-- A line at its home (R155, R157, R162, R230): timestamps, owner, lock, first-come first-served queue, whether the home's
L2 holds it, the L2 contents and dirty bit of a format-window view line (R143), and directory recovery (R356). -/
structure Line where
  wts : Nat := 0
  rts : Nat := 0
  owner : Option Nat := none
  lock : Option Nat := none
  queue : List Nat := []
  inL2 : Bool := false
  view : Option (List Byte × Bool) := none
  recovering : Bool := false
  deriving DecidableEq, Repr, Inhabited

/-- A lease copy in an L1 (R155, R157), or a line held with ownership. -/
structure L1Line where
  wts : Nat
  rts : Nat
  filled : Nat
  owned : Bool := false
  data : List Byte := []
  poison : List (Nat × Nat) := []
  deriving DecidableEq, Repr, Inhabited

/-- A cached translation (R105): context, page base and size, physical page, and the permission bits. -/
structure Tlb where
  ctx : Nat
  base : Nat
  bytes : Nat
  frame : Nat
  x : Bool
  w : Bool
  sv : Bool
  deriving DecidableEq, Repr, Inhabited

/-- A page walk (R105): the page, the issue slots and dies that wait, the strands held, the engines' dies (8: the hub) whose caches take the
leaf, whether one of the 64 walkers has it (R18), and the clocks by which its request was held on its way to the hub (R21). -/
structure Walk where
  ctx : Nat
  va : Nat
  site : Nat
  slots : List Nat
  uids : List Nat
  sites : List Nat := []
  running : Bool := true
  lead : Nat := 0
  deriving DecidableEq, Repr, Inhabited

/-- What an access does to its bytes when it performs; a probe only tells its strand that its group's request has reached the homes (R163). -/
inductive Act where
  | read
  | write (data : List Byte)
  | atom (op : Nat) (b e n : Nat)
  | faddc (a : Word)
  | prefetch (l2 : Bool)
  | probe
  deriving DecidableEq, Repr, Inhabited

/-- Where an access performs (R157, R213, R222). -/
inductive Where where
  | home | l1 | near | cu
  deriving DecidableEq, Repr, Inhabited

/-- One lane's access in progress (R211): its agent, the load it reports to, address, size, action, request type, the
timing still to come, its ordering form (the scope of an acquire with the horizon once taken; the first request of a release
group until it leaves), whether it is no event of mo (R154), whether and when it has arrived, whether it has performed, its timestamp, and the
least clock and the identities its agent had before it. -/
structure Req where
  ctx : Nat
  cu : Nat
  warp : Nat
  entry : Nat
  fibre : Nat
  uid : Nat
  lane : Nat
  load : Option Nat := none
  addr : Nat
  va : Nat
  bytes : Nat
  act : Act
  place : Where
  q : Nat := 0
  sp : Nat := 0
  acq : Option Nat := none
  horizon : Option Nat := none
  rel : Option Nat := none
  lead : Nat := 0
  back : Nat
  hub : Bool := false
  own : Bool := false
  arrived : Bool := false
  since : Nat := 0
  done : Bool := false
  ts : Nat := 0
  race : Bool := false
  c : Nat := 0
  kin : List Nat := []
  deriving DecidableEq, Repr, Inhabited

/-- A load in progress (R212, R220): where its results go and the results that have come, per lane; for the first read of a WAITC the
k register it names (R249). -/
structure Load where
  warp : Nat
  uid : Nat
  fibre : Nat
  pipe : Nat
  regs : Option (Nat × Bool)
  kreg : Option Nat := none
  bytes : Nat
  signed : Bool := false
  latched : Bool := true
  left : Nat
  due : Nat := 0
  vals : AMap (BitVec 64) := []
  poison : AMap Nat := []
  waitc : Option (BitVec 8) := none
  deriving DecidableEq, Repr, Inhabited

/-- An MCAS in progress (R228, R302): its strand, status register and block pointer; how far it has come (0 waiting for acknowledgements, 1 reading
the block, 2 locking, 3 released); the words (address, bytes, expected, new) with their tagged pointers, the strand's clock before it and the clock
that the .dev horizon gives it (R330), the lines in lock order and how many are granted, the clocks at which the releases arrive, the writes of the
expected fields with their addresses and observed bytes, and the block bytes a later store of the strand races with (R231). -/
structure Mcas where
  ctx : Nat
  cu : Nat
  warp : Nat
  uid : Nat
  ks : Nat
  ptr : DWord
  lane : Nat := 0
  parcel : Nat := 0
  stage : Nat := 0
  c0 : Nat := 0
  c : Nat := 0
  words : List (Nat × Nat × Nat × Nat) := []
  vas : List Nat := []
  lines : List Nat := []
  granted : Nat := 0
  due : AMap Nat := []
  success : Bool := false
  exps : List Nat := []
  expAt : List Nat := []
  expBytes : List (Nat × Byte) := []
  racing : List Nat := []
  deriving DecidableEq, Repr, Inhabited

/-- Kinds of copies (R269). -/
inductive CopyKind where
  | tensor | linear | overlay
  deriving DecidableEq, Repr, Inhabited

/-- A copy in progress (R269-R276): its issuer, status register, the units still to read (source and landing place of each
byte), what has landed, the landing bays, the page it last asked a walk for, and the code it will report. -/
structure Copy where
  ctx : Nat
  cu : Nat
  warp : Nat
  uid : Nat
  fibre : Nat
  team : Nat
  ks : Option Nat
  kind : CopyKind
  started : Bool := false
  readyAt : Nat := 0
  src : Nat := 0
  dst : Nat := 0
  n : Nat := 0
  recB : List Byte := []
  coords : List Int := []
  total : Nat := 0
  moved : Nat := 0
  landing : List (Nat × Nat) := []
  landed : Sparse 8 := []
  region : Option Nat := none
  walked : Option Nat := none
  code : Nat := 0
  ended : Bool := false
  endedAt : Nat := 0
  c : Nat := 0
  kin : List Nat := []
  vc : AMap Nat := []
  deriving DecidableEq, Repr, Inhabited

/-- A saved image (R320): its MIG and whether another part saved it (R319); the grids, acceptance counter, seed and held trap records, which another
part's image brings; the selectors of its shadow-paired regions (R312); the teams in the order of R320 with their warps; the row flags of the tiles,
the poison and the timestamps of the saved bytes, by their place in the save area; and the pending publishes in publish order. The bytes of the
register, tile and bay segments lie in the save area itself. -/
structure Saved where
  mig : Bool
  foreign : Bool := false
  grids : List (Nat × Grid) := []
  nextNumber : Nat := 0
  seed : Word := 0
  records : List (Nat × Nat × Nat) := []
  selectors : List Bool := []
  teams : List (Nat × Team)
  warps : List (Nat × Warp)
  rowFlags : List (Nat × BitVec 32) := []
  poison : List (Nat × Nat) := []
  lines : List (Nat × Line) := []
  publishes : List (Nat × Copy) := []
  deriving DecidableEq, Repr, Inhabited

/-- A context (R311): where its record lies and the record's fields; the current seed (R152); acceptance numbering (R108); the trap ring (R336): its
size, TAKEN as last read, POSTED, the next SEQ, records on their way to the hub (arrival, order key, strand, record), records the hub holds (SEQ,
strand, record), the posting in progress (stage, clock) and the watch on TAKEN; its run state and the stop in progress (R318, R375, R376); the warp
slots that HALT keeps (with their warp keys); the saved image and the replies held for it (R345); and whether a RESTORE waits for room (R377). -/
structure Ctx where
  state : CtxState := .running
  save : Nat := 0
  trapq : Nat := 0
  ptroot : Nat := 0
  rootl : Nat := 0
  seed : Word := 0
  finrev : Nat := 0x10
  minstep : Nat := 0
  func : Nat := 0
  dbg : Bool := false
  sup : Bool := false
  place : Nat := 0
  lease : Nat := 4096
  atomLimit : Nat := 0
  linkLimit : Nat := 0
  copyLimit : Nat := 0
  mxsLimit : Nat := 0
  shadows : List Shadow := []
  nextNumber : Nat := 0
  log2n : Nat := 4
  taken : Nat := 0
  posted : Nat := 0
  nextSeq : Nat := 0
  inflight : List (Nat × Nat × Nat × Nat) := []
  records : List (Nat × Nat × Nat) := []
  posting : Option (Nat × Nat) := none
  takenQ : List Nat := []
  ringAt : Nat := 0
  ringFull : Bool := false
  ringFailed : Bool := false
  stopAt : Option Nat := none
  stopHalt : Bool := false
  mig : Bool := false
  aborted : Bool := false
  stopCode : Nat := 0
  stopBegun : Bool := false
  saving : Bool := false
  restoring : Bool := false
  recAt : Nat := 0
  reservedSlots : List Nat := []
  saved : Option Saved := none
  heldReplies : List Nat := []
  deriving DecidableEq, Repr, Inhabited

/-- An overlay being fetched into a CU (R277, R279, R341): the request, the OVLOADs that report it, how far it has come (0
reading the directory, 1 waiting for a bank, 2 reading the code), and the entry. -/
structure OvlLoad where
  ctx : Nat
  cu : Nat
  dir : Nat
  ovl : Nat
  copies : List Nat := []
  stage : Nat := 0
  len : Nat := 0
  addr : Nat := 0
  deriving DecidableEq, Repr, Inhabited

/-- A barrier episode whose condition has held (R247). -/
structure Episode where
  kind : Nat
  teams : List Nat
  uids : List Nat
  c : Nat
  vc : AMap Nat := []
  deriving DecidableEq, Repr, Inhabited

/-- Kinds of replies (R345). -/
inductive ReplyKind where
  | resume | redirect | kill
  deriving DecidableEq, Repr, Inhabited

/-- A reply on its way (R345, R383): its strand, its record's 16-byte places, how far it has come (0 to the hub, 1 to the named
strand, 2 back), and the strand the record names with its NEWPC. -/
structure Reply where
  ctx : Nat
  warp : Nat
  uid : Nat
  kind : ReplyKind
  chunks : List Nat := []
  ptr : Nat := 0
  lane : Nat := 0
  parcel : Nat := 0
  kin : List Nat := []
  stage : Nat := 0
  target : Nat := 0
  tctx : Nat := 0
  seq : Nat := 0
  newpc : BitVec 23 := 0
  deriving DecidableEq, Repr, Inhabited

/-- Kinds of supervisor operations (R283-R285). -/
inductive SupKind where
  | xinv | fwwr | fwrd | lwbi
  deriving DecidableEq, Repr, Inhabited

/-- A supervisor operation in progress (R282-R285): its strand, the window number or the byte count, the status register, its
pointer and the 16-byte places it names, and the walks in flight at issue. -/
structure SupOp where
  ctx : Nat
  warp : Nat
  uid : Nat
  kind : SupKind
  n : Nat := 0
  ks : Option Nat := none
  chunks : List Nat := []
  ptr : Nat := 0
  lane : Nat := 0
  parcel : Nat := 0
  kin : List Nat := []
  walks : List Nat := []
  deriving DecidableEq, Repr, Inhabited

/-- A 256-byte piece of an inbound write at the hub ordering point (R166, R327): its domain and write, its physical address and bytes,
its sequence number, the clock by which it is translated, the lines still to lock, the bid with the clock it reaches the hub, and its timestamp. -/
structure Piece where
  domain : Nat
  write : Nat
  ctx : Nat
  addr : Nat
  data : List Byte
  ep : Bool
  seq : Nat
  readyAt : Nat := 0
  released : Bool := false
  left : Nat := 0
  bid : Option Nat := none
  bidAt : Nat := 0
  ts : Option Nat := none
  desc : Option Nat := none
  deriving DecidableEq, Repr, Inhabited

/-- A host or peer read, or one of the hub copy engine (R166, R309): it waits for its translation and for the writes of its domain before a sequence
number, is sent to its home, and brings its bytes back. -/
structure HRead where
  domain : Nat
  ctx : Nat
  addr : Nat
  n : Nat
  off : Nat := 0
  after : Nat
  readyAt : Nat := 0
  sent : Bool := false
  data : Option (List Byte) := none
  ep : Bool := false
  desc : Option Nat := none
  deriving DecidableEq, Repr, Inhabited

/-- A compute die (R314, R379): its join status word's fields, its timestamp floor, its temperature, the step of its join in progress, whether it is
in the placement pool, the translations it has loaded (R314), and, as an input, whether it answers no heartbeat, with the clock of the first it left
unanswered (R359). -/
structure Die where
  status : Nat := 0
  reason : Nat := 0
  step : Nat := 0
  tries : Nat := 0
  floor : Nat := 0
  temp : Nat := 0
  stage : Nat := 0
  pooled : Bool := false
  translations : List (Nat × Nat × Nat × Nat) := []
  mute : Bool := false
  silentFrom : Option Nat := none
  deriving DecidableEq, Repr, Inhabited

/-- One direction of a link (R357): the failures in a row of a flit with its sequence number, the next sequence number, and the flits the
sender keeps: sequence number and the clock it was last sent. -/
structure Lane where
  fails : Nat := 0
  failSeq : BitVec 12 := 0
  next : BitVec 12 := 0
  kept : List (BitVec 12 × Nat) := []
  deriving DecidableEq, Repr, Inhabited

/-- A Ubaro link or peer port (R357, R358): up, retraining or lost (0, 1, 2), the clocks of its recent retrains, the clock at which it has
trained, and its two directions: out of its lower end (a ring link's own site, a spoke's site, a port's hub), and back. -/
structure Link where
  state : Nat := 0
  retrains : List Nat := []
  trained : Nat := 0
  out : Lane := {}
  back : Lane := {}
  deriving DecidableEq, Repr, Inhabited

/-- A format window (R141). -/
structure Window where
  scale : Nat := 0
  fmt : Word := 0
  log2l : Nat := 0
  size : Nat := 0
  en : Bool := false
  store : Nat := 0
  view : Nat := 0
  deriving DecidableEq, Repr, Inhabited

/-- An error record (R363). -/
structure ErrRec where
  paddr : Nat := 0
  clock : Nat := 0
  ctx : Nat := 255
  unit : Nat := 0
  site : Nat := 0
  cu : Nat := 0
  corr : Nat := 0
  kind : Nat := 0
  deriving DecidableEq, Repr, Inhabited

/-- Messages to the outside, oldest first: replies of the context port (R377), mailbox replies (R324, R325), MSI-X signals
(R256, R309, R336, R363), completions of host reads (R308, R362), bytes written to host memory and to peer parts (R309,
R310), translation requests for host pages (R307), and Unsupported Requests logged through AER (R362). -/
inductive Msg where
  | port (ctx code : Nat)
  | mailbox (what : Nat) (data : List Byte)
  | msix (fn vector : Nat)
  | completion (domain : Nat) (ok ep : Bool) (data : List Byte)
  | hostMem (addr : Nat) (data : List Byte)
  | peer (port addr : Nat) (data : List Byte)
  | ats (page : Nat)
  | aer (fn : Nat)
  deriving DecidableEq, Repr, Inhabited

/-- A logged access of a deterministic grid (R163, R361): its context, bytes, fibre, the strand's identity and stamp that
other strands' vector clocks cover once it is ordered before them, its kind, its CU, and the operation number it was logged under. -/
structure DetAcc where
  ctx : Nat
  addr : Nat
  bytes : Nat
  fibre : Nat
  uid : Nat
  stamp : Nat
  wrote : Bool
  commut : Bool
  cu : Nat
  op : Nat := 0
  deriving DecidableEq, Repr, Inhabited

/-- The strand whose group issues in the next step: its warp slot and its table entry. -/
structure Cur where
  warp : Nat
  entry : Nat
  deriving DecidableEq, Repr, Inhabited

/-- A scheduled step of the part: its clock, its place among those of one clock, and the step. -/
structure Agenda where
  due : Nat
  prio : Nat
  ev : Instr
  deriving DecidableEq, Repr

/-- An error that a structure finds in itself (R347), an input: one of its unit that was corrected; one that was not, in a word at a physical
address; in a CU's L1 line of an address; in a k register or a predicate; in a CU's control state; in a lane word of a latch; in a cached
translation of an address; in an overlay bank. -/
inductive Upset where
  | corrected (unit site cu : Nat)
  | word (a : Nat)
  | l1 (cu a : Nat)
  | control (cu : Nat)
  | kreg (warp k : Nat)
  | pred (warp fibre p : Nat)
  | latch (warp entry j : Nat)
  | tlb (ctx va : Nat)
  | bank (cu j : Nat)
  deriving DecidableEq, Repr, Inhabited

/-- The state of the package. -/
structure State where
  clock : Nat := 0
  mem : List Host.Cell := []
  poison : AMap Nat := []
  rowFlags : Sparse 32 := []
  lines : AMap Line := []
  behind : AMap (List Byte) := []
  tmax : AMap Nat := []
  l1 : AMap (AMap L1Line) := []
  tlbSlot : AMap (List Tlb) := []
  tlbDie : AMap (List Tlb) := []
  walkCache : List (Nat × Nat × Nat × Nat) := []
  walks : AMap Walk := []
  horLoc : AMap Nat := []
  horGal : AMap Nat := []
  horDev : AMap Nat := []
  horSys : Nat := 0
  cus : AMap Cu := []
  warps : AMap Warp := []
  teams : AMap Team := []
  grids : AMap Grid := []
  ctxs : AMap Ctx := []
  atomUsed : AMap Nat := []
  linkUsed : AMap Nat := []
  linkHeld : AMap Nat := []
  copyUsed : AMap Nat := []
  copyHeld : AMap Nat := []
  mxsUsed : AMap Nat := []
  deferred : List (Nat × Instr) := []
  windows : AMap Window := []
  launches : AMap Launch := []
  loads : AMap Load := []
  reqs : AMap Req := []
  mcas : AMap Mcas := []
  copies : AMap Copy := []
  gathers : AMap MatOp := []
  ovls : AMap OvlLoad := []
  episodes : AMap Episode := []
  replies : AMap Reply := []
  supOps : AMap SupOp := []
  pieces : AMap Piece := []
  hreads : AMap HRead := []
  descs : AMap HubDesc := []
  hubH : Nat := 0
  hubSeq : Nat := 0
  hubC : AMap Nat := []
  dealNext : Nat := 0
  damam : List (Nat × Nat × Nat × Nat) := []
  contract : Word := 0
  dies : AMap Die := []
  links : AMap Link := []
  firmwareOk : Bool := true
  firmwareImage : Option (List Byte) := none
  firmwareNext : Option (Nat × List Byte) := none
  firmwareVer : Nat := 0
  fnCtx : AMap Nat := []
  powerCap : Nat := 3400
  mhz : Nat := 2700
  capMhz : Nat := 2700
  throttled : Bool := false
  watchLimit : Nat := 4294967296
  watchNext : Option Nat := none
  errLog : List ErrRec := []
  corrected : AMap Nat := []
  hostUp : Bool := true
  insecure : List Nat := []
  msgs : List Msg := []
  atsCache : AMap Nat := []
  msixTable : AMap (BitVec 128) := []
  upsets : List Upset := []
  routes : AMap (List (Nat × Nat)) := []
  scrubAt : Nat := 0
  rehomed : List Nat := []
  spillUsed : AMap Nat := []
  detLog : List DetAcc := []
  detSync : AMap (AMap Nat) := []
  undo : List (Nat × Undo) := []
  fibreEntry : AMap (BitVec 23) := []
  freeCtr : Nat := 0
  delays : List Nat := []
  cur : Option Cur := none
  toServe : List Nat := []
  tried : List Nat := []
  agenda : List Agenda := []
  nextId : Nat := 1
  deriving DecidableEq, Repr

/-- The faults of a step. -/
inductive Fault where
  /-- exec of an encoded instruction in a state in which no strand has been chosen to issue: the part never runs an
  instruction without a strand. Raised by every encoded instruction's meaning; safe. -/
  | noStrand
  deriving DecidableEq, Repr

/-- The refusals of a step. -/
inductive Refusal where
  /-- An instruction with no meaning in the model yet. Raised by Dispatch only; safe. -/
  | notModelled (mnemonic : String)
  deriving DecidableEq, Repr

/-- The package right after reset: clock 0 (R280), every die parked (R314), no context (R106), every register the spec
gives a reset value at that value, and the boot step due.

DESIGN CHOICE (log entry 2, unsafe): reset values of the power cap, clock rate, links, scrubber, firmware mark, logs, caches, timestamps, horizons and
hub counters are not given, and named values are taken (caches empty, counters 0, links up, 3,400 W, 2,700 MHz). -/
def State.reset : State :=
  { firmwareVer := Config.firmwareVersion, agenda := [{ due := 0, prio := 0, ev := .packageReset }] }

end Sys2Proof.Machine

/-- FREE VALUE. What the save area of another part's context holds, by its header's bytes (R320): the spec gives the segments sizes and no
layout. -/
opaque Sys2Proof.Config.foreignImage : List Sys2Proof.Byte → Option Sys2Proof.Machine.Saved
end

