-- ==== Sys2Proof/Machine/Maps.lean ====
section
/-! DEFINITION. The operations on finite maps, sparse maps and byte memories, each of which keeps the canonical form: keys
strictly rising, and in a sparse map no entry equal to 0. -/

namespace Sys2Proof.Machine

/-- The value at a key. -/
def amGet {α : Type} : AMap α → Nat → Option α
  | [], _ => none
  | (k, v) :: t, a => if k = a then some v else amGet t a

/-- The map with a value at a key. -/
def amSet {α : Type} : AMap α → Nat → α → AMap α
  | [], a, x => [(a, x)]
  | (k, v) :: t, a, x =>
    if a < k then (a, x) :: (k, v) :: t
    else if a = k then (a, x) :: t
    else (k, v) :: amSet t a x

/-- The map without a key. -/
def amErase {α : Type} (m : AMap α) (a : Nat) : AMap α := m.filter fun e => decide (e.1 ≠ a)

/-- The map with the value at a key changed, if there is one. -/
def amMod {α : Type} (m : AMap α) (a : Nat) (f : α → α) : AMap α :=
  match amGet m a with
  | some v => amSet m a (f v)
  | none => m

/-- The value at a key, or a default. -/
def amGetD {α : Type} (m : AMap α) (a : Nat) (d : α) : α := (amGet m a).getD d

/-- The values of a map. -/
def amVals {α : Type} (m : AMap α) : List α := m.map Prod.snd

/-- The word at a key; 0 where nothing is listed. -/
def spGet {w : Nat} : Sparse w → Nat → BitVec w
  | [], _ => 0
  | (k, v) :: t, a => if k = a then v else spGet t a

/-- The sparse map with a word at a key; writing 0 removes the entry. -/
def spSet {w : Nat} (m : Sparse w) (a : Nat) (x : BitVec w) : Sparse w := if x = 0 then amErase m a else amSet m a x

/-- The entries of a run of words that starts at a. -/
def runOf {w : Nat} : Nat → List (BitVec w) → Sparse w
  | _, [] => []
  | a, b :: t => if b = 0 then runOf (a + 1) t else (a, b) :: runOf (a + 1) t

/-- The sparse map with a run of words written at a. -/
def spWrite {w : Nat} (m : Sparse w) (a : Nat) (bs : List (BitVec w)) : Sparse w :=
  (m.filter fun e => decide (e.1 < a)) ++ runOf a bs ++ (m.filter fun e => decide (a + bs.length ≤ e.1))

/-- n words from a. -/
def spRead {w : Nat} (m : Sparse w) (a n : Nat) : List (BitVec w) := (List.range n).map fun i => spGet m (a + i)

/-- Keys strictly rising from above a bound, and no entry equal to 0. -/
def spWfFrom {w : Nat} : Option Nat → Sparse w → Bool
  | _, [] => true
  | lo, (k, v) :: t => (match lo with | some b => decide (b < k) | none => true) && decide (v ≠ 0) && spWfFrom (some k) t

/-- The canonical form of a sparse map. -/
def spWf {w : Nat} (m : Sparse w) : Bool := spWfFrom none m

/-- The canonical form of memory: addresses strictly rising, no byte equal to 0, which is what an unlisted address
reads as. -/
def Memory.wf (m : List Host.Cell) : Bool := spWf (w := 8) m

end Sys2Proof.Machine
end

