-- ==== Sys2Proof/Machine/Bits.lean ====
section
/-! DEFINITION. Bit-field, sign-extension and byte-order helpers (R6, R7). -/

namespace Sys2Proof.Machine

/-- The len bits of n from bit lo up. -/
def bitsOf (n lo len : Nat) : Nat := n / 2 ^ lo % 2 ^ len

/-- n read as a two's-complement number of w bits. -/
def sext (w n : Nat) : Int :=
  let m := n % 2 ^ w
  if m < 2 ^ (w - 1) then (m : Int) else (m : Int) - (2 ^ w : Nat)

/-- An integer as a word of w bits, taken mod 2^w. -/
def ofInt (w : Nat) (x : Int) : BitVec w := BitVec.ofInt w x

/-- n bytes of x, the lowest first (R7). -/
def toBytes : Nat → Nat → List Byte
  | 0, _ => []
  | n + 1, x => BitVec.ofNat 8 x :: toBytes n (x / 256)

/-- The number whose bytes, lowest first, are given (R7). -/
def ofBytes : List Byte → Nat
  | [] => 0
  | b :: t => b.toNat + 256 * ofBytes t

/-- x rounded up to a multiple of n. -/
def alignUp (x n : Nat) : Nat := (x + n - 1) / n * n

/-- The active lanes of a mask, ascending (R11). -/
def lanesOf (m : Word) : List Nat := (List.range 32).filter fun i => m.getLsbD i

/-- The lowest active lane. -/
def lowLane (m : Word) : Option Nat := (lanesOf m).head?

/-- The mask of a list of lanes. -/
def maskOf (l : List Nat) : Word := l.foldl (fun m i => m ||| BitVec.ofNat 32 (2 ^ i)) 0

/-- The number of ones. -/
def popCount (m : Word) : Nat := (lanesOf m).length

end Sys2Proof.Machine
end

