-- ==== Sys2Proof/Machine/Float.lean ====
section
/-! DEFINITION. Floating-point formats, exact values, rounding, flags, comparisons and the correctly rounded operations
(R123-R136). Values are exact dyadics; one rounding function serves every operation. -/

namespace Sys2Proof.Machine

/-- The sticky flags of fstat (R128), bit 5 down: AS, NV, DZ, OF, UF, NX. -/
abbrev Flags := BitVec 6

def fNX : Flags := 1
def fUF : Flags := 2
def fOF : Flags := 4
def fDZ : Flags := 8
def fNV : Flags := 16
def fAS : Flags := 32

/-- A binary format by its exponent and fraction widths (R123). -/
structure Fmt where
  eb : Nat
  fb : Nat
  deriving DecidableEq, Repr

def fmt32 : Fmt := ⟨8, 23⟩
def fmt16 : Fmt := ⟨5, 10⟩
def fmtBf : Fmt := ⟨8, 7⟩

/-- Bits of the format. -/
def Fmt.width (f : Fmt) : Nat := 1 + f.eb + f.fb

/-- Exponent bias. -/
def Fmt.bias (f : Fmt) : Nat := 2 ^ (f.eb - 1) - 1

/-- Precision p. -/
def Fmt.p (f : Fmt) : Nat := f.fb + 1

/-- emin. -/
def Fmt.emin (f : Fmt) : Int := 1 - (f.bias : Int)

/-- The canonical NaN (R123). -/
def Fmt.nan (f : Fmt) : Nat := (2 ^ f.eb - 1) * 2 ^ f.fb + 2 ^ (f.fb - 1)

/-- An infinity. -/
def Fmt.inf (f : Fmt) (s : Bool) : Nat := (if s then 2 ^ (f.eb + f.fb) else 0) + (2 ^ f.eb - 1) * 2 ^ f.fb

/-- A zero. -/
def Fmt.zero (f : Fmt) (s : Bool) : Nat := if s then 2 ^ (f.eb + f.fb) else 0

/-- The largest finite value. -/
def Fmt.maxFin (f : Fmt) (s : Bool) : Nat := f.inf s - 1

/-- Rounding modes (R125, R33). -/
inductive Mode where
  | rne | rz | ru | rd
  deriving DecidableEq, Repr

/-- The mode of a 2-bit code (R171). -/
def Mode.ofCode (m : Nat) : Mode := if m = 0 then .rne else if m = 1 then .rz else if m = 2 then .ru else .rd

/-- The value of a bit pattern: a NaN and whether it signals, an infinity, or a finite (-1)^s × m × 2^e. -/
inductive FVal where
  | nan (sig : Bool)
  | inf (s : Bool)
  | fin (s : Bool) (m : Nat) (e : Int)
  deriving DecidableEq, Repr

/-- The value of a pattern (R123, R124). -/
def unpack (f : Fmt) (x : Nat) : FVal :=
  let s := decide (bitsOf x (f.eb + f.fb) 1 = 1)
  let e := bitsOf x f.fb f.eb
  let m := bitsOf x 0 f.fb
  if e = 2 ^ f.eb - 1 then
    if m = 0 then .inf s else .nan (decide (m < 2 ^ (f.fb - 1)))
  else if e = 0 then .fin s m (f.emin - f.fb)
  else .fin s (2 ^ f.fb + m) ((e : Int) - f.bias - f.fb)

/-- The number of bits of a number. -/
def bitLen (n : Nat) : Nat := if n = 0 then 0 else Nat.log2 n + 1

/-- Whether the magnitude grows when keep + rem/2^sh is cut to an integer under a mode (R125). -/
def growsUp (mode : Mode) (s : Bool) (keep rem sh : Nat) : Bool :=
  match mode with
  | .rne => decide (2 ^ sh < 2 * rem) || (decide (2 * rem = 2 ^ sh) && decide (keep % 2 = 1))
  | .rz => false
  | .ru => !s && decide (rem ≠ 0)
  | .rd => s && decide (rem ≠ 0)

/-- m × 2^e cut to a multiple of 2^q under a mode: the multiple and whether it differs from the exact value. -/
def cutAt (mode : Mode) (s : Bool) (m : Nat) (e q : Int) : Nat × Bool :=
  if q ≤ e then (m * 2 ^ (e - q).toNat, false)
  else
    let sh := (q - e).toNat
    let keep := m / 2 ^ sh
    let rem := m % 2 ^ sh
    (keep + (if growsUp mode s keep rem sh then 1 else 0), decide (rem ≠ 0))

/-- The overflow result (R125). -/
def overflowTo (f : Fmt) (mode : Mode) (s : Bool) : Nat :=
  match mode with
  | .rne => f.inf s
  | .rz => f.maxFin s
  | .ru => if s then f.maxFin s else f.inf s
  | .rd => if s then f.inf s else f.maxFin s

/-- round of R125 for a non-zero magnitude m × 2^e with sign s, with the flags of R128. -/
def roundMag (f : Fmt) (mode : Mode) (s : Bool) (m : Nat) (e : Int) : Nat × Flags :=
  let top : Int := e + bitLen m
  let qFree : Int := top - f.p
  let qMin : Int := f.emin - f.p + 1
  let q := max qFree qMin
  let (k, inexact) := cutAt mode s m e q
  let (kf, _) := cutAt mode s m e qFree
  let tiny := decide (qFree + f.p - 1 < f.emin ∧ (kf < 2 ^ f.p ∨ qFree + f.p < f.emin))
  let sgn := f.zero s
  let nx := if inexact then fNX else 0
  let uf := if inexact && tiny then fUF else 0
  if k < 2 ^ f.fb then (sgn + k, nx ||| uf)
  else
    let k' := if k = 2 ^ f.p then 2 ^ f.fb else k
    let q' := if k = 2 ^ f.p then q + 1 else q
    let ef := q' + f.fb + f.bias
    if ef ≥ ((2 ^ f.eb - 1 : Nat) : Int) then (overflowTo f mode s, fOF ||| fNX)
    else (sgn + ef.toNat * 2 ^ f.fb + (k' - 2 ^ f.fb), nx ||| uf)

/-- round of a finite value whose zero has the given sign (R125, R126). -/
def roundTo (f : Fmt) (mode : Mode) (s : Bool) (m : Nat) (e : Int) : Nat × Flags :=
  if m = 0 then (f.zero s, 0) else roundMag f mode s m e

/-- A finite value as an integer multiple of 2^q, for q at or below its exponent. -/
def scaled (s : Bool) (m : Nat) (e q : Int) : Int :=
  let v : Int := (m : Int) * (2 ^ (e - q).toNat : Nat)
  if s then -v else v

/-- round of an exact sum v × 2^q; a zero sum takes the sign of R126: of its terms when they are all zeros of one sign,
and else +, or - under RD. -/
def roundSum (f : Fmt) (mode : Mode) (v : Int) (q : Int) (allNegZero allPosZero : Bool) : Nat × Flags :=
  if v = 0 then
    (f.zero (if allNegZero then true else if allPosZero then false else decide (mode = .rd)), 0)
  else roundMag f mode (decide (v < 0)) v.natAbs q

/-- Whether a value signals. -/
def FVal.signals : FVal → Bool
  | .nan sig => sig
  | _ => false

/-- Whether a value is a NaN. -/
def FVal.isNan : FVal → Bool
  | .nan _ => true
  | _ => false

/-- NV when one of the values signals (R128). -/
def nvIf (b : Bool) : Flags := if b then fNV else 0

/-- Sum of two values (R132). -/
def addVals (f : Fmt) (mode : Mode) (a b : FVal) : Nat × Flags :=
  let sig := a.signals || b.signals
  match a, b with
  | .nan _, _ => (f.nan, nvIf sig)
  | _, .nan _ => (f.nan, nvIf sig)
  | .inf s, .inf t => if s = t then (f.inf s, 0) else (f.nan, fNV)
  | .inf s, .fin .. => (f.inf s, 0)
  | .fin .., .inf t => (f.inf t, 0)
  | .fin s m e, .fin t n g =>
    let q := min e g
    roundSum f mode (scaled s m e q + scaled t n g q) q
      (decide (m = 0 ∧ n = 0) && s && t) (decide (m = 0 ∧ n = 0) && !s && !t)

/-- A value with its sign flipped; NaNs as they are. -/
def FVal.neg : FVal → FVal
  | .nan g => .nan g
  | .inf s => .inf (!s)
  | .fin s m e => .fin (!s) m e

/-- FADD (R132, R191). -/
def fAdd (f : Fmt) (mode : Mode) (a b : Nat) : Nat × Flags := addVals f mode (unpack f a) (unpack f b)

/-- FSUB (R132, R191): the exact difference. -/
def fSub (f : Fmt) (mode : Mode) (a b : Nat) : Nat × Flags := addVals f mode (unpack f a) (unpack f b).neg

/-- FMUL (R132, R191). -/
def fMul (f : Fmt) (mode : Mode) (a b : Nat) : Nat × Flags :=
  let x := unpack f a
  let y := unpack f b
  let sig := x.signals || y.signals
  match x, y with
  | .nan _, _ => (f.nan, nvIf sig)
  | _, .nan _ => (f.nan, nvIf sig)
  | .inf s, .inf t => (f.inf (s != t), 0)
  | .inf s, .fin t n _ => if n = 0 then (f.nan, fNV) else (f.inf (s != t), 0)
  | .fin s m _, .inf t => if m = 0 then (f.nan, fNV) else (f.inf (s != t), 0)
  | .fin s m e, .fin t n g => roundTo f mode (s != t) (m * n) (e + g)

/-- FFMA (R132): one rounding; a product 0 × inf raises NV whatever the addend (R128). -/
def fFma (f : Fmt) (mode : Mode) (a b d : Nat) : Nat × Flags :=
  let x := unpack f a
  let y := unpack f b
  let z := unpack f d
  let sig := x.signals || y.signals || z.signals
  match x, y with
  | .nan _, _ => (f.nan, nvIf sig)
  | _, .nan _ => (f.nan, nvIf sig)
  | .inf s, .inf t =>
    match z with
    | .nan _ => (f.nan, nvIf sig)
    | .inf u => if (s != t) = u then (f.inf u, 0) else (f.nan, fNV)
    | .fin .. => (f.inf (s != t), 0)
  | .inf s, .fin t n _ =>
    if n = 0 then (f.nan, fNV)
    else
      match z with
      | .nan _ => (f.nan, nvIf sig)
      | .inf u => if (s != t) = u then (f.inf u, 0) else (f.nan, fNV)
      | .fin .. => (f.inf (s != t), 0)
  | .fin s m _, .inf t =>
    if m = 0 then (f.nan, fNV)
    else
      match z with
      | .nan _ => (f.nan, nvIf sig)
      | .inf u => if (s != t) = u then (f.inf u, 0) else (f.nan, fNV)
      | .fin .. => (f.inf (s != t), 0)
  | .fin s m e, .fin t n g =>
    match z with
    | .nan _ => (f.nan, nvIf sig)
    | .inf u => (f.inf u, 0)
    | .fin u k h =>
      let q := min (e + g) h
      let ps := s != t
      let zero := decide (m * n = 0 ∧ k = 0)
      roundSum f mode (scaled ps (m * n) (e + g) q + scaled u k h q) q (zero && ps && u) (zero && !ps && !u)

/-- A quotient with enough bits for one rounding: the low bit is set when the exact quotient goes on (R132). -/
def divMag (p m n : Nat) : Nat × Nat :=
  let k := p + 3 + bitLen n
  let x := m * 2 ^ k
  (2 * (x / n) + (if x % n = 0 then 0 else 1), k + 1)

/-- FDIV (R132, R191). -/
def fDiv (f : Fmt) (mode : Mode) (a b : Nat) : Nat × Flags :=
  let x := unpack f a
  let y := unpack f b
  let sig := x.signals || y.signals
  match x, y with
  | .nan _, _ => (f.nan, nvIf sig)
  | _, .nan _ => (f.nan, nvIf sig)
  | .inf _, .inf _ => (f.nan, fNV)
  | .inf s, .fin t _ _ => (f.inf (s != t), 0)
  | .fin s _ _, .inf t => (f.zero (s != t), 0)
  | .fin s m e, .fin t n g =>
    if n = 0 then (if m = 0 then (f.nan, fNV) else (f.inf (s != t), fDZ))
    else if m = 0 then (f.zero (s != t), 0)
    else
      let (q, k) := divMag f.p m n
      roundMag f mode (s != t) q (e - g - k)

/-- The integer square root of n by its bits, the highest first; acc holds the bits found. -/
def isqrtGo : Nat → Nat → Nat → Nat
  | 0, _, acc => acc
  | i + 1, n, acc => isqrtGo i n (if (acc + 2 ^ i) * (acc + 2 ^ i) ≤ n then acc + 2 ^ i else acc)

/-- The integer square root. -/
def isqrt (n : Nat) : Nat := isqrtGo (bitLen n / 2 + 1) n 0

/-- A square root of m × 2^e with at least b bits: magnitude with a low bit that says whether it goes on, and exponent. -/
def sqrtMag (b m : Nat) (e : Int) : Nat × Int :=
  let k : Int := e - 2 * b
  let k2 := if k % 2 = 0 then k else k - 1
  let x := m * 2 ^ (e - k2).toNat
  let r := isqrt x
  (2 * r + (if r * r = x then 0 else 1), k2 / 2 - 1)

/-- FSQRT (R132, R191). -/
def fSqrt (f : Fmt) (mode : Mode) (a : Nat) : Nat × Flags :=
  match unpack f a with
  | .nan sig => (f.nan, nvIf sig)
  | .inf s => if s then (f.nan, fNV) else (f.inf false, 0)
  | .fin s m e =>
    if m = 0 then (f.zero s, 0)
    else if s then (f.nan, fNV)
    else
      let (r, k) := sqrtMag (f.p + 4) m e
      roundMag f mode false r k

/-- RCP (R133). -/
def fRcp (a : Nat) : Nat × Flags :=
  match unpack fmt32 a with
  | .nan sig => (fmt32.nan, nvIf sig)
  | .inf s => (fmt32.zero s, 0)
  | .fin s m e =>
    if m = 0 then (fmt32.inf s, fDZ)
    else
      let (q, k) := divMag fmt32.p 1 m
      roundMag fmt32 .rne s q (-e - k)

/-- RSQ (R133): the reciprocal of the root, as the root of the reciprocal to twice the bits. -/
def fRsq (a : Nat) : Nat × Flags :=
  match unpack fmt32 a with
  | .nan sig => (fmt32.nan, nvIf sig)
  | .inf s => if s then (fmt32.nan, fNV) else (fmt32.zero false, 0)
  | .fin s m e =>
    if m = 0 then (fmt32.inf s, fDZ)
    else if s then (fmt32.nan, fNV)
    else
      let e2 := if e % 2 = 0 then e else e - 1
      let m2 := if e % 2 = 0 then m else 2 * m
      let x := 2 ^ 160 / m2
      let r := isqrt x
      roundMag fmt32 .rne false (2 * r + (if r * r * m2 = 2 ^ 160 then 0 else 1)) (-e2 / 2 - 81)

/-- key of R130: unsigned order of keys is IEEE totalOrder. -/
def totalKey (w x : Nat) : Nat := if bitsOf x (w - 1) 1 = 1 then 2 ^ w - 1 - x % 2 ^ w else x % 2 ^ w + 2 ^ (w - 1)

/-- total_less of R130 on patterns of w bits. -/
def totalLess (w a b : Nat) : Bool := decide (totalKey w a < totalKey w b)

/-- min of R131. -/
def fMin (w a b : Nat) : Nat := if totalLess w b a then b else a

/-- max of R131. -/
def fMax (w a b : Nat) : Nat := if totalLess w a b then b else a

/-- sat64 of R136. -/
def sat64 (x : Int) : Int := min (max x (-9223372036854775808)) 9223372036854775807

/-- x rounded to an integer by the mode, and whether it differs (R135). -/
def toIntegral (mode : Mode) (s : Bool) (m : Nat) (e : Int) : Int × Bool :=
  let r := if m = 0 then (0, false) else if e + bitLen m < -2 then (if growsUp mode s 0 1 3 then 1 else 0, true) else cutAt mode s m e 0
  ((if s then -(r.1 : Int) else (r.1 : Int)), r.2)

/-- The range of an integer type of w bits. -/
def intRange (signed : Bool) (w : Nat) : Int × Int :=
  if signed then (-(2 ^ (w - 1) : Nat), (2 ^ (w - 1) : Nat) - 1) else (0, (2 ^ w : Nat) - 1)

/-- float to integer of R135: saturates, NaN gives 0. -/
def floatToInt (mode : Mode) (signed : Bool) (w : Nat) (v : FVal) : Int × Flags :=
  let (lo, hi) := intRange signed w
  match v with
  | .nan _ => (0, fNV)
  | .inf s => (if s then lo else hi, fNV ||| fNX)
  | .fin s m e =>
    if 200 < e + bitLen m then (if m = 0 then (0, 0) else (if s then lo else hi, fNV ||| fNX))
    else
      let (r, nx) := toIntegral mode s m e
      if r < lo then (lo, fNV ||| fNX)
      else if hi < r then (hi, fNV ||| fNX)
      else (r, if nx then fNX else 0)

/-- Type codes of R174 as an integer type: signed and width. -/
def intType (t : Nat) : Bool × Nat :=
  if t = 0 then (true, 8) else if t = 1 then (true, 16) else if t = 2 then (true, 32) else if t = 3 then (true, 64)
  else if t = 4 then (false, 8) else if t = 5 then (false, 16) else if t = 6 then (false, 32) else if t = 7 then (false, 64)
  else (true, 64)

/-- Type codes of R174 that name a float format. -/
def floatType (t : Nat) : Option Fmt :=
  if t = 8 then some fmt32 else if t = 9 then some fmt16 else if t = 10 then some fmtBf else none

/-- CVT of R135, R193, R194 on the source value x (a lane word, or 64 bits of a pair): the result bits, 32 or 64 of them,
and the flags. -/
def convert (dt st : Nat) (mode : Mode) (x : Nat) : Nat × Flags :=
  match floatType st with
  | some sf =>
    let v := unpack sf (x % 2 ^ sf.width)
    match floatType dt with
    | some df =>
      match v with
      | .nan sig => (df.nan, nvIf sig)
      | .inf s => (df.inf s, 0)
      | .fin s m e => roundTo df mode s m e
    | none =>
      let (sg, w) := intType dt
      let (r, fl) := floatToInt mode sg w v
      ((ofInt (if w = 64 then 64 else 32) r).toNat, fl)
  | none =>
    let (ss, sw) := intType st
    let v : Int := if ss then sext sw x else ((x % 2 ^ sw : Nat) : Int)
    match floatType dt with
    | some df =>
      if v = 0 then (0, 0) else roundMag df mode (decide (v < 0)) v.natAbs 0
    | none =>
      let (ds, dw) := intType dt
      let low := (ofInt dw v).toNat
      ((ofInt (if dw = 64 then 64 else 32) (if ds then sext dw low else (low : Int))).toNat, 0)

end Sys2Proof.Machine
end

