-- ==== Sys2Proof/Machine/Narrow.lean ====
section
/-! DEFINITION. Narrow formats (R137-R140) and the Riser generator (R151). -/

namespace Sys2Proof.Machine

/-- The fields of a format word (R137). -/
structure FmtWord where
  s : Nat
  e : Nat
  m : Nat
  top : Bool
  bias : Int
  deriving DecidableEq, Repr

/-- Reads a format word (R137). -/
def fmtWord (fw : Word) : FmtWord :=
  { s := bitsOf fw.toNat 0 1, e := bitsOf fw.toNat 1 3, m := bitsOf fw.toNat 4 3,
    top := decide (bitsOf fw.toNat 7 1 = 1), bias := sext 8 (bitsOf fw.toNat 8 8) }

/-- Width of a code. -/
def FmtWord.width (f : FmtWord) : Nat := f.s + f.e + f.m

/-- Validity of a format word (R138). -/
def fmtValid (fw : Word) : Bool :=
  let f := fmtWord fw
  let t : Int := if f.e = 0 then 1 else if f.top then 2 ^ f.e - 2 else 2 ^ f.e - 1
  decide (bitsOf fw.toNat 16 16 = 0) && decide (1 ≤ f.width) && decide (f.width ≤ 8) &&
    (!f.top || (decide (2 ≤ f.e) && decide (1 ≤ f.m))) && decide (t - f.bias ≤ 127)

/-- decode_narrow (R139): the BF16 pattern of a code. -/
def decodeNarrow (code : Nat) (fw : Word) : Nat :=
  let f := fmtWord fw
  let c := code % 2 ^ f.width
  let s := decide (f.s = 1 ∧ bitsOf c (f.width - 1) 1 = 1)
  let e := if 0 < f.e then bitsOf c f.m f.e else 0
  let m := if 0 < f.m then bitsOf c 0 f.m else 0
  if !f.top && s && decide (e = 0) && decide (m = 0) then 0x7FC0
  else if f.top && decide (e = 2 ^ f.e - 1) then (if m = 0 then fmtBf.inf s else 0x7FC0)
  else if e = 0 then (roundTo fmtBf .rne s m (1 - f.bias - f.m)).1
  else (roundTo fmtBf .rne s (2 ^ f.m + m) (e - f.bias - f.m)).1

/-- The largest finite magnitude's code without its sign (R138, R140). -/
def FmtWord.maxCode (f : FmtWord) : Nat :=
  if f.top then (2 ^ f.e - 1) * 2 ^ f.m - 1 else 2 ^ (f.e + f.m) - 1

/-- The magnitude codes number the format's magnitudes in order. The number of the magnitude nearest to m × 2^e, a tie to
the even number, with the exponent unbounded above; and whether it differs from the exact value (R140). -/
def nearestCode (f : FmtWord) (m : Nat) (e : Int) : Nat × Bool :=
  let t : Int := e + bitLen m - 1
  let q : Int := if t < 1 - f.bias then 1 - f.bias - f.m else t - f.m
  let base : Nat := if t < 1 - f.bias then 0 else (t + f.bias - 1).toNat * 2 ^ f.m
  if q ≤ e then (base + m * 2 ^ (e - q).toNat, false)
  else
    let sh := (q - e).toNat
    let keep := m / 2 ^ sh
    let rem := m % 2 ^ sh
    let n := base + keep
    let up := decide (2 ^ sh < 2 * rem) || (decide (2 * rem = 2 ^ sh) && decide (n % 2 = 1))
    (n + (if up then 1 else 0), decide (rem ≠ 0))

/-- Whether m × 2^e rounded to m + 1 bits with the exponent unbounded is below 2^(1 - BIAS) (R128, R140).

DESIGN CHOICE (log entry 69, unsafe): with one bit of precision both candidates of a tie are odd, and the lower one is taken. -/
def narrowTiny (f : FmtWord) (m : Nat) (e : Int) : Bool :=
  let t : Int := e + bitLen m - 1
  if 1 - f.bias ≤ t then false
  else if t < -f.bias then true
  else
    -- the binade just below 2^(1 - BIAS): does the magnitude round up to it
    let q : Int := t - f.m
    if q ≤ e then true
    else
      let sh := (q - e).toNat
      let keep := m / 2 ^ sh
      let rem := m % 2 ^ sh
      let even := if f.m = 0 then true else decide (keep % 2 = 0)
      let up := decide (2 ^ sh < 2 * rem) || (decide (2 * rem = 2 ^ sh) && !even)
      !(up && decide (keep + 1 = 2 ^ (f.m + 1)))

/-- A magnitude number with its sign: a zero in mode 0 has sign 0 (R140, step 5). -/
def FmtWord.signed (f : FmtWord) (s : Bool) (n : Nat) : Nat :=
  if s && decide (f.s = 1) && (f.top || decide (n ≠ 0)) then 2 ^ (f.e + f.m) + n else n

/-- encode_narrow (R140) of a binary32 or BF16 value: the code byte and the flags. -/
def encodeNarrow (v : FVal) (fw : Word) : Nat × Flags :=
  let f := fmtWord fw
  match v with
  | .nan sig =>
    if f.top then (2 ^ (f.e + f.m) - 1, nvIf sig)
    else if f.s = 1 then (2 ^ (f.e + f.m), nvIf sig)
    else (0, fNV)
  | .inf s =>
    if s && decide (f.s = 0) then (0, fNX)
    else if f.top then (f.signed s ((2 ^ f.e - 1) * 2 ^ f.m), 0)
    else (f.signed s f.maxCode, fOF ||| fNX)
  | .fin s m e =>
    if m = 0 then (f.signed s 0, 0)
    else if s && decide (f.s = 0) then (0, fNX)
    else
      let (n, inexact) := nearestCode f m e
      let above := decide (f.maxCode < n)
      let fl := (if above then fOF ||| fNX else if inexact then fNX else 0) |||
        (if (above || inexact) && narrowTiny f m e then fUF else 0)
      (f.signed s (if !above then n else if f.top then (2 ^ f.e - 1) * 2 ^ f.m else f.maxCode), fl)

/-- riser (R151). -/
def riser (seed layer index : Word) : Word :=
  let x := index ^^^ seed ^^^ (layer * 0x01000193#32)
  let x := x * 0x9E3779B1#32
  let x := x ^^^ (x >>> 15)
  let x := x * 0x2C1B3C6D#32
  x ^^^ (x >>> 12)

end Sys2Proof.Machine
end

