-- ==== Sys2Proof/Machine/Mem.lean ====
section
/-! DEFINITION. Tagged pointers (R99, R208); the physical address space (R100, R101) and its bytes: DRAM, bank stores and accumulator stores in one
memory, view lines that the home L2 holds in BF16 (R143), and poison (R349, R350). -/

namespace Sys2Proof.Machine

/-! ### Pointers (R99, R208) -/

def ptrSpace (p : Nat) : Nat := p / 2 ^ 60 % 16
def ptrRank (p : Nat) : Nat := p / 2 ^ 57 % 8
def ptrOff (p : Nat) : Nat := p % 2 ^ 57
/-- A pointer with a displacement: the offset mod 2^57, no carry into the tag (R208). -/
def ptrAdd (p : Nat) (d : Int) : Nat := p % 2 ^ 64 / 2 ^ 57 * 2 ^ 57 + (((ptrOff p : Int) + d) % (2 ^ 57 : Nat)).toNat

/-! ### The physical space (R100) -/

/-- The key of CU c at a site. -/
def cuKey (site c : Nat) : Nat := site * 64 + c
def cuSite (k : Nat) : Nat := k / 64
def cuNum (k : Nat) : Nat := k % 64
/-- The gallery of a CU (R17), with its site. -/
def cuGallery (k : Nat) : Nat := k / 64 * 8 + k % 64 / 8
/-- The CUs of the package (R15, R16), ascending by site and number. -/
def allCus : List Nat := (List.range 8).flatMap fun s => (List.range (Config.cus s)).map fun c => cuKey s c

/-- The physical address of byte x of a CU's bank store (R100).

DESIGN CHOICE (log entry 59, safe): how on-chip stores are placed in the one memory. -/
def bankAddr (cu x : Nat) : Nat := 2 ^ 40 + cuSite cu * 2 ^ 28 + cuNum cu * 2 ^ 22 + x
/-- The physical address of byte x of a CU's accumulator store (R100). -/
def accAddr (cu x : Nat) : Nat := bankAddr cu (2 ^ 21 + x)
/-- Whether an address is on chip, and the CU it lies in (R100). -/
def onChip (a : Nat) : Bool := decide (2 ^ 40 ≤ a)
def chipCu (a : Nat) : Nat := cuKey ((a - 2 ^ 40) / 2 ^ 28) ((a - 2 ^ 40) % 2 ^ 28 / 2 ^ 22)
def chipOff (a : Nat) : Nat := (a - 2 ^ 40) % 2 ^ 22
/-- Whether an address lies in a DRAM region (R100). -/
def inDram (a : Nat) : Bool := decide (a < 2 ^ 39) && decide (a % 2 ^ 36 < Config.dramBytes (a / 2 ^ 36))
/-- Whether an address lies in a region of the physical map (R100). -/
def mapped (a : Nat) : Bool :=
  inDram a ||
    (onChip a && decide (a < 2 ^ 40 + 2 ^ 31) && decide (cuNum (chipCu a) < Config.cus (cuSite (chipCu a))) &&
      (decide (chipOff a < Config.bankBytes (cuSite (chipCu a))) ||
        (decide (2 ^ 21 ≤ chipOff a) && decide (chipOff a < 2 ^ 21 + Config.accBytes))))
/-- The home site of an address (R22, R100). -/
def homeOf (a : Nat) : Nat := if onChip a then cuSite (chipCu a) else a / 2 ^ 36
/-- The slice of a DRAM line (R101). -/
def sliceOf (a : Nat) : Nat :=
  let l := a % 2 ^ 36 / 64
  bitsOf l 0 6 ^^^ bitsOf l 6 6 ^^^ bitsOf l 12 6 ^^^ bitsOf l 18 6 ^^^ bitsOf l 24 6
/-- The line of an address, by its number. -/
def lineOf (a : Nat) : Nat := a / 64

/-- The line of an address at its home; a line not yet met stands at the die's floor (R155, R314). -/
def State.line (s : State) (l : Nat) : Line :=
  match amGet s.lines l with
  | some x => x
  | none =>
    let f := ((amGet s.dies (homeOf (l * 64))).map Die.floor).getD 0
    { wts := f, rts := f }

def State.setLine (s : State) (l : Nat) (x : Line) : State := { s with lines := amSet s.lines l x }

/-- The enabled format window whose view range holds an address (R141), with the element's byte place in the view.

DESIGN CHOICE (log entry 67, unsafe): view lines whose window is gone. -/
def State.viewOf (s : State) (a : Nat) : Option (Window × Nat) :=
  if onChip a then none
  else
    ((List.range 16).filterMap fun w =>
      match amGet s.windows (a / 2 ^ 36 * 16 + w) with
      | some x => if x.en && decide (x.view ≤ a) && decide (a < x.view + 4096 * x.size) then some (x, a - x.view) else none
      | none => none).head?

/-- A byte of a window's storage, which lies in DRAM (R142). -/
def State.storageByte (s : State) (a : Nat) : Byte := if onChip a then 0 else spGet s.mem a

/-- The 64 BF16 bytes that a fill of a view line reads (R143). -/
def State.viewFill (s : State) (l : Nat) : List Byte :=
  match s.viewOf (l * 64) with
  | some (w, o) =>
    (List.range 32).flatMap fun j => toBytes 2 (decodeNarrow (s.storageByte (w.store + o / 2 + j)).toNat w.fmt)
  | none => spRead s.mem (l * 64) 64

/-- The BF16 bytes of the view line of an address that L2 holds, with its dirty bit (R143); nothing on chip is in a window. -/
def State.viewAt (s : State) (a : Nat) : Option (List Byte × Bool) :=
  if onChip a then none else (amGet s.lines (lineOf a)).bind Line.view

/-- The enabled window in whose view an address lies; none in a package that has programmed no window. -/
def State.viewHere (s : State) (a : Nat) : Option (Window × Nat) := match s.windows with | [] => none | _ => s.viewOf a

/-- The byte of a view that a fill brings: of the BF16 that the element's storage byte decodes to (R143). -/
def State.viewByte (s : State) (w : Window) (o : Nat) : Byte :=
  BitVec.ofNat 8 (decodeNarrow (s.storageByte (w.store + o / 2)).toNat w.fmt / 256 ^ (o % 2))

/-- A byte of the physical space as its home has it: of a view line that L2 holds, of the view an enabled window would fill it from (the
DRAM behind a view is not read, R142), or memory.

DESIGN CHOICE (log entry 1, unsafe): contents of memory at power-on are left open, and the model reads 0. -/
def State.byte (s : State) (a : Nat) : Byte :=
  match s.viewAt a, s.viewHere a with
  | some (d, _), _ => d.getD (a % 64) 0
  | none, some (w, o) => s.viewByte w o
  | none, none => spGet s.mem a

/-- n bytes from a. -/
def State.bytes (s : State) (a n : Nat) : List Byte := (List.range n).map fun i => s.byte (a + i)

/-- A little-endian number of n bytes at a (R7). -/
def State.num (s : State) (a n : Nat) : Nat := ofBytes (s.bytes a n)

/-- A 32-bit word at a. -/
def State.word (s : State) (a : Nat) : Word := BitVec.ofNat 32 (s.num a 4)

/-- Whether an address lies in a die's spill pool (R370). -/
def inPool (a : Nat) : Bool := inDram a && decide (Config.spillPoolBase (a / 2 ^ 36) ≤ a % 2 ^ 36)

/-- The unit poison is recorded by (R349): 8 bytes of global memory, 4 bytes on chip and in a spill pool, whose words are register words.

DEDUCED (log entry 106, unsafe): a spilled register word keeps its own poison. -/
def poisonUnit (a : Nat) : Nat := if onChip a || inPool a then 4 else 8

/-- The recorded poison of the units that n bytes from a touch, by unit address (R349). -/
def State.poisonAt (s : State) (a n : Nat) : List (Nat × Nat) :=
  let u := poisonUnit a
  s.poison.filter fun e => decide (a < e.1 + u) && decide (e.1 < a + n)

/-- The poison of the 8-byte word at a of a view: as recorded where L2 holds the line, else that of its storage word (R350); it lies in no
view where there is none. -/
def State.viewPoison (s : State) (a : Nat) : List (Nat × Nat) :=
  match s.viewAt a, s.viewHere a with
  | none, some (w, o) => ((s.poisonAt (w.store + o / 2) 4).take 1).map fun e => (a, e.2)
  | _, _ => s.poisonAt a 8

/-- The origins of the poisoned units that n bytes from a touch, by unit address (R349). -/
def State.poisonIn (s : State) (a n : Nat) : List (Nat × Nat) :=
  match s.windows with
  | [] => s.poisonAt a n
  | _ =>
    if onChip a then s.poisonAt a n
    else (List.range ((a + n + 7) / 8 - a / 8)).flatMap fun i => s.viewPoison (8 * (a / 8 + i))

/-- Clears the poison of every unit that n bytes from a cover whole (R350, R351). -/
def State.unpoison (s : State) (a n : Nat) : State :=
  let u := poisonUnit a
  { s with poison := s.poison.filter fun e => !(decide (a ≤ e.1) && decide (e.1 + u ≤ a + n)) }

/-- Poisons every unit that n bytes from a touch, with origin o (R349). -/
def State.poisonRange (s : State) (a n o : Nat) : State :=
  let u := poisonUnit a
  let first := a / u
  { s with poison := (List.range ((a + n - 1) / u - first + 1)).foldl (fun m i => amSet m ((first + i) * u) o) s.poison }

/-- The poison marker of an origin (R349). -/
def marker (o : Nat) : Word := BitVec.ofNat 32 (0xFFB00000 + o)

/-- Keeps what DRAM has of a line that becomes dirty in L2 or with its owner. -/
def State.keepBehind (s : State) (a : Nat) : AMap (List Byte) :=
  match amGet s.lines (lineOf a) with
  | some x =>
    if (x.inL2 || x.owner.isSome) && (amGet s.behind (lineOf a)).isNone then amSet s.behind (lineOf a) (spRead s.mem (lineOf a * 64) 64)
    else s.behind
  | none => s.behind

/-- Writes bytes at a, inside one line when L2 holds it as a view line. -/
def State.setBytes (s : State) (a : Nat) (bs : List Byte) : State :=
  match s.viewAt a with
  | some (d, _) =>
    let o := a % 64
    let d' := d.take o ++ bs ++ d.drop (o + bs.length)
    { s with lines := amMod s.lines (lineOf a) fun l => { l with view := some (d'.take 64, true) } }
  | none => { s with mem := spWrite s.mem a bs, behind := if onChip a then s.behind else s.keepBehind a }

/-- Writes bytes at a and clears the poison of the units they cover (R350). -/
def State.store (s : State) (a : Nat) (bs : List Byte) : State := (s.setBytes a bs).unpoison a bs.length

/-- Zeroes n bytes from a, and their poison (R87, R350). -/
def State.zero (s : State) (a n : Nat) : State :=
  { s with
    mem := s.mem.filter fun e => !(decide (a ≤ e.1) && decide (e.1 < a + n))
    poison := s.poison.filter fun e => !(decide (a ≤ e.1) && decide (e.1 < a + n)) }

/-- The listed bytes and poison of n bytes from a, by their offsets. -/
def State.image (s : State) (a n : Nat) : Sparse 8 × AMap Nat :=
  if onChip a || decide (s.windows = []) then
    ((s.mem.filter fun e => decide (a ≤ e.1) && decide (e.1 < a + n)).map fun e => (e.1 - a, e.2),
     (s.poison.filter fun e => decide (a ≤ e.1) && decide (e.1 < a + n)).map fun e => (e.1 - a, e.2))
  else (runOf 0 (s.bytes a n), (s.poisonIn a n).map fun e => (e.1 - a, e.2))

/-- Writes a dirty line back and keeps it (R143, R144): a view line encoded into its storage bytes under the window that holds
its address now, or as its 64 bytes when no window does. A storage word of a poisoned element stays poisoned (R350). -/
def State.writebackLine (s : State) (l : Nat) : State :=
  match (amGet s.lines l).bind Line.view with
  | some (d, true) =>
    let s1 := { s with lines := amMod s.lines l fun x => { x with view := some (d, false) } }
    match s.viewOf (l * 64) with
    | some (w, o) =>
      let codes := (List.range 32).map fun j =>
        BitVec.ofNat 8 (encodeNarrow (unpack fmtBf (ofBytes ((d.drop (2 * j)).take 2))) w.fmt).1
      let at0 := w.store + o / 2
      let s2 := { s1 with mem := spWrite s1.mem at0 codes }
      -- a storage word stays poisoned while one of its elements is, and is clean when all are
      (List.range 4).foldl (fun s i =>
        match s.poisonAt (l * 64 + 16 * i) 16 with
        | (_, g) :: _ => s.poisonRange (at0 + 8 * i) 8 g
        | [] => s.unpoison (at0 + 8 * i) 8) s2
    | none => { s1 with mem := spWrite s1.mem (l * 64) d }
  | _ => { s with behind := amErase s.behind l }

/-- Drops a line from its home L2, writing it back first; the poison of a view line is then its storage words' alone. -/
def State.evictLine (s : State) (l : Nat) : State :=
  let s1 := s.writebackLine l
  match amGet s1.lines l with
  | some x =>
    let s2 := s1.setLine l { x with inL2 := false, view := none }
    if x.view.isSome && (s2.viewHere (l * 64)).isSome then s2.unpoison (l * 64) 64 else s2
  | none => s1

/-- The lines that a slice of L2 holds (R101). -/
def State.sliceHeld (s : State) (home slice : Nat) : List Nat :=
  (s.lines.filter fun e => e.2.inL2 && !onChip (e.1 * 64) && decide (homeOf (e.1 * 64) = home ∧ sliceOf (e.1 * 64) = slice)).map Prod.fst

/-- Makes room for a line in its slice (R16, R22): a full slice gives up a line, which is a free value.

DESIGN CHOICE (log entry 60, safe): which line a full cache gives up is left to the part. -/
def State.makeRoom (s : State) (l : Nat) : State :=
  let cap := Config.sliceBytes (homeOf (l * 64)) / 64
  if s.lines.length < cap then s
  else
    let held := s.sliceHeld (homeOf (l * 64)) (sliceOf (l * 64))
    if held.length < cap then s
    else { s.evictLine (held.getD (Config.victim s.freeCtr % held.length) 0) with freeCtr := s.freeCtr + 1 }

/-- Brings a line into its home L2: a view line as BF16 (R143), with the poison of its storage words on each element's
8-byte word (R350). -/
def State.fillLine (s : State) (l : Nat) : State :=
  if onChip (l * 64) then s
  else if (s.line l).inL2 then s
  else
    let s := s.makeRoom l
    let x := s.line l
    match s.viewOf (l * 64) with
    | some (w, o) =>
      let s1 := (s.setLine l { x with inL2 := true, view := some (s.viewFill l, false) }).unpoison (l * 64) 64
      (List.range 8).foldl (fun s i =>
        match s.poisonAt (w.store + o / 2 + 4 * i) 4 with
        | (_, g) :: _ => s.poisonRange (l * 64 + 8 * i) 8 g
        | [] => s) s1
    | none => s.setLine l { x with inL2 := true }

/-- The lines that n bytes from a touch. -/
def linesOf (a n : Nat) : List Nat := (List.range ((a + n + 63) / 64 - a / 64)).map (lineOf a + ·)

/-- Writes a run of bytes of DRAM line by line, so that view lines take their part (R142, R143); at most n lines. -/
def State.setRun (s : State) (a : Nat) (bs : List Byte) : Nat → State
  | 0 => s
  | n + 1 =>
    if bs = [] then s
    else
      let k := 64 - a % 64
      let s1 := if (s.viewHere a).isSome then s.fillLine (lineOf a) else s
      (s1.setBytes a (bs.take k)).setRun (a + k) (bs.drop k) n

/-- Writes a run of bytes that may cross lines, and clears the poison of the units they cover (R350). -/
def State.storeRun (s : State) (a : Nat) (bs : List Byte) : State := (s.setRun a bs (bs.length + 1)).unpoison a bs.length

/-- Puts an image of n bytes at a. -/
def State.putImage (s : State) (a n : Nat) (im : Sparse 8 × AMap Nat) : State :=
  let s1 :=
    if onChip a || decide (s.windows = []) then
      let s0 := s.zero a n
      { s0 with mem := im.1.foldl (fun m e => spSet m (a + e.1) e.2) s0.mem }
    else s.storeRun a (spRead im.1 0 n)
  { s1 with poison := im.2.foldl (fun m e => amSet m (a + e.1) e.2) s1.poison }

/-- The lines of a view that L2 or an owner holds when its window is enabled stay as they are, as view lines with BF16 contents (R144); DRAM
behind them keeps what it has. One that only its owner holds takes room in its slice (R22), where a line of the view may have to make it. -/
def State.adoptLines (s : State) (w : Window) : State :=
  (s.lines.filter fun e => (e.2.inL2 || e.2.owner.isSome) && e.2.view.isNone && decide (w.view ≤ e.1 * 64) &&
    decide (e.1 * 64 < w.view + 4096 * w.size)).foldl (fun s e =>
      let x := s.line e.1
      if !x.inL2 && x.owner.isNone then s
      else
        let s := if x.inL2 then s else s.makeRoom e.1
        let bs := spRead s.mem (e.1 * 64) 64
        let old := amGet s.behind e.1
        let s1 := s.setLine e.1 { x with inL2 := true, view := some (bs, old.isSome) }
        match old with
        | some b => { s1 with mem := spWrite s1.mem (e.1 * 64) b, behind := amErase s1.behind e.1 }
        | none => s1) s

end Sys2Proof.Machine
end

