-- ==== Sys2Proof/Machine/Ops.lean ====
section
/-! DEFINITION. The shared operations over the state: accessors, the agenda, routes and latencies, horizons, strand and
warp access, and taking a trap (R330, R335, R336) with the return from it (R345). -/

namespace Sys2Proof.Machine

/-- The outcome of a step. -/
abbrev Out := Host.Outcome State Fault Refusal

/-! ### Identifiers, free values, the agenda -/

def State.bump (s : State) : State := { s with nextId := s.nextId + 1 }

/-- A fresh index for free values.

DESIGN CHOICE (log entry 4, safe): open values are free values indexed by a counter of the model's. -/
def State.bumpFree (s : State) (n : Nat) : State := { s with freeCtr := s.freeCtr + n }

/-- Places among the steps of one clock: period boundaries, results and acknowledgements, writes before reads at the
homes (R155), and the rest.

DESIGN CHOICE (log entry 58, unsafe): the order of steps in one clock. -/
def prioBoundary : Nat := 0
def prioResult : Nat := 2 ^ 33
def prioWrite : Nat := 2 * 2 ^ 33
def prioRead : Nat := 3 * 2 ^ 33
def prioLate : Nat := 4 * 2 ^ 33

/-- Inserts a step behind those due no later. -/
def insAgenda : List Agenda → Agenda → List Agenda
  | [], x => [x]
  | a :: t, x =>
    if x.due < a.due ∨ (x.due = a.due ∧ x.prio < a.prio) then x :: a :: t else a :: insAgenda t x

/-- Schedules a step d clocks from now.

DESIGN CHOICE (log entry 3, safe): how the model schedules steps is its own, and the agenda and identities are its own fields. -/
def State.after (s : State) (d prio : Nat) (ev : Instr) : State :=
  { s with agenda := insAgenda s.agenda { due := s.clock + d, prio := prio, ev := ev } }

/-- The next lengthening by contention (R121), an input of the outside; 0 when none is given.

DESIGN CHOICE (log entry 57, unsafe): contention lengthens latencies by an input list. -/
def State.delay (s : State) : Nat := s.delays.headD 0
def State.dropDelay (s : State) : State := { s with delays := s.delays.drop 1 }

/-! ### Warps, strands, teams, grids, contexts -/

def State.modWarp (s : State) (k : Nat) (f : Warp → Warp) : State := { s with warps := amMod s.warps k f }
def State.modCu (s : State) (k : Nat) (f : Cu → Cu) : State := { s with cus := amSet s.cus k (f (amGetD s.cus k {})) }
def State.cu (s : State) (k : Nat) : Cu := amGetD s.cus k {}
def State.modTeam (s : State) (k : Nat) (f : Team → Team) : State := { s with teams := amMod s.teams k f }
def State.modGrid (s : State) (k : Nat) (f : Grid → Grid) : State := { s with grids := amMod s.grids k f }
def State.modCtx (s : State) (k : Nat) (f : Ctx → Ctx) : State := { s with ctxs := amMod s.ctxs k f }
def State.modReq (s : State) (k : Nat) (f : Req → Req) : State := { s with reqs := amMod s.reqs k f }

/-- The CU, the slot within it and the issue slot of a warp key. -/
def warpCu (k : Nat) : Nat := k / 32
def warpSlot (k : Nat) : Nat := k % 32
def warpIssue (k : Nat) : Nat := k / 8
def warpKey (cu slot : Nat) : Nat := cu * 32 + slot

def Warp.strand (w : Warp) (e : Nat) : Strand := w.table.getD e {}
def Warp.setStrand (w : Warp) (e : Nat) (st : Strand) : Warp := { w with table := w.table.set e st }
def Warp.fibre (w : Warp) (f : Nat) : Fibre := w.fibres.getD f {}
def Warp.modFibre (w : Warp) (f : Nat) (g : Fibre → Fibre) : Warp := { w with fibres := w.fibres.set f (g (w.fibre f)) }
def Warp.modStrand (w : Warp) (e : Nat) (g : Strand → Strand) : Warp := w.setStrand e (g (w.strand e))
def State.modStrand (s : State) (k e : Nat) (g : Strand → Strand) : State := s.modWarp k fun w => w.modStrand e g

/-- Whether a table entry holds a live strand (R67, R85). -/
def Strand.live (st : Strand) : Bool := decide (st.state ≠ .free)

/-- Whether a strand stands past offset 32,767 of its overlay, where it traps (R182). -/
def Strand.pastEnd (st : Strand) : Bool := st.ranPast && decide (st.pc.toNat % 32768 = 0)

/-- The entries of a warp with a live strand, ascending. -/
def Warp.liveEntries (w : Warp) : List Nat := (List.range w.table.length).filter fun e => (w.strand e).live

/-- The place of the live strand of an identity. -/
def State.findUid (s : State) (uid : Nat) : Option (Nat × Nat) :=
  s.warps.findSome? fun p => (p.2.liveEntries.find? fun e => decide ((p.2.strand e).uid = uid)).map fun e => (p.1, e)

def State.modUid (s : State) (uid : Nat) (g : Strand → Strand) : State :=
  match s.findUid uid with
  | some (k, e) => s.modStrand k e g
  | none => s

/-- The team, grid and context of a warp. -/
def State.teamOf (s : State) (k : Nat) : Option (Nat × Team) :=
  (amGet s.warps k).bind fun w => (amGet s.teams w.team).map fun t => (w.team, t)
def State.gridOf (s : State) (k : Nat) : Option (Nat × Grid) :=
  (s.teamOf k).bind fun t => (amGet s.grids t.2.grid).map fun g => (t.2.grid, g)
def State.ctxOf (s : State) (k : Nat) : Nat := ((s.gridOf k).map fun g => g.2.ctx).getD 0

/-! ### Portable PCs (R45, R182) -/

def mkPc (ovl off : Nat) : BitVec 23 := BitVec.ofNat 23 (ovl * 32768 + off % 32768)
def pcOvl (pc : BitVec 23) : Nat := pc.toNat / 32768
def pcOff (pc : BitVec 23) : Nat := pc.toNat % 32768

/-! ### Agents (R156) -/

/-- The agent number of a strand. -/
def strandAgent (k e : Nat) : Nat :=
  cuSite (warpCu k) * 2 ^ 25 + cuNum (warpCu k) * 2 ^ 19 + warpSlot k * 2 ^ 14 + e * 2 ^ 11
/-- The agent number of the live strand of an identity: the order of its events at a home (R155). -/
def State.agentOf (s : State) (uid : Nat) : Nat := match s.findUid uid with | some (k, e) => strandAgent k e | none => 0
/-- The agent number of an engine of a CU: kind 1 the copy engine, 2 the save engine. -/
def engineAgent (kind cu : Nat) : Nat := kind * 2 ^ 28 + cuSite cu * 2 ^ 25 + cuNum cu * 2 ^ 19
/-- The agent number of a hub agent. -/
def hubAgent (kind : Nat) : Nat := kind * 2 ^ 28

/-! ### Routes (R20, R358) and latencies (R121) -/

/-- Ring link i joins sites i and i + 1; link 8 + s is the spoke of site s. -/
def ringLink (a b : Nat) : Nat := if (a + 1) % 8 = b then a else b
def State.linkUp (s : State) (l : Nat) : Bool := decide ((amGetD s.links l {}).state ≠ 2)
/-- The links between a site and the hub: its spoke, else the ring link to the lower-numbered neighbour whose spoke is up, then that
spoke (R358). -/
def State.hubRoute (s : State) (a : Nat) : List Nat :=
  let near := [min ((a + 7) % 8) ((a + 1) % 8), max ((a + 7) % 8) ((a + 1) % 8)]
  if s.linkUp (8 + a) then [8 + a]
  else match near.find? fun n => s.linkUp (8 + n) && s.linkUp (ringLink a n) with
    | some n => [ringLink a n, 8 + n]
    | none => [8 + a]
/-- Hops between a site and the hub. -/
def State.hubHops (s : State) (a : Nat) : Nat := (s.hubRoute a).length
/-- The ring distance of two sites. -/
def ringDist (a b : Nat) : Nat := let d := if a ≤ b then b - a else a - b; min d (8 - d)
/-- Whether the route between two sites passes the hub switch. -/
def State.viaHub (s : State) (a b : Nat) : Bool :=
  let d := ringDist a b
  decide (2 ≤ d) || (decide (d = 1) && !s.linkUp (ringLink a b))
/-- The links of the route between two sites (R20, R358); site 8 is the hub. -/
def State.route (s : State) (a b : Nat) : List Nat :=
  if a = b then [] else if b = 8 then s.hubRoute a else if a = 8 then (s.hubRoute b).reverse
  else if s.viaHub a b then s.hubRoute a ++ (s.hubRoute b).reverse else [ringLink a b]
/-- The links of the way from a site to the hub, each with its direction: a spoke is taken out, a ring link out of its own site. -/
def State.hubWay (s : State) (a : Nat) : List (Nat × Bool) := (s.hubRoute a).map fun l => (l, decide (8 ≤ l ∨ l = a))
/-- The links of a way in the other direction. -/
def wayBack (l : List (Nat × Bool)) : List (Nat × Bool) := l.reverse.map fun p => (p.1, !p.2)
/-- The links of the route between two sites, each with the direction it is taken in (R357). -/
def State.way (s : State) (a b : Nat) : List (Nat × Bool) :=
  if a = b then [] else if b = 8 then s.hubWay a else if a = 8 then wayBack (s.hubWay b)
  else if s.viaHub a b then s.hubWay a ++ wayBack (s.hubWay b) else [(ringLink a b, decide (ringLink a b = a))]
/-- Die hops between two sites. -/
def State.hops (s : State) (a b : Nat) : Nat := (s.route a b).length

/-- The clocks that traffic between two sites waits at the sender while a link of its route retrains (R357). -/
def State.linkWait (s : State) (a b : Nat) : Nat :=
  (s.route a b).foldl (fun n l => let x := amGetD s.links l {}; if x.state = 1 then max n (x.trained - s.clock) else n) 0

def halfL2 (h : Nat) : Nat := 90 + 60 * h
def fullL2 (h : Nat) : Nat := 180 + 120 * h
def fullDram (h : Nat) : Nat := 450 + 120 * h
/-- The clocks of a message between the hub and a home slice of a site (R111, R327). -/
def State.hubMsg (s : State) (site : Nat) : Nat := halfL2 (s.hubHops site) + s.linkWait site 8
/-- The clocks of a message between a CU of a site and the hub (R382): 60 a hop. -/
def State.hubTrip (s : State) (site : Nat) : Nat := 60 * s.hubHops site + s.linkWait site 8

/-- The clocks between a CU of a site and the hub switch for a request, an acknowledgement or a fence (R161, R328, R381): 105 over one hop. -/
def State.hubPass (s : State) (site : Nat) : Nat := 45 + 60 * s.hubHops site

/-- The latency of a read at a line's home from a site: L2 or DRAM (R121). -/
def State.homeLatency (s : State) (site a : Nat) : Nat :=
  let h := s.hops site (homeOf a)
  if (s.line (lineOf a)).inL2 then fullL2 h else fullDram h

/-- The latency between a CU and an address on chip (R121): 20 on the CU itself, 60 within the gallery, else that of L2. -/
def State.chipLatency (s : State) (cu a : Nat) : Nat :=
  if chipCu a = cu then 20
  else if cuGallery (chipCu a) = cuGallery cu then 60
  else fullL2 (s.hops (cuSite cu) (homeOf a))

/-! ### The gather unit (R305, R340) -/

/-- The chunks of a gather's rows that can be fetched: the others have a poisoned translation entry, whose origin stands above 2^64. -/
def MatOp.fetchable (m : MatOp) : List (Nat × Nat × Nat × Nat) := m.chunks.filter fun c => decide (c.2.2.1 < 2 ^ 64)

/-- The clocks of a gather that starts now: those of its slowest row.

DESIGN CHOICE (log entry 97, unsafe): a gather of which no row is fetched, for which R305 gives no time, takes 20 clocks. -/
def State.gatherClocks (s : State) (cu : Nat) (m : MatOp) : Nat :=
  m.fetchable.foldl (fun t c => max t (if onChip c.2.2.1 then s.chipLatency cu c.2.2.1 else s.homeLatency (cuSite cu) c.2.2.1))
    (max 20 (m.notBefore - s.clock))

/-- Starts the gather that is first in the order of a CU's gather unit. -/
def State.headGather (s : State) (cu : Nat) : State :=
  match (s.cu cu).gather with
  | [] => s
  | u :: _ =>
    match amGet s.gathers u with
    | none => s
    | some m =>
      (s.modCu cu fun c => { c with gatherTill := s.clock + s.gatherClocks cu m }).after (s.gatherClocks cu m) (prioRead + s.agentOf u)
        (.gatherRowArrival u)

/-- Takes a gather off a CU's unit, which serves the next one. -/
def State.endGather (s : State) (cu uid : Nat) : State :=
  let l := (s.cu cu).gather
  if l.contains uid then
    let s1 := s.modCu cu fun c => { c with gather := c.gather.filter (· ≠ uid) }
    if l.head? = some uid then s1.headGather cu else s1
  else s

/-- Discards the rows gathered for a strand (R340). -/
def State.dropGather (s : State) (cu uid : Nat) : State :=
  if (amGet s.gathers uid).isSome || (s.cu cu).gather.contains uid then { s with gathers := amErase s.gathers uid }.endGather cu uid else s

/-! ### Horizons (the freshness rule of 07_ordering, R160) -/

/-- The horizon of the scope instance that holds an agent of a CU: 0 .loc, 1 .gal, 2 .dev, 3 .sys. -/
def State.horizon (s : State) (ctx cu scope : Nat) : Nat :=
  if scope = 0 then amGetD s.horLoc cu 0
  else if scope = 1 then amGetD s.horGal (cuGallery cu) 0
  else if scope = 2 then amGetD s.horDev ctx 0
  else s.horSys

def raise (m : AMap Nat) (k t : Nat) : AMap Nat := amSet m k (max (amGetD m k 0) t)

/-- Folds a timestamp into the horizons held at a CU and its gallery. -/
def State.foldNear (s : State) (cu t : Nat) : State :=
  { s with horLoc := raise s.horLoc cu t, horGal := raise s.horGal (cuGallery cu) t }

/-- Folds a timestamp into the .dev and .sys horizons. -/
def State.foldHub (s : State) (ctx t : Nat) : State :=
  { s with horDev := raise s.horDev ctx t, horSys := max s.horSys t }

/-! ### Error records and messages (R363) -/

/-- An error record as the host reads it (R363). -/
def ErrRec.image (r : ErrRec) : Nat :=
  r.kind % 256 + r.corr % 2 ^ 32 * 2 ^ 32 + r.cu % 256 * 2 ^ 64 + r.site % 256 * 2 ^ 72 + r.unit % 256 * 2 ^ 80 + r.ctx % 256 * 2 ^ 88 +
    r.clock % 2 ^ 64 * 2 ^ 128 + r.paddr % 2 ^ 64 * 2 ^ 192

/-- Where corrected errors are counted: the unit code, site and CU or link. -/
def unitKey (unit site cu : Nat) : Nat := unit * 2 ^ 16 + site % 256 * 2 ^ 8 + cu % 256

/-- Logs an error record, with the errors its unit has corrected since its last record, and signals MSI-X vector 0 of the physical function. -/
def State.logErr (s : State) (r : ErrRec) : State :=
  let key := unitKey r.unit r.site r.cu
  { s with errLog := s.errLog ++ [{ r with clock := s.clock, corr := r.corr + amGetD s.corrected key 0 }]
           corrected := amErase s.corrected key, msgs := s.msgs ++ [.msix 0 0] }

/-- The structure whose error poison of an origin comes from, as error records code it (R347, R349, R363): DRAM, L2, the bank store's L1
lines, a directory entry, the bank store, the accumulator store, the host link; a contained home's is its DRAM.

DEDUCED (log entry 72, unsafe): the unit codes of error records about poison. -/
def originUnit (o : Nat) : Nat := [0, 1, 3, 2, 3, 4, 7, 0].getD o 0

def State.say (s : State) (m : Msg) : State := { s with msgs := s.msgs ++ [m] }

/-! ### Budgets (R115-R117) -/

/-- The lowest unfinished team index of a grid (R83). -/
def Grid.lowest (g : Grid) : Nat := ((List.range (g.finished.length + 1)).find? fun t => !g.finished.contains t).getD 0

/-- Whether a team is, or is in the group of, the lowest unfinished team of its grid (R83, R117). -/
def State.favoured (s : State) (t : Team) : Bool :=
  match amGet s.grids t.grid with
  | some g => decide (g.lowest / 2 ^ g.lr.group = t.group)
  | none => false

/-- Whether a charge fits what is left of a budget; past seven-eighths only for a favoured team (R117). -/
def admits (used limit charge : Nat) (favoured : Bool) : Bool :=
  decide (limit = 0) || (decide (used + charge ≤ limit) && (favoured || decide (used * 8 < limit * 7)))

/-- Clocks to the next period boundary (R115). -/
def State.toBoundary (s : State) : Nat := Config.period - s.clock % Config.period

/-- The flits of a context that a period lets through while teams other than its lowest send (R117). -/
def linkShare (limit : Nat) : Nat := max 1 ((7 * limit + 7) / 8)

/-- Charges n flits at their source die and gives the clocks they wait there (R21, R116, R117): what a budget defers waits behind what waits
already, and is charged to the period in which it leaves. must marks what is never deferred (R230). -/
def State.chargeLink (s : State) (ctx site n : Nat) (favoured must : Bool) : State × Nat :=
  let key := ctx * 8 + site
  let used := amGetD s.linkUsed key 0
  let held := amGetD s.linkHeld key 0
  let limit := ((amGet s.ctxs ctx).map Ctx.linkLimit).getD 0
  if must || (admits used limit n favoured && (favoured || decide (limit = 0 ∨ held = 0))) then
    ({ s with linkUsed := amSet s.linkUsed key (used + n) }, 0)
  else ({ s with linkHeld := amSet s.linkHeld key (held + n) }, s.toBoundary + held / linkShare limit * Config.period)

/-- Numbers a flit sent in a direction of a link and keeps it among the last 256 (R357). -/
def Lane.sent (x : Lane) (now : Nat) : Lane :=
  { x with next := x.next + 1, kept := (x.kept ++ [(x.next, now)]).drop (x.kept.length + 1 - 256) }

/-- A flit sent over a link, out or back. -/
def Link.sent (x : Link) (out : Bool) (now : Nat) : Link :=
  if out then { x with out := x.out.sent now } else { x with back := x.back.sent now }

/-- Lets a message enter the route between two sites in wait clocks, delayed on it: it arrives no earlier than those that entered before it
(R21). The clocks by which it is lengthened. -/
def State.enterRoute (s : State) (a b wait delay : Nat) : State × Nat :=
  let hop := 60 * s.hops a b
  let enter := s.clock + wait
  let ahead := (amGetD s.routes (a * 16 + b) []).filter fun f => decide (s.clock < f.2)
  let arrive := (ahead.filter fun f => decide (f.1 ≤ enter)).foldl (fun m f => max m f.2) (enter + delay + hop)
  ({ s with routes := amSet s.routes (a * 16 + b) (ahead ++ [(enter, arrive)])
            links := (s.way a b).foldl (fun m l => amSet m l.1 ((amGetD m l.1 {}).sent l.2 enter)) s.links }, arrive - s.clock - hop)

/-- Sends a message of n flits between two sites (8 is the hub, which no budget charges): the clocks by which its budget, a link that
retrains, contention and the messages ahead of it lengthen its way (R21, R116, R117, R121, R357).

PRESUMED (log entry 23, unsafe): flits per message. -/
def State.sendFlits (s : State) (ctx a b n : Nat) (favoured must : Bool) (delay : Nat) : State × Nat :=
  if a = b then (s, delay)
  else
    let f := if a < 8 then s.chargeLink ctx a n favoured must else (s, 0)
    f.1.enterRoute a b (f.2 + s.linkWait a b) delay

/-- Whether the team of a warp is favoured. -/
def State.favouredWarp (s : State) (k : Nat) : Bool := ((s.teamOf k).map fun t => s.favoured t.2).getD false

/-- Sends a message of a die to the hub over its spoke, a flit charged at the die (R21, R116): the clocks to its arrival, 60 a hop and what
holds it up. -/
def State.toHub (s : State) (ctx site : Nat) (favoured : Bool) : State × Nat :=
  let f := s.sendFlits ctx site 8 1 favoured false 0
  (f.1, 60 * s.hubHops site + f.2)

/-- Sends a message of the hub to a die, which no budget charges: the clocks to its arrival. -/
def State.fromHub (s : State) (ctx site : Nat) : State × Nat :=
  let f := s.sendFlits ctx 8 site 1 true true 0
  (f.1, 60 * s.hubHops site + f.2)

/-! ### Holding and freeing strands -/

/-- Makes a strand's latches invalid (R80, R93). -/
def Strand.dropLatches (st : Strand) : Strand := { st with latches := st.latches.map fun l => { l with valid := false } }

/-- The holder of a warp slot that leaves state 1, parks or retires in a clock: R119 chooses another (R118, R298). -/
def Warp.leave (w : Warp) (e now : Nat) : Warp :=
  if w.holder = some e then { w with vacated := true, leftAt := now, lastFibre := (w.strand e).fibre } else w

/-- Moves a strand to a waiting state with invalid latches (R68, R80) and lets the watchdog count from now (R373). -/
def State.waitStrand (s : State) (k e : Nat) (x : StrandState) : State :=
  match amGet s.warps k with
  | none => s
  | some w =>
    (s.modWarp k fun w => (w.leave e s.clock).modStrand e fun st =>
      { st.dropLatches with state := x, hold := .none, waitSince := s.clock, walked := [] }).after s.watchLimit prioLate
      (.watchdogExpiry (w.strand e).uid)

/-- A strand ready again at a PC, issuable in the next clock, with invalid latches (R78, R80, R247). -/
def Strand.readyAt (st : Strand) (pc : BitVec 23) (now : Nat) : Strand :=
  { st.dropLatches with state := .ready, pc := pc, hold := .none, waitk := 0, issuableAt := now + 1 }

/-! ### Traps (R330, R335, R336) -/

/-- The fields of a trap record that its class computes. -/
structure TrapInfo where
  cls : Nat
  code : Nat
  detail : Nat := 0
  addr : Nat := 0
  lanes : Word := 0
  parcel : Nat := 0
  deriving DecidableEq, Repr

/-- The record as a number, with SEQ 0 and NEWPC 0 (R335). -/
def recordNum (ver ctx grid team warp fibre entry : Nat) (pc : BitVec 23) (mask : Word) (t : TrapInfo) : Nat :=
  ver + ctx % 64 * 2 ^ 107 + grid % 2 ^ 24 * 2 ^ 113 + team % 2 ^ 40 * 2 ^ 137 + warp % 16 * 2 ^ 177 + fibre % 4 * 2 ^ 181 +
    entry % 8 * 2 ^ 183 + pc.toNat * 2 ^ 186 + t.cls % 256 * 2 ^ 232 + t.code % 65536 * 2 ^ 240 + mask.toNat * 2 ^ 256 +
    t.lanes.toNat * 2 ^ 288 + t.addr % 2 ^ 64 * 2 ^ 320 + t.detail % 2 ^ 32 * 2 ^ 384 + t.parcel % 2 ^ 32 * 2 ^ 416

/-- The trap-record version under the contract (R315, R335). -/
def State.trapVersion (s : State) : Nat := s.contract.toNat % 256

/-- Sends a record to the hub, which it reaches d clocks later (R382); records of one clock are ordered by key (R336). -/
def State.sendRecord (s : State) (ctx d key uid num : Nat) : State :=
  (s.modCtx ctx fun c =>
    { c with inflight := c.inflight ++ [(s.clock + d, key, uid, num)] }).after d prioResult (.trapRecordPost ctx)

/-- Sends the record of a strand's trap from its die to the hub. -/
def State.sendTrap (s : State) (k e uid num : Nat) : State :=
  let f := s.toHub (s.ctxOf k) (cuSite (warpCu k)) (s.favouredWarp k)
  f.1.sendRecord (s.ctxOf k) f.2 (strandAgent k e) uid num

/-- The record of a trap of a strand (R334, R335). -/
def State.recordOf (s : State) (k e : Nat) (t : TrapInfo) : Nat :=
  match amGet s.warps k, s.teamOf k, s.gridOf k with
  | some w, some tm, some g =>
    let st := w.strand e
    recordNum s.trapVersion g.2.ctx g.2.number tm.2.index w.number st.fibre e st.pc st.mask t
  | _, _, _ => 0

/-- Freezes a strand with its PC at the group and posts its record (R330): nothing else of the group takes effect, and rows that a
suppressed MMAG gathered are discarded (R340). next is where a RESUME of a software trap or breakpoint continues (R345). In a speculative
fence window the trap is held (R162). -/
def State.takeTrap (s : State) (k e : Nat) (t : TrapInfo) (next : BitVec 23) : State :=
  match amGet s.warps k with
  | none => s
  | some w =>
    let st := w.strand e
    let num := s.recordOf k e t
    let s := s.dropGather (warpCu k) st.uid
    match st.fence with
    | some fw =>
      s.modStrand k e fun st => { st with fence := some { fw with trap := some (t.cls, next, num) }, hold := .busy st.uid, atHome := false }
    | none =>
      (s.modWarp k fun w => (w.leave e s.clock).modStrand e fun st =>
        { st with state := .frozen, hold := .none, seq := none, trapPosted := false, succ := next, trapClass := t.cls, waitk := 0,
                  ovlWait := none, waitSince := s.clock, atHome := false }).sendTrap k e st.uid num

/-- Where a strand continues on a RESUME (R345): the group again for classes 1 to 9 and 12, its successor for 10 and 11. -/
def Strand.resumePc (st : Strand) : BitVec 23 := if st.trapClass = 10 ∨ st.trapClass = 11 then st.succ else st.pc

/-- The return from a trap by RESUME (R345): the mask, PARENT and latches are as frozen. -/
def Strand.resumed (st : Strand) : Strand := { st with state := .ready, pc := st.resumePc, seq := none, trapPosted := false }

/-- The return from a trap by REDIRECT (R345): at NEWPC, the latches invalid. -/
def Strand.redirected (st : Strand) (pc : BitVec 23) : Strand :=
  { st.dropLatches with state := .ready, pc := pc, seq := none, trapPosted := false, ranPast := false }

end Sys2Proof.Machine
end

