-- ==== Sys2Proof/Machine/Operands.lean ====
section
/-! DEFINITION. Every operand form (R89, R90, R92-R94, R98, R169, R170, the KSEL and IMM rules), the checks of a group
before it takes effect (R332, R333, R339), and the writing of results with the latch push (R92, R184). -/

namespace Sys2Proof.Machine

/-- A group at its issue: the warp slot, the table entry, the warp and strand as they stand, the prefixes and the info of
the instruction, its length and instruction parcel, the active mask after the guard (R167), and the strand's team, grid
and context. -/
structure Iss where
  k : Nat
  e : Nat
  w : Warp
  st : Strand
  g : Pfx
  info : Info
  len : Nat
  parcel : Nat
  mask : Word
  tn : Nat
  team : Team
  gn : Nat
  grid : Grid
  cn : Nat
  ctx : Ctx

def Iss.cu (x : Iss) : Nat := warpCu x.k
def Iss.site (x : Iss) : Nat := cuSite x.cu
/-- The PC of the group's successor (R165).

DESIGN CHOICE (log entry 71, unsafe): a successor past offset 32,767 has no portable PC, and is written as offset 0 of the next overlay; the
strand is marked, so that it traps there (R182). -/
def Iss.next (x : Iss) : BitVec 23 := BitVec.ofNat 23 (x.st.pc.toNat + x.len)

/-- The value of a predicate of a fibre, per lane. -/
def Warp.pred (w : Warp) (f p : Nat) : Word := spGet (w.fibre f).preds p

/-- The lanes in which a guard holds (R167). -/
def guardMask (w : Warp) (f : Nat) (g : Pfx) : Word :=
  match g.pred with
  | some (p, neg) => if neg then ~~~ (w.pred f p.toNat) else w.pred f p.toNat
  | none => BitVec.allOnes 32

/-- The group of an instruction that the current strand issues. -/
def issOf (i : Instr) (s : State) : Option Iss :=
  match s.cur with
  | none => none
  | some c =>
    match amGet s.warps c.warp with
    | none => none
    | some w =>
      match amGet s.teams w.team with
      | none => none
      | some t =>
        match amGet s.grids t.grid with
        | none => none
        | some gr =>
          match amGet s.ctxs gr.ctx with
          | none => none
          | some cx =>
            let st := w.strand c.entry
            if st.live then
              some { k := c.warp, e := c.entry, w := w, st := st, g := i.pfx, info := i.info, len := i.len, parcel := i.word,
                     mask := st.mask &&& guardMask w st.fibre i.pfx, tn := w.team, team := t, gn := t.grid, grid := gr,
                     cn := gr.ctx, ctx := cx }
            else none

/-! ### Registers (R66, R89) -/

/-- The outcome of resolving a vector register: a physical register of the block, or a class-3 code (R338). -/
inductive RegAt where
  | ok (n : Nat)
  | bad (code : Nat)
  deriving DecidableEq, Repr

/-- Resolves register v of a fibre through its row of the window map (R50, R89). -/
def Warp.reg (w : Warp) (f v : Nat) : RegAt :=
  let b := (spGet w.winmap (16 * f + v / 8)).toNat
  if b < 128 then .bad 1
  else if w.blockBytes / 1024 ≤ b % 128 then .bad 2
  else .ok (8 * (b % 128) + v % 8)

/-- The address of a physical register of a warp's block. -/
def regAddr (k : Nat) (w : Warp) (n : Nat) : Nat := bankAddr (warpCu k) (w.block + 128 * n)

/-- Lane i of a vector register; 0 where it does not resolve, which the checks have excluded. -/
def Iss.vreg (x : Iss) (s : State) (v i : Nat) : Word :=
  match x.w.reg x.st.fibre v with
  | .ok n => s.word (regAddr x.k x.w n + 4 * i)
  | .bad _ => 0

/-- A k register of the warp. -/
def Warp.kreg (w : Warp) (n : Nat) : Word := spGet w.k (n % 256)

/-- The pending value of the IMM prefixes (the IMM rule). -/
def immP (g : Pfx) : Nat := g.imm.foldl (fun p x => p * 4096 + x.toNat) 0

/-- The prefix operand as 64 bits (the KSEL and IMM rules): a k register or a k pair, or the pending value sign-extended
from bit 11 or 23. -/
def Iss.prefixOp (x : Iss) (wide : Bool) : BitVec 64 :=
  match x.g.ksel with
  | some k =>
    if wide then BitVec.ofNat 64 ((x.w.kreg k.toNat).toNat + (x.w.kreg (k.toNat + 1)).toNat * 2 ^ 32)
    else (x.w.kreg k.toNat).setWidth 64
  | none => ofInt 64 (sext (12 * x.g.imm.length) (immP x.g))

/-- operand(code) of R169 in lane i, 32 bits; code 128 is the compact constant 1. -/
def Iss.src (x : Iss) (s : State) (code i : Nat) : Word :=
  if code < 120 then x.vreg s code i
  else if code < 124 then spGet ((x.st.latches.getD (code - 120) {}).data) i
  else if code = 124 then 0
  else if code = 125 then BitVec.ofNat 32 i
  else if code = 126 then (x.prefixOp false).setWidth 32
  else 1

/-- A 64-bit source in lane i (R170). -/
def Iss.src64 (x : Iss) (s : State) (code i : Nat) : DWord :=
  if code < 124 then BitVec.ofNat 64 ((x.src s code i).toNat + (x.src s (code + 1) i).toNat * 2 ^ 32)
  else if code = 124 then 0
  else if code = 125 then BitVec.ofNat 64 i
  else x.prefixOp true

/-- The immediate X of VI (the IMM rule). -/
def viImm (g : Pfx) (imm8 : BitVec 8) : Word :=
  let n := immP g * 256 + imm8.toNat
  if g.imm.length = 0 then ofInt 32 (sext 8 n) else if g.imm.length = 1 then ofInt 32 (sext 20 n) else BitVec.ofNat 32 n

/-- The immediate X of KU (the IMM rule). -/
def kuImm (g : Pfx) (imm6 : BitVec 6) : Word :=
  let n := immP g * 64 + imm6.toNat
  if g.imm.length = 0 then ofInt 32 (sext 6 n) else if g.imm.length = 1 then ofInt 32 (sext 18 n) else ofInt 32 (sext 30 n)

/-! ### The lists of what a group touches -/

/-- The vector registers among the sources and the destination, with the pairs' odd members. -/
def regsOf (l : List (Nat × Bool)) : List Nat :=
  l.flatMap fun c => if c.1 < 120 then (if c.2 then [c.1, c.1 + 1] else [c.1]) else []

/-- The latches among the sources. -/
def latchesOf (l : List (Nat × Bool)) : List Nat :=
  l.flatMap fun c => if 120 ≤ c.1 ∧ c.1 < 124 then (if c.2 then [c.1 - 120, c.1 - 119] else [c.1 - 120]) else []

/-- The registers a destination names. -/
def dstRegs (x : Info) : List Nat := match x.dst with | some d => regsOf [d] | none => []

/-- The k registers a group reads, KSEL's among them. -/
def kRead (x : Info) (g : Pfx) : List Nat :=
  x.ksrcs ++ x.kyield ++ (match g.ksel with
    | some k => if x.kquad then [k.toNat, k.toNat + 1, k.toNat + 2, k.toNat + 3]
                else if x.widePrefix then [k.toNat, k.toNat + 1] else [k.toNat]
    | none => [])

/-- The predicates a group reads, the guard's among them. -/
def pRead (x : Info) (g : Pfx) : List Nat :=
  x.psrcs ++ (match g.pred with | some p => [p.1.toNat] | none => [])

/-! ### Checks (R332, R333, R339) -/

/-- The physical tile of a team's tile a (R98): its section's slot and place. -/
def Team.tileAddr (t : Team) (a : Nat) : Nat :=
  accAddr t.cu ((warpSlot (t.warps.getD (a / 4) 0) * 4 + a % 4) * 4096)

/-- Class 3: the first class-3 code among the registers and tiles a group names, in code order, with its number. -/
def Iss.regFault (x : Iss) : Option (Nat × Nat) :=
  let vs := regsOf x.info.allSrcs ++ dstRegs x.info ++ (match x.info.lane1 with | some l => [l.1] | none => [])
  let bad (c : Nat) := vs.find? fun v => decide (x.w.reg x.st.fibre v = .bad c)
  match bad 1, bad 2, (x.info.tsrcs ++ x.info.tdst).find? fun t => decide (4 * x.team.warps.length ≤ t) with
  | some v, _, _ => some (1, v)
  | none, some v, _ => some (2, v)
  | none, none, some t => some (3, t)
  | none, none, none => none

/-- Class 4: the invalid latches a group reads, as DETAIL gives them (R342). -/
def Iss.staleLatches (x : Iss) : Nat :=
  (List.range 4).foldl
    (fun d j => if (latchesOf x.info.allSrcs).contains j && !(x.st.latches.getD j {}).valid then d + 2 ^ j else d) 0

/-- The lanes whose operand words a group reads: the active lanes, the lowest of them for a once-per-strand instruction. -/
def Iss.readLanes (x : Iss) : List Nat := if x.info.once then (lanesOf x.mask).take 1 else lanesOf x.mask

/-- The origin of the poison of lane i of register v. -/
def Iss.regPoison (x : Iss) (s : State) (v i : Nat) : Option Nat :=
  match x.w.reg x.st.fibre v with
  | .ok n => amGet s.poison (regAddr x.k x.w n + 4 * i)
  | .bad _ => none

/-- The poisoned words a group reads (R351), over all its sources: the lane that meets the word, its kind and number (R353), its origin. A
k register or a predicate is met by every active lane, the guard's predicate by every lane of the strand. -/
def Iss.poisonHits (x : Iss) (s : State) : List (Nat × Nat × Nat × Nat) :=
  let vs := (regsOf x.info.srcs).map (fun v => (v, x.readLanes)) ++
    (regsOf x.info.firstSrcs).map (fun v => (v, (lanesOf x.mask).take 1)) ++
    (match x.info.lane1 with | some l => [(l.1, [l.2])] | none => [])
  let preds (l : List Nat) (m : Word) := l.flatMap fun p =>
    match amGet (x.w.fibre x.st.fibre).predPoison p with
    | some o => (lanesOf m).map fun i => (i, 2, p, o)
    | none => []
  (vs.flatMap fun v => v.2.filterMap fun i => (x.regPoison s v.1 i).map fun o => (i, 0, v.1, o)) ++
    ((kRead x.info x.g).flatMap fun k => match amGet x.w.kPoison k with
      | some o => (lanesOf x.mask).map fun i => (i, 1, k, o)
      | none => []) ++
    preds x.info.psrcs x.mask ++ preds (match x.g.pred with | some p => [p.1.toNat] | none => []) x.st.mask

/-- The lanes of a list of hits, ascending. -/
def hitLanes {α : Type} (l : List (Nat × α)) : List Nat := (List.range 32).filter fun i => l.any fun h => decide (h.1 = i)

/-- Class 8, code 1 (R351, R353): kind and number of the word that the lowest lane meets first, every lane that meets one, and the origin. -/
def Iss.wordPoison (x : Iss) (s : State) : Option (Nat × Nat × List Nat × Nat) :=
  let hits := x.poisonHits s
  let lanes := hitLanes hits
  (hits.find? fun h => decide (h.1 = lanes.headD 0)).map fun h => (h.2.1, h.2.2.1, lanes, h.2.2.2)

/-- The poisoned tile elements a group reads, by row: tile, rows, origin (R352). Row i is read by lane i; a matrix
operation's A tiles and an accumulator source are read in every column. -/
def Iss.tilePoison (x : Iss) (s : State) : Option (Nat × List Nat × Nat) :=
  let hits : List (Nat × Nat × Nat) := x.info.tsrcs.flatMap fun t => (lanesOf x.mask).filterMap fun i =>
    ((s.poisonIn (x.team.tileAddr t + 128 * i) 128).head?).map fun p => (i, t, p.2)
  let rows := hitLanes hits
  (hits.find? fun h => decide (h.1 = rows.headD 0)).map fun h => (h.2.1, rows, h.2.2)

/-- DETAIL of class 8 (R353). -/
def detail8 (num kind origin lane : Nat) : Nat := num % 65536 * 65536 + kind % 16 * 4096 + origin % 16 * 256 + lane % 32

/-- A trap of the group at its PC. -/
def Iss.trap (x : Iss) (s : State) (t : TrapInfo) : State :=
  { (s.takeTrap x.k x.e { t with parcel := x.parcel } x.next) with cur := none }

/-- A decode trap of the group (R181, R333): LANES 0, DETAIL the failing parcel's offset, PARCEL that parcel. -/
def Iss.decodeTrap (x : Iss) (s : State) (code off : Nat) : State :=
  let p := match x.g.words[off]? with | some h => h.toNat | none => x.parcel
  { (s.takeTrap x.k x.e { cls := 1, code := code, detail := off, parcel := p } x.next) with cur := none }

/-- Moves the strand's PC past the group and counts it in its fence window (R182, R218). -/
def Iss.advance (x : Iss) (s : State) : State :=
  { (s.modStrand x.k x.e fun st =>
      { st with pc := x.next, fence := st.fence.map fun fw => { fw with issued := fw.issued + 1 } }) with cur := none }

/-- A group that has no effect beyond its PC: an empty active mask (R333). -/
def Iss.skip (x : Iss) (s : State) : State := x.advance s

/-- The lanes whose address pair holds a space-15 pointer outside a supervisor context (class 2, code 2), with the tagged
effective address of the lowest. -/
def Iss.priv15 (x : Iss) (s : State) : Option (List Nat × Nat) :=
  match x.info.ptr with
  | none => none
  | some (p, d) =>
    match x.w.reg x.st.fibre p, x.w.reg x.st.fibre (p + 1) with
    | .ok _, .ok _ =>
      if x.ctx.sup then none
      else
        match (lanesOf x.mask).filter fun i => decide (ptrSpace (x.src64 s p i).toNat = 15) with
        | i :: t => some (i :: t, ptrAdd (x.src64 s p i).toNat d)
        | [] => none
    | _, _ => none

/-- The checks of classes 1 to 4 and 8 that every family shares, in the order of R332: the prefixes, then with an active
lane the supervisor mark, the registers and tiles, the latches; poison is checked where a group's own classes 5 to 7 have
passed. none lets the group go on. -/
def Iss.check (x : Iss) (s : State) : Option State :=
  match prefixFailure x.info x.g with
  | some (c, off) => some (x.decodeTrap s c off)
  | none =>
    if x.mask = 0 then none
    else if x.info.sup && !x.ctx.sup then some (x.trap s { cls := 2, code := 1, lanes := maskOf x.readLanes })
    else
      match x.priv15 s, x.regFault with
      | some (l, ea), _ => some (x.trap s { cls := 2, code := 2, addr := ea, lanes := maskOf l })
      | none, some (c, n) => some (x.trap s { cls := 3, code := c, detail := n, lanes := maskOf x.readLanes })
      | none, none =>
        if x.staleLatches ≠ 0 then
          some (x.trap s { cls := 4, code := 1, detail := x.staleLatches, lanes := maskOf x.readLanes })
        else none

/-- Class 8, codes 1 and 3, checked behind classes 5 to 7. -/
def Iss.poisonCheck (x : Iss) (s : State) : Option State :=
  if x.mask = 0 then none
  else
    match x.wordPoison s with
    | some (kind, n, lanes, o) =>
      some (x.trap s { cls := 8, code := 1, detail := detail8 n kind o (lanes.headD 0), lanes := maskOf lanes })
    | none =>
      match x.tilePoison s with
      | some (t, rows, o) =>
        some (x.trap s { cls := 8, code := 3, detail := detail8 t 3 o (rows.headD 0), lanes := maskOf rows })
      | none => none

/-- What every encoded instruction does first: without a strand there is no group; a failed check traps; with no active
lane only the PC moves, unless the instruction has a vector destination, which still pushes zeros (R92, R184, R333); else
the instruction's own effect.

DEDUCED (log entry 14, unsafe): class order of faults of one group, read from R332. -/
def issue (i : Instr) (s : State) (f : Iss → State → State) : Out :=
  match issOf i s with
  | none => .fault .noStrand
  | some x =>
    match x.check s with
    | some s' => .next s'
    | none => if x.mask = 0 ∧ x.info.dst.isNone then .next (x.skip s) else .next (f x s)

/-- issue for instructions whose only remaining check is poison. -/
def issueP (i : Instr) (s : State) (f : Iss → State → State) : Out :=
  issue i s fun x s => match x.poisonCheck s with | some s' => s' | none => f x s

/-! ### Results (R92, R184) -/

/-- Whether a strand is in a speculative fence window (R162). -/
def Strand.spec (st : Strand) : Bool := st.fence.isSome

/-- Notes bytes about to be overwritten: a speculative strand can undo them, and no other strand's undo may bring them
back (R162). -/
def State.noteBytes (s : State) (uid : Nat) (spec : Bool) (a n : Nat) : State :=
  let keep := s.undo.filter fun u =>
    match u.2 with
    | .bytes b old _ => decide (u.1 = uid) || !(decide (a < b + old.length) && decide (b < a + n))
    | _ => true
  { s with undo := if spec then (uid, .bytes a (s.bytes a n) (s.poisonIn a n)) :: keep else keep }

/-- Writes one lane word of a register. -/
def State.storeLane (s : State) (uid : Nat) (spec : Bool) (a : Nat) (v : Word) : State :=
  (s.noteBytes uid spec a 4).store a (toBytes 4 v.toNat)

/-- Writes the active lanes of a register whose row is at a. -/
def State.storeReg (s : State) (uid : Nat) (spec : Bool) (a : Nat) (mask : Word) (f : Nat → Word) : State :=
  (lanesOf mask).foldl (fun s i => s.storeLane uid spec (a + 4 * i) (f i)) s

/-- One push of the latch ring (R92): the result in the active lanes, zero in the others. -/
def Strand.push (st : Strand) (mask : Word) (f : Nat → Word) (ready : Nat) (load : Option (Nat × Bool)) : Strand :=
  let l : Latch := { valid := true, data := (lanesOf mask).foldl (fun m i => spSet m i (f i)) [], ready := ready, load := load }
  { st with latches := l :: st.latches.take 3 }

/-- Adds a scoreboard entry, read by the clock from which its results are readable, and its step (R118, R129). -/
def State.addPipe (s : State) (k id : Nat) (p : Pipe) : State := s.modWarp k fun w => { w with pipe := amSet w.pipe id p }

/-- A scoreboard entry with a known time: PIPELINE_RESULT in lat clocks. -/
def State.pipeFor (s : State) (k lat : Nat) (p : Pipe) : State :=
  ((s.addPipe k s.nextId p).after lat prioResult (.pipelineResult k s.nextId)).bump

/-- The scoreboard's name of a vector register of the strand's fibre. -/
def Iss.resOf (x : Iss) (v : Nat) : List Res :=
  match x.w.reg x.st.fibre v with
  | .ok n => [.vreg n]
  | .bad _ => []

/-- The 32-bit result of a lane instruction in D (R184): the register unless D discards or N suppresses the write, the
latch push, the scoreboard entry with its flags, and the PC.

DESIGN CHOICE (log entry 70, unsafe): the flags of a result that only a latch takes come with the register's clock. -/
def Iss.result (x : Iss) (s : State) (d : Nat) (n : Bool) (lat latLatch : Nat) (flags : Flags) (f : Nat → Word) : State :=
  let res := if d < 120 then x.resOf d else []
  let s1 :=
    if d < 120 && !n then
      match x.w.reg x.st.fibre d with
      | .ok r => s.storeReg x.st.uid x.st.spec (regAddr x.k x.w r) x.mask f
      | .bad _ => s
    else s
  let s2 := s1.modStrand x.k x.e fun st => st.push x.mask f (s.clock + latLatch) none
  x.advance (s2.pipeFor x.k lat { res := if n then [] else res, fibre := x.st.fibre, uid := x.st.uid, flags := flags, mayFlag := x.info.flags })

/-- The 64-bit result of a lane instruction in the pair D (R90, R92): two registers, two pushes, the high word first. -/
def Iss.result64 (x : Iss) (s : State) (d : Nat) (n : Bool) (lat latLatch : Nat) (flags : Flags) (f : Nat → DWord) : State :=
  let lo (i : Nat) : Word := (f i).setWidth 32
  let hi (i : Nat) : Word := ((f i) >>> 32).setWidth 32
  let res := if d < 120 then x.resOf d ++ x.resOf (d + 1) else []
  let s1 :=
    if d < 120 && !n then
      match x.w.reg x.st.fibre d, x.w.reg x.st.fibre (d + 1) with
      | .ok r, .ok q =>
        (s.storeReg x.st.uid x.st.spec (regAddr x.k x.w r) x.mask lo).storeReg x.st.uid x.st.spec (regAddr x.k x.w q) x.mask hi
      | _, _ => s
    else s
  let s2 := s1.modStrand x.k x.e fun st =>
    (st.push x.mask hi (s.clock + latLatch) none).push x.mask lo (s.clock + latLatch) none
  x.advance (s2.pipeFor x.k lat { res := if n then [] else res, fibre := x.st.fibre, uid := x.st.uid, flags := flags, mayFlag := x.info.flags })

/-- Writes the active lanes of a predicate (R197) and moves the PC. A predicate is one word (R349): a write of some of its lanes leaves its
poison (R350). -/
def Iss.predResult (x : Iss) (s : State) (p : Nat) (f : Nat → Bool) : State :=
  let on := maskOf ((lanesOf x.mask).filter f)
  let old := x.w.pred x.st.fibre p
  let s1 := s.modWarp x.k fun w => w.modFibre x.st.fibre fun fb =>
    { fb with preds := spSet fb.preds p ((old &&& ~~~ x.mask) ||| on)
              predPoison := if x.mask = BitVec.allOnes 32 then amErase fb.predPoison p else fb.predPoison }
  let s2 := if x.st.spec then { s1 with undo := (x.st.uid, .pred x.k x.st.fibre p x.mask old
    (amGet (x.w.fibre x.st.fibre).predPoison p)) :: s1.undo } else s1
  x.advance (s2.pipeFor x.k 2 { res := [.pred x.st.fibre p], fibre := x.st.fibre, uid := x.st.uid })

/-- Writes a k register (R94); a later write of another strand is not undone (R162). -/
def State.setK (s : State) (k uid : Nat) (spec : Bool) (n : Nat) (v : Word) : State :=
  let old := match amGet s.warps k with | some w => w.kreg n | none => 0
  let pois := (amGet s.warps k).bind fun w => amGet w.kPoison n
  let keep := s.undo.filter fun u => match u.2 with | .kreg q m _ _ => decide (u.1 = uid) || !(decide (q = k) && decide (m = n)) | _ => true
  { (s.modWarp k fun w => { w with k := spSet w.k n v, kPoison := amErase w.kPoison n }) with
    undo := if spec then (uid, .kreg k n old pois) :: keep else keep }

/-- The result of a KU instruction (R203): one write per warp. -/
def Iss.kResult (x : Iss) (s : State) (n lat : Nat) (v : Word) : State :=
  x.advance ((s.setK x.k x.st.uid x.st.spec n v).pipeFor x.k lat { res := [.kreg n], fibre := x.st.fibre, uid := x.st.uid })

end Sys2Proof.Machine
end

