-- ==== Sys2Proof/Machine/Flags.lean ====
section
/-! DEFINITION. The sticky flags of a fibre (R128, R129): raised when an instruction's results become readable. -/

namespace Sys2Proof.Machine

/-- The flags raised in the active lanes (R129). -/
def orFlags (mask : Word) (f : Nat → Flags) : Flags := (lanesOf mask).foldl (fun a l => a ||| f l) 0

/-- ORs flags into a fibre's fstat (R129). -/
def Warp.raiseFlags (w : Warp) (f : Nat) (fl : Flags) : Warp := w.modFibre f fun fb => { fb with fstat := fb.fstat ||| fl }

/-- Clears the flags that are 1 in the value (W1C, R281). -/
def Warp.clearFlags (w : Warp) (f : Nat) (v : Word) : Warp :=
  w.modFibre f fun fb => { fb with fstat := fb.fstat &&& ~~~ (v.setWidth 6) }

/-- Whether another strand of a fibre than that of entry e holds flags in its fence window (R129, R162). -/
def Warp.flagsHeld (w : Warp) (f e : Nat) : Bool :=
  w.liveEntries.any fun a => decide (a ≠ e ∧ (w.strand a).fibre = f) && (w.strand a).fence.any fun fw => decide (fw.flags ≠ 0)

/-- Whether a fibre has an instruction in the pipes that may yet raise flags (R129). -/
def Warp.flagsPending (w : Warp) (f : Nat) : Bool := w.pipe.any fun p => decide (p.2.fibre = f) && p.2.mayFlag

end Sys2Proof.Machine
end

