-- ==== Sys2Proof/Machine/Reach.lean ====
section
/-! DEFINITION. Address translation (R103-R105), overlay directories (R278), and what an
address of a strand reaches (R99, R100, R102, R209), with the choice of the reported fault (R332). -/

namespace Sys2Proof.Machine

/-! ### Translation (R103-R105) -/

/-- The outcome of a walk: a leaf, a class-6 code, or a poisoned entry (class 8, code 4) with its origin; 15 is an entry of a contained
home, of origin 7. -/
inductive Walked where
  | leaf (t : Tlb)
  | bad (code : Nat)
  | poisoned (origin : Nat)
  deriving DecidableEq, Repr

/-- Whether the home of an address is contained (R360): its die, unless its page has been re-homed, or the CU it lies in. -/
def State.contained (s : State) (a : Nat) : Bool :=
  (decide ((amGetD s.dies (homeOf a) {}).status = 3) && !s.rehomed.contains (a / 4096)) ||
    (onChip a && (amGetD s.cus (chipCu a) {}).dead)

/-- Whether a die that joins takes no part in mo yet (R314): one that has begun a join whose step 4 is not complete. -/
def Die.away (d : Die) : Bool := decide (d.tries ≠ 0 ∧ (d.status = 0 ∨ (d.status = 1 ∧ d.stage ≤ 4)))

/-- Whether the home of an address takes no part in mo yet (R314).

DEDUCED (log entry 108, unsafe): what reaches the home of a die that joins waits until step 4 completes. -/
def State.away (s : State) (a : Nat) : Bool := (amGetD s.dies (homeOf a) {}).away

/-- The bytes a leaf maps at a level (R103), with its C bit. -/
def leafBytes (level c : Nat) : Nat :=
  if level = 0 then (if c = 1 then 65536 else 4096) else if level = 1 then 2097152 else if c = 1 then 4294967296 else 1073741824

/-- Whether the entries of a contiguous group, which start at a multiple of their count, agree in every field but FRAME, and each FRAME
addresses its own part of the page at first (R104). -/
def State.groupAgrees (s : State) (table ix level e first : Nat) : Bool :=
  let n := if level = 0 then 16 else 4
  (List.range n).all fun i =>
    let x := s.num (table + 8 * (ix - ix % n + i)) 8
    decide (x % 4096 = e % 4096 ∧ x / 2 ^ 40 = e / 2 ^ 40 ∧ bitsOf x 12 28 * 4096 = first + i * leafBytes level 0)

/-- The leaf of entry ix of a table at a level for an address, unless it is malformed (R104): a leaf at level 4 or 3, C at level 1, a
frame that does not address its own part of one aligned page, a group whose entries disagree, or a page outside a DRAM region.

DEDUCED (log entry 16, unsafe): details of malformed translation entries. -/
def State.leafOf (s : State) (ctx va level table ix e : Nat) : Option Tlb :=
  let c := bitsOf e 4 1
  let one := leafBytes level 0
  let size := leafBytes level c
  let frame := bitsOf e 12 28 * 4096
  let first := frame - frame % size
  if 3 ≤ level ∨ (level = 1 ∧ c = 1) ∨ frame % one ≠ 0 ∨ frame % size ≠ va % size - va % one then none
  else if c = 1 ∧ !s.groupAgrees table ix level e first then none
  else if inDram first && inDram (first + size - 1) && decide (homeOf first = homeOf (first + size - 1)) then
    some { ctx := ctx, base := va - va % size, bytes := size, frame := first,
           x := decide (bitsOf e 3 1 = 1), w := decide (bitsOf e 2 1 = 1), sv := decide (bitsOf e 5 1 = 1) }
  else none

/-- The walk from a table, with the number of levels still to read, collecting the non-leaf entries it reads. -/
def State.walkFrom (s : State) (ctx va : Nat) : Nat → Nat → List (Nat × Nat × Nat × Nat) → Walked × List (Nat × Nat × Nat × Nat)
  | 0, _, seen => (.bad 2, seen)
  | level + 1, table, seen =>
    let ix := bitsOf va (12 + 9 * level) 9
    let a := table + 8 * ix
    if s.contained a then (.poisoned 15, seen)
    else
      match s.poisonIn a 8 with
      | (_, o) :: _ => (.poisoned o, seen)
      | [] =>
        let e := s.num a 8
        if bitsOf e 0 1 = 0 then (.bad 1, seen)
        else if bitsOf e 40 24 ≠ 0 ∨ bitsOf e 6 6 ≠ 0 then (.bad 2, seen)
        else if bitsOf e 1 1 = 1 then
          match s.leafOf ctx va level table ix e with
          | some t => (.leaf t, seen)
          | none => (.bad 2, seen)
        else if level = 0 ∨ bitsOf e 4 1 = 1 ∨ !inDram (bitsOf e 12 28 * 4096) then (.bad 2, seen)
        else s.walkFrom ctx va level (bitsOf e 12 28 * 4096) (seen ++ [(ctx, level, va / 2 ^ (12 + 9 * level), bitsOf e 12 28 * 4096)])

/-- The lowest non-leaf entry that the walk cache holds for an address (R105): context, level, index part and table. -/
def State.walkHit (s : State) (ctx va : Nat) : Option (Nat × Nat × Nat × Nat) :=
  [1, 2, 3, 4].findSome? fun l => s.walkCache.find? fun e => decide (e.1 = ctx ∧ e.2.1 = l ∧ e.2.2.1 = va / 2 ^ (12 + 9 * l))

/-- Where a walk begins (R105): below the lowest non-leaf entry of the walk cache, with the levels left, else at the root. -/
def State.walkStart (s : State) (ctx va : Nat) : Nat × Nat :=
  match s.walkHit ctx va with
  | some e => (e.2.1, e.2.2.2)
  | none => (5, ((amGet s.ctxs ctx).map Ctx.ptroot).getD 0)

/-- The walk of an address, with the non-leaf entries it used, the one found in the walk cache first.

DEDUCED (log entry 18, unsafe): engines and the hub read the tables at the start of their walk. -/
def State.walk (s : State) (ctx va : Nat) : Walked × List (Nat × Nat × Nat × Nat) :=
  let b := s.walkStart ctx va
  s.walkFrom ctx va b.1 b.2 (s.walkHit ctx va).toList

/-- The clocks of a walk for a die (R121, R358): 60 a hop to the walkers and back, and 570 for each level read; for the hub (8), whose
walkers are its own, the levels alone.

DESIGN CHOICE (log entry 91, unsafe): a walk that ends in a fault takes the time of one down to level 0. -/
def State.walkClocks (s : State) (site ctx va : Nat) : Nat :=
  let r := s.walk ctx va
  let leaf := match r.1 with | .leaf t => if t.bytes ≤ 65536 then 0 else if t.bytes = 2097152 then 1 else 2 | _ => 0
  (if site < 8 then 120 * s.hubHops site else 0) + 570 * ((s.walkStart ctx va).1 - leaf)

/-- Puts an entry first in a least-recently-used list of n. -/
def touch {α : Type} [DecidableEq α] (l : List α) (x : α) (n : Nat) : List α := (x :: l.filter (· ≠ x)).take n

/-- Keeps the non-leaf entries of a walk (R105). -/
def State.keepWalk (s : State) (seen : List (Nat × Nat × Nat × Nat)) : State :=
  { s with walkCache := seen.foldl (fun l e => touch l e 4096) s.walkCache }

def Tlb.covers (t : Tlb) (ctx va : Nat) : Bool := decide (t.ctx = ctx) && decide (t.base ≤ va) && decide (va < t.base + t.bytes)

/-- The cached translation of an address for a die (8 is the hub) and, where there is one, an issue slot (R105). -/
def State.cached (s : State) (slot : Option Nat) (site ctx va : Nat) : Option Tlb :=
  let die := (amGetD s.tlbDie site []).find? fun t => t.covers ctx va
  match slot with
  | some k =>
    match (amGetD s.tlbSlot k []).find? fun t => t.covers ctx va with
    | some t => some t
    | none => die
  | none => die

/-- Records the use of a translation in the caches it is found through (R105).

DESIGN CHOICE (log entry 90, unsafe): a hit in an issue slot's cache counts as a use in the die's cache too. -/
def State.cache (s : State) (slot : Option Nat) (site : Nat) (t : Tlb) : State :=
  let s1 := { s with tlbDie := amSet s.tlbDie site (touch (amGetD s.tlbDie site []) t 8192) }
  match slot with
  | some k => { s1 with tlbSlot := amSet s1.tlbSlot k (touch (amGetD s1.tlbSlot k []) t 64) }
  | none => s1

/-- The class-6 code a leaf gives an access, in the order of R332. -/
def Tlb.denies (t : Tlb) (write sup fetch : Bool) : Option Nat :=
  if t.sv && !sup then some 4 else if write && !t.w then some 3 else if fetch && !t.x then some 5 else none

def Tlb.phys (t : Tlb) (va : Nat) : Nat := t.frame + (va - t.base)

/-- The physical address a virtual one selects: in a shadow-paired region whose selector chooses the second copy, DELTA
further on (R276, R312). -/
def State.select (s : State) (ctx va pa : Nat) : Nat :=
  match (amGet s.ctxs ctx).bind fun c => c.shadows.find? fun r => decide (r.base ≤ va) && decide (va < r.base + r.bytes) with
  | some r => if r.second then ((pa : Int) + r.delta).toNat else pa
  | none => pa

/-- A translation made at once, for the engines and the hub: the physical address, or a class and code with an origin. -/
inductive Now where
  | ok (pa : Nat)
  | bad (cls code origin : Nat)
  deriving DecidableEq, Repr

def State.transNow (s : State) (site ctx va : Nat) (write sup fetch : Bool) : Now :=
  let go (t : Tlb) : Now :=
    match t.denies write sup fetch with
    | some c => .bad 6 c 0
    | none => .ok (s.select ctx va (t.phys va))
  match s.cached none site ctx va with
  | some t => go t
  | none =>
    match (s.walk ctx va).1 with
    | .leaf t => go t
    | .bad c => .bad 6 c 0
    | .poisoned o => .bad 8 4 (o % 8)

/-- The walk in flight, anywhere in the package, for the page of an address (R105), as the tables stand; a page that has none is its 4 KiB. -/
def State.walkOf (s : State) (ctx va : Nat) : Option (Nat × Walk) :=
  let same (w : Walk) : Bool := decide (w.ctx = ctx) &&
    (decide (w.va / 4096 = va / 4096) || (match (s.walk ctx va).1 with | .leaf t => t.covers ctx w.va | _ => false))
  if s.walks = [] then none else s.walks.find? fun w => same w.2

/-- Gives free walkers to the walks that wait for one (R18); at most n.

DESIGN CHOICE (log entry 93, unsafe): which of the walks that wait takes a walker that becomes free is left open; they are served in the order
of their misses. -/
def State.startWalks (s : State) : Nat → State
  | 0 => s
  | n + 1 =>
    if Config.walkers ≤ (s.walks.filter fun w => w.2.running).length then s
    else
      match s.walks.find? fun w => !w.2.running with
      | some (id, w) =>
        (({ s with walks := amSet s.walks id { w with running := true } }).after (w.lead + s.walkClocks w.site w.ctx w.va) prioResult
          (.pageWalk id)).startWalks n
      | none => s

/-- Asks for a walk that none in flight makes: its request goes to the hub, a flit of a die (R21), and it takes a walker or waits for one. -/
def State.newWalk (s : State) (favoured : Bool) (w : Walk) : State :=
  let f := if w.site < 8 then s.sendFlits w.ctx w.site 8 1 favoured false 0 else (s, 0)
  ({ f.1 with walks := amSet f.1.walks f.1.nextId { w with running := false, lead := f.2 } }.bump).startWalks 1

/-- What a translation of an engine or of the hub (8) does when it is asked for (R105): a hit is a use, a page that is being walked is waited
for, and any other is walked. -/
def State.askTrans (s : State) (favoured : Bool) (site ctx va : Nat) : State :=
  match s.cached none site ctx va, s.walkOf ctx va with
  | some t, _ => s.cache none site t
  | none, some (id, w) => { s with walks := amSet s.walks id { w with sites := w.sites ++ [site] } }
  | none, none => s.newWalk favoured { ctx := ctx, va := va, site := site, slots := [], uids := [], sites := [site] }

/-- The clocks at which the walks in flight end, by walk: of those that have a walker, then of those that wait, each of which takes the one
that is free first (R18). -/
def State.walkEnds (s : State) : List (Nat × Nat) :=
  let due (id : Nat) : Nat := ((s.agenda.find? fun a => decide (a.ev = .pageWalk id)).map Agenda.due).getD s.clock
  let now := (s.walks.filter fun w => w.2.running).map fun w => (w.1, due w.1)
  ((s.walks.filter fun w => !w.2.running).foldl (fun (m : List (Nat × Nat) × List Nat) w =>
    let free := m.2.foldl min (m.2.headD s.clock)
    let at0 := free + w.2.lead + s.walkClocks w.2.site w.2.ctx w.2.va
    (m.1 ++ [(w.1, at0)], m.2.erase free ++ [at0])) (now, now.map Prod.snd)).1

/-- The clocks that a translation which has been asked for still takes (R105, R121): none on a hit, else what is left of its page's walk. -/
def State.transClocks (s : State) (site ctx va : Nat) : Nat :=
  match s.cached none site ctx va, s.walkOf ctx va with
  | some _, _ => 0
  | none, some (id, _) => (amGetD s.walkEnds id s.clock) - s.clock
  | none, none => s.walkClocks site ctx va

/-- A translation asked for, with the clocks it takes. -/
def State.translate (s : State) (favoured : Bool) (site ctx va : Nat) : State × Nat :=
  let s1 := s.askTrans favoured site ctx va
  (s1, s1.transClocks site ctx va)

/-- Notes the use of a cached translation by an engine or the hub. -/
def State.useTrans (s : State) (site ctx va : Nat) : State :=
  match s.cached none site ctx va with
  | some t => s.cache none site t
  | none => s

/-! ### Overlay directories (R278) -/

/-- An entry of an overlay directory: length and code address; absent (at or above COUNT, or LEN = 0); invalid; or not
readable. -/
inductive DirEntry where
  | ok (len addr : Nat)
  | absent
  | invalid
  | fault (cls code addr origin : Nat)
  deriving DecidableEq, Repr

/-- n bytes (at most a line) at a virtual address, read by an engine: the number, or why it cannot be read. -/
def State.readNow (s : State) (site ctx va n : Nat) (sup : Bool) : Except (Nat × Nat × Nat) Nat :=
  match s.transNow site ctx va false sup false with
  | .bad cls code o => .error (cls, code, o)
  | .ok pa =>
    if s.contained pa then .error (8, 1, 7)
    else
      match s.poisonIn pa n with
      | (_, o) :: _ => .error (8, 1, o)
      | [] => .ok (s.num pa n)

/-- Entry j of the directory at a virtual address. -/
def State.directory (s : State) (site ctx dir j : Nat) (sup : Bool) : DirEntry :=
  match s.readNow site ctx dir 8 sup, s.readNow site ctx (dir + 8) 8 sup with
  | .error e, _ => .fault e.1 e.2.1 dir e.2.2
  | _, .error e => .fault e.1 e.2.1 (dir + 8) e.2.2
  | .ok h, .ok h2 =>
    let count := bitsOf h 0 9
    if dir % 64 ≠ 0 ∨ bitsOf h 9 55 ≠ 0 ∨ h2 ≠ 0 ∨ count = 0 ∨ 256 < count then .invalid
    else if count ≤ j then .absent
    else
      let at0 := dir + 16 + 16 * j
      match s.readNow site ctx at0 8 sup, s.readNow site ctx (at0 + 8) 8 sup with
      | .error e, _ => .fault e.1 e.2.1 at0 e.2.2
      | _, .error e => .fault e.1 e.2.1 (at0 + 8) e.2.2
      | .ok a, .ok l =>
        if bitsOf l 0 16 = 0 then .absent
        else if bitsOf l 16 48 ≠ 0 ∨ 32768 < bitsOf l 0 16 ∨ 2 ^ 57 ≤ a ∨ a % 64 ≠ 0 then .invalid
        else .ok (bitsOf l 0 16) a

/-- The bank of a CU that holds an overlay (R279). -/
def State.bank (s : State) (cu ctx dir ovl : Nat) : Option Bank :=
  (s.cu cu).banks.find? fun b => decide (b.ctx = ctx ∧ b.dir = dir ∧ b.ovl = ovl)

/-! ### What an address reaches -/

/-- Where an access of a strand goes: bytes of the physical space, with the virtual address and space they were named by and
whether they are exempt from mo (R154); the parameter block; an overlay; a fault; a translation miss; or a warp whose
block is in operation (R251, R371). -/
inductive Reach where
  | mem (a va sp : Nat) (own : Bool)
  | param (o : Nat)
  | code (ovl o : Nat)
  | fault (cls code origin : Nat)
  | miss (va : Nat)
  | busy
  deriving DecidableEq, Repr

/-- The teams of a gallery group of a grid (R62): their number, which for the last group is smaller. -/
def Grid.groupSize (g : Grid) (group : Nat) : Nat :=
  min (2 ^ g.lr.group) (g.lr.gridx * g.lr.gridy * g.lr.gridz - group * 2 ^ g.lr.group)

/-- The resident team of a rank of a group (R64). -/
def State.rankTeam (s : State) (gn group rank : Nat) : Option (Nat × Team) :=
  s.teams.find? fun t => decide (t.2.grid = gn) && decide (t.2.group = group) && decide (t.2.rank = rank)

/-- The physical address of a scratchpad offset of a team, unless its bay is none of the N logical bays (R96). -/
def Team.spAddr (t : Team) (n off : Nat) : Option Nat :=
  if off / 4096 < n then some (bankAddr t.cu (t.bays.getD (off / 4096) 0 + off % 4096)) else none

/-- Whether an on-chip byte is granted to a team of a context (R100). -/
def State.granted (s : State) (ctx a : Nat) : Bool :=
  let o := chipOff a
  s.teams.any fun t =>
    decide (t.2.cu = chipCu a) && decide (((amGet s.grids t.2.grid).map Grid.ctx) = some ctx) &&
      ((t.2.bays ++ t.2.spares).any (fun b => decide (b ≤ o) && decide (o < b + 4096)) ||
        t.2.warps.any fun k =>
          decide (2 ^ 21 + warpSlot k * 16384 ≤ o) && decide (o < 2 ^ 21 + warpSlot k * 16384 + 16384) ||
            (match amGet s.warps k with
             | some w => w.spilled.isNone && decide (w.block ≤ o) && decide (o < w.block + w.blockBytes)
             | none => false))

/-- The least rank a fault has among the faults of a group (R332): by class, then by the class's code order. -/
def faultKey (cls code : Nat) : Nat :=
  cls * 16 + (if cls = 6 then (if code = 1 then 0 else if code = 2 then 1 else if code = 4 then 2 else if code = 3 then 3 else 4)
              else code)

/-- The address part of the checks for spaces 1 to 3 of a target team (R99).

DEDUCED (log entry 19, unsafe): accesses to the scratchpad of a finished team. -/
def State.reachTeam (s : State) (x : Iss) (p : Nat) (aligned : Bool) : Reach :=
  let sp := ptrSpace p
  let off := ptrOff p
  let mis (r : Reach) : Reach := if aligned then r else .fault 5 4 0
  if x.grid.groupSize x.team.group ≤ ptrRank p then .fault 5 2 0
  else
    match s.rankTeam x.gn x.team.group (ptrRank p) with
    | none => .fault 5 2 0
    | some (tn, t) =>
      if sp = 1 then
        match t.spAddr x.grid.lr.bays off with
        | some a => if off < 2 ^ 18 then mis (.mem a off 1 false) else .fault 5 3 0
        | none => .fault 5 3 0
      else if sp = 3 then
        if off < 2 ^ 19 ∧ off / 4096 < 4 * t.warps.length then
          mis (.mem (t.tileAddr (off / 4096) + off % 4096) off 3 (decide (tn = x.tn)))
        else .fault 5 3 0
      else
        let wn := off / 65536
        let f := off / 16384 % 4
        let v := off / 128 % 128
        if 2 ^ 20 ≤ off ∨ t.warps.length ≤ wn ∨ x.grid.lr.fibres ≤ f ∨ 120 ≤ v then .fault 5 3 0
        else if !aligned then .fault 5 4 0
        else
          let k := t.warps.getD wn 0
          match amGet s.warps k with
          | none => .fault 5 3 0
          | some w =>
            match w.reg f v with
            | .bad _ => .fault 5 6 0
            | .ok r =>
              if k ≠ x.k ∧ (w.spilled.isSome ∨ w.op.isSome) then .busy
              else .mem (regAddr k w r + off % 128) off 2 (decide (k = x.k))

/-- What a pointer of a strand reaches, for an access of n bytes in one of the spaces given (R99, R209). A space-5 byte of an overlay that is
not resident needs its directory entry and the page of its code.

DESIGN CHOICE (log entry 94, unsafe): where the directory or the entry is invalid, which the spec answers only for a fetch, the load has
class 5, code 3, as beyond a length. -/
def State.reach (s : State) (x : Iss) (spaces : List Nat) (n : Nat) (align : Nat) (write : Bool) (p : Nat) : Reach :=
  let sp := ptrSpace p
  let off := ptrOff p
  let aligned := decide (off % align = 0)
  if sp = 15 ∧ spaces.contains 15 ∧ !x.ctx.sup then .fault 2 2 0
  else if !spaces.contains sp then .fault 5 1 0
  else if 1 ≤ sp ∧ sp ≤ 3 then s.reachTeam x p aligned
  else if ptrRank p ≠ 0 then .fault 5 2 0
  else if sp = 4 then
    if 64 ≤ off then .fault 5 3 0 else if aligned then .param off else .fault 5 4 0
  else if sp = 5 then
    if 2 ^ 24 ≤ off then .fault 5 3 0
    else
      let ovl := off / 65536
      let byte := off % 65536
      let inside (len : Nat) : Reach :=
        if 2 * len < byte + n then .fault 5 3 0 else if aligned then .code ovl byte else .fault 5 4 0
      match s.bank x.cu x.cn x.grid.lr.code ovl with
      | some b => inside b.len
      | none =>
        match s.directory x.site x.cn x.grid.lr.code ovl x.ctx.sup with
        | .ok len addr =>
          match inside len, s.transNow x.site x.cn (addr + byte) false x.ctx.sup false with
          | .code _ _, .bad cls c g => .fault cls c g
          | r, _ => r
        | .fault 6 c _ _ => .fault 6 c 0
        | .fault 8 _ _ o => .fault 8 4 o
        | _ => .fault 5 3 0
  else if sp = 15 then
    if !mapped off || !mapped (off + n - 1) || (onChip off && !s.granted x.cn off) then .fault 5 3 0
    else if aligned then .mem off off 15 false else .fault 5 4 0
  else if !aligned then .fault 5 4 0
  else
    match x.st.walked.find? fun e => decide (e.1 = off / 4096) with
    | some e => if 100 ≤ e.2 then .fault 8 4 (e.2 - 100) else .fault 6 e.2 0
    | none =>
      match s.cached (some (warpIssue x.k)) x.site x.cn off with
      | none => .miss off
      | some t =>
        match t.denies write x.ctx.sup false with
        | some c => .fault 6 c 0
        | none => .mem (s.select x.cn off (t.phys off)) off 0 false

/-- Notes the use of the translations of an instruction's space-0 addresses (R105). -/
def Iss.useTlb (x : Iss) (s : State) (vas : List Nat) : State :=
  vas.foldl (fun s va =>
    match s.cached (some (warpIssue x.k)) x.site x.cn va with
    | some t => s.cache (some (warpIssue x.k)) x.site t
    | none => s) s

/-! ### Stalls found at issue -/

/-- A group that does not issue in this clock: nothing happens, the strand keeps its warp slot and is tried again, and the
issue slot may serve another warp slot (R117, R118). -/
def Iss.hold (x : Iss) (s : State) : State :=
  { s with cur := none, tried := x.k :: s.tried, toServe := warpIssue x.k :: s.toServe }

/-- A scoreboard stall found at issue: with `~` it is a switch (R80, R118, R292): the latches become invalid and the slot
passes on. -/
def Iss.stall (x : Iss) (s : State) : State :=
  let s1 := x.hold s
  if x.g.sw = some false then
    (s1.modStrand x.k x.e fun st => { st.dropLatches with switched := true }).modWarp x.k fun w =>
      { w with holder := none, vacated := false, lastFibre := x.st.fibre }
  else s1

/-- A group held until walks for its missing pages return (R105, R331): misses to one page share a walk, whatever its size and wherever they
are met. -/
def Iss.waitWalks (x : Iss) (s : State) (pages : List Nat) : State :=
  let s1 := x.stall s
  let s2 := s1.modStrand x.k x.e fun st => { st with hold := .stall st.uid }
  pages.foldl (fun s pg =>
    match s.walkOf x.cn (pg * 4096) with
    | some (id, w) =>
      { s with walks := amSet s.walks id { w with uids := w.uids ++ [x.st.uid], slots := w.slots ++ [warpIssue x.k] } }
    | none => s.newWalk (s.favoured x.team) { ctx := x.cn, va := pg * 4096, site := x.site, slots := [warpIssue x.k], uids := [x.st.uid] }) s2

/-! ### The reported fault (R332, R339) -/

/-- An access of a lane: the lane, its tagged effective address and what it reaches. -/
structure LaneAcc where
  lane : Nat
  ea : Nat
  at0 : Reach
  deriving DecidableEq, Repr

/-- The fault of a lane, as class, code and origin. -/
def LaneAcc.bad (a : LaneAcc) : Option (Nat × Nat × Nat) := match a.at0 with | .fault c k o => some (c, k, o) | _ => none

/-- The least fault key among the lanes. -/
def worstKey (l : List LaneAcc) : Option Nat :=
  l.foldl (fun m a =>
    match a.bad, m with
    | some f, some k => some (min (faultKey f.1 f.2.1) k)
    | some f, none => some (faultKey f.1 f.2.1)
    | none, m => m) none

/-- The trap that a list of accesses gives: LANES names every lane with the reported class and code; ADDR and DETAIL take
the lowest of them (R332, R335, R338, R353). extra is added to DETAIL (an MCAS word). all, when given, is LANES. -/
def faultInfo (l : List LaneAcc) (extra : Nat) (all : Option Word) : Option TrapInfo :=
  match worstKey l with
  | none => none
  | some k =>
    let hit := l.filter fun a => match a.bad with | some f => decide (faultKey f.1 f.2.1 = k) | none => false
    match hit with
    | a :: _ =>
      match a.bad with
      | some f =>
        let low := match all with | some m => (lanesOf m).headD 0 | none => a.lane
        some { cls := f.1, code := f.2.1,
               detail := if f.1 = 2 then 0 else if f.1 = 8 then detail8 0 5 f.2.2 low else low + extra,
               addr := if f.1 = 8 then ptrOff a.ea else a.ea,
               lanes := match all with | some m => m | none => maskOf (hit.map LaneAcc.lane) }
      | none => none
    | [] => none

/-- Whether the reported class is below the translation class. -/
def TrapInfo.early (t : TrapInfo) : Bool := decide (t.cls < 6)

/-- The pages among the accesses whose translation is not cached. -/
def missPages (l : List LaneAcc) : List Nat :=
  (l.filterMap fun a => match a.at0 with | .miss va => some (va / 4096) | _ => none).eraseDups

/-- The poisoned tile elements that a group reads through space 3 (R352), by lane: the tile and the origin.

DEDUCED (log entry 73, unsafe): a space-3 read of a poisoned element traps at issue; one poisoned later gives the marker. -/
def Iss.spacePoison (s : State) (l : List LaneAcc) (n : Nat) : List (Nat × Nat × Nat) :=
  l.filterMap fun a => match a.at0 with
    | .mem p va 3 _ => ((s.poisonIn p n).head?).map fun q => (a.lane, va / 4096, q.2)
    | _ => none

/-- The trap of such a read, class 8, code 3. -/
def Iss.spaceTrap (x : Iss) (s : State) (l : List LaneAcc) (n : Nat) (all : Option Word) : Option State :=
  match Iss.spacePoison s l n with
  | (i, t, o) :: r =>
    let lanes := match all with | some m => m | none => maskOf (i :: r.map Prod.fst)
    some (x.trap s { cls := 8, code := 3, detail := detail8 t 3 o ((lowLane lanes).getD 0), lanes := lanes })
  | [] => none

/-- The address checks of a group (R331, R332): an address fault at once; else the missing walks; else a translation fault; a poisoned source
or tile element (tiles) before a poisoned translation entry, by their codes; else a wait for a warp whose block is in operation; else poison
among its sources; else the effect. -/
def Iss.addressed (x : Iss) (s : State) (l : List LaneAcc) (all : Option Word) (f : State → State) (tiles : Option State := none) : State :=
  let info := faultInfo l 0 all
  match info.filter TrapInfo.early with
  | some t => x.trap s t
  | none =>
    if missPages l ≠ [] then x.waitWalks s (missPages l)
    else
      match info with
      | some t => ((if t.cls = 8 then x.poisonCheck s <|> tiles else none).getD (x.trap s t))
      | none =>
        if l.any (fun a => decide (a.at0 = .busy)) then x.stall s
        else
          match x.poisonCheck s with
          | some s' => s'
          | none => f (x.useTlb s (l.filterMap fun a => match a.at0 with | .mem _ va 0 _ => some va | _ => none))

/-- The pointer of a lane in an address pair (R208). -/
def Iss.ptr (x : Iss) (s : State) (p i : Nat) : Nat := (x.src64 s p i).toNat

/-- The accesses of the active lanes through an address pair with a displacement. -/
def Iss.accesses (x : Iss) (s : State) (spaces : List Nat) (n : Nat) (write : Bool) (p : Nat) (disp : Int) : List LaneAcc :=
  (lanesOf x.mask).map fun i =>
    let ea := ptrAdd (x.ptr s p i) disp
    { lane := i, ea := ea, at0 := s.reach x spaces n n write ea }

end Sys2Proof.Machine
end

