-- ==== Sys2Proof/Machine/Request.lean ====
section
/-! DEFINITION. Accesses in progress: timestamps and leases at the homes and in L1 (R155-R157), single-event atomics (R161,
R220, R224), poison (R350, R354), what a write wakes (R111, R162, R249, R336), and the issue of accesses with their times
(R121, R233). -/

namespace Sys2Proof.Machine

/-! ### Messages and units (R21, R116) -/

/-- Sends n messages of a flit each and their answers between a site and the home of an address; the clocks by which the last is lengthened. -/
def State.sendRound (s : State) (ctx site a n : Nat) (favoured : Bool) : State × Nat :=
  let f := s.sendFlits ctx site (homeOf a) n favoured false 0
  let g := f.1.sendFlits ctx (homeOf a) site n favoured false 0
  (g.1, f.2 + g.2)

/-- Charges n copy units of a CU's die at once and gives the clocks by which the budget lengthens their moving: what a period does not admit
is charged to those that follow (R116, R117). -/
def State.chargeUnits (s : State) (ctx site n : Nat) (favoured : Bool) : State × Nat :=
  let key := ctx * 8 + site
  let limit := ((amGet s.ctxs ctx).map Ctx.copyLimit).getD 0
  let used := amGetD s.copyUsed key 0
  let now := min n ((if favoured then limit else linkShare limit) - used)
  if limit = 0 ∨ now = n then ({ s with copyUsed := amSet s.copyUsed key (used + n) }, 0)
  else
    let held := amGetD s.copyHeld key 0
    ({ s with copyUsed := amSet s.copyUsed key (used + now), copyHeld := amSet s.copyHeld key (held + (n - now)) },
     s.toBoundary + (held + (n - now) - 1) / linkShare limit * Config.period)

/-! ### Who an access belongs to -/

/-- Whether a strand is, or descends from, an identity. -/
def Strand.mine (st : Strand) (uid : Nat) : Bool := decide (st.uid = uid) || st.kin.contains uid

/-- Whether a request q belongs to the agent of r or to one it descends from. -/
def Req.follows (r q : Req) : Bool := decide (q.uid = r.uid) || r.kin.contains q.uid

/-- Whether an earlier request of the agent has yet to perform.

DEDUCED (log entry 25, safe): accesses of one strand perform in program order. -/
def State.waitsEarlier (s : State) (id : Nat) (r : Req) : Bool :=
  s.reqs.any fun q => decide (q.1 < id) && !q.2.done && r.follows q.2

/-- The matrix operations of a CU that have not finished, in engine order. -/
def Cu.matOps (c : Cu) : List MatOp := c.running.toList ++ c.queue

/-- Whether an event of a strand is not yet acknowledged (R160): one of its requests before id, or the tile result of a
matrix operation before id (R267). -/
def State.unacked (s : State) (st : Strand) (id : Nat) : Bool :=
  s.reqs.any (fun q => decide (q.1 < id) && st.mine q.2.uid) ||
    s.cus.any fun c => c.2.matOps.any fun m => decide (m.id < id) && st.mine m.uid

/-- Whether an operation of identity u with ancestors kin follows the events of uid. -/
def follows (u uid : Nat) (kin : List Nat) : Bool := decide (u = uid) || kin.contains uid

/-- Raises the clock of an agent to a timestamp, for its strands, parked paths and later operations. -/
def State.agentClock (s : State) (k uid id ts : Nat) : State :=
  let s1 := s.modWarp k fun w =>
    { w with table := w.table.map fun st => if st.mine uid then { st with c := max st.c ts } else st
             overflow := w.overflow.map fun p => if follows p.uid uid p.kin then { p with c := max p.c ts } else p }
  let later (n u : Nat) (kin : List Nat) : Bool := decide (id < n) && follows u uid kin
  { s1 with
    reqs := s1.reqs.map fun q => if later q.1 q.2.uid q.2.kin && !q.2.done then (q.1, { q.2 with c := max q.2.c ts }) else q
    copies := s1.copies.map fun q => if later q.1 q.2.uid q.2.kin then (q.1, { q.2 with c := max q.2.c ts }) else q
    launches := s1.launches.map fun q => if later q.1 q.2.uid q.2.kin then (q.1, { q.2 with c := max q.2.c ts }) else q
    cus := s1.cus.map fun c => (c.1, { c.2 with
      queue := c.2.queue.map fun m => if later m.id m.uid m.kin then { m with c := max m.c ts } else m }) }

/-! ### Loaded values (R212, R349, R350) -/

/-- The value of n bytes as a load gives it: extended, or the marker in each 32-bit half that poison touches, with the
origins by half. pois holds poisoned units of u bytes by address. -/
def loadVal (n : Nat) (signed : Bool) (bs : List Byte) (a u : Nat) (pois : List (Nat × Nat)) : DWord × List (Nat × Nat) :=
  let half (h : Nat) : Option Nat :=
    (pois.find? fun p => decide (p.1 < a + 4 * h + min n 4) && decide (a + 4 * h < p.1 + u)).map Prod.snd
  let v := ofBytes bs
  let plain := if signed then (ofInt 64 (sext (8 * n) v)).toNat else v
  let lo := match half 0 with | some o => (marker o).toNat | none => plain % 2 ^ 32
  let hi := if n = 8 then (match half 1 with | some o => (marker o).toNat | none => plain / 2 ^ 32) else 0
  (BitVec.ofNat 64 (lo + hi * 2 ^ 32),
   (match half 0 with | some o => [(0, o)] | none => []) ++
     (if n = 8 then (match half 1 with | some o => [(1, o)] | none => []) else []))

/-- The value of n bytes at a as the home has them. -/
def State.valAt (s : State) (n : Nat) (signed : Bool) (a : Nat) : DWord × List (Nat × Nat) :=
  loadVal n signed (s.bytes a n) a (poisonUnit a) (s.poisonIn a n)

/-- A lane's result put into a load. -/
def Load.put (ld : Load) (lane : Nat) (r : DWord × List (Nat × Nat)) : Load :=
  { ld with vals := amSet ld.vals lane r.1, poison := r.2.foldl (fun m h => amSet m (2 * lane + h.1) h.2) ld.poison }

/-! ### Atomics (R219, R220, R224) -/

/-- new(old, b) of an atomic of w bits; CAS takes e and n. -/
def atomNew (op w b e n old : Nat) : Nat :=
  let m := 2 ^ w
  if op = 0 then (old + b) % m
  else if op = 1 then (if sext w b < sext w old then b else old)
  else if op = 2 then min old b
  else if op = 3 then (if sext w old < sext w b then b else old)
  else if op = 4 then max old b
  else if op = 5 then old &&& b
  else if op = 6 then old ||| b
  else if op = 7 then old ^^^ b
  else if op = 8 then b
  else if op = 9 then (if old = e then n else old)
  else if op = 10 then fMin 32 old b
  else fMax 32 old b

/-- The sum and error words of RED.FADDC after adding a (R224). -/
def faddcNew (sum err a : Nat) : Nat × Nat :=
  let t := (fAdd fmt32 .rne sum a).1
  match unpack fmt32 sum, unpack fmt32 a, unpack fmt32 t with
  | .fin s1 m1 e1, .fin s2 m2 e2, .fin s3 m3 e3 =>
    let q : Int := -149
    let d := scaled s1 m1 e1 q + scaled s2 m2 e2 q - scaled s3 m3 e3 q
    match unpack fmt32 err with
    | .fin s4 m4 e4 => (t, (roundSum fmt32 .rne (scaled s4 m4 e4 q + d) q false true).1)
    | _ => (t, (fAdd fmt32 .rne err 0).1)
  | _, _, _ => (t, err)

/-! ### What a write wakes -/

/-- The team and scratchpad offset whose logical bay holds a physical byte (R96). -/
def State.bayOf (s : State) (a : Nat) : Option (Nat × Nat) :=
  if onChip a && decide (chipOff a < 2 ^ 21) then
    s.teams.findSome? fun t =>
      if t.2.cu = chipCu a then
        ((List.range t.2.bays.length).find? fun j =>
          decide (t.2.bays.getD j 0 ≤ chipOff a) && decide (chipOff a < t.2.bays.getD j 0 + 4096)).map fun j =>
            (t.1, 4096 * j + (chipOff a - t.2.bays.getD j 0))
      else none
  else none

/-- Notes scratchpad bytes for the side port (R164). -/
def State.logSp (s : State) (a : Nat) (bs : List Byte) : State :=
  match s.bayOf a with
  | some (tn, o) =>
    s.modTeam tn fun t => { t with spLog := t.spLog ++ ((List.range bs.length).zip bs).map fun p => (o + p.1, p.2) }
  | none => s

/-- Notes a write in the fence windows of other agents whose speculative reads it meets (R162). -/
def State.meetFences (s : State) (a n ts uid : Nat) : State :=
  { s with warps := s.warps.map fun w =>
      (w.1, { w.2 with table := w.2.table.map fun st =>
        match st.fence with
        | some fw =>
          if !st.mine uid && fw.reads.any (fun r => decide (a < r.1 + r.2) && decide (r.1 < a + n)) then
            { st with fence := some { fw with met := fw.met ++ [ts] } }
          else st
        | none => st }) }

/-- A read event at a line (R155): the timestamp, and the line with its lease. -/
def State.readStamp (s : State) (l c lease : Nat) : Nat × State :=
  let x := s.line l
  let ts := max (c + 1) x.wts
  let x' := { x with rts := max x.rts (ts + lease) }
  (ts, { s.setLine l x' with tmax := raise s.tmax (homeOf (l * 64) * 64 + sliceOf (l * 64)) x'.rts })

/-- A write or read-modify-write event at a line (R155). -/
def State.writeStamp (s : State) (l c : Nat) : Nat × State :=
  let x := s.line l
  let ts := max (c + 1) (x.rts + 1)
  (ts, { s.setLine l { x with wts := ts, rts := ts } with tmax := raise s.tmax (homeOf (l * 64) * 64 + sliceOf (l * 64)) ts })

/-- The lease of a context in timestamp units and clocks (R122, R155). -/
def State.lease (s : State) (ctx : Nat) : Nat := ((amGet s.ctxs ctx).map Ctx.lease).getD 4096

/-- Re-reads the counter of a waiting strand after a write, at a timestamp above the write's (R249): a satisfied strand becomes ready the L2 latency
from the counter's home later; a poisoned counter traps it. -/
def State.rewatch (s : State) (k e : Nat) : State :=
  match amGet s.warps k with
  | none => s
  | some w =>
    let st := w.strand e
    let ctx := s.ctxOf k
    match s.poisonIn st.waitPhys 8 with
    | (_, o) :: _ =>
      s.takeTrap k e { cls := 8, code := 2, detail := detail8 0 4 o ((lowLane st.mask).getD 0), addr := st.waitAddr,
                       lanes := maskOf ((lanesOf st.mask).take 1), parcel := st.parcel } st.pc
    | [] =>
      let h := s.horizon ctx (warpCu k) (if onChip st.waitPhys then 1 else 3)
      let r := s.readStamp (lineOf st.waitPhys) (max (max st.c h) (s.line (lineOf st.waitPhys)).wts) (s.lease ctx)
      let s1 := r.2.modStrand k e fun st => { st with c := r.1 }
      if st.waitVal ≤ s.num st.waitPhys 8 then
        let lat := if onChip st.waitPhys then s.chipLatency (warpCu k) st.waitPhys
                   else fullL2 (s.hops (cuSite (warpCu k)) (homeOf st.waitPhys))
        (s1.modStrand k e fun st => { st with waitTs := some r.1 }).after lat prioResult (.waitcReread st.uid)
      else s1

/-- The strands that wait on a counter that n bytes from a touch (R249). -/
def State.watchers (s : State) (a n : Nat) : List (Nat × Nat) :=
  s.warps.flatMap fun w =>
    (w.2.liveEntries.filter fun e =>
      let st := w.2.strand e
      decide (st.state = .countWait) && st.waitTs.isNone && decide (a < st.waitPhys + 8) && decide (st.waitPhys < a + n)).map
      fun e => (w.1, e)

/-- What a performed write of n bytes at a sets off: fence windows (R162), waiting counters (R249), held launches (R111), a
full trap ring (R336). -/
def State.afterWrite (s : State) (a n ts uid : Nat) : State :=
  let s1 := s.meetFences a n ts uid
  let s2 := (s1.watchers a n).foldl (fun s w => s.rewatch w.1 w.2) s1
  let s3 := s2.grids.foldl (fun s g =>
    if g.2.held && decide (a < g.2.waitPhys + 8) && decide (g.2.waitPhys < a + n) then
      s.after 1 prioRead (.dependenceCounterReread g.1) else s) s2
  s3.ctxs.foldl (fun s c =>
    if decide (c.2.ringAt ≠ 0) && c.2.ringFull && decide (a < c.2.ringAt + 8) && decide (c.2.ringAt < a + n) then
      (s.modCtx c.1 fun c => { c with takenQ := c.takenQ ++ [s.num c.ringAt 8] }).after (s.hubMsg (homeOf c.2.ringAt)) prioResult (.takenReread c.1)
    else s) s3

/-- Writes bytes of a performed write, with everything it sets off. -/
def State.putBytes (s : State) (uid ts a : Nat) (bs : List Byte) : State :=
  (((s.noteBytes uid false a bs.length).store a bs).logSp a bs).afterWrite a bs.length ts uid

/-- Asks a context to stop (R318): keep says that its CUs stay reserved, code what the port reports at the end. A stop that takes 2^24
clocks fails (R375); one with MIG has 2,700 clocks to reach the migration points (R376). -/
def State.askStop (s : State) (c : Nat) (keep mig : Bool) (code : Nat) : State :=
  let s1 := (s.modCtx c fun x =>
    { x with state := .stopping, stopAt := some s.clock, stopHalt := keep, mig := mig, aborted := false, stopCode := code, stopBegun := false,
             saving := false }).after (2 ^ 24) prioLate (.stopTimeout c)
  if mig then s1.after 2700 prioLate (.migrationAbort c) else s1

/-- Contains a context that met a dead agent (R360): it is halted as HALT does and then accepts only KILL; one already stopped is contained
at once. -/
def State.containCtx (s : State) (c : Nat) : State :=
  match amGet s.ctxs c with
  | some x =>
    if x.state = .running then s.askStop c true false 33
    else if x.state = .stopping then s.modCtx c fun x => { x with stopHalt := true, stopCode := 33 }
    else if x.state = .contained then s
    else (s.modCtx c fun x => { x with state := .contained }).say (.port c 33)
  | none => s

/-- Whether an engine's or the hub's access to a virtual address meets a contained home, of its page or of an entry of its walk (R360). -/
def State.lost (s : State) (site ctx va : Nat) : Bool :=
  match s.cached none site ctx va with
  | some t => s.contained (s.select ctx va (t.phys va))
  | none =>
    match (s.walk ctx va).1 with
    | .leaf t => s.contained (s.select ctx va (t.phys va))
    | .poisoned o => decide (o = 15)
    | .bad _ => false

/-- Contains a context whose engine or hub access to a virtual address met a contained home (R360, step 4). -/
def State.containAt (s : State) (site ctx va : Nat) : State := if s.lost site ctx va then s.containCtx ctx else s

/-! ### Performing an access -/

/-- Puts a result into the load of a request; when its last lane has it, the data returns. -/
def State.answer (s : State) (r : Req) (back : Nat) (v : DWord × List (Nat × Nat)) : State :=
  match r.load with
  | none => s
  | some ldId =>
    match amGet s.loads ldId with
    | none => s
    | some ld =>
      let ld' := { (ld.put r.lane v) with left := ld.left - 1, due := max ld.due (s.clock + back) }
      let s1 := { s with loads := amSet s.loads ldId ld' }
      if ld'.left = 0 then s1.after (ld'.due - s.clock) prioResult (.loadDataReturn ldId) else s1

/-- The team of a request is favoured. -/
def State.favouredReq (s : State) (r : Req) : Bool := s.favouredWarp r.warp

/-- Whether the acknowledgement of a request comes back over the hub: not that of one that performs in its own L1. -/
def Req.ackHub (r : Req) : Bool := r.hub && decide (r.place ≠ .near)

/-- Notes that a request has performed at a timestamp, and schedules its acknowledgement, its answer and its fold at the hub before that
(R160, R381). -/
def State.performed (s : State) (id : Nat) (r : Req) (ts : Nat) (wrote : Bool) (v : Option (DWord × List (Nat × Nat))) : State :=
  let f := if r.place = .home ∨ r.place = .cu then s.sendFlits r.ctx (homeOf r.addr) (cuSite r.cu) 1 (s.favouredReq r) false 0 else (s, 0)
  let back := r.back + f.2
  let s1 := ((f.1.agentClock r.warp r.uid id ts).modReq id fun r => { r with done := true, ts := ts, back := back }).after back prioResult
    (.storeAck id)
  let s2 := match v with | some v => s1.answer r back v | none => s1
  if wrote && r.ackHub then s2.after (back - s.hubPass (cuSite r.cu)) prioResult (.horizonFold r.ctx ts) else s2

/-- The L1 lines that a CU has room for (R26, R76): in the reserve and in ungranted space, less its overflow records. -/
def State.l1Room (s : State) (cu : Nat) : Nat :=
  let granted := (s.cu cu).grants.foldl (fun n g => n + g.2.1) 0
  let records := s.warps.foldl (fun n w => if warpCu w.1 = cu then n + w.2.overflow.length else n) 0
  (Config.reserveBytes + (Config.grantable (cuSite cu) - granted) - 8 * records) / 64

def State.l1Copy (s : State) (cu l : Nat) : Option L1Line := amGet (amGetD s.l1 cu []) l
def State.dropL1 (s : State) (cu l : Nat) : State := { s with l1 := amSet s.l1 cu (amErase (amGetD s.l1 cu []) l) }

/-- An L1 gives up a line: one it owns goes back to its home's L2. -/
def State.giveUp (s : State) (cu l : Nat) : State :=
  let s1 := s.dropL1 cu l
  if (s.line l).owner = some cu then (s1.setLine l { s.line l with owner := none }).fillLine l else s1

/-- Drops lines from an L1 until it holds at most n; which of them is a free value. At most the given number. -/
def State.trimL1 (s : State) (cu n : Nat) : Nat → State
  | 0 => s
  | f + 1 =>
    let l := amGetD s.l1 cu []
    if l.length ≤ n then s
    else { s.giveUp cu ((l.map Prod.fst).getD (Config.victim s.freeCtr % l.length) 0) with freeCtr := s.freeCtr + 1 }.trimL1 cu n f

/-- Holds an L1 to its room, after grants or overflow records have taken of it (R26, R76).

DESIGN CHOICE (log entry 60, safe): which line a full cache gives up is left to the part. -/
def State.fitL1 (s : State) (cu : Nat) : State :=
  match amGet s.l1 cu with
  | none => s
  | some l => s.trimL1 cu (s.l1Room cu) l.length

/-- Puts a line into an L1, in the place of another when it is full (R26). -/
def State.putL1 (s : State) (cu l : Nat) (x : L1Line) : State :=
  let s := if (s.l1Copy cu l).isSome then s else s.trimL1 cu (s.l1Room cu - 1) (amGetD s.l1 cu []).length
  { s with l1 := amSet s.l1 cu (amSet (amGetD s.l1 cu []) l x) }

/-- Makes a lease copy of a line in an L1 (R155, R157). -/
def State.fillL1 (s : State) (ctx cu l : Nat) : State :=
  let x := s.line l
  (s.putL1 cu l { wts := x.wts, rts := x.rts, filled := s.clock, data := s.bytes (l * 64) 64, poison := s.poisonIn (l * 64) 64 }).after
    (s.lease ctx) prioLate (.l1LeaseExpiry cu l s.clock)

/-- Gives a line an owner, whose L1 then holds it, or none; the one before gives it up (R157). -/
def State.setOwner (s : State) (l : Nat) (o : Option Nat) : State :=
  let x := s.line l
  let s1 := match x.owner with | some c => if o = some c then s else s.dropL1 c l | none => s
  let s2 := s1.setLine l { x with owner := o }
  match o with
  | some c => if (s2.l1Copy c l).any L1Line.owned then s2 else s2.putL1 c l { wts := x.wts, rts := x.rts, filled := s.clock, owned := true }
  | none => s2

/-- The owner of a line after an access (R157): the CU that takes it with ownership, else none once another agent has had
it at the home. -/
def State.ownLine (s : State) (r : Req) : State :=
  if onChip r.addr then s
  else if r.place = .near then s.setOwner (lineOf r.addr) (some r.cu)
  else if decide (r.place = .home) && (s.line (lineOf r.addr)).owner.isSome then s.setOwner (lineOf r.addr) none
  else s

/-- Notes a speculative read (R162): its bytes, and for an L1 copy the lease beyond which it would not have been used. -/
def State.noteRead (s : State) (r : Req) (lease : Option Nat) : State :=
  s.modWarp r.warp fun w =>
    { w with table := w.table.map fun st =>
        match st.fence with
        | some fw =>
          if st.mine r.uid then
            { st with fence := some { fw with reads := fw.reads ++ [(r.addr, r.bytes)],
                                              met := fw.met ++ (match lease with | some t => [t] | none => []) } }
          else st
        | none => st }

/-- Sends a read that its L1 has no usable copy for to its home (R155): it arrives half a round trip after its issue. -/
def State.goHome (s : State) (id : Nat) (r : Req) : State :=
  let h := s.hops (cuSite r.cu) (homeOf r.addr)
  let f := s.sendFlits r.ctx (cuSite r.cu) (homeOf r.addr) 1 (s.favouredReq r) false 0
  ((f.1.dropL1 r.cu (lineOf r.addr)).modReq id fun q =>
    { q with place := .home, arrived := false, lead := halfL2 h, back := s.homeLatency (cuSite r.cu) r.addr - halfL2 h,
             hub := s.viaHub (cuSite r.cu) (homeOf r.addr) }).after (halfL2 h - r.lead + f.2) (prioRead + strandAgent r.warp r.entry)
    (.homeSliceRequest id)

/-- Whether a read may take its value from its L1: from a lease copy that is still good (R155), or from a line that is held with ownership.

DEDUCED (log entry 27, unsafe): clocks of owned loads, prefetches, FCALL and own-register stores. -/
def State.l1Serves (s : State) (r : Req) : Bool :=
  match s.l1Copy r.cu (lineOf r.addr) with
  | some cp => cp.owned || decide (max (max r.c (r.horizon.getD 0) + 1) cp.wts ≤ cp.rts ∧ s.clock < cp.filled + s.lease r.ctx)
  | none => false

/-- A read that performs; a poisoned tile element gives the marker with o = 5 (R352). -/
def State.performRead (s : State) (id : Nat) (r : Req) (signed : Bool) (c : Nat) : State :=
  let l := lineOf r.addr
  match (s.l1Copy r.cu l).filter fun cp => !cp.owned, decide (r.place = .l1) with
  | some cp, true =>
    (s.noteRead r (some cp.rts)).performed id r (max (c + 1) cp.wts) false
      (some (loadVal r.bytes signed ((cp.data.drop (r.addr % 64)).take r.bytes) r.addr 8 cp.poison))
  | _, _ =>
    let s1 := (s.fillLine l).ownLine r
    let t := s1.readStamp l c (s.lease r.ctx)
    let s2 := t.2.noteRead r none
    let s3 := if !onChip r.addr && decide (r.place = .home) && decide (r.q = 0 ∨ r.q = 2) &&
                 (r.acq.isNone || decide (r.acq = some 0)) && decide (r.va ≠ 2 ^ 64) then s2.fillL1 r.ctx r.cu l else s2
    let v := s1.valAt r.bytes signed r.addr
    s3.performed id r t.1 false (some (if r.sp = 3 then (if v.2 = [] then v.1 else BitVec.ofNat 64 (marker 5).toNat, v.2.map fun p => (p.1, 5)) else v))

/-- Takes the last access of a strand to n bytes at a out of the log of deterministic mode: a commutative-exact atomic that met poison takes
part in no conflict (R361). -/
def State.detForget (s : State) (uid a n : Nat) : State :=
  match s.detLog.reverse.find? fun d => decide (d.uid = uid ∧ d.addr = a ∧ d.bytes = n) && d.commut with
  | some d => { s with detLog := (s.detLog.reverse.erase d).reverse }
  | none => s

/-- A read-modify-write of an atomic or RED.FADDC that performs: on a poisoned word only a read (R354). -/
def State.performRmw (s : State) (id : Nat) (r : Req) (c : Nat) (new : Nat → Nat) : State :=
  let l := lineOf r.addr
  let s1 := (s.fillLine l).ownLine r
  match s1.poisonIn r.addr r.bytes with
  | (_, o) :: _ =>
    let x := s1.line l
    let ts := max (c + 1) (x.rts + 1)
    let s2 := { s1.setLine l { x with rts := max x.rts ts } with tmax := raise s1.tmax (homeOf (l * 64) * 64 + sliceOf (l * 64)) ts }
    ((s2.detForget r.uid r.addr r.bytes).logErr { paddr := r.addr, ctx := r.ctx, unit := originUnit o, site := homeOf r.addr,
                                                     cu := if onChip r.addr then cuNum (chipCu r.addr) else 0, kind := 2 }).performed id r ts false
      (some (s1.valAt r.bytes false r.addr))
  | [] =>
    let t := s1.writeStamp l c
    let old := s1.num r.addr r.bytes
    (t.2.putBytes r.uid t.1 r.addr (toBytes r.bytes (new old))).performed id r t.1 true (some (BitVec.ofNat 64 old, []))

/-- A write that performs. -/
def State.performWrite (s : State) (id : Nat) (r : Req) (c : Nat) (bs : List Byte) : State :=
  let s1 := (s.fillLine (lineOf r.addr)).ownLine r
  let t := s1.writeStamp (lineOf r.addr) c
  (t.2.putBytes r.uid t.1 r.addr bs).performed id r t.1 true none

/-- Whether the load of a request extends its sign. -/
def State.signedLoad (s : State) (r : Req) : Bool := ((r.load.bind fun i => amGet s.loads i).map Load.signed).getD false

/-- Whether an access is served by its CU's own L1, with no request sent to the home: from a lease copy or under ownership. -/
def State.local (s : State) (r : Req) : Bool :=
  (decide (r.place = .l1) && s.l1Serves r) || (decide (r.place = .near) && decide ((s.line (lineOf r.addr)).owner = some r.cu))

/-- Performs a request: one sent to a contained home gets the marker for a read, and its write is dropped (R360); a release to the slot's
own registers or tiles is no event (R154, R215). -/
def State.performReq (s : State) (id : Nat) (r : Req) : State :=
  let c := max r.c (r.horizon.getD 0)
  if r.own then
    match r.act with
    | .write bs =>
      (((s.noteBytes r.uid false r.addr bs.length).store r.addr bs).performed id r r.c false none).after 0 prioResult
        (.pipelineResult r.warp id)
    | _ => s
  else if s.contained r.addr && !s.local r then
    let m := marker 7
    (s.performed id r c false
      (some (BitVec.ofNat 64 (m.toNat + m.toNat * 2 ^ 32), (0, 7) :: if r.bytes = 8 then [(1, 7)] else []))).containCtx r.ctx
  else
    match r.act with
    | .read => s.performRead id r (s.signedLoad r) c
    | .write bs => s.performWrite id r c bs
    | .atom op b e n => s.performRmw id r c (atomNew op (8 * r.bytes) b e n)
    | .faddc a => s.performRmw id r c fun old =>
        let p := faddcNew (old % 2 ^ 32) (old / 2 ^ 32) a.toNat
        p.1 + p.2 * 2 ^ 32
    | .prefetch _ | .probe => s

/-- Whether a request is a home-executed atomic, which the ATOM budget charges (R116, R222). -/
def Req.charged (r : Req) : Bool :=
  decide (r.place = .home) && (match r.act with | .atom .. => true | .faddc _ => true | _ => false)

/-- Performs a request that its line lets through, unless its budget defers it (R117). -/
def State.admitReq (s : State) (id : Nat) (r : Req) : State :=
  if r.charged then
    let key := r.ctx * 8 + homeOf r.addr
    let used := amGetD s.atomUsed key 0
    let limit := ((amGet s.ctxs r.ctx).map Ctx.atomLimit).getD 0
    if admits used limit 1 (s.favouredReq r) then
      ({ s with atomUsed := amSet s.atomUsed key (used + 1) }).performReq id r
    else { s.modReq id (fun r => { r with arrived := false }) with deferred := s.deferred ++ [(key, .homeSliceRequest id)] }
  else s.performReq id r

/-- Whether a line is held by a lock or a recovery, or by its home's join (R230, R314, R356). -/
def State.lineHeld (s : State) (l : Nat) : Bool := (s.line l).lock.isSome || (s.line l).recovering || s.away (l * 64)

/-- Whether a line lets an arriving access through (R230). -/
def State.lineFree (s : State) (l : Nat) : Bool := !s.lineHeld l && decide ((s.line l).queue = [])

/-- Whether a byte of the physical space is one of a warp's block: in its CU's bank store, or in the spill pool (R370). -/
def Warp.holds (w : Warp) (k a : Nat) : Bool :=
  match w.spilled with
  | some b => decide (b ≤ a ∧ a < b + w.blockBytes)
  | none => onChip a && decide (chipCu a = warpCu k ∧ w.block ≤ chipOff a ∧ chipOff a < w.block + w.blockBytes)

/-- Whether an access to another warp's registers finds their block in operation or spilled, and waits until it is done (R251, R371). -/
def State.blockBusy (s : State) (r : Req) : Bool :=
  decide (r.sp = 2) && s.warps.any fun w => decide (w.1 ≠ r.warp) && w.2.holds w.1 r.addr && (w.2.op.isSome || w.2.spilled.isSome)

/-- The bytes that the matrix instructions queued on a CU's engine have yet to read, wherever they lie, the source tiles of an `.AB` form
among them, and those of its scratchpads that MMABs of the gallery are to be broadcast (R267), as runs. -/
def State.operandRuns (s : State) (cu : Nat) : List (Nat × Nat) :=
  s.cus.flatMap fun c =>
    c.2.queue.flatMap fun m =>
      if c.1 = cu ∨ m.form = .broadcast then
        match amGet s.teams m.team with
        | none => []
        | some t =>
          let w := match m.form with | .int _ _ => 32 | _ => 64
          let run (rank at0 : Nat) : List (Nat × Nat) :=
            match (amGet s.grids t.grid).bind fun g => (s.rankTeam t.grid t.group rank).map fun r => (g, r) with
            | some (g, _, r) =>
              if c.1 = cu ∨ r.cu = cu then
                (List.range (w * m.k / 64)).filterMap fun i => (r.spAddr g.lr.bays (at0 + 64 * i)).map fun a => (a, 64)
              else []
            | none => []
          (match m.form with
            | .bf16 | .int _ _ | .broadcast => if c.1 = cu then run m.aRank m.aAddr else []
            | .fromTiles => m.chunks.map fun t => (accAddr cu (4096 * t.1), 4096)
            | .gather => []) ++ run m.bRank m.bAddr
      else []

/-- Whether an access waits though its line is free: for a block in operation, or, as the write of an MCAS's expected field, for queued
matrix instructions that have yet to read those bytes (R267). -/
def State.heldBack (s : State) (id : Nat) (r : Req) : Bool :=
  s.blockBusy r || (s.mcas.any (fun m => m.2.exps.contains id) &&
    (s.operandRuns r.cu).any fun q => decide (r.addr < q.1 + q.2) && decide (q.1 < r.addr + r.bytes))

/-- An access still on its way performs in this clock, because a later one of its agent has reached a nearer home and events take their
timestamps in program order (R155): its answer still comes back when its own route gives it. One that waits for acknowledgements, for a
horizon, for a budget or for a line is not moved. -/
def State.hasten (s : State) (id : Nat) : State :=
  match amGet s.reqs id, s.agenda.find? fun a => decide (a.ev = .homeSliceRequest id) with
  | some r, some a =>
    if r.done || r.arrived || r.rel.isSome || (r.acq.isSome && r.horizon.isNone) || s.waitsEarlier id r then s
    else
      let wait := a.due - s.clock
      if s.heldBack id r then s
      else if r.own then s.performReq id { r with back := r.back + wait }
      else if decide (r.place = .l1) && s.l1Serves r then s.performReq id { r with back := r.back + wait }
      else if !s.lineFree (lineOf r.addr) then s
      else if r.place = .l1 then
        s.performReq id { r with place := .home, back := s.homeLatency (cuSite r.cu) r.addr + wait - r.lead }
      else s.admitReq id { r with back := r.back + wait }
  | _, _ => s

/-- The earlier accesses of an agent that are still on their way perform before a later one. -/
def State.hastenEarlier (s : State) (id : Nat) (r : Req) : State :=
  (s.reqs.filter fun q => decide (q.1 < id) && !q.2.done && r.follows q.2).foldl (fun s q => s.hasten q.1) s

/-- Performs a request that nothing holds back but its line, which it waits for in its queue (R162, R230), or the operation on the block it
is for (R251, R371). The way back from the hub is not shortened (R381). -/
def State.pass (s : State) (id : Nat) (r : Req) : State :=
  let x := s.line (lineOf r.addr)
  let q := { r with back := if r.ackHub then max (r.back - (s.clock - r.since)) (min r.back (s.hubPass (cuSite r.cu))) else r.back - (s.clock - r.since) }
  if s.heldBack id r then s
  else if r.own || decide (r.place = .l1) then s.performReq id q
  else if !s.lineFree (lineOf r.addr) then
    if x.queue.contains id then s else s.setLine (lineOf r.addr) { x with queue := x.queue ++ [id] }
  else s.admitReq id q

/-- Tries a request: it performs when it has arrived, has left as a release, its agent's earlier ones have performed, and
its line is free; else it waits (R155, R162, R230). The answer of one that waited for earlier ones comes back when its own route gives it. -/
def State.serve (s : State) (id : Nat) : State :=
  match amGet s.reqs id with
  | none => s
  | some r =>
    if r.done || !r.arrived then s
    else if decide (r.place = .l1) && !s.l1Serves r then s.goHome id r
    else if r.rel.isSome then s
    else
      let s1 := s.hastenEarlier id r
      if s1.waitsEarlier id r then s1
      else match amGet s1.reqs id with | some r1 => s1.pass id r1 | none => s1

/-- Whether a request is a prefetch. -/
def Req.prefetches (r : Req) : Bool := match r.act with | .prefetch _ => true | _ => false

/-- Takes the queue of a free line, first come, first served, until one of the entries locks the line again. grant
handles the lock requests of MCAS and host pieces, the engines' and the hub's accesses, and prefetches. -/
def State.serveQueue (s : State) (grant : State → Nat → Nat → State) (l : Nat) : Nat → State
  | 0 => s
  | n + 1 =>
    let x := s.line l
    match x.queue with
    | [] => s
    | id :: t =>
      if s.lineHeld l then s
      else
        let s1 := s.setLine l { x with queue := t }
        let s2 := match (amGet s1.reqs id).filter fun r => !r.prefetches with | some r => s1.admitReq id r | none => grant s1 l id
        s2.serveQueue grant l n

/-! ### Issuing accesses -/

/-- Where and when an access performs and is acknowledged (R121, R157, R213, R222, R233). -/
structure Timing where
  place : Where
  lead : Nat
  back : Nat
  hub : Bool
  deriving DecidableEq, Repr

/-- Kinds of accesses for their timing. -/
inductive AccKind where
  | load | store | atom (near : Bool)
  deriving DecidableEq, Repr

/-- The timing of an access by a CU to a at request type q (0 .lse, 1 .own, 2 .wt, 3 .nc); fresh marks an acquire of scope
.gal, .dev or .sys, which L1 copies do not serve (R215). -/
def State.timing (s : State) (cu a q : Nat) (kind : AccKind) (fresh : Bool) : Timing :=
  let site := cuSite cu
  if onChip a then
    let lat := s.chipLatency cu a
    { place := .cu, lead := lat / 2, back := lat - lat / 2,
      hub := decide (cuGallery (chipCu a) ≠ cuGallery cu) && s.viaHub site (homeOf a) }
  else
    let half := halfL2 (s.hops site (homeOf a))
    let full := s.homeLatency site a
    let owned := decide ((s.line (lineOf a)).owner = some cu)
    let home : Timing := { place := .home, lead := half, back := full - half, hub := s.viaHub site (homeOf a) }
    let near : Timing := { place := .near, lead := if owned then 20 else full + 20, back := 20, hub := !owned && s.viaHub site (homeOf a) }
    match kind with
    | .atom n => if n then near else home
    | .store =>
      if q = 1 then near
      else { home with back := fullL2 (s.hops site (homeOf a)) - half }
    | .load =>
      if q = 1 then (if owned then near else { near with lead := full, back := 0 })
      else if q = 3 ∨ fresh then home
      else if owned then near
      else if (s.l1Copy cu (lineOf a)).isSome then { place := .l1, lead := 20, back := 20, hub := false }
      else home

/-- A memory operation of a group: bytes a lane, what each lane does, request type, kind, ordering. -/
structure MemOp where
  n : Nat
  act : Nat → Act
  q : Nat := 0
  kind : AccKind
  acq : Option Nat := none
  rel : Bool := false

/-- Whether a store to one of the addresses waits for a queued matrix instruction (R267). -/
def State.operandWait (s : State) (cu : Nat) (l : List LaneAcc) (n : Nat) : Bool :=
  let runs := s.operandRuns cu
  l.any fun a => match a.at0 with
    | .mem p _ _ _ => runs.any fun r => decide (p < r.1 + r.2) && decide (r.1 < p + n)
    | _ => false

/-- The number of a team's tile within its CU (R98). -/
def Team.tileIx (t : Team) (a : Nat) : Nat := warpSlot (t.warps.getD (a / 4) 0) * 4 + a % 4

/-- The tiles of a matrix operation: an FX64 pair for the integer forms. -/
def MatOp.tiles (m : MatOp) : List Nat := match m.form with | .int _ _ => [m.tile, m.tile + 1] | _ => [m.tile]

/-- The tiles of a CU that an engine or an accumulator move has yet to write. -/
def Cu.tilesPending (c : Cu) : List Nat := c.tileBusy.flatMap Prod.snd ++ c.matOps.flatMap MatOp.tiles

/-- The tiles of a CU that a queued `.AB` form has yet to read (R265). -/
def Cu.tilesToRead (c : Cu) : List Nat :=
  c.queue.flatMap fun m => match m.form with | .fromTiles => m.chunks.map fun c => c.1 | _ => []

/-- Whether an access to the slot's own registers or the team's tiles must wait on the scoreboard (R102): a load has yet to
write the register, or a matrix operation or accumulator move the tile. -/
def Iss.ownWait (x : Iss) (s : State) (l : List LaneAcc) (write : Bool) : Bool :=
  l.any fun a => match a.at0 with
    | .mem p _ 2 true =>
      let r := (chipOff p - x.w.block) / 128
      x.w.pipe.any fun e => e.2.res.contains (.vreg r)
    | .mem p _ 3 true =>
      let tile := (chipOff p - 2 ^ 21) / 4096
      (s.cu x.cu).tilesPending.contains tile || (write && (s.cu x.cu).tilesToRead.contains tile)
    | _ => false

/-- Parameter bytes (R99). -/
def Iss.paramBytes (x : Iss) (o n : Nat) : List Byte := (List.range n).map fun i => x.grid.lr.param.getD (o + i) 0

/-- A value of an overlay (R99): of the resident bank, else of the code in memory, with its poison (R350). -/
def Iss.codeVal (x : Iss) (s : State) (ovl o n : Nat) (signed : Bool) : DWord × List (Nat × Nat) :=
  match s.bank x.cu x.cn x.grid.lr.code ovl with
  | some b =>
    loadVal n signed ((List.range n).map fun i => BitVec.ofNat 8 ((spGet b.code ((o + i) / 2)).toNat / 256 ^ ((o + i) % 2))) 0 8 []
  | none =>
    match s.directory x.site x.cn x.grid.lr.code ovl x.ctx.sup with
    | .ok _ addr =>
      match s.transNow x.site x.cn (addr + o) false x.ctx.sup false with
      | .ok pa =>
        if s.contained pa then loadVal n signed [] pa 8 [(pa, 7), (pa + 4, 7)] else s.valAt n signed pa
      | .bad _ _ _ => (0, [])
    | _ => (0, [])

/-- The places that a space-5 load of an overlay that is not resident reads (R99, R121): its directory entry, then its code. -/
def Iss.codeReads (x : Iss) (s : State) (ovl o : Nat) : List Nat :=
  let dir := x.grid.lr.code
  match s.bank x.cu x.cn dir ovl with
  | some _ => []
  | none => (dir + 16 + 16 * ovl) :: (match s.directory x.site x.cn dir ovl x.ctx.sup with | .ok _ a => [a + o] | _ => [])

/-- Sends a read of an engine or of a space-5 load, of n flits and as many answers, to the home of a virtual address: the translation, then
the round trip (R21, R105, R121). The clocks to its data. -/
def State.sendRead (s : State) (favoured sup fetch : Bool) (site ctx va n : Nat) : State × Nat :=
  match s.transNow site ctx va false sup fetch with
  | .ok pa =>
    let t := s.translate favoured site ctx va
    let f := t.1.sendRound ctx site pa n favoured
    (f.1, t.2 + s.homeLatency site pa + f.2)
  | .bad _ _ _ => s.translate favoured site ctx va

/-- Sends the reads of a space-5 load, one after the other: the clocks to its data, 20 from a bank (R121). -/
def Iss.codeRequest (x : Iss) (s : State) (ovl o : Nat) : State × Nat :=
  match x.codeReads s ovl o with
  | [] => (s, 20)
  | l => l.foldl (fun m va => let r := m.1.sendRead (s.favoured x.team) x.ctx.sup false x.site x.cn va 1; (r.1, m.2 + r.2)) (s, 0)

/-- Contains the context of a space-5 load that a contained home has to serve (R360). -/
def Iss.codeLost (x : Iss) (s : State) (l : List LaneAcc) : State :=
  l.foldl (fun s a =>
    if ptrSpace a.ea = 5 ∧ ptrRank a.ea = 0 ∧ ptrOff a.ea < 2 ^ 24 then
      (x.codeReads s (ptrOff a.ea / 65536) (ptrOff a.ea % 65536)).foldl (fun s va => s.containAt x.site x.cn va) s
    else s) s

/-- The result of an access that is no event of mo and is done at issue (R154): its value. -/
def Iss.immediate (x : Iss) (s : State) (n : Nat) (signed : Bool) : Reach → Option (DWord × List (Nat × Nat))
  | .mem a _ _ true => some (s.valAt n signed a)
  | .param o => some (loadVal n signed (x.paramBytes o n) 0 8 [])
  | .code v o => some (x.codeVal s v o n signed)
  | _ => none

/-- Sends the request of a lane on its way (R21): the clocks by which it is lengthened, there and, for an access that takes a line with
ownership, back. -/
def Iss.sendOut (x : Iss) (s : State) (t : Timing) (delay p : Nat) : State × Nat :=
  let away := decide (homeOf p ≠ x.site ∧ 20 < t.lead)
  let f := if away then s.sendFlits x.cn x.site (homeOf p) 1 (s.favoured x.team) false delay else (s, delay)
  let g := if away && decide (t.place = .near) then f.1.sendFlits x.cn (homeOf p) x.site 1 (s.favoured x.team) false 0 else (f.1, 0)
  (g.1, f.2 + g.2)

/-- Adds the request of a lane and schedules its arrival; a release that must wait for acknowledgements leaves later. In deterministic mode
its group's request has gone its way already, and it performs at once (R163). -/
def Iss.addReq (x : Iss) (s : State) (op : MemOp) (ld : Option Nat) (first delay : Nat) (wait : Bool) (a : LaneAcc)
    (p va sp : Nat) (own : Bool) : State :=
  let fresh := match op.acq with | some sc => decide (1 ≤ sc) | none => false
  let t := s.timing x.cu p op.q op.kind fresh
  let f := if x.st.atHome then (s, 0) else x.sendOut s t delay p
  let lead := if x.st.atHome then 0 else t.lead + f.2
  let atHub := match op.acq with | some sc => decide (2 ≤ sc) && t.hub && !x.st.atHome | none => false
  let id := s.nextId
  let r : Req :=
    { ctx := x.cn, cu := x.cu, warp := x.k, entry := x.e, fibre := x.st.fibre, uid := x.st.uid, lane := a.lane, load := ld,
      addr := p, va := if sp = 0 then va else 2 ^ 64, sp := sp, bytes := op.n, act := op.act a.lane, place := t.place, q := op.q,
      acq := op.acq,
      horizon := match op.acq with | some sc => if atHub then none else some (s.horizon x.cn x.cu sc) | none => none,
      rel := if wait then some first else none, lead := lead, back := t.back, hub := t.hub, own := own, since := s.clock, c := x.st.c,
      kin := x.st.kin }
  let s1 := ({ f.1 with reqs := amSet f.1.reqs id r }).bump
  if wait then s1
  else s1.after (if atHub then s.hubPass x.site + f.2 else lead) (if op.kind = .load then prioRead + strandAgent x.k x.e else prioWrite + strandAgent x.k x.e)
    (.homeSliceRequest id)

/-- The register or the tile of an access to the strand's own (R102). -/
def Iss.ownRes (x : Iss) : Reach → List Res × List Nat
  | .mem p _ 2 true => ([.vreg ((chipOff p - x.w.block) / 128)], [])
  | .mem p _ 3 true => ([], [(chipOff p - 2 ^ 21) / 4096])
  | _ => ([], [])

/-- The scoreboard entry of stores to the strand's own registers or tiles, which holds direct accesses until they perform (R102). -/
def Iss.ownBusy (x : Iss) (s : State) (id : Nat) (l : List Reach) : State :=
  let regs := (l.flatMap fun a => (x.ownRes a).1).eraseDups
  let tiles := (l.flatMap fun a => (x.ownRes a).2).eraseDups
  (s.addPipe x.k id { res := regs, fibre := x.st.fibre, uid := x.st.uid }).modCu x.cu fun c =>
    { c with tileBusy := if tiles = [] then c.tileBusy else amSet c.tileBusy id tiles }

/-- Issues the accesses of a group in ascending lane order (R211), with the load they report to. -/
def Iss.issueMem (x : Iss) (s : State) (l : List LaneAcc) (op : MemOp) (ld : Option Load) : State :=
  let delay := s.delay
  let s0 := s.dropDelay
  let ldId := s0.nextId
  let s1 := match ld with | some _ => s0.bump | none => s0
  let first := s1.nextId
  let wait := op.rel && s1.unacked x.st first
  let now (a : LaneAcc) := if op.rel then none else x.immediate s1 op.n ((ld.map Load.signed).getD false) a.at0
  let done := l.filterMap fun a => (now a).map fun v => (a.lane, v)
  let s1 := s1.modStrand x.k x.e fun st => { st with atHome := false }
  let s2 := l.foldl (fun s a =>
    match a.at0 with
    | .mem p va sp own =>
      if own && !op.rel then
        match op.act a.lane with
        | .write bs => (s.noteBytes x.st.uid x.st.spec p bs.length).store p bs
        | _ => s
      else
        let s' := x.addReq s op (ld.map fun _ => ldId) first delay wait a p va sp own
        if own then x.ownBusy s' s.nextId [a.at0] else s'
    | _ => s) s1
  -- the reads of a space-5 load, which no lane's request stands for (R99, R121)
  let code := l.foldl (fun (m : State × Nat) a =>
    match a.at0 with
    | .code v o => let c := x.codeRequest m.1 v o; (c.1, max m.2 c.2)
    | _ => m) (s2, 20)
  let s2 := code.1
  match ld with
  | none =>
    let mine := (l.map fun a => a.at0).filter fun a => !op.rel && x.ownRes a ≠ ([], [])
    if mine = [] then s2 else ((x.ownBusy s2 s2.nextId mine).after 10 prioResult (.pipelineResult x.k s2.nextId)).bump
  | some ld =>
    let ld' := done.foldl (fun ld d => ld.put d.1 d.2)
      { ld with pipe := ldId, left := l.length - done.length, due := if done = [] then 0 else s.clock + code.2 }
    let s3 := { s2 with loads := amSet s2.loads ldId ld' }
    if ld'.left = 0 then s3.after (max ld'.due (s.clock + 20) - s.clock) prioResult (.loadDataReturn ldId) else s3

end Sys2Proof.Machine
end

