-- ==== Sys2Proof/Machine/Determinism.lean ====
section
/-! DEFINITION. Deterministic mode (R163, R232, R289, R361): vector clocks of the edges that count, the log of accesses, and the
conflict check, made when a group's accesses perform, for which the group is held until they do. -/

namespace Sys2Proof.Machine

/-- The join of two vector clocks. -/
def vcJoin (a b : AMap Nat) : AMap Nat := b.foldl (fun m e => raise m e.1 e.2) a

/-- A strand's vector clock with its own component. -/
def Strand.clockOf (st : Strand) : AMap Nat := raise st.vc st.uid 1

/-- The stamp of a strand's accesses. -/
def Strand.stamp (st : Strand) : Nat := amGetD st.clockOf st.uid 1

/-- A strand after it has given out its vector clock: later accesses take a later stamp. -/
def Strand.tick (st : Strand) : Strand := { st with vc := amSet st.clockOf st.uid (st.stamp + 1) }

/-- A fibre's number among all. -/
def fibreId (team warp fibre : Nat) : Nat := team * 64 + warp * 4 + fibre

def Iss.fibreId (x : Iss) : Nat := Machine.fibreId x.tn x.w.number x.st.fibre

/-- Whether a logged access is ordered before a strand (R163). -/
def DetAcc.before (d : DetAcc) (st : Strand) : Bool := decide (d.stamp ≤ amGetD st.clockOf d.uid 0)

/-- The earlier access that an access of a strand conflicts with, and the lowest byte they share. -/
def State.detConflict (s : State) (cn fibre : Nat) (st : Strand) (a n : Nat) (wrote commut : Bool) : Option (DetAcc × Nat) :=
  (s.detLog.find? fun d =>
    decide (d.ctx = cn) && decide (d.fibre ≠ fibre) && decide (d.addr < a + n) && decide (a < d.addr + d.bytes) &&
      (wrote || d.wrote) && !(commut && d.commut) && !d.before st).map fun d => (d, max d.addr a)

/-- Logs an access of a strand under an operation number, the next if none is given, and lets its clock follow a write to the words it may
count in (R168: WAITC). -/
def State.detNote (s : State) (cn fibre cu : Nat) (st : Strand) (a n : Nat) (wrote commut : Bool) (op : Option Nat := none) : State :=
  let s1 := { s with detLog := s.detLog ++ [{ ctx := cn, addr := a, bytes := n, fibre := fibre, uid := st.uid, stamp := st.stamp,
                                              wrote := wrote, commut := commut, cu := cu, op := op.getD s.nextId }] }
  if wrote then
    let words := (List.range ((a + n - 1) / 8 - a / 8 + 1)).map (a / 8 + ·)
    { s1 with detSync := words.foldl (fun m i => amSet m i (vcJoin (amGetD m i []) st.clockOf)) s1.detSync }
  else s1

/-- Forgets what a strand logged under an operation number from op on: effects that were discarded (R162, R340). -/
def State.detDrop (s : State) (uid op : Nat) : State :=
  { s with detLog := s.detLog.filter fun d => !decide (d.uid = uid ∧ op ≤ d.op) }

/-- Forgets the accesses to n bytes at a, whose store has gone back to the allocator. -/
def State.detClear (s : State) (a n : Nat) : State :=
  { s with detLog := s.detLog.filter fun d => !(decide (d.addr < a + n) && decide (a < d.addr + d.bytes)) }

/-- DETAIL of class 9 (R361). -/
def detail9 (d : DetAcc) (cu byte : Nat) : Nat :=
  (if d.cu = cu then 2 ^ 16 else 0) + cuNum d.cu * 2 ^ 10 + cuSite d.cu * 2 ^ 7 + (if d.wrote then 64 else 0) + byte % 64

/-- Sends a group on its way to the homes of its accesses (R163): its strand issues it again in the clock in which they perform, when the
conflicts of the bytes are known in the order of mo. A release group first waits for the acknowledgements of the strand's earlier accesses.

DEDUCED (log entry 41, unsafe): when deterministic conflicts are found. -/
def Iss.probe (x : Iss) (s : State) (l : List LaneAcc) (op : MemOp) : State :=
  let fresh := match op.acq with | some sc => decide (1 ≤ sc) | none => false
  if op.rel && s.unacked x.st s.nextId then x.hold s
  else
    let delay := s.delay
    let sent := l.foldl (fun (m : State × Nat) a =>
      match a.at0 with
      | .mem p _ _ false =>
        let t := m.1.timing x.cu p op.q op.kind fresh
        let f := x.sendOut m.1 t delay p
        (f.1, max m.2 (t.lead + f.2))
      | _ => m) (s.dropDelay, 0)
    let s1 := x.hold sent.1
    let id := s1.nextId
    let r : Req := { ctx := x.cn, cu := x.cu, warp := x.k, entry := x.e, fibre := x.st.fibre, uid := x.st.uid, lane := 0, addr := 0,
                     va := 2 ^ 64, bytes := 0, act := .probe, place := .home, done := true, back := 0, c := x.st.c }
    let s2 := State.modStrand { s1 with reqs := amSet s1.reqs id r } x.k x.e fun st => { st with hold := Hold.busy id }
    (s2.after sent.2 ((if op.kind = AccKind.load then prioRead else prioWrite) + strandAgent x.k x.e) (.homeSliceRequest id)).bump

/-- A probe has come to the homes: its group issues again and performs. -/
def State.probeArrives (s : State) (id uid : Nat) : State :=
  State.modUid { s with reqs := amErase s.reqs id } uid fun st =>
    if st.hold = .busy id then { st with hold := .none, atHome := true } else st

/-- The deterministic-mode check of a group's accesses as they perform (R163, R361): a conflict traps the group, and nothing of it is
performed; else they are logged. A commutative-exact atomic on a poisoned word takes part in none (R361).

DEDUCED (log entry 41, unsafe): when deterministic conflicts are found. -/
def Iss.detCheck (x : Iss) (s : State) (l : List LaneAcc) (n : Nat) (wrote commut : Bool) (all : Option Word) : Except State State :=
  if !x.grid.det then .ok s
  else
    let acc := l.filterMap fun a => match a.at0 with
      | .mem p _ _ own => if own || (commut && !(s.poisonIn p n).isEmpty) then none else some (a, p)
      | _ => none
    let bad := acc.filterMap fun a => (s.detConflict x.cn x.fibreId x.st a.2 n wrote commut).map fun d => (a.1, d)
    match bad with
    | (a, d, byte) :: _ =>
      .error (x.trap s
        { cls := 9, code := if wrote then 1 else 2, detail := detail9 d x.cu byte, addr := a.ea,
          lanes := match all with | some m => m | none => maskOf (bad.map fun b => b.1.lane) })
    | [] =>
      let s1 := acc.foldl (fun s a => s.detNote x.cn x.fibreId x.cu x.st a.2 n wrote commut) s
      .ok (if wrote then s1.modStrand x.k x.e Strand.tick else s1)

end Sys2Proof.Machine
end

