-- ==== Sys2Proof/Machine/Memory.lean ====
section
/-! DEFINITION. The memory instructions: loads and stores (R212-R215), prefetches (R216), atomics and reductions (R219-R224), and
the uniform KLD and KST (R206). -/

namespace Sys2Proof.Machine

def loadSpaces : List Nat := [0, 1, 2, 3, 4, 5, 15]
def storeSpaces : List Nat := [0, 1, 2, 3, 15]

/-- The checks of a group's accesses that come before its effect, in the order of R332, with the waits of R102 and R267. In deterministic mode
the group first goes its way to the homes (R163). -/
def Iss.memory (x : Iss) (s : State) (l : List LaneAcc) (op : MemOp) (commut : Bool) (all : Option Word) (f : State → State) : State :=
  let write := decide (op.kind ≠ .load)
  let tiles := if write then none else x.spaceTrap s l op.n all
  x.addressed s l all (tiles := tiles) fun s =>
    if x.ownWait s l write || (write && s.operandWait x.cu l op.n) then x.stall s
    else
      match tiles with
      | some t => t
      | none =>
        if x.grid.det && !x.st.atHome && l.any (fun a => match a.at0 with | .mem _ _ _ own => !own | _ => false) then x.probe s l op
        else match x.detCheck s l op.n write commut all with | .error t => t | .ok s => f s

/-- The newest latch made invalid (R350, R354). -/
def Strand.spoil (st : Strand) : Strand :=
  { st with latches := match st.latches with | l :: t => { l with valid := false } :: t | [] => [] }

/-- The push of a load or atomic: one latch, or two for a 64-bit result, that wait for the data of load id (R92, R212). -/
def Strand.pushLoad (st : Strand) (id : Nat) (wide : Bool) : Strand :=
  if wide then (st.push 0 (fun _ => 0) 0 (some (id, true))).push 0 (fun _ => 0) 0 (some (id, false))
  else st.push 0 (fun _ => 0) 0 (some (id, false))

/-- The scoreboard's and the load's view of a vector destination. -/
def Iss.destOf (x : Iss) (d : Nat) (wide : Bool) : List Res × Option (Nat × Bool) :=
  if d < 120 then
    match x.w.reg x.st.fibre d with
    | .ok r => (if wide then [.vreg r, .vreg (r + 1)] else [.vreg r], some (r, wide))
    | .bad _ => ([], none)
  else ([], none)

/-- Raises the strand's clock to a scope's horizon at issue (R215), for an acquire none of whose reads is an event. -/
def Iss.acquireNow (x : Iss) (s : State) (scope : Nat) : State :=
  s.modStrand x.k x.e fun st => { st with c := max st.c (s.horizon x.cn x.cu scope) }

/-- Issues accesses that return values to a vector destination, pushes, and moves on (R212, R220). -/
def Iss.loading (x : Iss) (s : State) (l : List LaneAcc) (op : MemOp) (d : Nat) (wide signed : Bool) : State :=
  let dest := x.destOf d wide
  let id := s.nextId
  let ld : Load := { warp := x.k, uid := x.st.uid, fibre := x.st.fibre, pipe := id, regs := dest.2, bytes := op.n,
                     signed := signed, left := 0 }
  let s1 := match op.acq with
    | some sc => if l.any fun a => (x.immediate s op.n signed a.at0).isSome then x.acquireNow s sc else s
    | none => s
  let s2 := x.issueMem s1 l op (some ld)
  let s3 := s2.modStrand x.k x.e fun st => st.pushLoad id wide
  x.advance (s3.addPipe x.k id { res := dest.1, fibre := x.st.fibre, uid := x.st.uid })

/-- With no active lane a load still pushes zeros (R92, R210).

DEDUCED (log entry 15, unsafe): latches of a group with no active lane. -/
def Iss.pushZeros (x : Iss) (s : State) (wide : Bool) : State :=
  if wide then x.result64 s 124 false 4 2 0 (fun _ => 0) else x.result s 124 false 4 2 0 (fun _ => 0)

/-- LD and its acquire forms (R212, R213, R215): type code t, request type q. -/
def loadGroup (i : Instr) (s : State) (p d : Nat) (disp : Int) (t : BitVec 3) (q : Nat) (acq : Option Nat) : Out :=
  issue i s fun x s =>
    if x.mask = 0 then x.pushZeros s (decide (t = 5))
    else
      let n := (loadSize t).toNat
      let l := x.accesses s loadSpaces n false p disp
      let op : MemOp := { n := n, act := fun _ => .read, q := q, kind := .load, acq := acq }
      x.memory (x.codeLost s l) l op false none fun s => x.loading s l op d (decide (t = 5)) (decide (t = 0 ∨ t = 2))

/-- Notes the bytes of an MCAS block of the strand that one of its stores races with (R231). -/
def Iss.noteRace (x : Iss) (s : State) (l : List LaneAcc) (n : Nat) : State :=
  { s with mcas := s.mcas.map fun m =>
      if x.st.mine m.2.uid then
        (m.1, { m.2 with racing := m.2.racing ++ l.flatMap fun a => match a.at0 with
          | .mem p _ _ _ => ((List.range n).map (p + ·)).filter fun b => m.2.expBytes.any fun q => decide (q.1 = b)
          | _ => [] })
      else m }

/-- ST and its release forms (R214, R215). -/
def storeGroup (i : Instr) (s : State) (p d n : Nat) (disp : Int) (q : Nat) (rel : Bool) : Out :=
  issue i s fun x s =>
    let l := x.accesses s storeSpaces n true p disp
    let op : MemOp := { n := n, q := q, kind := .store, rel := rel,
                        act := fun i => .write (toBytes n (if n = 8 then (x.src64 s d i).toNat else (x.src s d i).toNat)) }
    x.memory s l op false none fun s => x.advance (x.issueMem (x.noteRace s l n) l op none)

/-- The modifier of an atomic (R176, R221): acquire scope, release, placement hint. -/
def Pfx.modifier (g : Pfx) : Option Nat × Bool × Nat :=
  let p := immP g
  (if p / 4 % 4 = 1 then some (p / 16 % 4) else none, decide (p / 4 % 4 = 2), p % 4)

/-- Whether an atomic performs near (R222): the hint, then the context's forced placement, then the predictor. -/
def Iss.near (x : Iss) (s : State) (hint : Nat) : Bool :=
  if hint = 1 then true else if hint = 2 then false
  else if x.ctx.place = 1 then true else if x.ctx.place = 2 then false
  else Config.predictNear s.freeCtr

/-- ATOM and RED (R219-R223): operation op, width bit w. -/
def atomGroup (i : Instr) (s : State) (op : Nat) (w : BitVec 1) (b p d : Nat) : Out :=
  issue i s fun x s =>
    let wide := decide (w = 1)
    if x.mask = 0 then x.pushZeros s wide
    else
      let n := if wide then 8 else 4
      let m := Pfx.modifier x.g
      let val (c i : Nat) : Nat := if wide then (x.src64 s c i).toNat else (x.src s c i).toNat
      let l := x.accesses s [0, 1] n true p 0
      let mo : MemOp := { n := n, kind := .atom (x.near s m.2.2), acq := m.1, rel := m.2.1,
                          act := fun i => .atom op (val b i) (val b i) (if op = 9 then val (if wide then b + 2 else b + 1) i else 0) }
      x.memory s l mo (decide (op ≤ 7 ∨ 10 ≤ op)) none fun s => x.loading (s.bumpFree 1) l mo d wide false

/-- Per-lane load of the given type and request type, one read event per lane. (R212) -/
def execLd (g : Pfx) (o : BitVec 8) (p d : BitVec 7) (t : BitVec 3) (q : BitVec 2) (s : State) : Out :=
  loadGroup (.ld g o p d t q) s p.toNat d.toNat (o.toInt * loadSize t) t q.toNat none

/-- Acquire load: moves c to the scope's horizon, then reads. (R215) -/
def execLdAcq (g : Pfx) (sc q : BitVec 2) (p d : BitVec 7) (t : BitVec 3) (s : State) : Out :=
  loadGroup (.ldAcq g sc q p d t) s p.toNat d.toNat 0 t q.toNat (some sc.toNat)

/-- Per-lane 8-bit store. (R214) -/
def execSt8 (g : Pfx) (o : BitVec 8) (p d : BitVec 7) (q : BitVec 2) (s : State) : Out :=
  storeGroup (.st8 g o p d q) s p.toNat d.toNat 1 (o.toInt * 1) q.toNat false

/-- Per-lane 16-bit store. (R214) -/
def execSt16 (g : Pfx) (o : BitVec 8) (p d : BitVec 7) (q : BitVec 2) (s : State) : Out :=
  storeGroup (.st16 g o p d q) s p.toNat d.toNat 2 (o.toInt * 2) q.toNat false

/-- Per-lane 32-bit store. (R214) -/
def execSt32 (g : Pfx) (o : BitVec 8) (p d : BitVec 7) (q : BitVec 2) (s : State) : Out :=
  storeGroup (.st32 g o p d q) s p.toNat d.toNat 4 (o.toInt * 4) q.toNat false

/-- Per-lane 64-bit store from a pair. (R214) -/
def execSt64 (g : Pfx) (o : BitVec 8) (p d : BitVec 7) (q : BitVec 2) (s : State) : Out :=
  storeGroup (.st64 g o p d q) s p.toNat d.toNat 8 (o.toInt * 8) q.toNat false

/-- 8-bit release store: waits for every earlier acknowledgement. (R215) -/
def execStRel8 (g : Pfx) (sc q : BitVec 2) (p d : BitVec 7) (s : State) : Out :=
  storeGroup (.stRel8 g sc q p d) s p.toNat d.toNat 1 0 q.toNat true

/-- 16-bit release store. (R215) -/
def execStRel16 (g : Pfx) (sc q : BitVec 2) (p d : BitVec 7) (s : State) : Out :=
  storeGroup (.stRel16 g sc q p d) s p.toNat d.toNat 2 0 q.toNat true

/-- 32-bit release store. (R215) -/
def execStRel32 (g : Pfx) (sc q : BitVec 2) (p d : BitVec 7) (s : State) : Out :=
  storeGroup (.stRel32 g sc q p d) s p.toNat d.toNat 4 0 q.toNat true

/-- 64-bit release store. (R215) -/
def execStRel64 (g : Pfx) (sc q : BitVec 2) (p d : BitVec 7) (s : State) : Out :=
  storeGroup (.stRel64 g sc q p d) s p.toNat d.toNat 8 0 q.toNat true

/-- Sends the prefetch of a lane to the home of its line, d clocks from now (R216). -/
def Iss.prefetch (x : Iss) (s : State) (l2 : Bool) (lane pa va d : Nat) : State :=
  let f := s.sendFlits x.cn x.site (homeOf pa) 1 (s.favoured x.team) false 0
  let r : Req := { ctx := x.cn, cu := x.cu, warp := x.k, entry := x.e, fibre := x.st.fibre, uid := 0, lane := lane,
                   addr := pa, va := va, bytes := 1, act := .prefetch l2, place := .home, done := true, back := 0, c := x.st.c }
  (({ f.1 with reqs := amSet f.1.reqs f.1.nextId r }).after (d + halfL2 (s.hops x.site (homeOf pa)) + f.2) prioRead
    (.homeSliceRequest f.1.nextId)).bump

/-- A prefetch (R216, R233): each active lane with a readable space-0 address asks for its line, as no event of mo; the strand continues
at once, whether or not the translation is cached. -/
def prefetchGroup (i : Instr) (s : State) (p : Nat) (disp : Int) (l2 : Bool) : Out :=
  issue i s fun x s =>
    let l := (lanesOf x.mask).map fun i =>
      let ea := ptrAdd (x.ptr s p i) disp
      ({ lane := i, ea := ea, at0 := s.reach x [0] 1 1 false ea } : LaneAcc)
    match x.poisonCheck s with
    | some t => t
    | none =>
      x.advance (l.foldl (fun s a =>
        match a.at0 with
        | .mem pa va _ _ => x.prefetch s l2 a.lane pa va 0
        | .miss va =>
          let t := s.translate (s.favoured x.team) x.site x.cn va
          match s.transNow x.site x.cn va false x.ctx.sup false with
          | .ok pa => x.prefetch t.1 l2 a.lane pa va t.2
          | .bad _ _ _ => t.1
        | _ => s) (x.useTlb s (l.filterMap fun a => match a.at0 with | .mem _ va 0 _ => some va | _ => none)))

/-- Prefetch into L1 as a lease copy; makes no event and never faults. (R216) -/
def execPf (g : Pfx) (o : BitVec 8) (p : BitVec 7) (s : State) : Out :=
  prefetchGroup (.pf g o p) s p.toNat (o.toInt * 64) false

/-- Prefetch into the home L2 slice only. (R216) -/
def execPfL2 (g : Pfx) (o : BitVec 8) (p : BitVec 7) (s : State) : Out :=
  prefetchGroup (.pfL2 g o p) s p.toNat (o.toInt * 64) true

/-- Atomic add, one read-modify-write event per lane in lane order. (R220) -/
def execAtomAdd (g : Pfx) (w : BitVec 1) (b p d : BitVec 7) (s : State) : Out :=
  atomGroup (.atomAdd g w b p d) s 0 w b.toNat p.toNat d.toNat

/-- Atomic signed minimum. (R220) -/
def execAtomMinS (g : Pfx) (w : BitVec 1) (b p d : BitVec 7) (s : State) : Out :=
  atomGroup (.atomMinS g w b p d) s 1 w b.toNat p.toNat d.toNat

/-- Atomic unsigned minimum. (R220) -/
def execAtomMinN (g : Pfx) (w : BitVec 1) (b p d : BitVec 7) (s : State) : Out :=
  atomGroup (.atomMinN g w b p d) s 2 w b.toNat p.toNat d.toNat

/-- Atomic signed maximum. (R220) -/
def execAtomMaxS (g : Pfx) (w : BitVec 1) (b p d : BitVec 7) (s : State) : Out :=
  atomGroup (.atomMaxS g w b p d) s 3 w b.toNat p.toNat d.toNat

/-- Atomic unsigned maximum. (R220) -/
def execAtomMaxN (g : Pfx) (w : BitVec 1) (b p d : BitVec 7) (s : State) : Out :=
  atomGroup (.atomMaxN g w b p d) s 4 w b.toNat p.toNat d.toNat

/-- Atomic AND. (R220) -/
def execAtomAnd (g : Pfx) (w : BitVec 1) (b p d : BitVec 7) (s : State) : Out :=
  atomGroup (.atomAnd g w b p d) s 5 w b.toNat p.toNat d.toNat

/-- Atomic OR. (R220) -/
def execAtomOr (g : Pfx) (w : BitVec 1) (b p d : BitVec 7) (s : State) : Out :=
  atomGroup (.atomOr g w b p d) s 6 w b.toNat p.toNat d.toNat

/-- Atomic XOR. (R220) -/
def execAtomXor (g : Pfx) (w : BitVec 1) (b p d : BitVec 7) (s : State) : Out :=
  atomGroup (.atomXor g w b p d) s 7 w b.toNat p.toNat d.toNat

/-- Atomic exchange. (R220) -/
def execAtomXchg (g : Pfx) (w : BitVec 1) (b p d : BitVec 7) (s : State) : Out :=
  atomGroup (.atomXchg g w b p d) s 8 w b.toNat p.toNat d.toNat

/-- Atomic compare-and-swap; a failed compare writes back the value read. (R220) -/
def execAtomCas (g : Pfx) (w : BitVec 1) (b p d : BitVec 7) (s : State) : Out :=
  atomGroup (.atomCas g w b p d) s 9 w b.toNat p.toNat d.toNat

/-- Atomic float minimum under totalOrder, 32-bit only. (R220) -/
def execAtomFmin (g : Pfx) (w : BitVec 1) (b p d : BitVec 7) (s : State) : Out :=
  atomGroup (.atomFmin g w b p d) s 10 w b.toNat p.toNat d.toNat

/-- Atomic float maximum under totalOrder, 32-bit only. (R220) -/
def execAtomFmax (g : Pfx) (w : BitVec 1) (b p d : BitVec 7) (s : State) : Out :=
  atomGroup (.atomFmax g w b p d) s 11 w b.toNat p.toNat d.toNat

/-- Reduction: an ATOM with D = 124 whose old value reaches only the latch ring. (R223) -/
def execRed (g : Pfx) (w : BitVec 1) (b p : BitVec 7) (o : BitVec 4) (s : State) : Out :=
  atomGroup (.red g w b p o) s (o.toNat - 4) w b.toNat p.toNat 124

/-- Whether a group's accesses touch poison (R354). -/
def State.meetsPoison (s : State) (l : List LaneAcc) (n : Nat) : Bool :=
  l.any fun a => match a.at0 with | .mem p _ _ _ => !(s.poisonIn p n).isEmpty | _ => false

/-- Compensated float sum into an 8-byte sum-and-error pair as one event per lane, which pushes nothing (R224) but, where a lane meets
poison, an invalid latch (R354).

DEDUCED (log entry 83, unsafe): R224 and R354 read together, the poison as it stands at issue. -/
def execRedFaddc (g : Pfx) (a p : BitVec 7) (s : State) : Out :=
  issue (.redFaddc g a p) s fun x s =>
    let l := x.accesses s [0, 1] 8 true p.toNat 0
    let op : MemOp := { n := 8, kind := .atom false, act := fun i => .faddc (x.src s a.toNat i) }
    x.memory s l op false none fun s =>
      x.advance ((x.issueMem s l op none).modStrand x.k x.e fun st =>
        if s.meetsPoison l 8 then (st.push 0 (fun _ => 0) 0 none).spoil else st)

/-- The one access of KLD and KST (R206): the tagged pointer in a k pair plus 4 × IMM6, reported for the active mask.

DEDUCED (log entry 20, unsafe): KLD and KST with space-15 pointers. -/
def Iss.uniformAccess (x : Iss) (s : State) (spaces : List Nat) (write : Bool) (a : Nat) (i : BitVec 6) : List LaneAcc :=
  let p := (x.w.kreg a).toNat + (x.w.kreg (a + 1)).toNat * 2 ^ 32
  let ea := ptrAdd p (4 * (i.toNat : Int))
  [{ lane := (lowLane x.mask).getD 0, ea := ea, at0 := s.reach x spaces 4 4 write ea }]

/-- One 32-bit plain load into a k register for the warp. (R206) -/
def execKld (g : Pfx) (i : BitVec 6) (a d : BitVec 8) (s : State) : Out :=
  issue (.kld g i a d) s fun x s =>
    let l := x.uniformAccess s loadSpaces false a.toNat i
    let op : MemOp := { n := 4, act := fun _ => .read, kind := .load }
    x.memory (x.codeLost s l) l op false (some x.mask) fun s =>
      let id := s.nextId
      let ld : Load := { warp := x.k, uid := x.st.uid, fibre := x.st.fibre, pipe := id, regs := none, kreg := some d.toNat, bytes := 4,
                         latched := false, left := 0 }
      let s1 := x.issueMem s l op (some ld)
      x.advance (s1.addPipe x.k id { res := [.kreg d.toNat], fibre := x.st.fibre, uid := x.st.uid })

/-- One 32-bit plain store of a k register for the warp. (R206) -/
def execKst (g : Pfx) (i : BitVec 6) (a d : BitVec 8) (s : State) : Out :=
  issue (.kst g i a d) s fun x s =>
    let l := x.uniformAccess s storeSpaces true a.toNat i
    let op : MemOp := { n := 4, q := 2, kind := .store, act := fun _ => .write (toBytes 4 (x.w.kreg d.toNat).toNat) }
    x.memory s l op false (some x.mask) fun s => x.advance (x.issueMem (x.noteRace s l 4) l op none)

/-- The accesses of a memory group with their width and whether they write, as R102 and R267 look at them; none of any other group. -/
def Iss.accessesOf (x : Iss) (s : State) (i : Instr) : List LaneAcc × Nat × Bool :=
  let plain (spaces : List Nat) (n : Nat) (write : Bool) (p : Nat) (disp : Int) : List LaneAcc × Nat × Bool :=
    (x.accesses s spaces n write p disp, n, write)
  match i with
  | .ld _ o p _ t _ => plain loadSpaces (loadSize t).toNat false p.toNat (o.toInt * loadSize t)
  | .ldAcq _ _ _ p _ t => plain loadSpaces (loadSize t).toNat false p.toNat 0
  | .st8 _ o p _ _ => plain storeSpaces 1 true p.toNat o.toInt
  | .st16 _ o p _ _ => plain storeSpaces 2 true p.toNat (o.toInt * 2)
  | .st32 _ o p _ _ => plain storeSpaces 4 true p.toNat (o.toInt * 4)
  | .st64 _ o p _ _ => plain storeSpaces 8 true p.toNat (o.toInt * 8)
  | .stRel8 _ _ _ p _ => plain storeSpaces 1 true p.toNat 0
  | .stRel16 _ _ _ p _ => plain storeSpaces 2 true p.toNat 0
  | .stRel32 _ _ _ p _ => plain storeSpaces 4 true p.toNat 0
  | .stRel64 _ _ _ p _ => plain storeSpaces 8 true p.toNat 0
  | .kld _ o a _ => (x.uniformAccess s loadSpaces false a.toNat o, 4, false)
  | .kst _ o a _ => (x.uniformAccess s storeSpaces true a.toNat o, 4, true)
  | .redFaddc _ _ p => plain [0, 1] 8 true p.toNat 0
  | .atomAdd _ w _ p _ | .atomMinS _ w _ p _ | .atomMinN _ w _ p _ | .atomMaxS _ w _ p _ | .atomMaxN _ w _ p _ | .atomAnd _ w _ p _
  | .atomOr _ w _ p _ | .atomXor _ w _ p _ | .atomXchg _ w _ p _ | .atomCas _ w _ p _ | .atomFmin _ w _ p _ | .atomFmax _ w _ p _
  | .red _ w _ p _ => plain [0, 1] (if w = 1 then 8 else 4) true p.toNat 0
  | _ => ([], 1, false)

/-- Whether a memory group waits on the scoreboard for its strand's registers or tiles, for operands that queued matrix instructions have yet
to read, or for a warp whose block is in operation (R102, R251, R267); nothing of the kind is pending in a CU that is quiet. -/
def Iss.memWait (x : Iss) (s : State) (i : Instr) : Bool :=
  let c := s.cu x.cu
  if x.w.pipe.isEmpty && c.tilesPending.isEmpty && s.cus.all (fun c => c.2.queue.isEmpty) &&
      s.warps.all (fun w => w.2.op.isNone && w.2.spilled.isNone) then false
  else
    let a := x.accessesOf s i
    x.ownWait s a.1 a.2.2 || (a.2.2 && s.operandWait x.cu a.1 a.2.1) || a.1.any fun l => decide (l.at0 = .busy)

end Sys2Proof.Machine
end

