-- ==== Sys2Proof/Machine/Strands.lean ====
section
/-! DEFINITION. Splits, parking, fusion and release (R70-R77, R244), retirement (R75, R245), barriers (R81, R246-R248) and
the end of a team (R60). -/

namespace Sys2Proof.Machine

/-! ### The strand table and the split records (R67, R71, R73, R76) -/

/-- The live entries of a fibre. -/
def Warp.entriesOf (w : Warp) (f : Nat) : List Nat := w.liveEntries.filter fun e => decide ((w.strand e).fibre = f)

/-- The lowest free entry of the table. -/
def Warp.freeEntry (w : Warp) : Option Nat := (List.range 8).find? fun e => !(w.strand e).live

/-- Whether a strand or path with PARENT p descends from token t (R73), following at most n records. -/
def Fibre.descends (f : Fibre) (t : Nat) : Nat → Nat → Bool
  | 0, _ => false
  | n + 1, p =>
    decide (p = t) ||
      (decide (p ≠ 0) && match amGet f.tokens p with | some q => f.descends t n q | none => false)

/-- The lowest free split token of a fibre (R71). -/
def Fibre.freeToken (f : Fibre) : Option Nat := (List.range' 1 15).find? fun t => (amGet f.tokens t).isNone

/-- The strand that a parked path resumes as (R77): its latches are invalid, and it counts as issued at the team's start
(R297). -/
def Parked.resume (p : Parked) (start : Nat) : Strand :=
  { uid := p.uid, state := if p.atJoin then .atJoin else .ready, fibre := p.fibre, parent := p.parent, mask := p.mask, pc := p.pc,
    c := p.c, kin := p.kin, sideAt := p.sideAt, vc := p.vc, succ := p.succ, waitSince := p.since, lastIssue := start, ranPast := p.ranPast }

/-- The overflow record of a strand (R76). -/
def Strand.park (st : Strand) : Parked :=
  { uid := st.uid, fibre := st.fibre, parent := st.parent, mask := st.mask, pc := st.pc, atJoin := decide (st.state = .atJoin),
    c := st.c, kin := st.kin, sideAt := st.sideAt, vc := st.vc, succ := st.succ, since := st.waitSince, ranPast := st.ranPast }

/-- The clock in which the team of a warp started. -/
def State.startOf (s : State) (w : Warp) : Nat := ((amGet s.teams w.team).map Team.startAt).getD 0

/-- Lets the watchdog of a strand that waits since a clock expire when its count reaches the limit (R373). -/
def State.watchFrom (s : State) (uid since : Nat) : State := s.after (since + s.watchLimit - s.clock) prioLate (.watchdogExpiry uid)

/-- The requests still on their way of a strand that has taken an entry count among the events of one clock under that entry's number
(R156). -/
def State.renumber (s : State) (k e : Nat) : State :=
  match amGet s.warps k with
  | none => s
  | some w =>
    let moved (r : Req) : Bool :=
      decide (r.warp = k ∧ r.entry ≠ e) && (w.strand e).mine r.uid && !((w.strand r.entry).live && (w.strand r.entry).mine r.uid)
    let ids := (s.reqs.filter fun q => moved q.2).map Prod.fst
    let stale (a : Agenda) : Bool := match a.ev with | .homeSliceRequest id => ids.contains id | _ => false
    { s with
      reqs := s.reqs.map fun q => if moved q.2 then (q.1, { q.2 with entry := e }) else q
      agenda := (s.agenda.filter stale).foldl (fun l a => insAgenda l { a with prio := a.prio / 2 ^ 33 * 2 ^ 33 + strandAgent k e })
        (s.agenda.filter fun a => !stale a) }

/-- A parked path takes an entry (R77); it is issuable in the next clock, and still watched if it waits (R373). -/
def State.unpark (s : State) (k e : Nat) (p : Parked) : State :=
  let s1 := (s.modWarp k fun w =>
    { w with table := w.table.set e { p.resume (s.startOf w) with issuableAt := s.clock + 1 },
             overflow := w.overflow.filter fun q => decide (q.uid ≠ p.uid) }).renumber k e
  if p.atJoin then s1.watchFrom p.uid p.since else s1

/-- The oldest parked path of any fibre that holds fewer than 4 strands (R77). -/
def Warp.resumable (w : Warp) : Option Parked := w.overflow.find? fun p => decide ((w.entriesOf p.fibre).length < 4)

/-- A freed entry goes to the path that R77 resumes. -/
def State.resumeInto (s : State) (k e : Nat) : State :=
  match (amGet s.warps k).bind Warp.resumable with
  | some p => s.unpark k e p
  | none => s

/-- The fibre of the path that a freed entry of a warp goes to, on which R74 is at once due. -/
def State.resumedFibre (s : State) (k : Nat) : List Nat := (((amGet s.warps k).bind Warp.resumable).map Parked.fibre).toList

/-! ### Fusion, release and the exchange (R74, R77) -/

/-- The strands of a fibre at a JOIN, by entry. -/
def Warp.atJoin (w : Warp) (f : Nat) : List Nat := (w.entriesOf f).filter fun e => decide ((w.strand e).state = .atJoin)

/-- Two strands of a fibre that fuse: the lower entry first (R74). -/
def Warp.fusePair (w : Warp) (f : Nat) : Option (Nat × Nat) :=
  let l := w.atJoin f
  l.findSome? fun a => (l.find? fun b => decide (a < b) && decide ((w.strand a).pc = (w.strand b).pc) &&
    decide ((w.strand a).parent = (w.strand b).parent)).map fun b => (a, b)

/-- The fused strand (R74): the union of the masks, the larger clock, invalid latches.

DESIGN CHOICE (log entry 95, unsafe): under R119 it counts with the lower entry's last issue, whichever strand issued later. -/
def Strand.fuse (a b : Strand) (uid : Nat) : Strand :=
  { a.dropLatches with uid := uid, mask := a.mask ||| b.mask, c := max a.c b.c, sideAt := max a.sideAt b.sideAt,
                       kin := (a.uid :: b.uid :: a.kin ++ b.kin).eraseDups, vc := vcJoin a.clockOf b.clockOf }

/-- The tokens whose strands at a JOIN may be released: no strand or path that descends from them is elsewhere (R74). -/
def Warp.releasable (w : Warp) (f : Nat) : List Nat :=
  let fb := w.fibre f
  (((w.atJoin f).map fun e => (w.strand e).parent).eraseDups).filter fun t =>
    decide (t ≠ 0) &&
      (w.entriesOf f).all (fun e => decide ((w.strand e).state = .atJoin) || !fb.descends t 16 (w.strand e).parent) &&
      w.overflow.all (fun p => decide (p.fibre ≠ f) || p.atJoin || !fb.descends t 16 p.parent)

/-- The innermost token to release. -/
def Warp.releaseToken (w : Warp) (f : Nat) : Option Nat :=
  let l := w.releasable f
  l.find? fun t => l.all fun u => decide (u = t) || !(w.fibre f).descends t 16 u

/-- The release of a token (R74): every strand at a JOIN with that PARENT continues at its JOIN's successor with the latches
it holds; a single one takes the token's parent, and the token is free.

DESIGN CHOICE (log entry 74, unsafe): a path parked in state 5 with that PARENT is not released with them; it counts, so that the token
stays in use, until it holds an entry again. -/
def Warp.release (w : Warp) (f t now : Nat) : Warp :=
  let l := (w.atJoin f).filter fun e => decide ((w.strand e).parent = t)
  let one := decide (l.length = 1) && w.overflow.all fun p => decide (p.fibre ≠ f) || decide (p.parent ≠ t)
  let up := (amGet (w.fibre f).tokens t).getD 0
  let w1 := l.foldl (fun w e => w.modStrand e fun st =>
    { st with state := .ready, pc := st.succ, parent := if one then up else t, issuableAt := now + 1 }) w
  if one then w1.modFibre f fun fb => { fb with tokens := amErase fb.tokens t } else w1

/-- The strand of a fibre that entered state 5 last. -/
def Warp.lastAtJoin (w : Warp) (f : Nat) : Option Nat :=
  (w.atJoin f).foldl (fun m e => match m with
    | none => some e
    | some a => if (w.strand a).waitSince < (w.strand e).waitSince then some e else some a) none

/-- The exchange of R77: when every table strand of a fibre is at a JOIN, the last to arrive is parked and the oldest parked
path of the fibre takes its entry, unless this round has parked that path itself. -/
def State.exchange (s : State) (k f : Nat) (w : Warp) (fresh : List Nat) : Option (State × Nat) :=
  match w.overflow.find? fun p => decide (p.fibre = f) with
  | none => none
  | some p =>
    if fresh.contains p.uid || decide ((w.atJoin f).length ≠ (w.entriesOf f).length) then none
    else
      match w.lastAtJoin f with
      | none => none
      | some e =>
        let out := (w.strand e).park
        some ((s.modWarp k fun w => { w with overflow := w.overflow ++ [out] }).unpark k e p, out.uid)

/-- Applies R74 and R77 to fibres of a warp, the first of the list until nothing more follows there, at most n times. An entry that a fusion
frees may go to a path of another fibre, which then joins the list. -/
def State.settleFibres (s : State) (k : Nat) : Nat → List Nat → List Nat → State
  | 0, _, _ => s
  | _, [], _ => s
  | n + 1, f :: rest, fresh =>
    match amGet s.warps k with
    | none => s
    | some w =>
      match w.fusePair f with
      | some (a, b) =>
        let s1 := (((s.modWarp k fun w =>
          { w with table := (w.table.set a ((w.strand a).fuse (w.strand b) s.nextId)).set b {} }).bump).renumber k a).watchFrom s.nextId (w.strand a).waitSince
        (s1.resumeInto k b).settleFibres k n (f :: rest ++ s1.resumedFibre k) fresh
      | none =>
        match w.releaseToken f with
        | some t => (s.modWarp k fun w => w.release f t s.clock).settleFibres k n (f :: rest) fresh
        | none =>
          match s.exchange k f w fresh with
          | some (s1, u) => s1.settleFibres k n (f :: rest) (u :: fresh)
          | none => s.settleFibres k n rest []

/-- R74 and R77 after a change of state of a strand of the fibre; what is parked takes of the L1's room (R76). -/
def State.joinRules (s : State) (k f : Nat) : State := (s.settleFibres k 1000 [f] []).fitL1 (warpCu k)

/-- R74 and R77 after entry e of a warp, a strand of fibre f, has become free. -/
def State.freedEntry (s : State) (k e f : Nat) : State :=
  ((s.resumeInto k e).settleFibres k 1000 (f :: s.resumedFibre k) []).fitL1 (warpCu k)

/-! ### Splits (R71, R72) -/

/-- A child of a split: a fresh identity whose events before it were its parent's. -/
def Strand.child (st : Strand) (uid t : Nat) (mask : Word) (pc : BitVec 23) : Strand :=
  { st with uid := uid, parent := t, mask := mask, pc := pc, kin := st.uid :: st.kin, vc := st.clockOf, hold := .none, walked := [] }

/-- The later children take the lowest free entries while the fibre holds fewer than 4 strands; the rest are parked. -/
def State.addChildren (s : State) (k : Nat) (st : Strand) (t start : Nat) : List (Word × BitVec 23) → State
  | [] => s
  | (m, pc) :: rest =>
    let ch := { st.child s.nextId t m pc with lastIssue := start, issuableAt := s.clock + 1 }
    let s1 := (s.modWarp k fun w =>
      match w.freeEntry with
      | some e => if (w.entriesOf st.fibre).length < 4 then w.setStrand e ch else { w with overflow := w.overflow ++ [ch.park] }
      | none => { w with overflow := w.overflow ++ [ch.park] }).bump
    s1.addChildren k st t start rest

/-- A divergent transfer (R71): the lowest free token, the first child in the strand's entry, the others behind it. push
is applied to the strand first. -/
def Iss.split (x : Iss) (s : State) (push : Strand → Strand) (kids : List (Word × BitVec 23)) : State :=
  match kids with
  | [] => s
  | (m, pc) :: rest =>
    match (x.w.fibre x.st.fibre).freeToken with
    | none => s
    | some t =>
      let st := push x.st
      let s1 := s.modWarp x.k fun w =>
        (w.modFibre x.st.fibre fun fb => { fb with tokens := amSet fb.tokens t x.st.parent }).setStrand x.e (st.child s.nextId t m pc)
      { (s1.bump.addChildren x.k st t x.team.startAt rest).fitL1 x.cu with cur := none }

/-- A transfer to one next PC for every lane: only the PC changes (R70). -/
def Iss.goto (x : Iss) (s : State) (push : Strand → Strand) (pc : BitVec 23) : State :=
  { (s.modStrand x.k x.e fun st =>
      { push st with pc := pc, fence := st.fence.map fun fw => { fw with issued := fw.issued + 1 } }) with cur := none }

/-- The distinct next PCs of the active lanes in the order of the lowest lane that names each, with their lanes. -/
def kidsOf (lanes : List Nat) (f : Nat → BitVec 23) : List (Word × BitVec 23) :=
  ((lanes.map f).eraseDups).map fun pc => (maskOf (lanes.filter fun i => decide (f i = pc)), pc)

/-! ### Retirement (R75, R245) -/

/-- Whether a register write of a strand has yet to land, the status write of an operation it asked for among them. -/
def Warp.writesPending (w : Warp) (st : Strand) : Bool :=
  (w.pipe.any fun p => decide (p.2.res ≠ []) && st.mine p.2.uid) || w.kpend.any fun q => (amGet w.kops q.2).any st.mine

/-- Schedules the retirement of the strands of a warp whose mask is empty and whose writes have landed. -/
def State.retireReady (s : State) (k : Nat) : State :=
  match amGet s.warps k with
  | none => s
  | some w =>
    (w.liveEntries.filter fun e => decide ((w.strand e).mask = 0) && !w.writesPending (w.strand e)).foldl
      (fun s e => s.after 0 prioResult (.strandRetire (w.strand e).uid)) s

/-- Lanes leave a strand (R75): an empty strand waits for its pending writes and retires, and holds its warp slot until then (R245). -/
def State.exitLanes (s : State) (k e : Nat) (lanes : Word) : State :=
  match amGet s.warps k with
  | none => s
  | some w =>
    let m := (w.strand e).mask &&& ~~~ lanes
    if m = 0 then
      (s.modStrand k e fun st => { st with mask := 0, hold := .none, state := .ready }).retireReady k
    else s.modStrand k e fun st => { st with mask := m }

/-! ### Barriers (R81, R246-R248) -/

/-- The number of a barrier kind: BAR n is n, GBAR 16, FBAR 17. -/
def barGroup : Nat := 16
def barFibre : Nat := 17

/-- The clocks between a barrier's condition and its release (R246). -/
def barLatency (bar : Nat) : Nat := if bar = barFibre then 1 else if bar = barGroup then 60 else 4

/-- The warps whose fibres take part in a barrier that a warp's strand waits at. -/
def State.barWarps (s : State) (k bar : Nat) : List Nat :=
  match s.teamOf k with
  | none => []
  | some (_, t) =>
    if bar = barFibre then [k]
    else if bar = barGroup then
      s.teams.flatMap fun u => if u.2.grid = t.grid ∧ u.2.group = t.group ∧ u.2.started then u.2.warps else []
    else t.warps

/-- The strands of an episode when its condition holds (R247): every live fibre has arrived and every earlier event of the
arrived strands is acknowledged. -/
def State.barReady (s : State) (ws : List Nat) (bar : Nat) : Option (List Strand) :=
  let l := ws.flatMap fun k => match amGet s.warps k with
    | some w => w.liveEntries.map fun e => (w.strand e)
    | none => []
  let parked := ws.any fun k => match amGet s.warps k with | some w => decide (w.overflow ≠ []) | none => false
  if parked || l.isEmpty || !l.all (fun st => decide (st.state = .barrier ∧ st.waitBar = bar)) then none
  else if l.any fun st => s.unacked st s.nextId then none
  else some l

/-- The key of a team's episode: one per barrier, and one per warp for FBAR. -/
def episodeKey (w : Warp) (bar : Nat) : Nat := if bar = barFibre then 32 + w.number else bar

/-- Starts the release of a barrier that a warp's strand waits at, when its condition holds. -/
def State.barCheck (s : State) (k bar : Nat) : State :=
  match amGet s.warps k, s.teamOf k with
  | some w, some (_, t) =>
    if (amGet t.episodes (episodeKey w bar)).isSome then s
    else
      let ws := s.barWarps k bar
      match s.barReady ws bar with
      | none => s
      | some l =>
        let ids := (ws.filterMap fun j => (amGet s.warps j).map Warp.team).eraseDups
        let ep : Episode := { kind := bar, teams := ids, uids := l.map Strand.uid, c := 0 }
        let s1 := ids.foldl (fun s tn => s.modTeam tn fun t => { t with episodes := amSet t.episodes (episodeKey w bar) s.nextId })
          { s with episodes := amSet s.episodes s.nextId ep }
        (s1.after (barLatency bar) prioResult (.barrierRelease s.nextId)).bump
  | _, _ => s

/-- Checks the barriers that any strand of a warp waits at. -/
def State.barChecks (s : State) (k : Nat) : State :=
  match amGet s.warps k with
  | none => s
  | some w =>
    (((w.liveEntries.filter fun e => decide ((w.strand e).state = .barrier)).map fun e => (w.strand e).waitBar).eraseDups).foldl
      (fun s b => s.barCheck k b) s

/-- A strand at a barrier (R247): state 2 with its PC there. -/
def Iss.barrier (x : Iss) (s : State) (bar : Nat) : State :=
  let s1 := (s.waitStrand x.k x.e .barrier).modStrand x.k x.e fun st => { st with waitBar := bar, succ := x.next }
  { s1.barCheck x.k bar with cur := none }

/-- The release of an episode (R247, R248): the strands that still wait at it take the largest clock and continue at the
barrier's successor. -/
def State.barRelease (s : State) (id : Nat) (ep : Episode) : State :=
  let at0 := ep.uids.filterMap fun u => (s.findUid u).bind fun p =>
    match amGet s.warps p.1 with
    | some w =>
      let st := w.strand p.2
      if st.state = .barrier ∧ st.waitBar = ep.kind then some (p, st) else none
    | none => none
  let c := at0.foldl (fun m p => max m p.2.c) 0
  let vc := at0.foldl (fun m p => vcJoin m p.2.clockOf) []
  let s1 := at0.foldl (fun s p => s.modStrand p.1.1 p.1.2 fun st =>
    { (st.readyAt st.succ s.clock) with c := c, vc := amSet (vcJoin vc st.clockOf) st.uid (st.stamp + 1) }) s
  { s1 with
    episodes := amErase s1.episodes id
    teams := s1.teams.map fun t => (t.1, { t.2 with episodes := t.2.episodes.filter fun e => decide (e.2 ≠ id) }) }

/-! ### The end of a team (R60, R245) -/

/-- Whether a team may finish: every lane has exited, every access is acknowledged, every copy has ended. -/
def State.teamDone (s : State) (t : Team) : Bool :=
  t.started && t.copies.isEmpty &&
    (t.warps.all fun k => match amGet s.warps k with
      | some w => w.liveEntries.isEmpty && w.overflow.isEmpty && w.op.isNone
      | none => true) &&
    s.reqs.all (fun q => !t.warps.contains q.2.warp || decide (q.2.uid = 0)) &&
    s.mcas.all (fun m => !t.warps.contains m.2.warp) &&
    s.cus.all (fun c => c.2.matOps.all fun m => !t.warps.contains m.warp)


end Sys2Proof.Machine
end

