-- ==== Sys2Proof/Machine/Alloc.lean ====
section
/-! DEFINITION. The bank-store allocator (R26, R86, R87), moves of granted bytes, and the start of a grow or shrink (R91,
R251-R253, R369). -/

namespace Sys2Proof.Machine

/-! ### The buddy allocator (R86): a block is free when no grant meets it, and free buddies are merged -/

/-- Whether bytes o to o + n - 1 lie in the grantable part and meet no grant. -/
def freeAt (grants : List (Nat × Nat × Nat)) (top o n : Nat) : Bool :=
  decide (o + n ≤ top) && grants.all fun g => decide (g.1 + g.2.1 ≤ o) || decide (o + n ≤ g.1)

/-- The other half of the block of twice the size. -/
def buddyOf (o n : Nat) : Nat := if o / n % 2 = 0 then o + n else o - n

/-- The free blocks of exactly size n, ascending: free, and not merged with a free buddy. -/
def freeBlocks (grants : List (Nat × Nat × Nat)) (top n : Nat) : List Nat :=
  ((List.range (top / n)).map (· * n)).filter fun o =>
    freeAt grants top o n && (decide (n = 131072) || !freeAt grants top (buddyOf o n) n)

/-- The lowest free block of size n, else of the next larger size that has one, to be split; at most f doublings. -/
def lowestBlock (grants : List (Nat × Nat × Nat)) (top n : Nat) : Nat → Option Nat
  | 0 => none
  | f + 1 =>
    match freeBlocks grants top n with
    | o :: _ => some o
    | [] => if 131072 ≤ n then none else
        match lowestBlock grants top (2 * n) f with
        | some o => some o
        | none => none

/-- A block of n bytes for a team.

DEDUCED (log entry 35, unsafe): which block the allocator takes. -/
def allocBlock (grants : List (Nat × Nat × Nat)) (top n team : Nat) : Option (Nat × List (Nat × Nat × Nat)) :=
  (lowestBlock grants top n 6).map fun o => (o, grants ++ [(o, n, team)])

/-- c blocks of n bytes each. -/
def allocMany (top n team : Nat) : Nat → List (Nat × Nat × Nat) → Option (List Nat × List (Nat × Nat × Nat))
  | 0, g => some ([], g)
  | c + 1, g =>
    match allocBlock g top n team with
    | none => none
    | some (o, g1) => (allocMany top n team c g1).map fun r => (o :: r.1, r.2)

/-- The grantable bytes of a CU. -/
def topOf (cu : Nat) : Nat := Config.grantable (cuSite cu)

/-! ### The fit of a unit (R26, R113, R114) -/

/-- Puts a value in a list kept ascending by a key. -/
def insBy {α : Type} (key : α → Nat) (a : α) : List α → List α
  | [] => [a]
  | b :: t => if key a < key b then a :: b :: t else b :: insBy key a t

def sortBy {α : Type} (key : α → Nat) (l : List α) : List α := l.foldl (fun m a => insBy key a m) []

/-- The bytes of a warp's block under a launch record. -/
def LaunchRec.blockBytes (lr : LaunchRec) : Nat := 4096 * 2 ^ lr.regs

/-- The teams of a grid. -/
def LaunchRec.total (lr : LaunchRec) : Nat := lr.gridx * lr.gridy * lr.gridz

/-- A team's blocks, bays and spare bays taken from the free store, in that order. -/
def fitBank (lr : LaunchRec) (top team : Nat) (grants : List (Nat × Nat × Nat)) :
    Option (List Nat × List Nat × List (Nat × Nat × Nat)) :=
  match allocMany top lr.blockBytes team lr.warps grants with
  | none => none
  | some (blocks, g1) => (allocMany top 4096 team (lr.bays + lr.spare) g1).map fun r => (blocks, r.1, r.2)

/-- The warp slot for the next warp on a CU: in the issue slot with the most free warp slots, the lowest on a tie, its lowest
free slot. -/
def nextSlot (used : List Nat) : Option Nat :=
  let free (i : Nat) : List Nat := (List.range 8).filter fun j => !used.contains (8 * i + j)
  let best := (List.range 4).foldl (fun m i => if (free m).length < (free i).length then i else m) 0
  (free best).head?.map fun j => 8 * best + j

/-- The warp slots of n warps. -/
def slotsFor : Nat → List Nat → Option (List Nat)
  | 0, _ => some []
  | n + 1, used =>
    match nextSlot used with
    | none => none
    | some j => (slotsFor n (j :: used)).map fun l => j :: l

/-- The warp slots of a CU that a unit of a grid may not take: those of resident warps, of halted contexts, and those kept for another
launch. -/
def State.usedSlots (s : State) (gn cu : Nat) : List Nat :=
  ((s.warps.filter fun w => decide (warpCu w.1 = cu)).map fun w => warpSlot w.1) ++
    (s.ctxs.flatMap fun c => (c.2.reservedSlots.filter fun k => decide (warpCu k = cu)).map warpSlot) ++
    ((s.cu cu).keptSlots.filter fun k => decide (k.2 ≠ gn)).map Prod.fst

/-- The bank store of a CU that a unit of a grid may not take. -/
def State.grantsFor (s : State) (gn cu : Nat) : List (Nat × Nat × Nat) :=
  (s.cu cu).grants ++ (s.cu cu).kept.filter fun k => decide (k.2.2 ≠ gn)

/-- Whether units may be dealt to a CU at all: its die is in the pool, neither it nor its copy engine is dead (R360), and no compaction runs on it
(R372). -/
def State.openCu (s : State) (cu : Nat) : Bool :=
  let c := s.cu cu
  (amGetD s.dies (cuSite cu) {}).pooled && !c.dead && !c.engineDead && c.compacting.isNone

/-- Whether a team of a launch fits a CU now. -/
def State.fitsCu (s : State) (lr : LaunchRec) (gn cu : Nat) : Bool :=
  (slotsFor lr.warps (s.usedSlots gn cu)).isSome && (fitBank lr (topOf cu) 0 (s.grantsFor gn cu)).isSome

/-- Whether it would fit by total free bank store. -/
def State.fitsByTotal (s : State) (lr : LaunchRec) (gn cu : Nat) : Bool :=
  (slotsFor lr.warps (s.usedSlots gn cu)).isSome &&
    decide (lr.warps * lr.blockBytes + 4096 * (lr.bays + lr.spare) + ((s.grantsFor gn cu).map fun g => g.2.1).sum ≤ topOf cu)

/-- Whether a team could fit an empty CU of a joined die. -/
def State.fitsEmpty (s : State) (lr : LaunchRec) (cu : Nat) : Bool :=
  (amGetD s.dies (cuSite cu) {}).pooled && !(s.cu cu).dead && (fitBank lr (topOf cu) 0 []).isSome

/-- Whether a unit of n teams could use an empty CU: with a gallery group, only in a gallery with n such CUs. -/
def State.unitFitsEmpty (s : State) (lr : LaunchRec) (n cu : Nat) : Bool :=
  s.fitsEmpty lr cu &&
    decide (n ≤ (allCus.filter fun u => decide (cuGallery u = cuGallery cu) && s.fitsEmpty lr u).length)

/-- The teams of a grid's next unit. -/
def Grid.unitSize (g : Grid) : Nat := min (2 ^ g.lr.group) (g.lr.total - g.nextTeam)

/-- The place of a launch in the order of dealing (R113). -/
def Grid.order (g : Grid) : Nat := g.ctx * 2 ^ 70 + (7 - g.lr.prio) * 2 ^ 64 + g.number

/-! ### Places of saved teams (R321, R377) -/

/-- Where a saved team goes: its CU, warp slots, blocks and bays. -/
structure Place where
  tn : Nat
  cu : Nat
  slots : List Nat
  blocks : List Nat
  bays : List Nat
  deriving DecidableEq, Repr

/-- Blocks of given sizes taken from the free store, in order. -/
def allocSizes (top team : Nat) : List Nat → List (Nat × Nat × Nat) → Option (List Nat × List (Nat × Nat × Nat))
  | [], g => some ([], g)
  | n :: t, g =>
    match allocBlock g top n team with
    | none => none
    | some (o, g1) => (allocSizes top team t g1).map fun r => (o :: r.1, r.2)

/-- The block sizes of a saved team's warps. -/
def Saved.sizes (im : Saved) (t : Team) : List Nat := t.warps.map fun k => ((amGet im.warps k).map Warp.blockBytes).getD 4096

/-- The place of a saved team on a CU with grants and used slots, if it fits. -/
def placeOn (im : Saved) (tn : Nat) (t : Team) (cu : Nat) (used : List Nat) (grants : List (Nat × Nat × Nat)) : Option Place :=
  match slotsFor t.warps.length used, allocSizes (topOf cu) tn (im.sizes t) grants with
  | some slots, some (blocks, g1) =>
    (allocMany (topOf cu) 4096 tn (t.bays.length + t.spares.length) g1).map fun r =>
      { tn := tn, cu := cu, slots := slots, blocks := blocks, bays := r.1 }
  | _, _ => none

/-- Whether a saved team could fit an empty CU of a joined die, its group with it in one gallery. -/
def State.savedFits (s : State) (im : Saved) (t : Nat × Team) (cu : Nat) : Bool :=
  let ok (u : Nat) : Bool := (amGetD s.dies (cuSite u) {}).pooled && !(s.cu u).dead && (placeOn im t.1 t.2 u [] []).isSome
  ok cu && decide ((im.teams.filter fun u => decide (u.2.grid = t.2.grid ∧ u.2.group = t.2.group)).length ≤
    (allCus.filter fun u => decide (cuGallery u = cuGallery cu) && ok u).length)

/-- The number under which CUs keep what they free for a RESTORE that waits, beside the numbers of reserved launches. -/
def restoreKey (ctx : Nat) : Nat := 2 ^ 64 + ctx

/-- The reserved launch, or the RESTORE that waits as one, for which a CU keeps what it frees (R113, R377).

DEDUCED (log entry 85, unsafe): a waiting RESTORE is reserved at once. -/
def State.keeper (s : State) (cu : Nat) : Option Nat :=
  let gs := (s.grids.filter fun g => g.2.reserved && s.unitFitsEmpty g.2.lr g.2.unitSize cu).map fun g => (g.2.order, g.1)
  let rs := (s.ctxs.filter fun c => c.2.restoring && c.2.saved.any fun im => im.teams.any fun t => s.savedFits im t cu).map fun c =>
    (c.1 * 2 ^ 70, restoreKey c.1)
  ((sortBy Prod.fst (gs ++ rs)).head?).map Prod.snd

/-- Nothing is kept any more for a launch or a RESTORE (R113). -/
def State.unkeep (s : State) (gn : Nat) : State :=
  { s with cus := s.cus.map fun (c : Nat × Cu) =>
      (c.1, { c.2 with kept := c.2.kept.filter (fun k => decide (k.2.2 ≠ gn)), keptSlots := c.2.keptSlots.filter fun k => decide (k.2 ≠ gn) }) }

/-- Returns a block to the allocator, kept for a reserved launch (R113); what waits for bank store is tried again (R252, R371). -/
def State.returnBlock (s : State) (cu o : Nat) : State :=
  let n := (((s.cu cu).grants.find? fun g => decide (g.1 = o)).map fun g => g.2.1).getD 0
  let s1 := s.modCu cu fun c => { c with grants := c.grants.filter fun g => decide (g.1 ≠ o) }
  let s2 := match s.keeper cu with
    | some gn => s1.modCu cu fun c => { c with kept := c.kept ++ [(o, n, gn)] }
    | none => s1
  if (s2.cu cu).blocked ≠ [] ∨ (s2.cu cu).spillList ≠ [] then s2.after 0 prioResult (.reggrowRetry cu) else s2

/-! ### Moving granted bytes -/

/-- Accesses in flight, logged accesses, waits, speculative reads and what a window could undo of n bytes at a now mean the bytes at b;
space-15 accesses keep their physical address. -/
def State.moveAddrs (s : State) (a b n : Nat) : State :=
  let f (x : Nat) : Nat := if a ≤ x ∧ x < a + n then b + (x - a) else x
  { s with
    reqs := s.reqs.map fun q => if q.2.sp = 15 then q else (q.1, { q.2 with addr := f q.2.addr })
    detLog := s.detLog.map fun d => { d with addr := f d.addr }
    warps := s.warps.map fun w => (w.1, { w.2 with table := w.2.table.map fun st =>
      { st with waitPhys := f st.waitPhys,
                fence := st.fence.map fun fw => { fw with reads := fw.reads.map fun r => (f r.1, r.2) } } })
    undo := s.undo.map fun u => match u.2 with
      | .bytes x old pois => (u.1, .bytes (f x) old (pois.map fun p => (f p.1, p.2)))
      | _ => u
    mcas := s.mcas.map fun m => (m.1, { m.2 with
      words := m.2.words.map fun w => (f w.1, w.2), lines := m.2.lines.map fun l => lineOf (f (l * 64)), expAt := m.2.expAt.map f,
      expBytes := m.2.expBytes.map fun e => (f e.1, e.2), racing := m.2.racing.map f })
    gathers := s.gathers.map fun g => (g.1, { g.2 with chunks := g.2.chunks.map fun c => (c.1, c.2.1, f c.2.2.1, c.2.2.2) })
    supOps := s.supOps.map fun o => if ptrSpace o.2.ptr = 15 then o else (o.1, { o.2 with chunks := o.2.chunks.map f })
    replies := s.replies.map fun o => if ptrSpace o.2.ptr = 15 then o else (o.1, { o.2 with chunks := o.2.chunks.map f })
    pieces := s.pieces.map fun p => (p.1, { p.2 with addr := f p.2.addr })
    hreads := s.hreads.map fun h => (h.1, { h.2 with addr := f h.2.addr })
    grids := s.grids.map fun g => (g.1, { g.2 with waitPhys := f g.2.waitPhys }) }

/-- The timestamps of the lines of n bytes at a now hold of those at b, whose slices have given those leases (R356), and who holds a line or
waits for it holds or waits for the other; what an L2 holds stays as it is. -/
def State.moveLines (s : State) (a b n : Nat) : State :=
  (List.range (n / 64)).foldl (fun s i =>
    let l := lineOf a + i
    let m := lineOf b + i
    if (amGet s.lines l).isNone && (amGet s.lines m).isNone then s
    else
      let x := s.line l
      let y := s.line m
      let t := max x.rts y.rts
      let s1 := match amGet s.lines l with | some x => s.setLine l { x with lock := none, queue := [] } | none => s
      { s1.setLine m { y with wts := max x.wts y.wts, rts := t, lock := x.lock <|> y.lock, queue := y.queue ++ x.queue } with
        tmax := raise s.tmax (homeOf (m * 64) * 64 + sliceOf (m * 64)) t }) s

/-- Moves n bytes with their poison, timestamps and the accesses to them; the old place keeps nothing. -/
def State.moveBytes (s : State) (a b n : Nat) : State :=
  let im := s.image a n
  (((s.zero a n).putImage b n im).moveLines a b n).moveAddrs a b n

/-! ### Starting a grow or shrink (R251-R253) -/

/-- Whether any register write of a warp is pending: a result, or an engine's status word (R252). -/
def Warp.regPending (w : Warp) : Bool := (w.pipe.any fun p => decide (p.2.res ≠ [])) || decide (w.kpend ≠ [])

/-- Whether a register write of a warp to a physical register at or above lo is pending. -/
def Warp.vregPending (w : Warp) (lo : Nat) : Bool :=
  w.pipe.any fun p => p.2.res.any fun r => match r with | .vreg n => decide (lo ≤ n) | _ => false

/-- Whether a store of another agent to n bytes of a CU's bank store is on its way (R253). -/
def State.storeComing (s : State) (a n : Nat) : Bool :=
  s.reqs.any fun q => !q.2.done && decide (q.2.act ≠ .read ∧ a ≤ q.2.addr ∧ q.2.addr < a + n)

/-- Replaces the grant of a block. -/
def Cu.regrant (c : Cu) (old o n team : Nat) : Cu :=
  { c with grants := (c.grants.filter fun g => decide (g.1 ≠ old)) ++ [(o, n, team)] }

/-- The store that spills have freed for the favoured REGGROW of a CU is kept under no grid's number (R370). -/
def forFavoured : Nat := 0

/-- A REGGROW no longer waits for a block. -/
def Cu.unblock (c : Cu) (k : Nat) : Cu :=
  if c.favoured = some k then
    { c with blocked := c.blocked.filter (· ≠ k), favoured := none, kept := c.kept.filter fun r => decide (r.2.2 ≠ forFavoured) }
  else { c with blocked := c.blocked.filter (· ≠ k) }

/-- The bank store that a REGGROW may not take: what is granted and, for all but the favoured one, what spills have freed for that (R370). -/
def Cu.grantsGrow (c : Cu) (k : Nat) : List (Nat × Nat × Nat) :=
  if c.favoured.isSome ∧ c.favoured ≠ some k then c.grants ++ c.kept.filter fun r => decide (r.2.2 = forFavoured) else c.grants

/-- The place to which a compaction is moving a warp's block (R372). -/
def State.blockMove (s : State) (k : Nat) : Option Nat :=
  match amGet s.warps k, (s.cu (warpCu k)).moving with
  | some w, some m => if m.1 = w.block ∧ w.spilled.isNone then some m.2.2 else none
  | _, _ => none

/-- Whether the status word of a copy of a warp is still to come; in a stop its publish is deferred (R288). -/
def State.copyComing (s : State) (w : Warp) : Bool := w.kpend.any fun q => (amGet s.copies q.2).isSome

/-- A REGGROW blocked for want of a block, or that waits for the status word of a copy, which a stop defers, stands as not issued (R258,
R288). -/
def State.unblockGrow (s : State) (k : Nat) : State :=
  let back (e : Nat) : State :=
    (s.modWarp k fun w => { w.modStrand e (fun st => { st with hold := .none }) with op := (s.blockMove k).map BlockOp.moving }).modCu (warpCu k)
      fun c => c.unblock k
  match (amGet s.warps k).bind Warp.op with
  | some (.growBlocked e _) => back e
  | some (.grow e) => if (amGet s.warps k).any s.copyComing then back e else s
  | _ => s

/-- Whether a warp's context has begun to stop (R258, R318). -/
def State.stopBegun (s : State) (k : Nat) : Bool :=
  match amGet s.ctxs (s.ctxOf k) with | some c => decide (c.state = .stopping) && c.stopBegun | none => false

/-- A grow whose pending writes have landed (R252): in place when the buddy is free; else by a move to the lowest free block of
twice the size; else blocked (R369), or not issued in a context that stops (R258). One whose block a compaction moves waits for that. -/
def State.startGrow (s : State) (k e : Nat) : State :=
  match amGet s.warps k with
  | none => s
  | some w =>
    if (s.blockMove k).isSome then s else
    let cu := warpCu k
    let b := w.blockBytes
    let buddy := buddyOf w.block b
    let unblock (s : State) : State := s.modCu cu fun c => c.unblock k
    let taken := (s.cu cu).grantsGrow k
    if freeAt taken (topOf cu) buddy b then
      let base := min buddy w.block
      (((unblock s).modCu cu fun c => c.regrant w.block base (2 * b) w.team).modWarp k (fun w => { w with op := some (.growTo e base) })).fitL1 cu
        |>.after 64 prioResult (.reggrowComplete k)
    else
      match allocBlock taken (topOf cu) (2 * b) w.team with
      | some (o, _) =>
        (((unblock s).modCu cu fun c => { c with grants := c.grants ++ [(o, 2 * b, w.team)] }).modWarp k
            (fun w => { w with op := some (.growTo e o) })).fitL1 cu
          |>.after (64 + b / 512) prioResult (.reggrowComplete k)
      | none =>
        let s1 := s.modWarp k fun w => { w with op := some (.growBlocked e s.clock) }
        if s.stopBegun k then s1.unblockGrow k
        else if (s.cu cu).blocked.contains k then s1
        else (s1.modCu cu fun c => { c with blocked := c.blocked ++ [k] }).after 0 prioLate (.registerDeadlock cu)

/-- Lets the accesses of other agents to a warp's registers go on, which waited at its block (R251, R371). -/
def State.wakeBlock (s : State) (k : Nat) : State :=
  match amGet s.warps k with
  | none => s
  | some w =>
    (s.reqs.filter fun q => q.2.arrived && !q.2.done && decide (q.2.sp = 2) && w.holds k q.2.addr).foldl
      (fun s q => s.after 0 (prioRead + strandAgent q.2.warp q.2.entry) (.homeSliceRequest q.1)) s

/-- The grows and shrinks of a warp that wait only for pending writes, once these have landed. -/
def State.blockReady (s : State) (k : Nat) : State :=
  match amGet s.warps k with
  | none => s
  | some w =>
    match w.op with
    | some (.grow e) => if w.regPending then (if s.stopBegun k then s.unblockGrow k else s) else s.startGrow k e
    | some (.shrink e) =>
      if w.vregPending (w.blockBytes / 256) || s.storeComing (bankAddr (warpCu k) (w.block + w.blockBytes / 2)) (w.blockBytes / 2) then s
      else (s.modWarp k fun w => { w with op := some (.shrinkRun e) }).after 4 prioResult (.regshrinkComplete k)
    | _ => s

end Sys2Proof.Machine
end

