-- ==== Sys2Proof/Machine/Settle.lean ====
section
/-! DEFINITION. What a change of the accesses in progress lets go on: releases (R168), queued requests, fences (R161), MCAS
(R162), launches (R254), barriers (R247), retirements (R245) and ends of teams (R60); engine reads through tagged
pointers. -/

namespace Sys2Proof.Machine

/-- A space-0 or space-1 address of a warp's strand, translated at once for the engines. -/
def State.engineAt (s : State) (k p : Nat) (write : Bool) : Now :=
  match s.teamOf k, s.gridOf k with
  | some (_, t), some (gn, g) =>
    if ptrSpace p = 1 then
      match s.rankTeam gn t.group (ptrRank p) with
      | some (_, r) =>
        (match r.spAddr g.lr.bays (ptrOff p) with
         | some a => if ptrOff p < 2 ^ 18 then .ok a else .bad 5 3 0
         | none => .bad 5 3 0)
      | none => .bad 5 2 0
    else s.transNow (cuSite (warpCu k)) g.ctx (ptrOff p) write (((amGet s.ctxs g.ctx).map Ctx.sup).getD false) false
  | _, _ => .bad 5 2 0

/-- The clocks of such a read (R121), once its translation has been asked for.

DESIGN CHOICE (log entry 96, unsafe): a block in space 0, for which R302 gives no time, is read in the time of its first bytes at their home. -/
def State.engineClocks (s : State) (k p : Nat) : Nat :=
  match s.engineAt k p false with
  | .ok a =>
    if onChip a then s.chipLatency (warpCu k) a
    else s.transClocks (cuSite (warpCu k)) (s.ctxOf k) (ptrOff p) + s.homeLatency (cuSite (warpCu k)) a
  | .bad _ _ _ => 20

/-- Sends such a read of n bytes (R21, R105): the clocks to its data. -/
def State.engineRead (s : State) (k p n : Nat) : State × Nat :=
  match s.engineAt k p false with
  | .ok a =>
    if onChip a then (s, s.engineClocks k p)
    else
      let site := cuSite (warpCu k)
      let s1 := s.askTrans (s.favouredWarp k) site (s.ctxOf k) (ptrOff p)
      let f := s1.sendRound (s.ctxOf k) site a (linesOf a n).length (s.favouredWarp k)
      (f.1, s1.engineClocks k p + f.2)
  | .bad _ _ _ => (s, s.engineClocks k p)

/-- Step 2 of a fence (R161, R217): .loc completes at once and sets the side-port point (R164); the others send for their
scope's horizon, and the strand goes on speculatively (R162, R218). -/
def State.beginFence (s : State) (k e scope : Nat) : State :=
  match amGet s.warps k with
  | none => s
  | some w =>
    if scope = 0 then
      s.modStrand k e fun st =>
        { st with fenceStep1 := none, hold := .none, pc := st.succ, c := max st.c (s.horizon (s.ctxOf k) (warpCu k) 0),
                  sideAt := ((s.teamOf k).map fun t => t.2.spLog.length).getD 0 }
    else
      let site := cuSite (warpCu k)
      let f := if scope = 1 then (s, 0) else s.sendFlits (s.ctxOf k) site 8 1 (s.favouredWarp k) false 0
      (f.1.modStrand k e fun st =>
        { st with fenceStep1 := none, hold := .none, pc := st.succ,
                  fence := some { scope := scope, pc := st.succ, firstOp := s.nextId } }).after
        (if scope = 1 then 30 else s.hubPass site + f.2) prioResult (.fenceComplete (w.strand e).uid)

/-- The fences of a warp whose earlier events are all acknowledged. -/
def State.fencesReady (s : State) (k : Nat) : State :=
  match amGet s.warps k with
  | none => s
  | some w =>
    w.liveEntries.foldl (fun s e =>
      let st := w.strand e
      match st.fenceStep1 with
      | some scope => if s.unacked st s.nextId then s else s.beginFence k e scope
      | none => s) s

/-- A release whose earlier events are acknowledged leaves (R168, R215). -/
def State.releasesReady (s : State) : State :=
  s.reqs.foldl (fun s q =>
    match q.2.rel with
    | some first =>
      if s.unacked { uid := q.2.uid, kin := q.2.kin } first then s
      else (s.modReq q.1 fun r => { r with rel := none }).after q.2.lead (prioWrite + s.agentOf q.2.uid) (.homeSliceRequest q.1)
    | none => s) s

/-- An MCAS whose earlier events are acknowledged takes the .dev horizon and reads its block (R228, R302); its strand's clock follows when the
block's checks have passed (R330). -/
def State.mcasReady (s : State) : State :=
  s.mcas.foldl (fun s m =>
    match s.findUid m.2.uid with
    | some (k, e) =>
      if m.2.stage = 0 ∧ !s.unacked { uid := m.2.uid, kin := ((amGet s.warps k).map fun w => (w.strand e).kin).getD [] } m.1 then
        let c := ((amGet s.warps k).map fun w => (w.strand e).c).getD 0
        let n := match s.engineAt k m.2.ptr.toNat false with | .ok a => min (s.num a 1 % 16) 8 | .bad _ _ _ => 0
        let f := s.engineRead k m.2.ptr.toNat (8 + 24 * n)
        { f.1 with mcas := amSet f.1.mcas m.1 { m.2 with stage := 1, c0 := c, c := max c (s.horizon m.2.ctx m.2.cu 2) } }.after f.2 prioResult
          (.mcasLockGrant m.1)
      else s
    | none => s) s

/-- A launch whose strand's earlier events are acknowledged goes to the hub (R254); those of one clock arrive by site, CU and warp slot
(R109). -/
def State.launchesReady (s : State) : State :=
  s.launches.foldl (fun s l =>
    if l.2.stage = 0 ∧ !s.unacked { uid := l.2.uid, kin := l.2.kin } l.1 then
      let f := s.toHub l.2.ctx (cuSite (warpCu l.2.warp)) (s.favouredWarp l.2.warp)
      { f.1 with launches := amSet f.1.launches l.1 { l.2 with stage := 1 } }.after f.2 (prioResult + l.2.warp) (.launchAccept l.1)
    else s) s

/-- Everything that an acknowledgement, a landed result or a departed strand may let go on. -/
def State.settle (s : State) : State :=
  let s1 := s.releasesReady
  let s2 := s1.reqs.foldl (fun s q => s.serve q.1) s1
  let ks := s2.warps.map Prod.fst
  let s3 := ks.foldl State.fencesReady s2
  let s4 := s3.mcasReady.launchesReady
  let s5 := ks.foldl State.barChecks s4
  let s6 := ks.foldl State.blockReady (ks.foldl State.retireReady s5)
  s6.teams.foldl (fun s t => if s.teamDone t.2 then s.after 0 prioResult (.teamFinish t.1) else s) s6

end Sys2Proof.Machine
end

