-- ==== Sys2Proof/Machine/Mcas.lean ====
section
/-! DEFINITION. MCAS (R162, R225-R231, R302, R355): its issue, block read and checks, locks, event, release. -/

namespace Sys2Proof.Machine

/-- Multi-word compare-and-swap over up to 8 words as one event: waits for acknowledgements, reads its block, locks its
lines. (R225)

DEDUCED (log entry 24, unsafe): rights MCAS needs on its block, and its clock after a failure. -/
def execMcas (g : Pfx) (k : BitVec 8) (p : BitVec 7) (s : State) : Out :=
  issue (.mcas g k p) s fun x s =>
    let i := (lowLane x.mask).getD 0
    let ea := x.ptr s p.toNat i
    let l : List LaneAcc := [{ lane := i, ea := ea, at0 := s.reach x [0, 1] 8 8 true ea }]
    x.addressed s l (some (maskOf [i])) fun s =>
      let m : Mcas := { ctx := x.cn, cu := x.cu, warp := x.k, uid := x.st.uid, ks := k.toNat, ptr := BitVec.ofNat 64 ea, lane := i,
                        parcel := x.parcel }
      let s1 := { s with mcas := amSet s.mcas s.nextId m, cur := none }
      let s2 := (s1.modStrand x.k x.e fun st => { st with hold := .busy s.nextId, succ := x.next }).modWarp x.k fun w =>
        { w with kpend := w.kpend ++ [(k.toNat, s.nextId)], kops := amSet w.kops s.nextId x.st.uid }
      s2.bump.settle

/-- Ends a pending status write without writing (R229, R250). -/
def State.dropPending (s : State) (k id : Nat) : State :=
  s.modWarp k fun w => { w with kpend := w.kpend.filter (fun q => decide (q.2 ≠ id)), kops := amErase w.kops id }

/-! ### Locks (R162, R230, R302) -/

/-- Half the L2 round trip from a CU to a line. -/
def State.halfTo (s : State) (cu l : Nat) : Nat := halfL2 (s.hops (cuSite cu) (homeOf (l * 64)))

/-- Sends the lock request for the next line d clocks from now (R302); once it holds a lock nothing defers it (R230). -/
def State.sendLock (s : State) (id : Nat) (m : Mcas) (d : Nat) : State :=
  match m.lines[m.granted]? with
  | some l =>
    let f := s.sendFlits m.ctx (cuSite m.cu) (homeOf (l * 64)) 1 (s.favouredWarp m.warp) (decide (0 < m.granted)) 0
    f.1.after (d + s.halfTo m.cu l + f.2) (prioWrite + s.agentOf m.uid) (.homeSliceRequest id)
  | none => s

/-! ### Failure (R227, R355) -/

/-- Sends the release of a line from an MCAS's CU: the clock at which it arrives. -/
def State.sendRelease (s : State) (id : Nat) (m : Mcas) (l : Nat) : State :=
  let f := s.sendFlits m.ctx (cuSite m.cu) (homeOf (l * 64)) 1 (s.favouredWarp m.warp) true 0
  let d := s.halfTo m.cu l + f.2
  ({ f.1 with mcas := amMod f.1.mcas id fun q => { q with due := q.due ++ [(l, s.clock + d)] } }).after d prioWrite (.mcasRelease id)

/-- MCAS fails whole: the strand traps at the group with the clock it had before it (R330), its pending status write ends, and the locks it
holds are released. -/
def State.mcasFail (s : State) (id : Nat) (m : Mcas) (t : TrapInfo) : State :=
  match s.findUid m.uid with
  | none => { s with mcas := amErase s.mcas id }
  | some (k, e) =>
    let s0 := s.modStrand k e fun st => { st with c := m.c0 }
    let s1 := (s0.takeTrap k e { t with lanes := maskOf [m.lane], parcel := m.parcel } 0).dropPending k id
    let held := m.lines.take m.granted
    let s2 := { s1 with mcas := if held = [] then amErase s1.mcas id else amSet s1.mcas id { m with stage := 3, due := [] } }
    held.foldl (fun s l => s.sendRelease id m l) s2

/-! ### The block read and its checks (R226, R227, R332) -/

/-- The 8 bytes of the block at offset o, which MCAS may also write (R209), as a load gives them. -/
def State.blockNum (s : State) (m : Mcas) (o : Nat) : Except Now Nat :=
  match s.engineAt m.warp (ptrAdd m.ptr.toNat o) true with
  | .ok a => .ok (if s.contained a then (marker 7).toNat + (marker 7).toNat * 2 ^ 32 else (s.valAt 8 false a).1.toNat)
  | b => .error b

/-- Class 5 or 6, or 8 for a walk, on the block or a word. -/
def Now.info (n : Now) (ea low extra : Nat) : Option TrapInfo :=
  match n with
  | .ok _ => none
  | .bad c k o => some { cls := c, code := k, addr := if c = 8 then ptrOff ea else ea,
                         detail := if c = 8 then detail8 0 5 o low else low + extra }

/-- What the block read finds: a trap, or the words with their tagged pointers. -/
inductive McasBlock where
  | bad (t : TrapInfo)
  | ok (words : List (Nat × Nat × Nat × Nat)) (vas : List Nat)
  deriving DecidableEq, Repr

/-- The three numbers of entry j. -/
def State.mcasEntry (s : State) (m : Mcas) (j : Nat) : Except Now (Nat × Nat × Nat) :=
  match s.blockNum m (8 + 24 * j), s.blockNum m (16 + 24 * j), s.blockNum m (24 + 24 * j) with
  | .ok a, .ok e, .ok n => .ok (a, e, n)
  | .error b, _, _ => .error b
  | _, .error b, _ => .error b
  | _, _, .error b => .error b

/-- The checks of R227 in the order of R332, each entry valid before any word's address is checked, the overlaps last; a word that is not
valid is named in DETAIL (R338), of two that overlap the lower.

DEDUCED (log entry 75, unsafe): the word that DETAIL names. -/
def State.mcasCheck (s : State) (m : Mcas) : McasBlock :=
  let ea := m.ptr.toNat
  let invalid (j : Nat) : TrapInfo := { cls := 7, code := 2, addr := ea, detail := m.lane + 256 * j }
  match s.blockNum m 0 with
  | .error b => .bad ((b.info ea m.lane 0).getD (invalid 0))
  | .ok h =>
    let n := bitsOf h 0 4
    let size (j : Nat) : Nat := if bitsOf h (8 + j) 1 = 1 then 8 else 4
    if bitsOf h 4 4 ≠ 0 ∨ bitsOf h 16 48 ≠ 0 ∨ n = 0 ∨ 8 < n ∨ bitsOf h (8 + n) (8 - n) ≠ 0 then .bad (invalid 0)
    else
      let es := (List.range n).map (s.mcasEntry m)
      match es.findSome? fun e => match e with | .error b => b.info ea m.lane 0 | .ok _ => none with
      | some t => .bad t
      | none =>
        let ok := es.filterMap fun e => match e with | .ok v => some v | .error _ => none
        match (List.range n).find? fun j =>
            decide (size j = 4) && (decide (2 ^ 32 ≤ (ok.getD j (0, 0, 0)).2.1) || decide (2 ^ 32 ≤ (ok.getD j (0, 0, 0)).2.2)) with
        | some j => .bad (invalid j)
        | none =>
          let site := cuSite m.cu
          let sup := ((amGet s.ctxs m.ctx).map Ctx.sup).getD false
          let word (j : Nat) : Now :=
            let a := (ok.getD j (0, 0, 0)).1
            if ptrSpace a ≠ 0 then .bad 5 1 0
            else if ptrRank a ≠ 0 then .bad 5 2 0
            else if ptrOff a % size j ≠ 0 then .bad 5 4 0
            else s.transNow site m.ctx (ptrOff a) true sup false
          match (List.range n).findSome? fun j =>
              (word j).info (ok.getD j (0, 0, 0)).1 m.lane (j * 256 + (match word j with | .bad 7 _ _ => 0 | _ => 2048)) with
          | some t => .bad t
          | none =>
            let ws := (List.range n).filterMap fun j => match word j with
              | .ok pa => some (pa, size j, (ok.getD j (0, 0, 0)).2.1, (ok.getD j (0, 0, 0)).2.2)
              | .bad _ _ _ => none
            let crosses (i : Nat) := (List.range n).any fun j =>
              decide (i < j) && (match ws[i]?, ws[j]? with
                | some a, some b => decide (a.1 < b.1 + b.2.1) && decide (b.1 < a.1 + a.2.1)
                | _, _ => false)
            let onBlock (i : Nat) := (List.range (1 + 3 * n)).any fun c =>
              match s.engineAt m.warp (ptrAdd ea (8 * c)) true, ws[i]? with
              | .ok a, some w => decide (w.1 < a + 8) && decide (a < w.1 + w.2.1)
              | _, _ => false
            match (List.range n).find? fun i => crosses i || onBlock i with
            | some j => .bad (invalid j)
            | none => .ok ws (ok.map fun e => e.1)

/-- Inserts a number in a rising list without repeats. -/
def insRising (a : Nat) : List Nat → List Nat
  | [] => [a]
  | b :: t => if a < b then a :: b :: t else if a = b then b :: t else b :: insRising a t

/-- The deterministic-mode check of an operation of a strand after its issue (R163, R361): the trap, or the log. -/
def State.detLate (s : State) (k e lane : Nat) (acc : List (Nat × Nat × Nat)) (wrote : Bool) : Except TrapInfo State :=
  match amGet s.warps k, s.teamOf k, s.gridOf k with
  | some w, some (tn, _), some (_, g) =>
    if !g.det then .ok s
    else
      let st := w.strand e
      let fib := fibreId tn w.number st.fibre
      match acc.findSome? fun a => (s.detConflict g.ctx fib st a.2.1 a.2.2 wrote false).map fun d => (a.1, d) with
      | some (ea, d, byte) =>
        .error { cls := 9, code := if wrote then 1 else 2, detail := detail9 d (warpCu k) byte, addr := ea, lanes := maskOf [lane] }
      | none =>
        let s1 := acc.foldl (fun s a => s.detNote g.ctx fib (warpCu k) st a.2.1 a.2.2 wrote false) s
        .ok (if wrote then s1.modStrand k e Strand.tick else s1)
  | _, _, _ => .ok s

/-- The first poisoned or contained word of an MCAS, with its origin (R355). -/
def State.badWord (s : State) (words : List (Nat × Nat × Nat × Nat)) : Option (Nat × Nat) :=
  (List.range words.length).findSome? fun j => match words[j]? with
    | some w => if s.contained w.1 then some (j, 7) else ((s.poisonIn w.1 w.2.1).head?).map fun p => (j, p.2)
    | none => none

/-- The trap of such a word, class 8, code 2 (R355). -/
def Mcas.wordTrap (m : Mcas) (vas : List Nat) (b : Nat × Nat) : TrapInfo :=
  { cls := 8, code := 2, detail := detail8 b.1 4 b.2 m.lane, addr := vas.getD b.1 0 }

/-- Contains the context of an MCAS that named a word of a contained home (R360). -/
def State.wordsLost (s : State) (ctx : Nat) (words : List (Nat × Nat × Nat × Nat)) : State :=
  if words.any fun w => s.contained w.1 then s.containCtx ctx else s

/-- The block read returns (R302): the checks, the read events of the strand, and the first lock request in the clock after. It waits in
the queue of a line that another holds (R230), but for the line it has just been granted. A trap leaves no event (R330); a conflict of the
block gives way to a poisoned word (R332). -/
def State.mcasBlockRead (s : State) (id k e : Nat) (m : Mcas) (granted : Option Nat) : State :=
  let n := match s.blockNum m 0 with | .ok h => min (bitsOf h 0 4) 8 | .error _ => 0
  let chunks := (List.range (1 + 3 * n)).filterMap fun (c : Nat) =>
    match s.engineAt m.warp (ptrAdd m.ptr.toNat (8 * c)) true with | .ok a => some (ptrAdd m.ptr.toNat (8 * c), a, 8) | .bad _ _ _ => none
  match (chunks.map fun a => lineOf a.2.1).find? fun l => decide (granted ≠ some l) && !s.lineFree l with
  | some l => if (s.line l).queue.contains id then s else s.setLine l { s.line l with queue := (s.line l).queue ++ [id] }
  | none =>
    let lost (s' : State) : State := if chunks.any fun a => s.contained a.2.1 then s'.containCtx m.ctx else s'
    match s.mcasCheck m with
    | .bad t => lost (s.mcasFail id m t)
    | .ok ws vas =>
      match s.detLate k e m.lane chunks false with
      | .error t => (s.mcasFail id m (((s.badWord ws).map (m.wordTrap vas)).getD t)).wordsLost m.ctx ws
      | .ok s0 =>
        let s1 := chunks.foldl (fun s a =>
          let c := ((amGet s.warps k).map fun w => (w.strand e).c).getD 0
          let r := (s.fillLine (lineOf a.2.1)).readStamp (lineOf a.2.1) (max c m.c) (s.lease m.ctx)
          r.2.modStrand k e fun st => { st with c := r.1 }) s0
        let lines := ws.foldl (fun l w => insRising (lineOf w.1) l) []
        let m1 := { m with stage := 2, words := ws, vas := vas, lines := lines
                           expAt := (List.range ws.length).map fun j => (chunks.getD (2 + 3 * j) (0, 0, 0)).2.1 }
        let s2 := { s1 with mcas := amSet s1.mcas id m1 }
        let walks := vas.foldl (fun (t : State × Nat) a =>
          let r := t.1.translate (s.favouredWarp k) (cuSite m.cu) m.ctx (ptrOff a)
          (r.1, max t.2 r.2)) (s2, 0)
        walks.1.sendLock id m1 (1 + walks.2)

/-- Grants a line to an MCAS whose turn has come: the grant of a lock returns after half the round trip; a block read that waited for the
line is made. -/
def State.grantMcas (s : State) (l id : Nat) : State :=
  match amGet s.mcas id with
  | none => s
  | some m =>
    if m.stage = 1 then (match s.findUid m.uid with | some (k, e) => s.mcasBlockRead id k e m (some l) | none => s)
    else
      let f := s.sendFlits m.ctx (homeOf (l * 64)) (cuSite m.cu) 1 (s.favouredWarp m.warp) true 0
      (f.1.setLine l { f.1.line l with lock := some id }).after (s.halfTo m.cu l + f.2) prioResult (.mcasLockGrant id)

/-- A lock request of an MCAS reaches its home: the first is charged one ATOM there and may be deferred (R116, R230). -/
def State.lockArrives (s : State) (id : Nat) (m : Mcas) : State :=
  match m.lines[m.granted]? with
  | none => s
  | some l =>
    let key := m.ctx * 8 + homeOf (l * 64)
    let used := amGetD s.atomUsed key 0
    let limit := ((amGet s.ctxs m.ctx).map Ctx.atomLimit).getD 0
    if m.granted = 0 ∧ !admits used limit 1 (s.favouredWarp m.warp) then { s with deferred := s.deferred ++ [(key, .homeSliceRequest id)] }
    else
      let s1 := if m.granted = 0 then { s with atomUsed := amSet s.atomUsed key (used + 1) } else s
      let x := s1.line l
      if !s1.lineFree l then s1.setLine l { x with queue := x.queue ++ [id] }
      else s1.grantMcas l id

/-- A line lock of an MCAS is granted and returns, sending the next request. (R302) -/
def execMcasLockGrant (id : Nat) (s : State) : Out :=
  .next <|
    match amGet s.mcas id with
    | none => s
    | some m =>
      match s.findUid m.uid with
      | none => s
      | some (k, e) =>
        if m.stage = 1 then (s.mcasBlockRead id k e m none).settle
        else if m.stage = 2 then
          let m1 := { m with granted := m.granted + 1 }
          let s1 := { s with mcas := amSet s.mcas id m1 }
          if m1.granted = m1.lines.length then s1.after 0 prioResult (.mcasEvent id) else s1.sendLock id m1 0
        else s

/-! ### The event (R162, R228, R302) -/

/-- The writes of the expected fields on a failed comparison (R228): stores of the strand, 8 bytes each. -/
def State.mcasExps (s : State) (id k e : Nat) (m : Mcas) (obs : List Nat) : State :=
  let st := ((amGet s.warps k).map fun w => w.strand e).getD {}
  (List.range obs.length).foldl (fun s (j : Nat) =>
    let ea := ptrAdd m.ptr.toNat (16 + 24 * j)
    match m.expAt[j]? with
    | some a =>
      let t := s.timing m.cu a 2 .store false
      let bs := toBytes 8 (obs.getD j 0)
      let f := s.sendFlits m.ctx (cuSite m.cu) (homeOf a) 1 (s.favouredWarp k) false 0
      let s := f.1
      let r : Req := { ctx := m.ctx, cu := m.cu, warp := k, entry := e, fibre := st.fibre, uid := st.uid, lane := m.lane, addr := a,
                       va := if ptrSpace ea = 0 then ptrOff ea else 2 ^ 64, sp := ptrSpace ea, bytes := 8, act := .write bs,
                       place := t.place, q := 2, lead := t.lead + f.2, back := t.back, hub := t.hub, c := st.c, kin := st.kin }
      let s1 := { s with
        reqs := amSet s.reqs s.nextId r
        mcas := amMod s.mcas id fun q =>
          { q with exps := q.exps ++ [s.nextId], expBytes := q.expBytes ++ ((List.range 8).map (a + ·)).zip bs } }
      (s1.after (t.lead + f.2) (prioWrite + strandAgent k e) (.homeSliceRequest s.nextId)).bump
    | none => s) s

/-- With every line locked, the MCAS takes its timestamp, compares and writes all words or none. (R162) -/
def execMcasEvent (id : Nat) (s : State) : Out :=
  .next <|
    match amGet s.mcas id with
    | none => s
    | some m =>
      match s.findUid m.uid with
      | none => s
      | some (k, e) =>
        let s0 := m.lines.foldl (fun s l => s.fillLine l) s
        let st := ((amGet s0.warps k).map fun w => w.strand e).getD {}
        let ts := m.lines.foldl (fun t l => max t ((s0.line l).rts + 1)) (st.c + 1)
        let readAll (s : State) : State := m.lines.foldl (fun s l =>
          { (s.setLine l { s.line l with rts := max (s.line l).rts ts }).modStrand k e (fun st => { st with c := ts }) with
            tmax := raise s.tmax (homeOf (l * 64) * 64 + sliceOf (l * 64)) ts }) s
        match s0.badWord m.words with
        | some b => (((readAll s0).mcasFail id m (m.wordTrap m.vas b)).wordsLost m.ctx m.words).settle
        | none =>
          let obs := m.words.map fun w => s0.num w.1 w.2.1
          let mism := (List.range obs.length).filter fun j => decide (obs.getD j 0 ≠ (m.words.getD j (0, 0, 0, 0)).2.2.1)
          let success := decide (mism = [])
          let accs := (List.range m.words.length).map fun j => (m.vas.getD j 0, (m.words.getD j (0, 0, 0, 0)).1, (m.words.getD j (0, 0, 0, 0)).2.1)
          let exps := (List.range obs.length).map fun (j : Nat) => (ptrAdd m.ptr.toNat (16 + 24 * j), m.expAt.getD j 0, 8)
          let checked : Except TrapInfo State := match s0.detLate k e m.lane accs success with
            | .error t => .error t
            | .ok s1 => if success then .ok s1 else s1.detLate k e m.lane exps true
          match checked with
          | .error t => (s0.mcasFail id m t).settle
          | .ok s1 =>
            let s2 := if success then
                m.lines.foldl (fun s l =>
                  let s := s.setOwner l none
                  { s.setLine l { s.line l with wts := ts, rts := ts } with
                    tmax := raise s.tmax (homeOf (l * 64) * 64 + sliceOf (l * 64)) ts }) s1
              else readAll s1
            let m1 := { m with stage := 3, success := success, due := [] }
            let s3 := { s2 with mcas := amSet s2.mcas id m1 }.modStrand k e fun st => { st with hold := .none, pc := st.succ, c := ts }
            let s4 := (s3.agentClock k m.uid id ts).foldNear m.cu (if success then ts else 0)
            let s5 := if success then s4.foldHub m.ctx ts else s4.mcasExps id k e m1 obs
            let s6 := m.lines.foldl (fun s l => s.sendRelease id m1 l) s5
            let last := (((amGet s6.mcas id).map Mcas.due).getD []).foldl (fun t d => max t (d.2 - s.clock + s.halfTo m.cu d.1)) 0
            let far := m.lines.foldl (fun t l => max t (fullL2 (s.hops (cuSite m.cu) (homeOf (l * 64))))) last
            let v : Word := if success then 0x80000000 else BitVec.ofNat 32 (0x81000000 + mism.foldl (fun n j => n + 2 ^ j) 0)
            (s6.after far prioResult (.statusWordWrite k m.ks id v)).settle

/-! ### Release (R302) -/

/-- Takes a line's queue once it is free; lock requests of MCAS are granted. -/
def State.drainLine (s : State) (grant : State → Nat → Nat → State) (l : Nat) : State :=
  s.serveQueue grant l ((s.line l).queue.length + 1)

/-- The lines of an MCAS whose release has arrived: its words of the line are written on success, and the line is free. -/
def State.mcasFree (s : State) (grant : State → Nat → Nat → State) (id l : Nat) (m : Mcas) : State :=
  let ts := (s.line l).wts
  let s1 := if m.success then
      m.words.foldl (fun s w => if lineOf w.1 = l then s.putBytes m.uid ts w.1 (toBytes w.2.1 w.2.2.2) else s) s
    else s
  (if (s1.line l).lock = some id then s1.setLine l { s1.line l with lock := none } else s1).drainLine grant l

/-- The releases of an MCAS that have arrived by now. -/
def State.mcasReleases (s : State) (grant : State → Nat → Nat → State) (id : Nat) : State :=
  match amGet s.mcas id with
  | none => s
  | some m =>
    let here := m.due.filter fun d => decide (d.2 ≤ s.clock)
    let left := m.due.filter fun d => !decide (d.2 ≤ s.clock)
    let s1 := { s with mcas := amSet s.mcas id { m with due := left } }
    let s2 := here.foldl (fun s d => s.mcasFree grant id d.1 m) s1
    if left = [] ∧ !(s2.warps.any fun w => w.2.kpend.any fun q => decide (q.2 = id)) then { s2 with mcas := amErase s2.mcas id } else s2

end Sys2Proof.Machine
end

