-- ==== Sys2Proof/Machine/MemEvents.lean ====
section
/-! DEFINITION. The steps of accesses in progress: arrivals at the homes, acknowledgements, folds, returns, walks, fences, counters,
status words, releases of MCAS, view lines. -/

namespace Sys2Proof.Machine

/-! ### Line locks of host pieces (R327) -/

/-- The lines of a piece, ascending. -/
def Piece.lines (p : Piece) : List Nat :=
  if p.data = [] then [] else
    (List.range (lineOf (p.addr + p.data.length - 1) - lineOf p.addr + 1)).map (lineOf p.addr + ·)

/-- Locks the lines of a piece in ascending order, at most n; with all locked the home replies with max(rts + 1). -/
def State.lockPiece (s : State) (id : Nat) : Nat → State
  | 0 => s
  | n + 1 =>
    match amGet s.pieces id with
    | none => s
    | some p =>
      match p.lines[p.lines.length - p.left]? with
      | none =>
        let bid := p.lines.foldl (fun m l => max m ((s.line l).rts + 1)) 0
        let d := s.hubMsg (homeOf p.addr)
        { s with pieces := amSet s.pieces id { p with bid := some bid, bidAt := s.clock + d } }.after d prioResult .pieceTimestamp
      | some l =>
        let x := s.line l
        if !s.lineFree l then s.setLine l { x with queue := x.queue ++ [id] }
        else
          { s.setLine l { x with lock := some id } with pieces := amSet s.pieces id { p with left := p.left - 1 } }.lockPiece id n

/-- The CU at whose engine a matrix operation is the next to start. -/
def State.engineOf (s : State) (id : Nat) : Option Nat :=
  (s.cus.find? fun c => c.2.queue.head?.any fun m => decide (m.id = id)).map Prod.fst

/-- The number under which the trap poster of a context waits at a line. -/
def posterKey (ctx : Nat) : Nat := 2 ^ 65 + ctx

/-- The number under which the save engines of a context wait at a line. -/
def saverKey (ctx : Nat) : Nat := 2 ^ 66 + ctx

/-- The step of an engine or hub access that waits in the queues of its lines (R230): of a save, the trap poster, a prefetch, a publish, a host read, a
launch, a supervisor operation or reply, a gather, a grid's counters, a matrix operation; a copy's unit goes on in the next step of its engine. -/
def State.waiterStep (s : State) (id : Nat) : Option Instr :=
  if saverKey 0 ≤ id then some (.saveComplete (id - saverKey 0))
  else if posterKey 0 ≤ id then some (.trapRecordPost (id - posterKey 0))
  else if (amGet s.reqs id).isSome then some (.homeSliceRequest id)
  else if (amGet s.copies id).any Copy.ended then some (.copyPublish id)
  else if (amGet s.hreads id).isSome then some (.pieceBid id)
  else if (amGet s.launches id).isSome then some (.launchAccept id)
  else if (amGet s.supOps id).isSome then some (.supervisorOperationComplete id)
  else if (amGet s.replies id).isSome then some (.replyTakeEffect id)
  else if (amGet s.gathers id).isSome then some (.gatherRowArrival id)
  else
    match amGet s.grids id with
    | some g => some (if g.retired then .gridRetire id else .dependenceCounterReread id)
    | none => (s.engineOf id).map Instr.matrixEngineStart

/-- Grants a free line to the head of its queue: a piece (R327), an engine or hub access, which holds it until it is made in this clock, or an
MCAS (R302). -/
def State.grantLock (s : State) (l id : Nat) : State :=
  match amGet s.pieces id, s.waiterStep id with
  | some p, _ =>
    { s.setLine l { s.line l with lock := some id } with pieces := amSet s.pieces id { p with left := p.left - 1 } }.lockPiece id 8
  | none, some ev => (s.setLine l { s.line l with lock := some id }).after 0 prioRead ev
  | none, none => if (amGet s.copies id).isSome then s.setLine l { s.line l with lock := some id } else s.grantMcas l id

/-- Takes the queue of a line that has become free. -/
def State.freeLine (s : State) (l : Nat) : State := s.drainLine State.grantLock l

/-- An engine or hub access has been made, or waits anew: the lines it was granted are free again. -/
def State.leaveLines (s : State) (id : Nat) (ls : List Nat) : State :=
  ls.foldl (fun s l => if (s.line l).lock = some id then (s.setLine l { s.line l with lock := none }).freeLine l else s) s

/-- What such an access does at lines that others hold (R230): it waits in the queue of the first of them, and holds no other meanwhile. none
lets it be made. -/
def State.waitLines (s : State) (id : Nat) (ls : List Nat) : Option State :=
  (ls.find? fun l => decide ((s.line l).lock ≠ some id) && !s.lineFree l).map fun l =>
    let s1 := s.leaveLines id ls
    if (s1.line l).queue.contains id then s1 else s1.setLine l { s1.line l with queue := (s1.line l).queue ++ [id] }

/-- The lines that an access holds which is no longer wanted are free again. -/
def State.leaveAll (s : State) (id : Nat) : State := s.leaveLines id ((s.lines.filter fun l => decide (l.2.lock = some id)).map Prod.fst)

/-! ### Arrivals and acknowledgements (R155, R160) -/

/-- A prefetch at its home (R216): the line comes into L2 and, but for PF.L2, into the CU's L1 with a lease; at a held line it waits in the
queue (R230).

DEDUCED (log entry 38, safe): prefetches wait at held lines as accesses do. -/
def State.prefetchArrives (s : State) (id : Nat) (r : Req) (l2 : Bool) : State :=
  let l := lineOf r.addr
  match s.waitLines id [l] with
  | some s' => s'
  | none =>
    let f := s.sendFlits r.ctx (homeOf r.addr) (cuSite r.cu) 1 (s.favouredReq r) false 0
    let s1 := { f.1.fillLine l with reqs := amErase s.reqs id }
    let s2 := if l2 || s.contained r.addr || (s1.l1Copy r.cu l).any L1Line.owned then s1
      else (s1.readStamp l r.c (s.lease r.ctx)).2.fillL1 r.ctx r.cu l
    s2.leaveLines id [l]

/-- Whether the CU that holds an address answers no request (R359). -/
def State.unanswered (s : State) (a : Nat) : Bool := onChip a && (s.cu (chipCu a)).mute

/-- A home slice serves a read, write, RMW or lock request and assigns its timestamp. (R155) -/
def execHomeSliceRequest (id : Nat) (s : State) : Out :=
  .next <|
    match amGet s.reqs id with
    | some r =>
      (match r.act with
       | .prefetch l2 => s.prefetchArrives id r l2
       | .probe => s.probeArrives id r.uid
       | _ =>
         match r.acq, r.horizon with
         | some sc, none =>
           (s.modReq id fun r => { r with horizon := some (s.horizon r.ctx r.cu sc) }).after (r.since + r.lead - s.clock)
             ((if r.act = .read then prioRead else prioWrite) + s.agentOf r.uid) (.homeSliceRequest id)
         | _, _ => if s.unanswered r.addr then s.after Config.period prioRead (.homeSliceRequest id) else ((s.modReq id fun r => { r with arrived := true, since := s.clock }).serve id).settle)
    | none =>
      match amGet s.mcas id with
      | some m => s.lockArrives id m
      | none => s

/-- An acknowledgement reaches its agent; a write's is folded into the local scope horizons. (R160) -/
def execStoreAck (id : Nat) (s : State) : Out :=
  .next <|
    match amGet s.reqs id with
    | none => s
    | some r =>
      let s1 := { s with reqs := amErase s.reqs id }
      let s2 := if r.own || decide (r.act = .read) then s1 else s1.foldNear r.cu r.ts
      (if r.ackHub || r.own || decide (r.act = .read) then s2 else s2.foldHub r.ctx r.ts).settle

/-- An acknowledgement passing the hub folds its timestamp into the .dev and .sys horizons. (R381)

DEDUCED (log entry 22, safe): reads do not enter horizons. -/
def execHorizonFold (ctx ts : Nat) (s : State) : Out := .next (s.foldHub ctx ts)

/-- An L1 lease copy is dropped Lease clocks after its fill. (R155) -/
def execL1LeaseExpiry (cu line fill : Nat) (s : State) : Out :=
  .next <|
    match s.l1Copy cu line with
    | some cp => if cp.filled = fill ∧ !cp.owned then s.dropL1 cu line else s
    | none => s

/-! ### Results (R118, R121, R129, R187) -/

/-- ORs flags into a fibre's fstat, or holds them while they are speculative (R162). -/
def State.raiseFlags (s : State) (k fibre uid id : Nat) (fl : BitVec 6) : State :=
  s.modWarp k fun w =>
    match w.liveEntries.find? fun e =>
        decide ((w.strand e).uid = uid) && ((w.strand e).fence.any fun fw => decide (fw.firstOp ≤ id)) with
    | some e => w.modStrand e fun st => { st with fence := st.fence.map fun fw => { fw with flags := fw.flags ||| fl } }
    | none => w.raiseFlags fibre fl

/-- The tiles of a result become readable, of a warp that has left its slot too. -/
def State.freeTiles (s : State) (cu id : Nat) : State := s.modCu cu fun c => { c with tileBusy := amErase c.tileBusy id }

/-- A pipelined result becomes readable, setting flags and clearing the scoreboard entry. (R187) -/
def execPipelineResult (warp id : Nat) (s : State) : Out :=
  .next <|
    match (amGet s.warps warp).bind fun w => amGet w.pipe id with
    | none => if (amGet (s.cu (warpCu warp)).tileBusy id).isSome then s.freeTiles (warpCu warp) id else s
    | some p =>
      (((s.modWarp warp fun w => { w with pipe := amErase w.pipe id }).raiseFlags warp p.fibre p.uid id p.flags).freeTiles (warpCu warp) id).settle

/-- Whether an operation of a strand is speculative: issued in its fence window. -/
def State.specOp (s : State) (k uid id : Nat) : Bool :=
  match amGet s.warps k with
  | some w => w.liveEntries.any fun e =>
      decide ((w.strand e).uid = uid) && ((w.strand e).fence.any fun fw => decide (fw.firstOp ≤ id))
  | none => false

/-- A loaded lane word put into a register, with its poison (R350). -/
def State.landLane (s : State) (uid : Nat) (spec : Bool) (a : Nat) (v : Word) (o : Option Nat) : State :=
  let s1 := s.storeLane uid spec a v
  match o with | some g => s1.poisonRange a 4 g | none => s1

/-- Writes the results of a load into its registers. -/
def State.landRegs (s : State) (ld : Load) (spec : Bool) : State :=
  match ld.regs, amGet s.warps ld.warp with
  | some (r, wide), some w =>
    ld.vals.foldl (fun s (v : Nat × BitVec 64) =>
      let s1 := s.landLane ld.uid spec (regAddr ld.warp w r + 4 * v.1) (v.2.setWidth 32) (amGet ld.poison (2 * v.1))
      if wide then s1.landLane ld.uid spec (regAddr ld.warp w (r + 1) + 4 * v.1) ((v.2 >>> 32).setWidth 32) (amGet ld.poison (2 * v.1 + 1))
      else s1) s
  | _, _ => s

/-- Fills the latches that wait for a load; one with a poisoned lane is invalid (R350). -/
def Latch.land (l : Latch) (id : Nat) (ld : Load) (now : Nat) : Latch :=
  match l.load with
  | some (i, hi) =>
    if i = id then
      let h := if hi then 1 else 0
      { l with load := none, ready := now,
               valid := l.valid && ld.vals.all (fun v => (amGet ld.poison (2 * v.1 + h)).isNone),
               data := ld.vals.foldl (fun m (v : Nat × BitVec 64) => spSet m v.1 ((if hi then v.2 >>> 32 else v.2).setWidth 32)) [] }
    else l
  | none => l

/-- The result of a KLD (R206). -/
def State.landK (s : State) (ld : Load) (spec : Bool) : State :=
  match ld.kreg, ld.vals with
  | some n, (_, v) :: _ =>
    let s1 := s.setK ld.warp ld.uid spec n (v.setWidth 32)
    (match ld.poison with
     | (_, o) :: _ => s1.modWarp ld.warp fun w => { w with kPoison := amSet w.kPoison n o }
     | [] => s1)
  | _, _ => s

/-- Whether the counter of a first read, not satisfied then, is by now, at a line that another holds: it is read again when that is free (R249,
R327). -/
def State.counterHeld (s : State) (k e : Nat) (ld : Load) : Bool :=
  match ld.vals, (amGet s.warps k).map fun w => w.strand e with
  | (_, v) :: _, some st =>
    ld.waitc.isSome && decide (v.toNat < st.waitVal ∧ st.waitVal ≤ s.num st.waitPhys 8) && s.lineHeld (lineOf st.waitPhys)
  | _, _ => false

/-- The first read of a WAITC returns (R249): satisfied, the strand goes on; else it waits, and a counter written meanwhile is
read again; a poisoned counter traps. -/
def State.waitcFirst (s : State) (k e : Nat) (ld : Load) : State :=
  match ld.poison, ld.vals, amGet s.warps k with
  | (_, o) :: _, _, some w =>
    s.takeTrap k e { cls := 8, code := 2, detail := detail8 0 4 o ((lowLane (w.strand e).mask).getD 0), addr := (w.strand e).waitAddr,
                     lanes := maskOf ((lanesOf (w.strand e).mask).take 1), parcel := (w.strand e).parcel } 0
  | [], (_, v) :: _, some w =>
    let st := w.strand e
    if st.waitVal ≤ v.toNat then
      s.modStrand k e fun st => { st with hold := .none, pc := st.succ, vc := vcJoin st.vc (amGetD s.detSync (st.waitPhys / 8) []) }
    else
      let s1 := (s.waitStrand k e .countWait).modStrand k e fun st => { st with waitk := ld.waitc.getD 0 }
      if st.waitVal ≤ s.num st.waitPhys 8 then s1.rewatch k e else s1
  | _, _, _ => s

/-- Loaded data and its timestamp reach the strand and the register or latch becomes readable. (R121) -/
def execLoadDataReturn (id : Nat) (s : State) : Out :=
  .next <|
    match amGet s.loads id with
    | none => s
    | some ld =>
      if ((amGet s.warps ld.warp).bind Warp.spilled).isSome || (s.findUid ld.uid).any (fun p => s.counterHeld p.1 p.2 ld) then
        s.after 1 prioResult (.loadDataReturn id)
      else
        let mine := s.reqs.filter fun q => decide (q.2.load = some id)
        let s1 := { s with loads := amErase s.loads id, reqs := s.reqs.filter fun q => !decide (q.2.load = some id) }
        let s2 := mine.foldl (fun s q =>
          match q.2.act with
          | .read => s
          | _ => let s := s.foldNear q.2.cu q.2.ts
                 if q.2.ackHub then s else s.foldHub q.2.ctx q.2.ts) s1
        let s3 :=
          if ld.waitc.isSome then (match s2.findUid ld.uid with | some (k, e) => s2.waitcFirst k e ld | none => s2)
          else
            let spec := s2.specOp ld.warp ld.uid ld.pipe
            ((s2.landRegs ld spec).landK ld spec).modWarp ld.warp fun w =>
              { w with pipe := amErase w.pipe ld.pipe
                       table := w.table.map fun st => { st with latches := st.latches.map fun l => l.land id ld s.clock } }
        s3.settle

/-! ### Walks (R105) -/

/-- A hub walker walks the translation tables for a missing page, returns the leaf to the caches of those that wait, and takes the next walk
(R18). (R105) -/
def execPageWalk (id : Nat) (s : State) : Out :=
  .next <|
    match amGet s.walks id with
    | none => s
    | some w =>
      let r := s.walk w.ctx w.va
      let s1 := { s with walks := amErase s.walks id }.keepWalk r.2
      let s2 := match r.1 with
        | .leaf t => w.sites.foldl (fun (s : State) d => s.cache none d t)
            (w.slots.foldl (fun (s : State) k => s.cache (some k) (cuSite (k / 4)) t) s1)
        | .poisoned 15 => s1.containCtx w.ctx
        | _ => s1
      let code := match r.1 with | .leaf _ => none | .bad c => some c | .poisoned o => some (100 + o % 8)
      (w.uids.foldl (fun s u =>
        let more := s.walks.any fun q => q.2.uids.contains u
        s.modUid u fun st =>
          { st with walked := (match code with | some c => (w.va / 4096, c) :: st.walked | none => st.walked)
                    hold := if more || decide (st.state ≠ .ready) then st.hold else .none }) s2).startWalks 1

/-! ### Fences (R161, R162) -/

/-- Undoes one speculative effect. -/
def State.undoOne (s : State) : Undo → State
  | .bytes a old pois =>
    let s1 := s.store a old
    { s1 with poison := pois.foldl (fun m p => amSet m p.1 p.2) s1.poison }
  | .pred k f p lanes old pois => s.modWarp k fun w => w.modFibre f fun fb =>
      { fb with preds := spSet fb.preds p ((spGet fb.preds p &&& ~~~ lanes) ||| (old &&& lanes))
                predPoison := match pois with | some o => amSet fb.predPoison p o | none => amErase fb.predPoison p }
  | .kreg k n old pois => s.modWarp k fun w =>
      { w with k := spSet w.k n old
               kPoison := match pois with | some o => amSet w.kPoison n o | none => amErase w.kPoison n }

/-- Forgets what a strand could undo. -/
def State.dropUndo (s : State) (uid : Nat) : State := { s with undo := s.undo.filter fun u => decide (u.1 ≠ uid) }

/-- A conflicting write arriving during a fence window discards speculative effects and reissues. (R162)

DEDUCED (log entry 64, unsafe): what a discarded fence window undoes. -/
def execFenceRollback (uid : Nat) (s : State) : Out :=
  .next <|
    match s.findUid uid with
    | none => s
    | some (k, e) =>
      match ((amGet s.warps k).map fun w => w.strand e).bind Strand.fence with
      | none => s
      | some fw =>
        let s1 := (s.undo.filter fun u => decide (u.1 = uid)).foldl (fun s u => s.undoOne u.2) s
        let late (n u : Nat) : Bool := decide (u = uid ∧ fw.firstOp ≤ n)
        let s2 := { (s1.dropUndo uid).detDrop uid fw.firstOp with
          reqs := s1.reqs.filter fun q => !late q.1 q.2.uid
          loads := s1.loads.filter fun q => !late q.1 q.2.uid }
        (s2.modWarp k fun w => { (w.modStrand e fun st =>
          { st.dropLatches with fence := none, hold := .none, pc := fw.pc, walked := [], ovlWait := none, issuableAt := s.clock + 1 }) with
            pipe := w.pipe.filter fun p => !late p.1 p.2.uid }).settle

/-- The window closes without a conflict: speculative reads keep their places above the new clock, flags are raised, a held
trap is taken. -/
def State.closeWindow (s : State) (k e : Nat) (fw : FenceWindow) (c : Nat) : State :=
  let s1 := fw.reads.foldl (fun s r =>
    let l := lineOf r.1
    { s.setLine l { s.line l with rts := max (s.line l).rts (c + fw.reads.length) } with
      tmax := raise s.tmax (homeOf (l * 64) * 64 + sliceOf (l * 64)) (c + fw.reads.length) }) s
  match amGet s1.warps k with
  | none => s1
  | some w =>
    let st := w.strand e
    let s2 := (s1.dropUndo st.uid).agentClock k st.uid 0 (c + fw.reads.length)
    let s3 := s2.modWarp k fun w => (w.modStrand e fun st => { st with fence := none }).modFibre st.fibre fun f =>
      { f with fstat := f.fstat ||| fw.flags }
    match fw.trap with
    | some (cls, next, num) =>
      (s3.modWarp k fun w => (w.leave e s.clock).modStrand e fun st =>
        { st with state := .frozen, hold := .none, seq := none, trapPosted := false, succ := next, trapClass := cls, waitk := 0,
                  ovlWait := none, waitSince := s.clock }).sendTrap k e st.uid num
    | none => s3

/-- The fence's horizon returns, c moves and the speculative window closes, once no line of its reads is held by another (R161, R327). -/
def execFenceComplete (uid : Nat) (s : State) : Out :=
  .next <|
    match s.findUid uid with
    | none => s
    | some (k, e) =>
      match ((amGet s.warps k).map fun w => w.strand e) with
      | none => s
      | some st =>
        match st.fence with
        | none => s
        | some fw =>
          match fw.horizon with
          | none =>
            let site := cuSite (warpCu k)
            let f := if fw.scope = 1 then (s, 0) else s.sendFlits (s.ctxOf k) 8 site 1 true true 0
            (f.1.modStrand k e fun st =>
              { st with fence := some { fw with horizon := some (s.horizon (s.ctxOf k) (warpCu k) fw.scope) } }).after
              (if fw.scope = 1 then 30 else s.hubPass site + f.2) prioResult (.fenceComplete uid)
          | some h =>
            let c := max st.c h
            if fw.met.any fun t => decide (t ≤ c) then
              (s.modStrand k e fun st => { st with c := c }).after 0 prioResult (.fenceRollback uid)
            else if fw.reads.any fun r => s.lineHeld (lineOf r.1) then s.after 1 prioResult (.fenceComplete uid)
            else (s.closeWindow k e fw c).settle

/-! ### Counters and status words (R78, R249, R250) -/

/-- After a write performs on a watched counter, it is re-read and the strand is readied if satisfied. (R249)

DEDUCED (log entry 26, unsafe): clocks of the wakings by counters. -/
def execWaitcReread (uid : Nat) (s : State) : Out :=
  .next <|
    match s.findUid uid with
    | none => s
    | some (k, e) =>
      s.modStrand k e fun st =>
        if st.state = .countWait ∧ st.waitTs.isSome then
          { st.readyAt st.succ s.clock with issuableAt := s.clock, waitTs := none, vc := vcJoin st.vc (amGetD s.detSync (st.waitPhys / 8) []) }
        else st

/-- Readies the strands that wait for a status word with bit 31 (R78). -/
def Warp.statusWake (w : Warp) (k : Nat) (v : Word) (now : Nat) : Warp :=
  if v.getLsbD 31 then
    let t := amGetD w.kts k (0, [])
    { w with table := w.table.map fun st =>
        if st.state = .statusWait ∧ st.waitk.toNat = k then
          { st.readyAt st.succ now with c := max st.c t.1, vc := vcJoin st.vc t.2 }
        else st }
  else w

/-- Whether the writes of an operation's expected fields have yet to perform (R228). -/
def State.expsPending (s : State) (op : Nat) : Bool :=
  match amGet s.mcas op with
  | some m => s.reqs.any fun q => m.exps.contains q.1 && !q.2.done
  | none => false

/-- The block bytes that a store of the strand raced with take either value (R231). -/
def State.settleRace (s : State) (op : Nat) : State :=
  match amGet s.mcas op with
  | none => s
  | some m =>
    let s1 := (List.range m.racing.length).foldl (fun s j =>
      let a := m.racing.getD j 0
      match m.expBytes.find? fun q => decide (q.1 = a) with
      | some q => if Config.mcasKeepsStore (s.freeCtr + j) then s else s.setBytes a [q.2]
      | none => s) s
    let s2 := s1.bumpFree m.racing.length
    if m.due = [] then { s2 with mcas := amErase s2.mcas op } else s2

/-- An engine writes a status word to a k register, readying a YIELDC waiter when bit 31 is set. (R78) -/
def execStatusWordWrite (warp k op : Nat) (v : Word) (s : State) : Out :=
  .next <|
    match amGet s.warps warp with
    | none => s
    | some w =>
      if !w.kpend.contains (k, op) then s
      else if s.expsPending op then s.after 1 prioResult (.statusWordWrite warp k op v)
      else
        let s1 := s.modWarp warp fun w =>
          ({ w with k := spSet w.k k v, kPoison := amErase w.kPoison k,
                    kpend := w.kpend.filter (fun q => !decide (q = (k, op))), kops := amErase w.kops op }).statusWake k v s.clock
        (s1.settleRace op).settle

/-! ### MCAS releases and view lines -/

/-- An MCAS release reaches a home, writes the line and unlocks it. (R302) -/
def execMcasRelease (id : Nat) (s : State) : Out := .next (s.mcasReleases State.grantLock id).settle

/-- The home slice fills a view line by decoding storage bytes to BF16. (R143) -/
def execViewLineFill (line : Nat) (s : State) : Out := .next (s.fillLine line)

/-- A dirty view line is encoded into narrow codes on write-back. (R143) -/
def execViewLineWriteback (line : Nat) (s : State) : Out := .next (s.writebackLine line)

end Sys2Proof.Machine
end

