-- ==== Sys2Proof/Machine/Overlay.lean ====
section
/-! DEFINITION. Overlays (R236, R277-R279, R316, R341, R344, R378): requests, the directory read, the two banks of a CU, loading,
and the fetch faults. -/

namespace Sys2Proof.Machine

/-! ### Ends of copies (R269, R270, R344) -/

/-- A copy's status word. -/
def copyStatus (code units : Nat) : Word := BitVec.ofNat 32 (0x80000000 + code % 128 * 2 ^ 24 + units % 2 ^ 24)

/-- A copy ends d clocks from now with its status word; its landing bays are spare again, and a publish carries a clock to the
strands its word releases (R168). -/
def State.endCopy (s : State) (id code units d ts : Nat) (vc : AMap Nat) : State :=
  match amGet s.copies id with
  | none => s
  | some cp =>
    let s1 := { s with copies := amErase s.copies id }
    let s2 := (s1.modCu cp.cu fun c => { c with copies := c.copies.filter (· ≠ id) }).modTeam cp.team fun t =>
      { t with copies := t.copies.filter (· ≠ id) }
    match cp.ks with
    | some k =>
      (s2.modWarp cp.warp fun w => { w with kts := amSet w.kts k (ts, vc) }).after d prioResult
        (.statusWordWrite cp.warp k id (copyStatus code units))
    | none => s2

/-! ### Requests (R236, R277, R341) -/

/-- The request for an overlay of a directory on a CU, for a favoured team or not (R83): the one in progress, or a new one that reads the
directory's header and entry. -/
def State.requestOverlay (s : State) (favoured : Bool) (ctx cu dir ovl : Nat) : State × Nat :=
  match s.ovls.find? fun o => decide (o.2.ctx = ctx ∧ o.2.cu = cu ∧ o.2.dir = dir ∧ o.2.ovl = ovl) with
  | some (id, _) => (s, id)
  | none =>
    let site := cuSite cu
    let sup := ((amGet s.ctxs ctx).map Ctx.sup).getD false
    let f := s.sendRead favoured sup false site ctx dir 1
    let g := f.1.sendRead favoured sup false site ctx (dir + 16 + 16 * ovl) 1
    let id := g.1.nextId
    let s1 := { g.1 with ovls := amSet g.1.ovls id { ctx := ctx, cu := cu, dir := dir, ovl := ovl } }
    ((s1.after (max f.2 g.2) prioResult (.overlayRequest id)).bump, id)

/-- Whether the overlay of a strand's PC is resident on its CU (R118). -/
def State.resident (s : State) (k : Nat) (pc : BitVec 23) : Bool :=
  match s.gridOf k with
  | some (_, g) => (s.bank (warpCu k) g.ctx g.lr.code (pcOvl pc)).isSome
  | none => false

/-- A strand whose next group lies in an overlay that is not resident requests it (R236, R279, R341). -/
def State.wantOverlay (s : State) (k e : Nat) : State :=
  match amGet s.warps k, s.gridOf k with
  | some w, some (_, g) =>
    let st := w.strand e
    if st.state = .ready ∧ st.mask ≠ 0 ∧ st.ovlWait.isNone ∧ !s.resident k st.pc ∧ !st.pastEnd then
      let r := s.requestOverlay (s.favouredWarp k) g.ctx (warpCu k) g.lr.code (pcOvl st.pc)
      r.1.modStrand k e fun st => { st with ovlWait := some r.2 }
    else s
  | _, _ => s

/-- Requests for every strand of a warp. -/
def State.wantOverlays (s : State) (k : Nat) : State :=
  match amGet s.warps k with
  | some w => w.liveEntries.foldl (fun s e => s.wantOverlay k e) s
  | none => s

/-! ### Waiting strands -/

/-- The mark that a strand has waited for the directory entry of an overlay (R241), among its failed walks. -/
def dirMark (ovl : Nat) : Nat × Nat := (2 ^ 60 + ovl, 0)

/-- A strand that a request lets go on: one that waits to fetch, or one held at an indirect transfer (R241). -/
def Strand.afterOverlay (st : Strand) (id ovl : Nat) (fetchers : Bool) : Strand :=
  let st1 := if fetchers && decide (st.ovlWait = some id) then { st with ovlWait := none } else st
  if st1.hold = .stall id then { st1 with hold := .none, walked := dirMark ovl :: st1.walked } else st1

/-- The strands that a request lets go on. -/
def State.releaseOverlay (s : State) (id ovl : Nat) (fetchers : Bool) : State :=
  { s with warps := s.warps.map fun w => (w.1, { w.2 with table := w.2.table.map fun st => st.afterOverlay id ovl fetchers }) }

/-- The trap of a failed fetch (R341). -/
def fetchTrap (dir : Nat) (mask : Word) : DirEntry → TrapInfo
  | .absent => { cls := 7, code := 5, detail := (lowLane mask).getD 0, lanes := mask }
  | .invalid => { cls := 7, code := 11, detail := (lowLane mask).getD 0, addr := dir, lanes := mask }
  | .fault c k a o =>
    { cls := c, code := k, addr := a, lanes := mask,
      detail := if c = 8 then detail8 0 (if k = 1 then 4 else 5) o ((lowLane mask).getD 0) else (lowLane mask).getD 0 }
  | .ok _ _ => { cls := 7, code := 5, lanes := mask }

/-- The CODE of an OVLOAD that fails (R344). -/
def overlayCode : DirEntry → Nat
  | .absent => 7
  | .invalid => 8
  | .fault c _ _ _ => if c = 6 then 2 else 6
  | .ok _ _ => 0

/-- The loads of a CU that wait for a bank are tried again (R279). -/
def State.retryLoads (s : State) (cu : Nat) : State :=
  if s.ovls.any fun o => decide (o.2.cu = cu ∧ o.2.stage = 1) then s.after 0 prioResult (.overlayBankHoldExpiry cu) else s

/-- The units of an overlay that had moved before a failure (R344): those below the code line that could not be read. -/
def OvlLoad.moved (o : OvlLoad) : DirEntry → Nat
  | .fault _ _ a _ => if o.stage = 0 then 0 else (a - o.addr) / 64
  | _ => 0

/-- A request fails: its OVLOADs end with a CODE, its fetching strands freeze; a context that met a contained home is contained (R360). -/
def State.failOverlay (s : State) (id : Nat) (o : OvlLoad) (why : DirEntry) : State :=
  let wait := s.warps.flatMap fun w =>
    (w.2.liveEntries.filter fun e => decide ((w.2.strand e).ovlWait = some id)).map fun e => (w.1, e)
  let s1 := { s with ovls := amErase s.ovls id }.releaseOverlay id o.ovl false
  let s2 := wait.foldl (fun s p =>
    match amGet s.warps p.1 with
    | some w =>
      let st := w.strand p.2
      (if st.state = .ready then s.takeTrap p.1 p.2 (fetchTrap o.dir st.mask why) st.pc else s).modStrand p.1 p.2 fun st =>
        { st with ovlWait := none }
    | none => s) s1
  let s3 := (o.copies.foldl (fun s c => s.endCopy c (overlayCode why) (o.moved why) 0 0 []) s2).retryLoads o.cu
  match why with
  | .fault _ _ a 7 => s3.containAt (cuSite o.cu) o.ctx a
  | _ => s3

/-! ### Banks and loading (R279) -/

/-- The code of an overlay: the parcels, or the first address that cannot be read or executed. -/
def State.overlayCodeAt (s : State) (site ctx addr len : Nat) (sup : Bool) : Except DirEntry (Sparse 16) :=
  (List.range ((len + 31) / 32)).foldl (fun (m : Except DirEntry (Sparse 16)) (i : Nat) =>
    match m with
    | .error e => .error e
    | .ok acc =>
      match s.transNow site ctx (addr + 64 * i) false sup true with
      | .bad c k o => .error (.fault c k (addr + 64 * i) o)
      | .ok pa =>
        if s.contained pa then .error (.fault 8 1 (addr + 64 * i) 7)
        else
          match s.poisonIn pa (min 64 (2 * len - 64 * i)) with
          | (a, o) :: _ => .error (.fault 8 1 (addr + 64 * i + (a - pa)) o)
          | [] =>
            .ok ((List.range (min 32 (len - 32 * i))).foldl (fun (m : Sparse 16) (j : Nat) =>
              spSet m (32 * i + j) (BitVec.ofNat 16 (s.num (pa + 2 * j) 2))) acc)) (.ok [])

/-- Takes a bank for a load, unless both were loaded less than 256 clocks ago: a free one, else the one whose most recent fetch
is older. -/
def State.takeBank (s : State) (cu : Nat) : Option State :=
  let c := s.cu cu
  let loading := (s.ovls.filter fun o => decide (o.2.cu = cu ∧ o.2.stage = 2)).length
  if c.banks.length + loading < 2 then some s
  else
    let free := c.banks.filter fun b => decide (b.loadedAt + 256 ≤ s.clock)
    let older := free.foldl (fun (m : Option Bank) b => match m with
        | none => some b
        | some a => if b.fetchedAt < a.fetchedAt then some b else some a) none
    match older with
    | some b => some (s.modCu cu fun c => { c with banks := c.banks.filter (· ≠ b) })
    | none => none

/-- Whether a team that waits for an overlay, or loads it, is favoured (R83). -/
def State.favouredLoad (s : State) (id : Nat) (o : OvlLoad) : Bool :=
  (s.warps.any fun w => (w.2.table.any fun st => decide (st.ovlWait = some id)) && s.favouredWarp w.1) ||
    o.copies.any fun c => (amGet s.copies c).any fun cp => s.favouredWarp cp.warp

/-- A request with its entry read goes on when it can take a bank: ⌈LEN / 64⌉ clocks after the first code line arrives. Its lines cross
links as flits, and an OVLOAD's are copy units (R21, R116). -/
def State.startLoad (s : State) (id : Nat) (o : OvlLoad) : State :=
  let site := cuSite o.cu
  let sup := ((amGet s.ctxs o.ctx).map Ctx.sup).getD false
  match s.overlayCodeAt site o.ctx o.addr o.len sup with
  | .error e => s.failOverlay id o e
  | .ok _ =>
    match s.takeBank o.cu with
    | none => { s with ovls := amSet s.ovls id { o with stage := 1 } }
    | some s1 =>
      let n := (2 * o.len + 63) / 64
      let fav := s.favouredLoad id o
      let f := s1.sendRead fav sup true site o.ctx o.addr n
      let g := if o.copies = [] then (f.1, 0) else f.1.chargeUnits o.ctx site n fav
      let s1 := g.1
      { s1 with ovls := amSet s1.ovls id { o with stage := 2 } }.after (f.2 + g.2 + (o.len + 63) / 64) prioResult (.overlayLoadComplete id)

/-- A strand needing a non-resident overlay requests it, freezing on failure. (R341)

DEDUCED (log entry 28, unsafe): order of the directory read and the wait for a bank. -/
def execOverlayRequest (id : Nat) (s : State) : Out :=
  .next <|
    match amGet s.ovls id with
    | none => s
    | some o =>
      if o.stage ≠ 0 then s
      else
        let sup := ((amGet s.ctxs o.ctx).map Ctx.sup).getD false
        match s.directory (cuSite o.cu) o.ctx o.dir o.ovl sup with
        | .ok len addr =>
          let o1 := { o with stage := 1, len := len, addr := addr }
          ({ s with ovls := amSet s.ovls id o1 }.releaseOverlay id o.ovl false).startLoad id o1
        | why => (s.failOverlay id o why).settle

/-- Translates an overlay for a Flight 2 CU and keeps the result at the hub (R316).

DESIGN CHOICE (log entry 39, unsafe): time of Damam's translation. -/
def State.damamTranslate (s : State) (cu phys len : Nat) : State :=
  let key := (phys, len, s.contract.toNat / 2 ^ 24, Config.damamVersion)
  if Config.flight (cuSite cu) = 2 ∧ !s.damam.contains key then { s with damam := s.damam ++ [key] } else s

/-- An overlay's code has been loaded into a bank (translated on Flight 2) and waiting strands become issuable. (R277) -/
def execOverlayLoadComplete (id : Nat) (s : State) : Out :=
  .next <|
    match amGet s.ovls id with
    | none => s
    | some o =>
      let site := cuSite o.cu
      let sup := ((amGet s.ctxs o.ctx).map Ctx.sup).getD false
      match s.overlayCodeAt site o.ctx o.addr o.len sup, s.transNow site o.ctx o.addr false sup true with
      | .ok code, .ok pa =>
        let b : Bank := { ctx := o.ctx, dir := o.dir, ovl := o.ovl, len := o.len, code := code, loadedAt := s.clock, fetchedAt := s.clock }
        let s1 := ({ s with ovls := amErase s.ovls id }.modCu o.cu fun c => { c with banks := c.banks ++ [b] }).damamTranslate o.cu pa o.len
        let s2 := (s1.releaseOverlay id o.ovl true).after 256 prioResult (.overlayBankHoldExpiry o.cu)
        (o.copies.foldl (fun s c => s.endCopy c 0 ((2 * o.len + 63) / 64) 0 0 []) s2).settle
      | .error e, _ => (s.failOverlay id o e).settle
      | _, _ => (s.failOverlay id o .invalid).settle

/-- A bank loaded 256 clocks ago becomes replaceable, so an overlay load that was waiting can proceed. (R279) -/
def execOverlayBankHoldExpiry (cu : Nat) (s : State) : Out :=
  .next ((s.ovls.filter fun o => decide (o.2.cu = cu ∧ o.2.stage = 1)).foldl (fun s o => s.startLoad o.1 o.2) s)

end Sys2Proof.Machine
end

