-- ==== Sys2Proof/Machine/Control.lean ====
section
/-! DEFINITION. The control instructions (R235-R257), the fence (R217), and the special registers (R280, R281). -/

namespace Sys2Proof.Machine

/-! ### Transfers (R70-R72, R235-R242) -/

/-- The parcel offset of the instruction parcel, behind its prefixes. -/
def Iss.parcelOff (x : Iss) : Nat := pcOff x.st.pc + (x.len - 2)

/-- A target relative to the instruction parcel, in its own overlay. -/
def Iss.relative (x : Iss) (o : Int) : Int := (x.parcelOff : Int) + o

/-- issue for an instruction with a relative target: one outside 0-32,767 traps at decode (R238, R250).

DEDUCED (log entry 13, unsafe): the order among several decode failures of one group. -/
def issueRel (i : Instr) (s : State) (o : Int) (f : Iss → State → State) : Out :=
  match issOf i s with
  | none => .fault .noStrand
  | some x =>
    if (prefixFailure x.info x.g).isNone ∧ (x.relative o < 0 ∨ 32767 < x.relative o) then .next (x.decodeTrap s 8 (x.len - 2))
    else issue i s f

/-- The PC of a relative target. -/
def Iss.relPc (x : Iss) (o : Int) : BitVec 23 := mkPc (pcOvl x.st.pc) (x.relative o).toNat

/-- A transfer (R70, R71): to one PC, or a split; a split without a free token traps (R364); every child in an overlay that is
not resident requests it (R236). -/
def Iss.transfer (x : Iss) (s : State) (push : Strand → Strand) (kids : List (Word × BitVec 23)) : State :=
  match kids with
  | [] => x.skip s
  | [(_, pc)] => (x.goto s push pc).wantOverlays x.k
  | _ => (x.split s push kids).wantOverlays x.k

/-- The trap of a split that finds every token in use (R364). -/
def Iss.noToken (x : Iss) (s : State) (kids : List (Word × BitVec 23)) : Option State :=
  if 1 < kids.length ∧ (x.w.fibre x.st.fibre).freeToken.isNone then
    some (x.trap s { cls := 12, code := 1, detail := 15, lanes := x.mask })
  else none

/-- Branch to a label in the branch's own overlay. (R238) -/
def execBra (g : Pfx) (o : BitVec 22) (s : State) : Out :=
  issueRel (.bra g o) s o.toInt fun x s =>
    match x.poisonCheck s with
    | some t => t
    | none => x.transfer s id [(x.mask, x.relPc o.toInt)]

/-- The next PCs of a branch on a predicate, with their lanes: the fall-through first. Lanes agree when the target is the successor (R70). -/
def Iss.branchKids (x : Iss) (o : Int) (taken : Word) : List (Word × BitVec 23) :=
  let rest := x.mask &&& ~~~ taken
  if x.relPc o = x.next then [(x.mask, x.next)]
  else (if rest = 0 then [] else [(rest, x.next)]) ++ (if taken = 0 then [] else [(taken, x.relPc o)])

/-- Whether a group ends at offset 32,767 of its overlay, so that its successor lies past the end (R182). -/
def Iss.atEnd (x : Iss) : Bool := decide (pcOff x.st.pc + x.len = 32768)

/-- A predicated branch: fall-through child first, then the taken child. -/
def branchOn (i : Instr) (s : State) (o : Int) (p : Nat) (sense : Bool) : Out :=
  issueRel i s o fun x s =>
    match x.poisonCheck s with
    | some t => t
    | none =>
      let taken := x.mask &&& (if sense then x.w.pred x.st.fibre p else ~~~ (x.w.pred x.st.fibre p))
      let kids := x.branchKids o taken
      match x.noToken s kids with
      | some t => t
      | none => x.transfer s (fun st => { st with ranPast := x.atEnd }) kids

/-- Branch where the predicate is true; splits when lanes disagree. (R238) -/
def execBrt (g : Pfx) (o : BitVec 22) (p : BitVec 4) (s : State) : Out := branchOn (.brt g o p) s o.toInt p.toNat true

/-- Branch where the predicate is false; splits when lanes disagree. (R238) -/
def execBrf (g : Pfx) (o : BitVec 22) (p : BitVec 4) (s : State) : Out := branchOn (.brf g o p) s o.toInt p.toNat false

/-- The link value: the portable PC of the group's successor (R239). -/
def Iss.link (x : Iss) : Word := x.next.setWidth 32

/-- Writes the link in some lanes, with one push (R239).

DEDUCED (log entry 34, unsafe): latencies of links and SRD. -/
def Iss.writeLink (x : Iss) (s : State) (l : Nat) (lanes : Word) : State :=
  { x with mask := lanes }.result s l false 4 2 0 (fun _ => x.link)

/-- CALL's and FCALL's transfer: the link in every active lane, then one target. -/
def Iss.callTo (x : Iss) (s : State) (l : Nat) (pc : BitVec 23) : State :=
  ((x.writeLink s l x.mask).modStrand x.k x.e fun st => { st with pc := pc }).wantOverlays x.k

/-- Call within the overlay, writing the link register. (R240) -/
def execCall (g : Pfx) (o : BitVec 15) (l : BitVec 7) (s : State) : Out :=
  issueP (.call g o l) s fun x s => x.callTo s l.toNat (mkPc (pcOvl x.st.pc) o.toNat)

/-- Whether the kernel holds an overlay: known at once when it is resident, else from the directory read of its request
(R241); a directory that cannot be read or is invalid leaves it to the fetch. -/
def Iss.holds (x : Iss) (s : State) (ovl : Nat) : Option Bool :=
  if (s.bank x.cu x.cn x.grid.lr.code ovl).isSome then some true
  else if x.st.walked.contains (dirMark ovl) then
    some (decide (s.directory x.site x.cn x.grid.lr.code ovl x.ctx.sup ≠ .absent))
  else none

/-- A group held at issue until the directory entry of an overlay is read (R241). -/
def Iss.waitDirectory (x : Iss) (s : State) (ovl : Nat) : State :=
  let r := (x.stall s).requestOverlay (s.favoured x.team) x.cn x.cu x.grid.lr.code ovl
  r.1.modStrand x.k x.e fun st => { st with hold := .stall r.2 }

/-- Call into another overlay named by the IMM prefix; an overlay that the kernel does not hold faults here (R240), and one that is
not resident is requested after the transfer has issued (R236). -/
def execFcall (g : Pfx) (o : BitVec 15) (l : BitVec 7) (s : State) : Out :=
  issue (.fcall g o l) s fun x s =>
    let ovl := immP x.g % 256
    if (s.bank x.cu x.cn x.grid.lr.code ovl).isNone ∧ s.directory x.site x.cn x.grid.lr.code ovl x.ctx.sup = .absent then
      x.trap s { cls := 7, code := 5, detail := (lowLane x.mask).getD 0, lanes := x.mask }
    else match x.poisonCheck s with | some t => t | none => x.callTo s l.toNat (mkPc ovl o.toNat)

/-- The per-lane targets of an indirect transfer: lanes that name no portable PC of the kernel fault together (R241).

DEDUCED (log entry 40, unsafe): directory reads of indirect transfers. -/
def Iss.indirect (x : Iss) (s : State) (a : Nat) (f : State → State) : State :=
  let lanes := lanesOf x.mask
  let t (i : Nat) : Nat := (x.src s a i).toNat
  let ovls := (lanes.filterMap fun i => if t i < 2 ^ 23 then some (t i / 32768) else none).eraseDups
  match ovls.find? fun v => (x.holds s v).isNone with
  | some v => x.waitDirectory s v
  | none =>
    let bad := lanes.filter fun i => decide (2 ^ 23 ≤ t i) || decide (x.holds s (t i / 32768) = some false)
    if bad ≠ [] then x.trap s { cls := 7, code := 4, detail := bad.headD 0, lanes := maskOf bad }
    else match x.poisonCheck s with | some t => t | none => f s

/-- The effect of JMPI and RET (R241). -/
def jumpTo (i : Instr) (s : State) (r : Nat) : Out :=
  issue i s fun x s =>
    x.indirect s r fun s =>
      let kids := kidsOf (lanesOf x.mask) fun i => (x.src s r i).setWidth 23
      match x.noToken s kids with
      | some t => t
      | none => x.transfer s id kids

/-- Per-lane indirect jump to portable PCs, splitting by target. (R241) -/
def execJmpi (g : Pfx) (r : BitVec 7) (s : State) : Out := jumpTo (.jmpi g r) s r.toNat

/-- Return; an indirect jump that the fetch unit predicts. (R241) -/
def execRet (g : Pfx) (r : BitVec 7) (s : State) : Out := jumpTo (.ret g r) s r.toNat

/-- Per-lane indirect call; splits by target with at most four children and a remainder. (R242) -/
def execCalli (g : Pfx) (l a : BitVec 7) (s : State) : Out :=
  issue (.calli g l a) s fun x s =>
    x.indirect s a.toNat fun s =>
      let all := kidsOf (lanesOf x.mask) fun i => (x.src s a.toNat i).setWidth 23
      let first := all.take 4
      let lanes := first.foldl (fun m c => m ||| c.1) 0
      let rest := x.mask &&& ~~~ lanes
      let kids := if rest = 0 then first else first ++ [(rest, x.st.pc)]
      match x.noToken s kids with
      | some t => t
      | none =>
        let s1 := x.writeLink s l.toNat lanes
        match kids with
        | [(_, pc)] => (s1.modStrand x.k x.e fun st => { st with pc := pc }).wantOverlays x.k
        | _ => x.transfer s1 (fun st => st.push lanes (fun _ => x.link) (s.clock + 2) none) kids

/-! ### NOP, EXIT, JOIN, barriers (R244-R248, R257) -/

/-- No effect beyond its prefixes. (R257) -/
def execNop (g : Pfx) (s : State) : Out := issueP (.nop g) s fun x s => x.advance s

/-- Removes the reduced mask's lanes from the strand. (R245) -/
def execExit (g : Pfx) (s : State) : Out :=
  issueP (.exit g) s fun x s => (((x.advance s).exitLanes x.k x.e x.mask)).settle

/-- Enters state 5 when PARENT is not 0, so that the strand may fuse and be released. (R74)

DEDUCED (log entry 102, unsafe): by R80 and R93 the latches become invalid as the strand enters state 5, so that the latches a released strand
keeps by R74 are invalid ones. -/
def execJoin (g : Pfx) (s : State) : Out :=
  issueP (.join g) s fun x s =>
    if x.st.parent = 0 then x.advance s
    else
      let s1 := (s.waitStrand x.k x.e .atJoin).modStrand x.k x.e fun st => { st with succ := x.next }
      ({ s1 with cur := none }.joinRules x.k x.st.fibre).settle

/-- Barrier among the live fibres of the warp slot. (R81) -/
def execFbar (g : Pfx) (s : State) : Out := issueP (.fbar g) s fun x s => x.barrier s barFibre

/-- Barrier n among the live fibres of every warp of the team. (R246) -/
def execBar (g : Pfx) (n : BitVec 4) (s : State) : Out := issueP (.bar g n) s fun x s => x.barrier s n.toNat

/-- Barrier among the live fibres of every unfinished team of the gallery group. (R246) -/
def execGbar (g : Pfx) (s : State) : Out := issueP (.gbar g) s fun x s => x.barrier s barGroup

/-! ### Waits (R249, R250) -/

/-- Waits until an 8-byte counter reaches a value, reading it as an acquire. (R249)

DEDUCED (log entry 21, unsafe): the DETAIL of a poisoned WAITC counter. -/
def execWaitc (g : Pfx) (k : BitVec 8) (p : BitVec 7) (s : State) : Out :=
  issue (.waitc g k p) s fun x s =>
    let i := (lowLane x.mask).getD 0
    let ea := x.ptr s p.toNat i
    let l : List LaneAcc := [{ lane := i, ea := ea, at0 := s.reach x [0, 1] 8 8 false ea }]
    x.addressed s l (some (maskOf [i])) fun s =>
      let v := (x.w.kreg k.toNat).toNat + (x.w.kreg (k.toNat + 1)).toNat * 2 ^ 32
      let phys := match l with | [⟨_, _, .mem a _ _ _⟩] => a | _ => 0
      let id := s.nextId
      let ld : Load := { warp := x.k, uid := x.st.uid, fibre := x.st.fibre, pipe := id, regs := none, bytes := 8, latched := false,
                         left := 0, waitc := some k }
      let s1 := x.issueMem s l { n := 8, act := fun _ => .read, kind := .load, acq := some (if ptrSpace ea = 0 then 3 else 1) } (some ld)
      { (s1.modStrand x.k x.e fun st =>
          { st with hold := .busy id, succ := x.next, waitAddr := ea, waitPhys := phys, waitVal := v }) with cur := none }

/-- Waits for DONE in a status register, continuing at the label. (R250) -/
def execYieldc (g : Pfx) (o : BitVec 14) (k : BitVec 8) (s : State) : Out :=
  issueRel (.yieldc g o k) s o.toInt fun x s =>
    match x.poisonCheck s with
    | some t => t
    | none =>
      let pc := x.relPc o.toInt
      if (x.w.kreg k.toNat).getLsbD 31 ∧ !(x.w.kpend.any fun q => decide (q.1 = k.toNat)) then
        let t := amGetD x.w.kts k.toNat (0, [])
        (x.goto s (fun st => { st.dropLatches with c := max st.c t.1, vc := vcJoin st.vc t.2 }) pc).wantOverlays x.k
      else
        { (s.waitStrand x.k x.e .statusWait).modStrand x.k x.e (fun st => { st with pc := pc, succ := pc, waitk := k }) with cur := none }

/-! ### LAUNCH, TRAP, BKPT, FENCE (R217, R254-R256) -/

/-- Sends a launch record to the hub as a child grid, with a pending status write to ks. (R254)

DESIGN CHOICE (log entry 80, unsafe): poison in the record traps the LAUNCH once the strand's earlier events are acknowledged, before it
issues another group; poison that comes later is met when the hub reads the record. -/
def execLaunch (g : Pfx) (k : BitVec 8) (p : BitVec 7) (s : State) : Out :=
  issue (.launch g k p) s fun x s =>
    let i := (lowLane x.mask).getD 0
    let ea := x.ptr s p.toNat i
    let l : List LaneAcc := [{ lane := i, ea := ea, at0 := s.reach x [0] 128 128 false ea }]
    x.addressed s l (some (maskOf [i])) fun s =>
      let phys := match l with | [⟨_, _, .mem a _ _ _⟩] => a | _ => 0
      match s.poisonIn phys 128 with
      | (_, o) :: _ =>
        if s.unacked x.st s.nextId then x.stall s
        else x.trap s { cls := 8, code := 1, detail := detail8 0 4 o i, lanes := maskOf [i] }
      | [] =>
        let id := s.nextId
        let ln : Launch :=
          { ctx := x.cn, grid := some x.gn, warp := x.k, uid := x.st.uid, ks := k.toNat, addr := ptrOff ea, depth := x.grid.depth + 1,
            det := x.grid.det, wNum := x.w.number, c := x.st.c, kin := x.st.kin, vc := x.st.clockOf,
            issuer := { team := x.team.index, warp := x.w.number, fibre := x.st.fibre, entry := x.e }, pc := x.st.pc, lane := i,
            parcel := x.parcel }
        let s1 := ({ s with launches := amSet s.launches id ln }.bump).modWarp x.k fun w =>
          { w.modStrand x.e Strand.tick with kpend := w.kpend ++ [(k.toNat, id)], kops := amSet w.kops id x.st.uid }
        (x.advance s1).settle

/-- Freezes the strand and posts a software-trap record. (R256) -/
def execTrap (g : Pfx) (c : BitVec 16) (s : State) : Out :=
  issueP (.trap g c) s fun x s => x.trap s { cls := 10, code := c.toNat, lanes := x.mask }

/-- Freezes the strand and posts a breakpoint record. (R256) -/
def execBkpt (g : Pfx) (c : BitVec 16) (s : State) : Out :=
  issueP (.bkpt g c) s fun x s => x.trap s { cls := 11, code := c.toNat, lanes := x.mask }

/-- Waits for every earlier acknowledgement, then obtains the scope's horizon. (R217) -/
def execFence (g : Pfx) (sc : BitVec 2) (s : State) : Out :=
  issueP (.fence g sc) s fun x s =>
    { (s.modStrand x.k x.e fun st => { st with fenceStep1 := some sc.toNat, hold := .busy st.uid, succ := x.next }) with
      cur := none }.settle

/-! ### Special registers (R57, R128, R152, R280, R281) -/

/-- The value of a special register in lane i. -/
def Iss.special (x : Iss) (s : State) (n i : Nat) : DWord :=
  let lr := x.grid.lr
  let t := x.team.index
  BitVec.ofNat 64 <|
    if n = 0 then i
    else if n = 1 then x.w.number
    else if n = 2 then x.st.fibre
    else if n = 3 then t % lr.gridx
    else if n = 4 then t / lr.gridx % lr.gridy
    else if n = 5 then t / (lr.gridx * lr.gridy)
    else if n = 6 then lr.gridx
    else if n = 7 then lr.gridy
    else if n = 8 then lr.gridz
    else if n = 9 then x.team.rank
    else if n = 10 then x.site
    else if n = 11 then Config.flight x.site
    else if n = 12 then x.grid.depth
    else if n = 13 then s.clock
    else if n = 14 then x.grid.seed.toNat
    else ((x.w.fibre x.st.fibre).fstat ||| ((x.st.fence.map FenceWindow.flags).getD 0)).toNat

/-- Reads a special register into every active lane. (R280) -/
def execSrd (g : Pfx) (n : BitVec 8) (d : BitVec 7) (s : State) : Out :=
  issueP (.srd g n d) s fun x s =>
    if n = 13 then x.result64 s d.toNat false 4 4 0 (x.special s 13)
    else x.result s d.toNat false 4 4 0 (fun i => (x.special s n.toNat i).setWidth 32)

/-- Writes sr.seed at the hub or clears fstat flags. (R281) -/
def execSwr (g : Pfx) (n : BitVec 8) (a : BitVec 7) (s : State) : Out :=
  issueP (.swr g n a) s fun x s =>
    let v := x.src s a.toNat ((lowLane x.mask).getD 0)
    if n = 14 then
      let f := s.toHub x.cn x.site (s.favoured x.team)
      (x.advance f.1).after f.2 prioLate (.seedArrival x.cn v)
    else
      (x.advance s).modWarp x.k fun w => w.clearFlags x.st.fibre v

end Sys2Proof.Machine
end

