-- ==== Sys2Proof/Machine/Blocks.lean ====
section
/-! DEFINITION. REGGROW and REGSHRINK (R251-R253), register deadlock, spills and refills (R369-R371), and compaction (R372). -/

namespace Sys2Proof.Machine

/-! ### REGGROW and REGSHRINK (R251-R253) -/

/-- A block operation begins: every strand of the warp is held until it completes. -/
def Iss.blockOp (x : Iss) (s : State) (op : BlockOp) : State :=
  { ((s.modStrand x.k x.e fun st => { st with hold := .busy st.uid, succ := x.next }).modWarp x.k fun w =>
      { w with op := some op }) with cur := none }.settle

/-- Doubles the warp's register block, in place or by moving. (R252) -/
def execReggrow (g : Pfx) (s : State) : Out :=
  issueP (.reggrow g) s fun x s =>
    if x.w.blockBytes = 131072 then x.trap s { cls := 7, code := 7, detail := (lowLane x.mask).getD 0, lanes := x.mask }
    else x.blockOp s (.grow x.e)

/-- Halves the warp's register block. (R253) -/
def execRegshrink (g : Pfx) (s : State) : Out :=
  issueP (.regshrink g) s fun x s =>
    if x.w.blockBytes = 4096 then x.trap s { cls := 7, code := 8, detail := (lowLane x.mask).getD 0, lanes := x.mask }
    else x.blockOp s (.shrink x.e)

/-- The strand of a completed block operation goes on at the successor. -/
def Strand.blockDone (st : Strand) : Strand := { st with hold := .none, pc := st.succ }

/-- A grow finishes in place or by a move and releases the warp. (R252) -/
def execReggrowComplete (warp : Nat) (s : State) : Out :=
  .next <|
    match amGet s.warps warp with
    | none => s
    | some w =>
      match w.op with
      | some (.growTo e dst) =>
        let cu := warpCu warp
        let b := w.blockBytes
        let s1 := if dst = w.block then s else s.moveBytes (bankAddr cu w.block) (bankAddr cu dst) b
        let s2 := (s1.zero (bankAddr cu (dst + b)) b).modWarp warp fun w =>
          { w.modStrand e Strand.blockDone with op := none, block := dst, blockBytes := 2 * b }
        (if (s2.cu cu).grants.any (fun g => decide (g.1 = w.block ∧ g.2.1 = b)) then s2.returnBlock cu w.block else s2).wakeBlock warp
      | _ => s

/-- A shrink completes and the upper half returns to the allocator. (R253) -/
def execRegshrinkComplete (warp : Nat) (s : State) : Out :=
  .next <|
    match amGet s.warps warp with
    | none => s
    | some w =>
      match w.op with
      | some (.shrinkRun e) =>
        let cu := warpCu warp
        let b := w.blockBytes / 2
        let s1 := ((s.zero (bankAddr cu (w.block + b)) b).modWarp warp fun w =>
          { w.modStrand e Strand.blockDone with op := none, blockBytes := b }).modCu cu fun c =>
            { c with grants := (c.grants.filter fun g => decide (g.1 ≠ w.block)) ++ [(w.block, b, w.team), (w.block + b, b, w.team)] }
        (s1.returnBlock cu (w.block + b)).wakeBlock warp
      | _ => s

/-! ### Order of the blocked and the spilled (R370, R371) -/

/-- The place of a warp's team among all: acceptance number, then team index. -/
def State.teamKey (s : State) (k : Nat) : Nat :=
  match s.teamOf k, s.gridOf k with
  | some (_, t), some (_, g) => g.number * 2 ^ 40 + t.index
  | _, _ => 0

def State.warpNumber (s : State) (k : Nat) : Nat := ((amGet s.warps k).map Warp.number).getD 0

/-- The blocked warps of a CU in favoured order. -/
def State.blockedOrder (s : State) (cu : Nat) : List Nat :=
  sortBy (fun k => s.teamKey k * 16 + s.warpNumber k) (s.cu cu).blocked

/-- The warps that a CU may spill for a favoured warp, in order: the highest team first; in a team the blocked ones first, then
ascending warp number. One whose refill runs holds a block again. -/
def State.spillOrder (s : State) (cu fav : Nat) : List Nat :=
  let ours := ((amGet s.warps fav).map Warp.team).getD 0
  let here (w : Warp) : Bool := w.spilled.isNone || (match w.op with | some (.refilling _) => true | _ => false)
  let l := (s.warps.filter fun w => decide (warpCu w.1 = cu ∧ w.2.team ≠ ours) && here w.2).map Prod.fst
  sortBy (fun k => (2 ^ 70 - s.teamKey k) * 32 + (if (s.cu cu).blocked.contains k then 0 else 16) + s.warpNumber k) l

/-- The lowest place in a die's spill pool for n bytes. -/
def State.poolPlace (s : State) (site n : Nat) : Option Nat :=
  let lo := Config.spillPoolBase site
  let used := s.spillUsed.filter fun u => decide (u.1 / 2 ^ 36 = site)
  let cands := (site * 2 ^ 36 + lo) :: used.map fun u => u.1 + u.2
  (sortBy id cands).find? fun a =>
    decide (a + n ≤ site * 2 ^ 36 + Config.dramBytes site) && used.all fun u => decide (u.1 + u.2 ≤ a) || decide (a + n ≤ u.1)

/-- Starts the spill of the next candidate for the favoured warp; with none left its REGGROW traps (R370). One whose block is in operation
or moves is waited for, and so is room in the pool (R371). -/
def State.startSpill (s : State) (cu fav : Nat) : State :=
  match s.spillOrder cu fav with
  | [] =>
    match amGet s.warps fav with
    | none => s
    | some w =>
      match w.op with
      | some (.growBlocked e _) =>
        let s1 := s.takeTrap fav e { cls := 12, code := 2, detail := w.blockBytes / 1024, lanes := (w.strand e).mask, parcel := 0x8F } (w.strand e).succ
        ((s1.modWarp fav fun w => { w with op := none }).modCu cu fun c => c.unblock fav).after 0 prioResult (.reggrowRetry cu)
      | _ => s
  | k :: _ =>
    match amGet s.warps k with
    | none => s
    | some w =>
      let idle := match w.op with | none => true | some (.growBlocked _ _) => true | some _ => false
      match s.poolPlace (cuSite cu) w.blockBytes, idle && (s.blockMove k).isNone with
      | none, _ => s
      | _, false => s
      | some a, true =>
        let back (w : Warp) : Warp := match w.op with
          | some (.growBlocked e _) => { w.modStrand e fun st => { st with hold := .none } with regrow := true }
          | _ => w
        ({ (s.modWarp k fun w => { back w with op := some (.spilling a) }) with
            spillUsed := amSet s.spillUsed a w.blockBytes }.modCu cu fun c => { c with blocked := c.blocked.filter (· ≠ k) }).after
          (w.blockBytes / 512) prioResult (.warpSpill k)

/-- Whether a blocked REGGROW stands behind a spilled warp that waits, of a lower, favoured team of its grid (R374). -/
def State.behindRefill (s : State) (cu q : Nat) : Bool :=
  (s.cu cu).spillList.any fun k => ((amGet s.warps k).all fun w => w.op.isNone) && s.favouredWarp k &&
    match s.teamOf k, s.teamOf q with
    | some (_, t), some (_, u) => decide (u.grid = t.grid ∧ t.index < u.index)
    | _, _ => false

/-- The spilled warp to refill next (R371, R374): one of a lowest unfinished team first, before every blocked REGGROW of a higher team of
its grid; else, with nothing blocked, any; in each case the one spilled last. -/
def State.nextRefill (s : State) (cu : Nat) : Option Nat :=
  let c := s.cu cu
  let first := c.spillList.reverse.find? fun k =>
    (match s.teamOf k with
     | some (_, t) => s.favoured t && c.blocked.all fun q => match s.teamOf q with
        | some (_, u) => decide (u.grid = t.grid ∧ t.index < u.index)
        | none => true
     | none => false)
  match first with
  | some k => some k
  | none => if c.blocked = [] then c.spillList.getLast? else none

/-- Starts the next refill, when no REGGROW is favoured and no refill runs. -/
def State.startRefill (s : State) (cu : Nat) : State :=
  let c := s.cu cu
  let busy := s.warps.any fun w => decide (warpCu w.1 = cu) && (match w.2.op with | some (.refilling _) => true | _ => false)
  match s.nextRefill cu with
  | none => s
  | some k =>
    if busy || c.favoured.isSome then s
    else
      match amGet s.warps k with
      | none => s.modCu cu fun c => { c with spillList := c.spillList.filter (· ≠ k) }
      | some w =>
        match allocBlock c.grants (topOf cu) w.blockBytes w.team with
        | none => s
        | some (o, g) =>
          (((s.modCu cu fun c => { c with grants := g }).modWarp k fun w => { w with op := some (.refilling o) }).fitL1 cu).after
            (w.blockBytes / 512) prioResult (.warpRefill k)

/-- The blocked REGGROWs are re-attempted when the CU frees bank store, in favoured order, and then the refills; a lowest unfinished team's
refill comes before the REGGROWs of higher teams of its grid. (R252, R371, R374) -/
def execReggrowRetry (cu : Nat) (s : State) : Out :=
  .next <|
    let try1 (s : State) (k : Nat) : State :=
      match (amGet s.warps k).bind Warp.op with
      | some (.growBlocked e _) => s.startGrow k e
      | _ => s
    let s1 := (((s.blockedOrder cu).filter fun q => !s.behindRefill cu q).foldl try1 s).startRefill cu
    ((s.blockedOrder cu).filter fun q => s.behindRefill cu q && !s1.behindRefill cu q).foldl try1 s1

/-- Whether a CU is in register deadlock (R369); a warp spilled at a blocked REGGROW is still held by it. -/
def State.deadlocked (s : State) (cu : Nat) : Bool :=
  decide ((s.cu cu).blocked ≠ []) && s.warps.all fun w =>
    decide (warpCu w.1 ≠ cu) || (s.cu cu).blocked.contains w.1 || (w.2.spilled.isSome && w.2.regrow) ||
      w.2.liveEntries.all fun e => decide ((w.2.strand e).state ≠ .ready)

/-- A CU detects register deadlock and spills other teams' warps for the favoured REGGROW. (R370) -/
def execRegisterDeadlock (cu : Nat) (s : State) : Out :=
  .next <|
    let c := s.cu cu
    if c.blocked = [] then s.modCu cu fun c => { c with deadlockAt := none }
    else
      let s1 := s.after 1 prioLate (.registerDeadlock cu)
      let spilling := s.warps.any fun w => decide (warpCu w.1 = cu) && (match w.2.op with | some (.spilling _) => true | _ => false)
      match c.favoured with
      | some f => if spilling then s1 else s1.startSpill cu f
      | none =>
      if !s.deadlocked cu then s1.modCu cu fun c => { c with deadlockAt := none }
      else
        match c.deadlockAt with
        | none => s1.modCu cu fun c => { c with deadlockAt := some s.clock }
        | some t =>
          if s.clock < t + 64 then s1
          else
            match s.blockedOrder cu with
            | [] => s1
            | k :: _ => (s1.modCu cu fun c => { c with favoured := some k, deadlockAt := none }).startSpill cu k

/-- One candidate warp's block is copied to the spill pool and freed. (R370) -/
def execWarpSpill (warp : Nat) (s : State) : Out :=
  .next <|
    match amGet s.warps warp with
    | none => s
    | some w =>
      match w.op with
      | some (.spilling a) =>
        let cu := warpCu warp
        let s1 := (s.moveBytes (bankAddr cu w.block) a w.blockBytes).modWarp warp fun w => { w with op := none, spilled := some a }
        let s2 := s1.modCu cu fun c =>
          { c with grants := c.grants.filter (fun g => decide (g.1 ≠ w.block)), spillList := c.spillList ++ [warp]
                   kept := if c.favoured.isSome then c.kept ++ [(w.block, w.blockBytes, forFavoured)] else c.kept }
        (match (s2.cu cu).favoured with
         | none => s2.after 0 prioResult (.reggrowRetry cu)
         | some f =>
           match (amGet s2.warps f).bind Warp.op with
           | some (.growBlocked e _) =>
             let s3 := s2.startGrow f e
             if (s3.cu cu).favoured.isSome then s3.startSpill cu f else s3.after 0 prioResult (.reggrowRetry cu)
           | _ => s2)
      | _ => s

/-- A spilled warp's block is refilled from the pool when bank store frees. (R371) -/
def execWarpRefill (warp : Nat) (s : State) : Out :=
  .next <|
    match amGet s.warps warp with
    | none => s
    | some w =>
      match w.op, w.spilled with
      | some (.refilling o), some a =>
        let cu := warpCu warp
        let s1 := (s.moveBytes a (bankAddr cu o) w.blockBytes).modWarp warp fun w => 
          { w with op := none, spilled := none, block := o, regrow := false }
        let s2 := { s1 with spillUsed := amErase s1.spillUsed a }.modCu cu fun c => { c with spillList := c.spillList.filter (· ≠ warp) }
        ((match (s2.cu cu).favoured with
         | some f => s2.startSpill cu f
         | none => s2).after 0 prioResult (.reggrowRetry cu)).wakeBlock warp
      | _, _ => s

/-! ### Compaction (R372) -/

/-- The next move: the lowest granted block that fits into free space below it. -/
def nextMove (grants : List (Nat × Nat × Nat)) (movable : Nat → Bool) : Option (Nat × Nat × Nat × Nat) :=
  (sortBy (fun g : Nat × Nat × Nat => g.1) grants).findSome? fun g =>
    if !movable g.1 then none
    else (((List.range (g.1 / g.2.1)).map (· * g.2.1)).find? fun o => freeAt grants (2 ^ 21) o g.2.1).map fun o => (g.1, g.2.1, o, g.2.2)

/-- Puts a moved block or bay at its new place in its owner, one of a halted context among them. -/
def State.rehouse (s : State) (cu src dst : Nat) : State :=
  let f (o : Nat) : Nat := if o = src then dst else o
  let saved (c : Ctx) (v : Saved) : Saved :=
    { v with
      warps := v.warps.map fun w => if warpCu w.1 = cu ∧ c.reservedSlots.contains w.1 then (w.1, { w.2 with block := f w.2.block }) else w
      teams := v.teams.map fun t =>
        if t.2.cu = cu ∧ t.2.warps.any c.reservedSlots.contains then
          (t.1, { t.2 with bays := t.2.bays.map f, spares := t.2.spares.map f })
        else t
      publishes := v.publishes.map fun p =>
        if p.2.cu = cu ∧ c.reservedSlots.contains p.2.warp then (p.1, { p.2 with landing := p.2.landing.map fun l => (l.1, f l.2) }) else p }
  { s with
    ctxs := s.ctxs.map fun c => (c.1, { c.2 with saved := c.2.saved.map (saved c.2) })
    warps := s.warps.map fun w =>
      if warpCu w.1 = cu ∧ w.2.block = src ∧ w.2.spilled.isNone then
        (w.1, { w.2 with block := dst, op := match w.2.op with | some (.moving _) => none | op => op })
      else w
    teams := s.teams.map fun t =>
      if t.2.cu = cu ∧ (t.2.bays ++ t.2.spares).contains src then
        (t.1, { t.2 with bays := t.2.bays.map f, spares := t.2.spares.map f, bayMoving := false })
      else t
    copies := s.copies.map fun c =>
      if c.2.cu = cu then (c.1, { c.2 with landing := c.2.landing.map fun l => (l.1, f l.2) }) else c }

/-- A move of a compaction begins: its warp, which a blocked REGGROW may hold already, or its team when it is a bay, is held.

DEDUCED (log entry 65, safe): block moves are one event. -/
def State.beginMove (s : State) (cu src n dst team : Nat) : State :=
  let s1 := s.modCu cu fun c => { c with grants := c.grants ++ [(dst, n, team)], moving := some (src, n, dst) }
  let s2 : State := { s1 with
    warps := s1.warps.map fun w =>
      if warpCu w.1 = cu ∧ w.2.block = src ∧ w.2.spilled.isNone then (w.1, { w.2 with op := w.2.op <|> some (.moving dst) }) else w
    teams := s1.teams.map fun t =>
      if t.2.cu = cu ∧ (t.2.bays ++ t.2.spares).contains src then (t.1, { t.2 with bayMoving := true }) else t }
  (s2.fitL1 cu).after (n / 512) prioResult (.compaction cu)

/-- A reserved launch that fits by total space starts moving blocks toward low addresses. (R372) -/
def execCompaction (cu : Nat) (s : State) : Out :=
  .next <|
    let s1 := match (s.cu cu).moving with
      | some (src, n, dst) =>
        ((s.moveBytes (bankAddr cu src) (bankAddr cu dst) n).rehouse cu src dst).modCu cu fun c =>
          { c with moving := none, grants := c.grants.filter fun g => decide (g.1 ≠ src) }
      | none => s
    let s1 := (s1.warps.filter fun w => (s.cu cu).moving.any fun m => decide (warpCu w.1 = cu ∧ w.2.block = m.2.2)).foldl
      (fun s w => match w.2.op with
        | some (.growBlocked _ _) => s.after 0 prioResult (.reggrowRetry cu)
        | _ => s.wakeBlock w.1) s1
    match (s1.cu cu).compacting.bind fun gn => (amGet s1.grids gn).map fun g => (gn, g) with
    | none => s1.modCu cu fun c => { c with compacting := none }
    | some (gn, g) =>
      if s1.fitsCu g.lr gn cu then s1.modCu cu fun c => { c with compacting := none }
      else
        let movable (o : Nat) : Bool := s1.warps.all fun w => decide (warpCu w.1 ≠ cu) ||
          (match w.2.op with
           | none => true
           | some (.growTo _ dst) => decide (w.2.block ≠ o ∧ dst ≠ o)
           | some (.growBlocked _ _) => true
           | some (.refilling dst) => decide (dst ≠ o)
           | some _ => decide (w.2.block ≠ o) || w.2.spilled.isSome)
        match nextMove (s1.cu cu).grants movable with
        | none => s1.modCu cu fun c => { c with compacting := none }
        | some (src, n, dst, team) => s1.beginMove cu src n dst team

end Sys2Proof.Machine
end

