-- ==== Sys2Proof/Machine/MatrixValue.lean ====
section
/-! DEFINITION. The values of matrix elements (R146-R149). -/

namespace Sys2Proof.Machine

/-- An exact sum of products in progress: a NaN met, NV due, infinities met, the finite part as a multiple of 2^-266, and
whether every term so far is a negative zero. -/
structure MatSum where
  nan : Bool := false
  nv : Bool := false
  pos : Bool := false
  neg : Bool := false
  v : Int := 0
  negZero : Bool := true
  deriving DecidableEq, Repr

/-- The exponent of the least product of two BF16 values. -/
def matQ : Int := -266

/-- Adds a finite term. -/
def MatSum.addFin (t : MatSum) (s : Bool) (v : Int) : MatSum := { t with v := t.v + v, negZero := t.negZero && s && decide (v = 0) }

/-- Adds an infinite term. -/
def MatSum.addInf (t : MatSum) (s : Bool) : MatSum :=
  if s then { t with neg := true, negZero := false } else { t with pos := true, negZero := false }

/-- Adds the product of two elements. -/
def MatSum.mul (t : MatSum) (a b : FVal) : MatSum :=
  let t := { t with nv := t.nv || a.signals || b.signals }
  match a, b with
  | .nan _, _ => { t with nan := true }
  | _, .nan _ => { t with nan := true }
  | .inf s, .inf r => t.addInf (s ^^ r)
  | .inf s, .fin r m _ => if m = 0 then { t with nan := true, nv := true } else t.addInf (s ^^ r)
  | .fin r m _, .inf s => if m = 0 then { t with nan := true, nv := true } else t.addInf (s ^^ r)
  | .fin s m e, .fin r n f => t.addFin (s ^^ r) (scaled (s ^^ r) (m * n) (e + f) matQ)

/-- Adds the old element of an accumulate form. -/
def MatSum.add (t : MatSum) (d : FVal) : MatSum :=
  let t := { t with nv := t.nv || d.signals }
  match d with
  | .nan _ => { t with nan := true }
  | .inf s => t.addInf s
  | .fin s m e => t.addFin s (scaled s m e matQ)

/-- The binary32 element and the flags of a sum: infinities of both signs raise NV also beside a NaN (R128, R146). -/
def MatSum.result (t : MatSum) : Nat × Flags :=
  if t.nan then (fmt32.nan, nvIf (t.nv || (t.pos && t.neg)))
  else if t.pos && t.neg then (fmt32.nan, fNV)
  else if t.pos then (fmt32.inf false, nvIf t.nv)
  else if t.neg then (fmt32.inf true, nvIf t.nv)
  else roundSum fmt32 .rne t.v matQ t.negZero false

/-- The element of a BF16 form from row i of A, column c of B and the old element (R146). -/
def matElem (a b : List FVal) (old : Option Nat) : Nat × Flags :=
  let t := (a.zip b).foldl (fun (t : MatSum) (p : FVal × FVal) => t.mul p.1 p.2) {}
  (match old with | some d => t.add (unpack fmt32 d) | none => t).result

/-- The exact sum of an integer form (R148). -/
def matInt (a b : List Int) (old : Int) : Int := (a.zip b).foldl (fun t p => t + p.1 * p.2) old

/-- A 16-bit halfword list of bytes. -/
def halves : List Byte → List Nat
  | a :: b :: t => (a.toNat + 256 * b.toNat) :: halves t
  | _ => []

/-- The drain-to-A conversion of an FP32 element (R149). -/
def drainBf (x : Nat) : Nat :=
  match unpack fmt32 x with
  | .nan _ => 0x7FC0
  | .inf s => fmtBf.inf s
  | .fin s m e => (roundTo fmtBf .rne s m e).1

end Sys2Proof.Machine
end

