-- ==== Sys2Proof/Machine/Matrix.lean ====
section
/-! DEFINITION. The matrix instructions and the matrix engine (R146-R149, R260-R267, R290, R305, R340, R352), and the accumulator
moves (R268). -/

namespace Sys2Proof.Machine

/-! ### Operands (R261, R265, R267) and their poison (R352) -/

/-- n bytes from a scratchpad offset of a rank of a team's group, by 64-byte chunks' physical addresses. -/
def State.operandAt (s : State) (tn rank off n : Nat) : List Nat :=
  match amGet s.teams tn with
  | none => []
  | some t =>
    match s.rankTeam t.grid t.group rank, amGet s.grids t.grid with
    | some (_, r), some g => (List.range (n / 64)).filterMap fun i => r.spAddr g.lr.bays (off + 64 * i)
    | _, _ => []

/-- The bytes of chunks. -/
def State.chunkBytes (s : State) (l : List Nat) : List Byte := l.flatMap fun a => s.bytes a 64

/-- Whether any byte of a chunk is poisoned, by chunk. -/
def State.chunkPoison (s : State) (l : List Nat) : List Bool := l.map fun a => !(s.poisonIn a 64).isEmpty

/-- The FP32 word of a tile's element. -/
def State.tileWord (s : State) (cu tile i c : Nat) : Nat := s.num (accAddr cu (4096 * tile + 128 * i + 4 * c)) 4

/-- The chunks of the scratchpad operands of an operation: A's and B's. -/
def State.operands (s : State) (m : MatOp) : List Nat × List Nat :=
  let n := match m.form with | .int _ _ => 1 | _ => 2
  (match m.form with | .bf16 | .int _ _ | .broadcast => s.operandAt m.team m.aRank m.aAddr (32 * n * m.k) | _ => [],
   s.operandAt m.team m.bRank m.bAddr (32 * n * m.k))

/-- The A rows that an operation computes from poisoned words, and whether it reads a poisoned B word (R352). -/
def State.operandPoison (s : State) (cu : Nat) (m : MatOp) : Word × Bool :=
  let n := match m.form with | .int _ _ => 1 | _ => 2
  let al := (s.operands m).1
  let bl := (s.operands m).2
  let bad := (s.chunkPoison al).zip (List.range al.length)
  let rowBad (i : Nat) : Bool :=
    match m.form with
    | .fromTiles => m.chunks.any fun t => !(s.poisonIn (accAddr cu (4096 * t.1 + 128 * i)) 128).isEmpty
    | .gather => false
    | _ => bad.any fun (b : Bool × Nat) => b.1 && decide (64 * b.2 < (i + 1) * n * m.k) && decide (i * n * m.k < 64 * b.2 + 64) &&
        (List.range (n * m.k / 4)).any fun w =>
          let o := i * n * m.k + 4 * w
          decide (o / 64 = b.2) && !(s.poisonIn (al.getD b.2 0 + o % 64) 4).isEmpty
  (if al.any s.contained then BitVec.allOnes 32 else maskOf ((List.range 32).filter rowBad),
   bl.any s.contained || (s.chunkPoison bl).any fun (b : Bool) => b)

/-- The poison of row i of a tile, with its origin, as a matrix instruction chained behind those of the engine finds it (R266, R352).

DEDUCED (log entry 98, unsafe): it is judged at issue from the operands of the instructions ahead. -/
def State.chainPoison (s : State) (cu tile i : Nat) : Option Nat :=
  let after (p : MatOp → Word × Bool) (o : Option Nat) (m : MatOp) : Option Nat :=
    if m.tiles.contains tile && m.rows.getLsbD i then
      (if (p m).2 || (p m).1.getLsbD i then some 5 else if m.acc then o else none)
    else o
  let now := ((s.poisonIn (accAddr cu (4096 * tile + 128 * i)) 128).head?).map Prod.snd
  (s.cu cu).queue.foldl (after (s.operandPoison cu)) ((s.cu cu).running.toList.foldl (after fun m => (m.aPoison, m.bPoison)) now)

/-- The trap of a matrix instruction that reads a poisoned tile element (R352): class 8, code 3. -/
def Iss.tileTrap (x : Iss) (s : State) : Option State :=
  let hits : List (Nat × Nat × Nat) := x.info.tsrcs.flatMap fun t => (lanesOf x.mask).filterMap fun i =>
    (s.chainPoison x.cu (x.team.tileIx t) i).map fun o => (i, t, o)
  let rows := hitLanes hits
  (hits.find? fun h => decide (h.1 = rows.headD 0)).map fun h =>
    x.trap s { cls := 8, code := 3, detail := detail8 h.2.1 3 h.2.2 (rows.headD 0), lanes := maskOf rows }

/-- Class 8, code 1, of a matrix instruction. -/
def Iss.sourceTrap (x : Iss) (s : State) : Option State := { x with info := { x.info with tsrcs := [] } }.poisonCheck s

/-! ### Issue (R260-R267) -/

/-- Clocks the engine of a site is busy with K (R116, R121, R290).

DESIGN CHOICE (log entry 77, unsafe): an integer form takes as long as a BF16 form of its K, as the tables of R121 and R290 say; by R16 and R23
it would take half. -/
def engineClocks (site k : Nat) : Nat := if Config.flight site = 1 then k / 4 else k / 8

/-- The class-5 code of an operand pointer, or 0 (R261): the operand lies whole in the N bays of a rank of the group. -/
def Iss.matCode (x : Iss) (s : State) (p n : Nat) : Nat :=
  if ptrSpace p ≠ 1 then 1
  else if (s.rankTeam x.gn x.team.group (ptrRank p)).isNone || decide (x.grid.groupSize x.team.group ≤ ptrRank p) then 2
  else if 4096 * x.grid.lr.bays ≤ ptrOff p then 3
  else if ptrOff p % 64 ≠ 0 then 4
  else if 4096 * x.grid.lr.bays < ptrOff p + n then 5
  else 0

/-- The trap of the operand pointers (R339): the lowest code, the first pointer that has it, every row. -/
def Iss.matFault (x : Iss) (s : State) (l : List (Nat × Nat)) : Option TrapInfo :=
  let bad := (l.map fun p => (x.matCode s p.1 p.2, p.1)).filter fun c => decide (c.1 ≠ 0)
  match bad with
  | [] => none
  | b :: t =>
    let low := t.foldl (fun m c => if c.1 < m.1 then c else m) b
    some { cls := 5, code := low.1, addr := low.2, lanes := x.mask, detail := (lowLane x.mask).getD 0 }

/-- Whether an accumulator move has yet to write a tile of a CU. -/
def Cu.moves (c : Cu) (t : Nat) : Bool := (c.tileBusy.flatMap Prod.snd).contains t

/-- Whether a matrix instruction waits at issue on the scoreboard (R266): a fifth waiting instruction, or a tile with a pending
accumulator move. -/
def Iss.matWait (x : Iss) (s : State) (tiles : List Nat) : Bool :=
  let c := s.cu x.cu
  decide (4 ≤ c.queue.length) || tiles.any c.moves

/-- Charges a matrix instruction to the context's MXS budget of the CU, unless it is deferred (R116, R117). -/
def Iss.chargeMxs (x : Iss) (s : State) (n : Nat) : Option State :=
  let key := x.cn * 512 + x.cu
  let used := amGetD s.mxsUsed key 0
  if admits used (16 * x.ctx.mxsLimit) n (s.favoured x.team) then some { s with mxsUsed := amSet s.mxsUsed key (used + n) } else none

/-- Logs accesses of an operation of a strand to runs of bytes for deterministic mode (R289). -/
def State.noteRuns (s : State) (k e op : Nat) (wrote : Bool) (l : List (Nat × Nat)) : State :=
  match amGet s.warps k, s.gridOf k with
  | some w, some (_, g) =>
    if !g.det then s
    else l.foldl (fun s a => s.detNote g.ctx (fibreId w.team w.number (w.strand e).fibre) (warpCu k) (w.strand e) a.1 a.2 wrote false (some op)) s
  | _, _ => s

/-- The CU of an operand pointer's team. -/
def Iss.rankCu (x : Iss) (s : State) (p : Nat) : Nat :=
  ((s.rankTeam x.gn x.team.group (ptrRank p)).map fun t => t.2.cu).getD x.cu

/-- Tries the operation at the head of an engine's queue d clocks from now, its reads in the order of its strand's agent (R155). -/
def State.tryEngine (s : State) (cu d : Nat) : State :=
  match (s.cu cu).queue with
  | m :: _ => s.after d (prioRead + s.agentOf m.uid) (.matrixEngineStart cu)
  | [] => s

/-- Queues a matrix instruction (R266, R290): it may start 20 clocks after issue, or 60 with an operand on another CU; its flags
are pending in the fibre, and the gather unit is free for the next (R305). One that its budget defers is held at a migration point (R376). -/
def Iss.queueMat (x : Iss) (s : State) (m : MatOp) (tiles : List Nat) (ptrs : List (Nat × Nat)) : State :=
  if x.matWait s tiles then x.stall s
  else
    match x.chargeMxs s (engineClocks x.site m.k) with
    | none => (x.hold s).modStrand x.k x.e fun st => { st with stopped := true }
    | some s1 =>
      let far := if ptrs.any fun p => decide (x.rankCu s p.1 ≠ x.cu) then 60 else 20
      let m1 := { m with id := s1.nextId, warp := x.k, uid := x.st.uid, fibre := x.st.fibre, team := x.tn, rows := x.mask,
                         notBefore := s.clock + far, c := x.st.c, kin := x.st.kin, mxs := engineClocks x.site m.k,
                         mxsAt := s.clock / Config.period, parcel := x.parcel }
      let s2 := (s1.addPipe x.k s1.nextId { res := [], fibre := x.st.fibre, uid := x.st.uid, mayFlag := true }).modCu x.cu fun c =>
        { c with queue := c.queue ++ [m1] }
      let s3 := ((s2.after far (prioRead + strandAgent x.k x.e) (.matrixEngineStart x.cu)).bump).dropGather x.cu x.st.uid
      if m.form = .broadcast then
        { (s3.modStrand x.k x.e fun st => { st with hold := .busy s1.nextId, succ := x.next }) with cur := none }
      else x.advance s3

/-- A blank operation of a form. -/
def matOp (form : MatForm) (k : Nat) (acc : Bool) (tile : Nat) : MatOp :=
  { id := 0, warp := 0, uid := 0, fibre := 0, team := 0, form := form, k := k, acc := acc, rows := 0, tile := tile }

/-- The pointer of the lowest active lane in a pair (R261). -/
def Iss.lowPtr (x : Iss) (s : State) (p : Nat) : Nat := x.ptr s p ((lowLane x.mask).getD 0)

/-- The forms with two scratchpad operands (R260, R264): n bytes an element. -/
def matPair (i : Instr) (s : State) (form : MatForm) (k : Nat) (acc : Bool) (d a b n : Nat) : Out :=
  issue i s fun x s =>
    let pa := x.lowPtr s a
    let pb := x.lowPtr s b
    match x.matFault s [(pa, 32 * n * k), (pb, 32 * n * k)] with
    | some t => x.trap s t
    | none =>
      match x.sourceTrap s <|> x.tileTrap s with
      | some t => t
      | none =>
        let form := if form = .broadcast ∧ x.grid.groupSize x.team.group = 1 then .bf16 else form
        let m := { matOp form k acc (x.team.tileIx d) with
          aAddr := ptrOff pa, bAddr := ptrOff pb, aRank := ptrRank pa, bRank := ptrRank pb, ptrB := BitVec.ofNat 64 pb }
        x.queueMat s m (MatOp.tiles m) [(pa, 32 * n * k), (pb, 32 * n * k)]

/-- K of a matrix opcode. -/
def kOf (k : BitVec 2) : Nat := 32 * (k.toNat + 1)

/-- BF16 matrix multiply on the engine, queued per CU. (R260) -/
def execMmaBf16 (g : Pfx) (c : BitVec 1) (b a d : BitVec 7) (k : BitVec 2) (s : State) : Out :=
  matPair (.mmaBf16 g c b a d k) s .bf16 (kOf k) (decide (c = 1)) d.toNat a.toNat b.toNat 2

/-- 8-bit integer matrix multiply into an FX64 tile pair. (R260) -/
def execMmaInteger (g : Pfx) (c : BitVec 1) (b a d : BitVec 7) (t : BitVec 4) (k : BitVec 2) (s : State) : Out :=
  matPair (.mmaInteger g c b a d t k) s (.int (decide ((t.toNat - 1) / 2 % 2 = 1)) (decide ((t.toNat - 1) % 2 = 1))) (kOf k) (decide (c = 1)) d.toNat
    a.toNat b.toNat 1

/-- Matrix multiply with B broadcast across the gallery group. (R264)

DEDUCED (log entry 29, unsafe): when MMAB's strand goes on, and when engines read. -/
def execMmab (g : Pfx) (c : BitVec 1) (b a d : BitVec 7) (k : BitVec 2) (s : State) : Out :=
  matPair (.mmab g c b a d k) s .broadcast (kOf k) (decide (c = 1)) d.toNat a.toNat b.toNat 2

/-- Matrix multiply taking A from accumulator tiles. (R265) -/
def execMmaAb (g : Pfx) (c : BitVec 1) (b a d : BitVec 7) (k : BitVec 2) (s : State) : Out :=
  issue (.mmaAb g c b a d k) s fun x s =>
    let pb := x.lowPtr s b.toNat
    match x.matFault s [(pb, 64 * kOf k)] with
    | some t => x.trap s t
    | none =>
      match x.sourceTrap s <|> x.tileTrap s with
      | some t => t
      | none =>
        let src := (List.range (k.toNat + 1)).map fun j => x.team.tileIx (a.toNat + j)
        let m := { matOp .fromTiles (kOf k) (decide (c = 1)) (x.team.tileIx d.toNat) with
          bAddr := ptrOff pb, bRank := ptrRank pb, ptrB := BitVec.ofNat 64 pb, chunks := src.map fun t => (t, 0, 0, 0) }
        x.queueMat s m (m.tile :: src) [(pb, 64 * kOf k)]

/-! ### MMAG (R263, R305) -/

/-- The gather descriptor: base, stride, LIMIT. -/
def Iss.descriptor (x : Iss) : Nat × Nat × Nat :=
  let k := (x.g.ksel.getD 0).toNat
  ((x.w.kreg k).toNat + (x.w.kreg (k + 1)).toNat * 2 ^ 32, (x.w.kreg (k + 2)).toNat, (x.w.kreg (k + 3)).toNat)

/-- The 64-byte chunks of the gathered rows: the lane, the chunk's number, its tagged address, its row's tagged address. -/
def Iss.gatherChunks (x : Iss) (s : State) (vi k : Nat) : List (Nat × Nat × Nat × Nat) :=
  let d := x.descriptor
  (lanesOf x.mask).flatMap fun i =>
    let n := (x.src s vi i).toNat
    if d.2.2 ≤ n then []
    else (List.range (k / 32)).map fun j => (i, j, ptrAdd d.1 ((n * d.2.1 + 64 * j : Nat) : Int), ptrAdd d.1 ((n * d.2.1 : Nat) : Int))

/-- Lets the gather unit of a CU serve the next MMAG, when the one it has gathered does not hold its warp slot: it issues at a later turn.

DESIGN CHOICE (log entry 99, unsafe): by R305 an MMAG issues in the clock its last row arrives; of one that a switch has taken off its slot by
then, the rows stay in its latch. -/
def State.passGather (s : State) (cu : Nat) : State :=
  match (s.cu cu).gather with
  | u :: _ =>
    if (amGet s.gathers u).any MatOp.fetched && (match s.findUid u with
        | some (k, e) => decide ((amGet s.warps k).bind Warp.holder ≠ some e)
        | none => true) then s.endGather cu u
    else s
  | [] => s

/-- Starts the gather: one MMAG at a time, in issue order, at the latency of the slowest row (R305); its reads cross links as flits (R21,
R116). -/
def Iss.startGather (x : Iss) (s : State) (m : MatOp) : State :=
  let sent := m.fetchable.foldl (fun (t : State × Nat) c =>
    let f := t.1.sendRound x.cn x.site c.2.2.1 1 (s.favoured x.team)
    (f.1, max t.2 ((if onChip c.2.2.1 then s.chipLatency x.cu c.2.2.1 else s.homeLatency x.site c.2.2.1) + f.2))) (s, 20)
  let m1 := { m with warp := x.k, uid := x.st.uid, rows := x.mask, c := x.st.c, kin := x.st.kin, parcel := x.parcel, notBefore := s.clock + sent.2 }
  let s0 := (x.stall sent.1).passGather x.cu
  let s1 := { s0 with gathers := amSet s0.gathers x.st.uid m1 }
  let s2 := (s1.modStrand x.k x.e fun st => { st with hold := .stall x.st.uid }).modCu x.cu fun c => { c with gather := c.gather ++ [x.st.uid] }
  if (s0.cu x.cu).gather = [] then s2.headGather x.cu else s2

/-- The rows of a gather whose translation met a poisoned entry. -/
def MatOp.lostRows (m : MatOp) : List LaneAcc :=
  (m.chunks.filter fun c => decide (2 ^ 64 ≤ c.2.2.1)).map fun c => { lane := c.1, ea := c.2.2.2, at0 := .fault 8 4 (c.2.2.1 - 2 ^ 64) }

/-- An MMAG whose descriptor and rows have been read (R263): what it still finds are poisoned elements of D, then rows whose translation met
a poisoned entry, in the order of their codes (R332). -/
def Iss.gathered (x : Iss) (s : State) (m : MatOp) (ptrs : List (Nat × Nat)) : State :=
  match x.tileTrap s with
  | some t => t
  | none =>
    match faultInfo m.lostRows 0 none with
    | some t => x.trap s t
    | none => x.queueMat s { m with chunks := [] } [m.tile] ptrs

/-- Matrix multiply that gathers rows of A by index from a k descriptor. (R263) -/
def execMmag (g : Pfx) (c : BitVec 1) (b a d : BitVec 7) (k : BitVec 2) (s : State) : Out :=
  issue (.mmag g c b a d k) s fun x s =>
    let kk := kOf k
    match amGet s.gathers x.st.uid with
    | some m => if m.fetched then x.gathered s m [(m.ptrB.toNat, 64 * kk)] else x.stall s
    | none =>
      let pb := x.lowPtr s b.toNat
      let desc := x.descriptor
      match x.matFault s [(pb, 64 * kk)] with
      | some t => x.trap s t
      | none =>
        if 1 < ptrSpace desc.1 ∨ ptrOff desc.1 % 64 ≠ 0 ∨ desc.2.1 % 64 ≠ 0 then
          x.trap s { cls := 7, code := 3, addr := desc.1, lanes := x.mask, detail := (lowLane x.mask).getD 0 }
        else
          let chunks := x.gatherChunks s a.toNat kk
          let l : List LaneAcc := chunks.map fun ch => { lane := ch.1, ea := ch.2.2.2, at0 := s.reach x [0, 1] 64 64 false ch.2.2.1 }
          let info := faultInfo l 0 none
          match info.filter TrapInfo.early with
          | some t => x.trap s t
          | none =>
            if missPages l ≠ [] then x.waitWalks s (missPages l)
            else
              match info.filter fun t => decide (t.cls ≠ 8) with
              | some t => x.trap s t
              | none =>
                match x.sourceTrap s with
                | some t => t
                | none =>
                  -- every source but the rows is readable when the gather starts (R305)
                  if c = 1 ∧ (s.cu x.cu).moves (x.team.tileIx d.toNat) then x.stall s
                  else
                    let rows := (chunks.zip l).filterMap fun p => match p.2.at0 with
                      | .mem pa _ _ _ => some (p.1.1, p.1.2.1, pa, p.1.2.2.2)
                      | .fault _ _ o => some (p.1.1, p.1.2.1, 2 ^ 64 + o, p.1.2.2.2)
                      | _ => none
                    x.startGather (x.useTlb s (l.filterMap fun a => match a.at0 with | .mem _ va 0 _ => some va | _ => none))
                      { matOp .gather kk (decide (c = 1)) (x.team.tileIx d.toNat) with
                        bAddr := ptrOff pb, bRank := ptrRank pb, ptrB := BitVec.ofNat 64 pb, chunks := rows }

/-- Whether a request of an agent, before an operation of it, has yet to perform (R163). -/
def State.earlierPending (s : State) (id uid : Nat) (kin : List Nat) : Bool :=
  s.reqs.any fun q => decide (q.1 < id) && !q.2.done && follows q.2.uid uid kin

/-- The clock that the strand of an operation has by now, or what it has split into, from the one it carries. -/
def State.agentNow (s : State) (k uid c : Nat) : Nat :=
  match amGet s.warps k with
  | some w => w.overflow.foldl (fun n p => if follows p.uid uid p.kin then max n p.c else n)
      (w.table.foldl (fun n st => if st.live && st.mine uid then max n st.c else n) c)
  | none => c

/-- Engine reads of 64-byte chunks in their order, from a clock of the issuing strand (R155, R163): the timestamp of the last. -/
def State.stampReads (s : State) (ctx c : Nat) (l : List Nat) : Nat × State :=
  l.foldl (fun t a => (t.2.fillLine (lineOf a)).readStamp (lineOf a) t.1 (s.lease ctx)) (c, s)

/-- The lines of addresses, ascending. -/
def linesAt (l : List Nat) : List Nat := sortBy id ((l.map lineOf).eraseDups)

/-- The rows of the MMAG that a CU's gather unit serves arrive in the operand latch; the MMAG issues at the last. (R305) Its
unit serves no other until then. -/
def execGatherRowArrival (uid : Nat) (s : State) : Out :=
  .next <|
    match amGet s.gathers uid, s.findUid uid with
    | some m, some (k, e) =>
      let cu := warpCu k
      let at0 := m.fetchable.map fun c => c.2.2.1
      if m.fetched ∨ (s.cu cu).gather.head? ≠ some uid ∨ s.clock < (s.cu cu).gatherTill then s
      else if s.earlierPending s.nextId uid m.kin then s.after 1 (prioRead + strandAgent k e) (.gatherRowArrival uid)
      else match s.waitLines uid (linesAt at0) with
      | some s' => s'
      | none =>
        let bad : List (Nat × Nat × Nat) := m.fetchable.filterMap fun c =>
          if s.contained c.2.2.1 then some (c.1, c.2.2.2, (7 : Nat))
          else match s.poisonIn c.2.2.1 64 with
            | (a, o) :: _ => some (c.1, c.2.2.2 + (a - c.2.2.1), o)
            | [] => none
        match bad with
        | (i, ea, o) :: _ =>
          let s1 := (s.takeTrap k e { cls := 8, code := 2, addr := ea, detail := detail8 0 4 o i, lanes := maskOf (bad.map Prod.fst),
                                      parcel := m.parcel } 0).leaveLines uid (linesAt at0)
          if at0.any s.contained then s1.containCtx (s.ctxOf k) else s1
        | [] =>
          let t := (s.noteRuns k e s.nextId false (at0.map fun a => (a, 64))).stampReads (s.ctxOf k) (s.agentNow k uid m.c) at0
          let s1 := t.2.agentClock k uid s.nextId t.1
          let row (i : Nat) : List Byte := (List.range (m.k / 32)).flatMap fun j =>
            match m.chunks.find? fun c => decide (c.1 = i ∧ c.2.1 = j) with
            | some c => s1.bytes c.2.2.1 64
            | none => List.replicate 64 0
          let m1 := { m with aBytes := (List.range 32).flatMap row, fetched := true, c := t.1 }
          (({ s1 with gathers := amSet s1.gathers uid m1 }.modStrand k e fun st => { st with hold := .none }).passGather cu).leaveLines uid
            (linesAt at0)
    | _, _ => s.leaveAll uid

/-! ### What keeps a matrix instruction or an accumulator move from issuing (R117, R118, R266) -/

/-- K of a matrix instruction that is ready to be queued: an MMAG has its rows. -/
def Iss.matK (x : Iss) (s : State) (i : Instr) : Option Nat :=
  match i with
  | .mmaBf16 _ _ _ _ _ k => some (kOf k)
  | .mmaInteger _ _ _ _ _ _ k => some (kOf k)
  | .mmab _ _ _ _ _ k => some (kOf k)
  | .mmaAb _ _ _ _ _ k => some (kOf k)
  | .mmag _ _ _ _ _ k => if (amGet s.gathers x.st.uid).any MatOp.fetched then some (kOf k) else none
  | _ => none

/-- Whether its budget defers a matrix instruction (R116, R117). -/
def Iss.defers (x : Iss) (s : State) (i : Instr) : Bool :=
  decide (x.mask ≠ 0) && (x.matK s i).any fun k => (x.chargeMxs s (engineClocks x.site k)).isNone

/-- Whether an accumulator move waits at issue on the scoreboard (R266). -/
def Iss.moveWait (x : Iss) (s : State) (src dst : List Nat) : Bool :=
  let c := s.cu x.cu
  (src ++ dst).any (fun t => c.tilesPending.contains t) || dst.any fun t => c.tilesToRead.contains t

/-- Whether the scoreboard of the tiles, or a full queue of the matrix or copy engine, stalls a group (R266, R269). -/
def Iss.engineStall (x : Iss) (s : State) (i : Instr) : Bool :=
  let t (n : BitVec 7) : Nat := x.team.tileIx n.toNat
  let full := decide (16 ≤ (s.cu x.cu).copies.length)
  decide (x.mask ≠ 0) &&
    match i with
    | .mmaBf16 _ _ _ _ d _ => x.matWait s [t d]
    | .mmab _ _ _ _ d _ => x.matWait s [t d]
    | .mmaInteger _ _ _ _ d _ _ => x.matWait s [t d, t d + 1]
    | .mmaAb _ _ _ a d k => x.matWait s (t d :: (List.range (k.toNat + 1)).map fun j => x.team.tileIx (a.toNat + j))
    | .mmag _ c _ _ d _ =>
      if (amGet s.gathers x.st.uid).any MatOp.fetched then x.matWait s [t d] else decide (c = 1) && (s.cu x.cu).moves (t d)
    | .amov _ a d => x.moveWait s [t a] [t d]
    | .azero _ d => x.moveWait s [] [t d]
    | .ard _ _ a _ => x.moveWait s [t a] []
    | .awr _ _ _ d => x.moveWait s [] [t d]
    | .ardFx64 _ _ a _ => x.moveWait s [t a, t a + 1] []
    | .awrFx64 _ _ _ d => x.moveWait s [] [t d, t d + 1]
    | .cpy .. => full
    | .cpyl .. => full
    | .ovload _ _ n => full && (s.bank x.cu x.cn x.grid.lr.code n.toNat).isNone
    | _ => false

/-! ### The engine (R262, R264-R267) -/

/-- Reads the operands of an operation that starts, with the timestamps of events of its strand (R155, R262, R265, R267); those of a contained
home are poison and contain the context (R360). -/
def State.fetchOperands (s : State) (cu : Nat) (m : MatOp) : State × MatOp :=
  let l := s.operands m
  let ctx := s.ctxOf m.warp
  let noted := match s.findUid m.uid with
    | some (k, e) => s.noteRuns k e m.id false ((l.1 ++ l.2).map fun a => (a, 64))
    | none => s
  let t := noted.stampReads ctx (s.agentNow m.warp m.uid m.c) (l.1 ++ l.2)
  let s1 := t.2.agentClock m.warp m.uid m.id t.1
  let aBytes := match m.form with
    | .gather => m.aBytes
    | .fromTiles => (List.range 32).flatMap fun i => m.chunks.flatMap fun t => (List.range 32).flatMap fun c =>
        toBytes 2 (drainBf (s.tileWord cu t.1 i c))
    | _ => s.chunkBytes l.1
  let p := s.operandPoison cu m
  (if (l.1 ++ l.2).any s.contained then s1.containCtx ctx else s1,
   { m with aBytes := aBytes, bBytes := s.chunkBytes l.2, fetched := true, c := t.1, aPoison := p.1, bPoison := p.2 })

/-- Starts an operation on an engine for a number of clocks. -/
def State.startOp (s : State) (cu : Nat) (m : MatOp) (busy : Nat) : State :=
  let r := s.fetchOperands cu m
  (r.1.modCu cu fun c => { c with running := some { r.2 with until_ := s.clock + busy }, queue := c.queue.drop 1 }).after busy
    (prioWrite + s.agentOf m.uid) (.matrixEngineFinish cu)

/-- The unfinished teams of a gallery group. -/
def State.groupTeams (s : State) (gn group : Nat) : List (Nat × Team) :=
  s.teams.filter fun t => decide (t.2.grid = gn ∧ t.2.group = group)

/-- The heads of the engine queues of a group's teams when an MMAB episode of a rank can be formed (R264): every participant's
MMAB naming the rank is at the head of its idle engine, may start, and its earlier writes are acknowledged. -/
def State.episodeHeads (s : State) (gn group rank : Nat) : Option (List (Nat × MatOp)) :=
  let ts := s.groupTeams gn group
  let heads := ts.filterMap fun t =>
    let c := s.cu t.2.cu
    match c.queue with
    | m :: _ =>
      if c.running.isNone ∧ m.team = t.1 ∧ m.form = .broadcast ∧ m.bRank = rank ∧ m.notBefore ≤ s.clock ∧
          !s.unacked { uid := m.uid, kin := m.kin } m.id ∧ !((s.operands m).1 ++ (s.operands m).2).any (fun a => s.lineHeld (lineOf a)) then some (t.2.cu, m) else none
    | [] => none
  if heads.length = ts.length then some heads else none

/-- The argument that names a gallery group in an event. -/
def groupArg (gn group : Nat) : Nat := gn * 2 ^ 40 + group

/-- A queued matrix instruction starts on the engine and reads its operands, which lets the writes that waited for that perform. (R266, R267) -/
def execMatrixEngineStart (cu : Nat) (s : State) : Out :=
  .next <|
    let c := s.cu cu
    match c.running, c.queue with
    | none, m :: _ =>
      if s.clock < m.notBefore then s
      else if m.form = .broadcast then
        match amGet s.teams m.team with
        | none => s
        | some t =>
          (match s.episodeHeads t.grid t.group m.bRank with
           | some _ => s.after 0 prioLate (.mmabEpisodeStart (groupArg t.grid t.group) m.bRank)
           | none => s.tryEngine cu 1)
      else if s.earlierPending m.id m.uid m.kin then s.tryEngine cu 1
      else
        let ls := linesAt ((s.operands m).1 ++ (s.operands m).2)
        match s.waitLines m.id ls with
        | some s' => s'
        | none => ((s.startOp cu m (engineClocks (cuSite cu) m.k)).leaveLines m.id ls).settle
    | _, _ => s

/-- Takes an operation off its queue: nothing of it was queued or charged (R340), in the period of its charge. -/
def State.unqueue (s : State) (cu : Nat) (m : MatOp) : State :=
  let s1 := (s.modCu cu fun c => { c with queue := c.queue.filter fun q => decide (q.id ≠ m.id) }).modWarp m.warp fun w =>
    { w with pipe := amErase w.pipe m.id }
  if m.mxsAt = s.clock / Config.period then { s1 with mxsUsed := amMod s1.mxsUsed (s.ctxOf m.warp * 512 + cu) fun n => n - m.mxs } else s1

/-- Takes a mismatched MMAB off its queue and traps its strand (R340). -/
def State.mismatch (s : State) (cu : Nat) (m : MatOp) : State :=
  let s2 := s.unqueue cu m
  match s2.findUid m.uid with
  | some (k, e) => s2.takeTrap k e { cls := 7, code := 6, addr := m.ptrB.toNat, lanes := m.rows, detail := (lowLane m.rows).getD 0, parcel := m.parcel } 0
  | none => s2

/-- An MMAB episode starts when every participant is ready, broadcasting B. (R264) -/
def execMmabEpisodeStart (group rank : Nat) (s : State) : Out :=
  .next <|
    match s.episodeHeads (group / 2 ^ 40) (group % 2 ^ 40) rank with
    | none => s
    | some [] => s
    | some ((cu, m) :: rest) =>
      if rest.all fun r => decide (r.2.k = m.k ∧ r.2.ptrB = m.ptrB) then
        let all := (cu, m) :: rest
        let busy := all.foldl (fun n r => max n (engineClocks (cuSite r.1) m.k)) 0
        (all.foldl (fun s r =>
          (s.startOp r.1 r.2 busy).modUid r.2.uid fun st => { st with hold := .none, pc := st.succ }) s).settle
      else (((cu, m) :: rest).foldl (fun s r => s.mismatch r.1 r.2) s).settle

/-! ### The finish (R146, R148, R262, R267, R352) -/

/-- The signed or unsigned 8-bit elements of bytes. -/
def eights (unsigned : Bool) (l : List Byte) : List Int := l.map fun b => if unsigned then (b.toNat : Int) else b.toInt

/-- The words of one row of results with their flags, for the BF16 forms. -/
def State.rowBf (s : State) (cu : Nat) (m : MatOp) (bcols : List (List FVal)) (i : Nat) : List (Nat × Flags) :=
  let a := (halves ((m.aBytes.drop (2 * m.k * i)).take (2 * m.k))).map (unpack fmtBf)
  (List.range 32).map fun c => matElem a (bcols.getD c []) (if m.acc then some (s.tileWord cu m.tile i c) else none)

/-- The exact sums of one row for the integer forms. -/
def State.rowInt (s : State) (cu : Nat) (m : MatOp) (ua : Bool) (bcols : List (List Int)) (i : Nat) : List Int :=
  let a := eights ua ((m.aBytes.drop (m.k * i)).take m.k)
  (List.range 32).map fun c =>
    let old := sext 64 (s.tileWord cu m.tile i c + s.tileWord cu (m.tile + 1) i c * 2 ^ 32)
    matInt a (bcols.getD c []) (if m.acc then old else 0)

/-- Columns of a row-major list of width 32. -/
def columns {α : Type} (d : α) (l : List α) (k : Nat) : List (List α) :=
  (List.range 32).map fun c => (List.range k).map fun r => l.getD (32 * r + c) d

/-- Writes a row of a tile; the columns that are to stay or become poisoned keep origin 5. -/
def State.putRow (s : State) (cu tile i : Nat) (ws : List Nat) (bad : Nat → Bool) : State :=
  let a := accAddr cu (4096 * tile + 128 * i)
  let s1 := s.store a (ws.flatMap (toBytes 4))
  (List.range 32).foldl (fun s c => if bad c then s.poisonRange (a + 4 * c) 4 5 else s) s1

/-- The key of the row flags of a tile's pair. -/
def pairKey (cu tile : Nat) : Nat := accAddr cu (4096 * (tile / 2 * 2))

/-- The result of an operation on its tiles and the flags. -/
def State.matResult (s : State) (cu : Nat) (m : MatOp) : State × Flags :=
  let rows := lanesOf m.rows
  let bad (tile i c : Nat) : Bool :=
    m.bPoison || m.aPoison.getLsbD i || (m.acc && !(s.poisonIn (accAddr cu (4096 * tile + 128 * i + 4 * c)) 4).isEmpty)
  match m.form with
  | .int ua ub =>
    let bc := columns 0 (eights ub m.bBytes) m.k
    let s1 := rows.foldl (fun t i =>
      let sums := s.rowInt cu m ua bc i
      let w := sums.map fun x => (ofInt 64 (sat64 x)).toNat
      let t1 := (t.putRow cu m.tile i (w.map (· % 2 ^ 32)) (bad m.tile i)).putRow cu (m.tile + 1) i (w.map (· / 2 ^ 32)) (bad (m.tile + 1) i)
      let old := spGet t1.rowFlags (pairKey cu m.tile)
      let set := if m.acc then old.getLsbD i || sums.any (fun x => decide (x ≠ sat64 x)) else false
      let bit := BitVec.ofNat 32 (2 ^ i)
      { t1 with rowFlags := spSet t1.rowFlags (pairKey cu m.tile) (if set then old ||| bit else old &&& ~~~ bit) }) s
    (s1, 0)
  | _ =>
    let bc := columns (FVal.fin false 0 0) ((halves m.bBytes).map (unpack fmtBf)) m.k
    rows.foldl (fun t i =>
      let r := s.rowBf cu m bc i
      (t.1.putRow cu m.tile i (r.map Prod.fst) (bad m.tile i), r.foldl (fun f p => f ||| p.2) t.2)) (s, 0)

/-- The one write event of a tile result (R267): its lines take one timestamp. -/
def State.stampTiles (s : State) (cu ctx : Nat) (m : MatOp) : Nat × State :=
  let lines := m.tiles.flatMap fun t => (lanesOf m.rows).flatMap fun i =>
    [lineOf (accAddr cu (4096 * t + 128 * i)), lineOf (accAddr cu (4096 * t + 128 * i + 64))]
  let ts := lines.foldl (fun n l => max n ((s.line l).rts + 1)) (s.agentNow m.warp m.uid m.c + 1)
  let s1 := lines.foldl (fun s l => s.setLine l { s.line l with wts := ts, rts := ts }) s
  (ts, m.tiles.foldl (fun s t => s.meetFences (accAddr cu (4096 * t)) 4096 ts m.uid) ((s1.foldNear cu ts).foldHub ctx ts))

/-- Logs a tile result for deterministic mode (R289). -/
def State.noteTiles (s : State) (cu : Nat) (m : MatOp) : State :=
  match s.findUid m.uid with
  | some (k, e) => s.noteRuns k e m.id true (m.tiles.flatMap fun t => (lanesOf m.rows).map fun i => (accAddr cu (4096 * t + 128 * i), 128))
  | none => s

/-- The engine finishes, writes the tile rows and raises the flags. (R262) -/
def execMatrixEngineFinish (cu : Nat) (s : State) : Out :=
  .next <|
    match (s.cu cu).running with
    | none => s
    | some m =>
      if m.until_ ≠ s.clock then s
      else
        let ctx := s.ctxOf m.warp
        let r := s.matResult cu m
        let t := (r.1.noteTiles cu m).stampTiles cu ctx m
        let s1 := (t.2.agentClock m.warp m.uid m.id t.1).modCu cu fun c => { c with running := none }
        let s2 := (s1.raiseFlags m.warp m.fibre m.uid m.id r.2).modWarp m.warp fun w => { w with pipe := amErase w.pipe m.id }
        (s2.tryEngine cu 0).settle

/-! ### Accumulator moves (R268) -/

/-- The effect of an accumulator move that writes tiles: readable in 4 clocks, the rows' flags cleared. -/
def Iss.tileWrite (x : Iss) (s : State) (dst : List Nat) (f : State → Nat → State) : State :=
  let s1 := (lanesOf x.mask).foldl f s
  let key := pairKey x.cu (dst.headD 0)
  let s2 := { s1 with rowFlags := spSet s1.rowFlags key (spGet s1.rowFlags key &&& ~~~ x.mask) }
  let s3 := s2.modCu x.cu fun c => { c with tileBusy := amSet c.tileBusy s2.nextId dst }
  x.advance (s3.pipeFor x.k 4 { res := [], fibre := x.st.fibre, uid := x.st.uid })

/-- Copies tile rows to another tile. (R268) -/
def execAmov (g : Pfx) (a d : BitVec 7) (s : State) : Out :=
  issue (.amov g a d) s fun x s =>
    let src := x.team.tileIx a.toNat
    let dst := x.team.tileIx d.toNat
    if x.moveWait s [src] [dst] then x.stall s
    else
      match x.poisonCheck s with
      | some t => t
      | none =>
        x.tileWrite s [dst] fun t i => t.store (accAddr x.cu (4096 * dst + 128 * i)) (s.bytes (accAddr x.cu (4096 * src + 128 * i)) 128)

/-- Zeroes tile rows. (R268) -/
def execAzero (g : Pfx) (d : BitVec 7) (s : State) : Out :=
  issueP (.azero g d) s fun x s =>
    let dst := x.team.tileIx d.toNat
    if x.moveWait s [] [dst] then x.stall s
    else x.tileWrite s [dst] fun t i => t.store (accAddr x.cu (4096 * dst + 128 * i)) (List.replicate 128 0)

/-- The column of lane i. -/
def Iss.col (x : Iss) (s : State) (b i : Nat) : Nat := (x.src s b i).toNat % 32

/-- The poison of the elements an ARD reads (R352). -/
def Iss.ardPoison (x : Iss) (s : State) (tiles : List Nat) (a b : Nat) : Option State :=
  let hit := (lanesOf x.mask).filterMap fun i =>
    (tiles.zip (List.range tiles.length)).findSome? fun t =>
      ((s.poisonIn (accAddr x.cu (4096 * t.1 + 128 * i + 4 * x.col s b i)) 4).head?).map fun p => (i, a + t.2, p.2)
  match hit with
  | (i, t, o) :: _ => some (x.trap s { cls := 8, code := 3, detail := detail8 t 3 o i, lanes := maskOf (hit.map Prod.fst) })
  | [] => none

/-- ARD's checks: the scoreboard, the words it reads, the elements it reads. -/
def Iss.ardGuard (x : Iss) (s : State) (tiles : List Nat) (a b : Nat) (f : State → State) : State :=
  if x.moveWait s tiles [] then x.stall s
  else
    match x.sourceTrap s with
    | some t => t
    | none => match x.ardPoison s tiles a b with | some t => t | none => f s

/-- Reads one tile element per lane into a vector register. (R268) -/
def execArd (g : Pfx) (b a d : BitVec 7) (s : State) : Out :=
  issue (.ard g b a d) s fun x s =>
    if x.mask = 0 then x.pushZeros s false
    else
      let t := x.team.tileIx a.toNat
      x.ardGuard s [t] a.toNat b.toNat fun s =>
        x.result s d.toNat false 8 8 0 fun i => BitVec.ofNat 32 (s.tileWord x.cu t i (x.col s b.toNat i))

/-- Writes one tile element per lane from a vector register. (R268) -/
def execAwr (g : Pfx) (b a d : BitVec 7) (s : State) : Out :=
  issueP (.awr g b a d) s fun x s =>
    let dst := x.team.tileIx d.toNat
    if x.moveWait s [] [dst] then x.stall s
    else
      x.tileWrite s [dst] fun t i =>
        t.store (accAddr x.cu (4096 * dst + 128 * i + 4 * x.col s b.toNat i)) (toBytes 4 (x.src s a.toNat i).toNat)

/-- Drains an FX64 element into a register pair, setting AS if the row flag is set. (R268) -/
def execArdFx64 (g : Pfx) (b a d : BitVec 7) (s : State) : Out :=
  issue (.ardFx64 g b a d) s fun x s =>
    if x.mask = 0 then x.pushZeros s true
    else
      let t := x.team.tileIx a.toNat
      x.ardGuard s [t, t + 1] a.toNat b.toNat fun s =>
        let flagged := decide (spGet s.rowFlags (pairKey x.cu t) &&& x.mask ≠ 0)
        x.result64 s d.toNat false 8 8 (if flagged then fAS else 0) fun i =>
          BitVec.ofNat 64 (s.tileWord x.cu t i (x.col s b.toNat i) + s.tileWord x.cu (t + 1) i (x.col s b.toNat i) * 2 ^ 32)

/-- Writes an FX64 element from a register pair. (R268) -/
def execAwrFx64 (g : Pfx) (b a d : BitVec 7) (s : State) : Out :=
  issueP (.awrFx64 g b a d) s fun x s =>
    let dst := x.team.tileIx d.toNat
    if x.moveWait s [] [dst, dst + 1] then x.stall s
    else
      x.tileWrite s [dst, dst + 1] fun t i =>
        let v := (x.src64 s a.toNat i).toNat
        let o := 128 * i + 4 * x.col s b.toNat i
        (t.store (accAddr x.cu (4096 * dst + o)) (toBytes 4 (v % 2 ^ 32))).store (accAddr x.cu (4096 * (dst + 1) + o)) (toBytes 4 (v / 2 ^ 32))

end Sys2Proof.Machine
end

