-- ==== Sys2Proof/Machine/Copies.lean ====
section
/-! DEFINITION. The copy engine (R97, R164, R165, R269-R277, R344): CPY, CPYL, OVLOAD, the moves of units, and the publish. -/

namespace Sys2Proof.Machine

/-! ### The layout record (R271, R272) -/

/-- The fields of a tensor layout record. -/
structure Layout where
  reserved : Nat
  swz : Nat
  bay : Nat
  rank : Nat
  es : Nat
  fill : Nat
  box : List Nat
  strides : List Nat
  dims : List Nat
  base : Nat
  deriving DecidableEq, Repr

/-- The record of 64 bytes read as a number. -/
def layoutOf (r : Nat) : Layout :=
  { reserved := bitsOf r 509 3, swz := bitsOf r 507 2, bay := bitsOf r 501 6, rank := bitsOf r 498 3, es := 2 ^ bitsOf r 496 2,
    fill := bitsOf r 464 32, box := (List.range 5).map fun d => bitsOf r (424 + 8 * d) 8,
    strides := (List.range 5).map fun d => bitsOf r (224 + 40 * d) 40, dims := (List.range 5).map fun d => bitsOf r (64 + 32 * d) 32,
    base := bitsOf r 0 64 }

/-- The bytes of the box. -/
def Layout.boxBytes (l : Layout) : Nat := ((l.box.take l.rank).map (· + 1)).prod * l.es

/-- Whether a record is valid for a team of n logical bays; rankOk says whether a space-1 BASE names a team of the group (R272). -/
def Layout.valid (l : Layout) (n : Nat) (rankOk : Bool) : Bool :=
  decide (l.reserved = 0 ∧ 1 ≤ l.rank ∧ l.rank ≤ 5) &&
    ((List.range 5).all fun d =>
      if d < l.rank then decide (1 ≤ l.dims.getD d 0 ∧ l.strides.getD d 0 % l.es = 0)
      else decide (l.dims.getD d 0 = 0 ∧ l.strides.getD d 0 = 0 ∧ l.box.getD d 0 = 0)) &&
    decide (l.boxBytes ≤ 65536 ∧ l.bay + (l.boxBytes + 4095) / 4096 ≤ n ∧ (l.swz = 0 ∨ l.boxBytes % (16 * 2 ^ l.swz) = 0)) &&
    (decide (ptrSpace l.base = 0 ∨ ptrSpace l.base = 4) || (decide (ptrSpace l.base = 1) && rankOk))

/-- The landing offset of box byte o under the swizzle (R273). -/
def Layout.place (l : Layout) (o : Nat) : Nat :=
  if l.swz = 0 then o
  else
    let w := 16 * 2 ^ l.swz
    o ^^^ (o / w % (w / 16) * 16)

/-- The box coordinates of an element, dimension 0 fastest. -/
def boxCoords : List Nat → Nat → List Nat
  | [], _ => []
  | b :: t, e => e % (b + 1) :: boxCoords t (e / (b + 1))

/-- The source of a byte of a copy. -/
inductive SrcByte where
  | const (b : Byte)
  | from_ (p : Nat)
  deriving DecidableEq, Repr

/-- The source of box byte b: a byte of FILL out of bounds, else a tagged address (R273). -/
def Layout.source (l : Layout) (x : List Int) (b : Nat) : SrcByte :=
  let j := boxCoords (l.box.take l.rank) (b / l.es)
  let at0 (d : Nat) : Int := x.getD d 0 + (j.getD d 0 : Nat)
  if (List.range l.rank).all fun d => decide (0 ≤ at0 d ∧ at0 d < (l.dims.getD d 0 : Nat)) then
    .from_ (ptrAdd l.base (((List.range l.rank).map fun d => at0 d * (l.strides.getD d 0 : Nat)).sum + (b % l.es : Nat)))
  else .const (BitVec.ofNat 8 (l.fill / 256 ^ (b % l.es % 4)))

/-! ### What a copy reads and writes -/

/-- The scratchpad copies of a team, in issue order. -/
def State.teamCopies (s : State) (tn : Nat) : List (Nat × Copy) :=
  (((amGet s.teams tn).map Team.copies).getD []).filterMap fun id =>
    (amGet s.copies id).bind fun cp => if cp.kind ≠ .overlay ∧ cp.region.isNone then some (id, cp) else none

/-- The source of byte b. -/
def Copy.source (cp : Copy) (b : Nat) : SrcByte :=
  match cp.kind with
  | .tensor => (layoutOf (ofBytes cp.recB)).source cp.coords b
  | _ => .from_ (ptrAdd cp.src b)

/-- The offset from dst at which byte b lands. -/
def Copy.place (cp : Copy) (b : Nat) : Nat := match cp.kind with | .tensor => (layoutOf (ofBytes cp.recB)).place b | _ => b

/-- The place of a source byte: a physical address, a constant, or the CODE it ends the copy with (R344). -/
def State.copySrc (s : State) (cp : Copy) : SrcByte → Except Nat (Nat ⊕ Byte)
  | .const b => .ok (.inr b)
  | .from_ p =>
    match amGet s.teams cp.team with
    | none => .error 3
    | some t =>
      match amGet s.grids t.grid with
      | none => .error 3
      | some g =>
        if ptrSpace p = 1 then
          (match s.rankTeam t.grid t.group (ptrRank p) with
           | some (_, r) => (match r.spAddr g.lr.bays (ptrOff p) with
              | some a => if ptrOff p < 2 ^ 18 then .ok (.inl a) else .error 3
              | none => .error 3)
           | none => .error 3)
        else if ptrRank p ≠ 0 then .error 3
        else if ptrSpace p = 4 then (if ptrOff p < 64 then .ok (.inr (g.lr.param.getD (ptrOff p) 0)) else .error 3)
        else
          match s.transNow (cuSite cp.cu) cp.ctx (ptrOff p) false (((amGet s.ctxs cp.ctx).map Ctx.sup).getD false) false with
          | .ok a => .ok (.inl a)
          | .bad c _ _ => .error (if c = 6 then 2 else 6)

/-- The clocks to the first unit of a source (R290), once its translation has been asked for. -/
def State.copyLatency (s : State) (cp : Copy) : Nat :=
  match cp.source 0 with
  | .const _ => 20
  | .from_ p =>
    match s.copySrc cp (.from_ p) with
    | .ok (.inl a) =>
      if onChip a then s.chipLatency cp.cu a else s.transClocks (cuSite cp.cu) cp.ctx (ptrOff p) + s.homeLatency (cuSite cp.cu) a
    | _ => 20

/-- Whether the team of a copy is favoured. -/
def State.favouredCopy (s : State) (cp : Copy) : Bool := ((amGet s.teams cp.team).map fun t => s.favoured t).getD false

/-- The virtual addresses in space 0 of byte b's source and, for a region, of its destination. -/
def Copy.pagesAt (cp : Copy) (b : Nat) : List Nat :=
  (match cp.source b with | .from_ p => if ptrSpace p = 0 then [ptrOff p] else [] | .const _ => []) ++
    if cp.region.isSome then [cp.dst + b] else []

/-- A copy has its engine ask for the translations of addresses (R105): the clocks they still take. -/
def State.copyTrans (s : State) (cp : Copy) (vas : List Nat) : State × Nat :=
  vas.foldl (fun (m : State × Nat) va =>
    let r := m.1.translate (s.favouredCopy cp) (cuSite cp.cu) cp.ctx va
    (r.1, max m.2 r.2)) (s, 0)

/-- The logical bays a scratchpad copy touches. -/
def Copy.bays (cp : Copy) : List Nat :=
  (List.range ((cp.dst + cp.n - 1) / 4096 - cp.dst / 4096 + 1)).map (cp.dst / 4096 + ·)

/-! ### Issue (R269, R273, R275, R277) -/

/-- Starts the copies of a CU whose strands' earlier events have performed (R163), and lets scratchpad copies take their landing
bays in the team's issue order (R274).

DEDUCED (log entry 32, unsafe): order of a copy's failures and of landing bays. -/
def State.startCopy (s : State) (id : Nat) : State :=
  match amGet s.copies id with
  | none => s
  | some cp =>
    let asked := decide (cp.code = 0) && !cp.started && !s.earlierPending id cp.uid cp.kin
    let tr := if asked then s.copyTrans cp (cp.pagesAt 0) else (s, 0)
    let s := tr.1
    let cp1 := if !cp.started && !s.earlierPending id cp.uid cp.kin then
        { cp with started := true, readyAt := s.clock + max tr.2 (s.copyLatency cp),
                  walked := if asked then ((cp.pagesAt 0).head?.map (· / 4096)) else none } else cp
    let cp2 :=
      if cp.code ≠ 0 ∨ cp.region.isSome ∨ cp.landing ≠ [] then cp1
      else
        match amGet s.teams cp.team with
        | none => cp1
        | some t =>
          let before := (s.teamCopies cp.team).takeWhile fun q => decide (q.1 ≠ id)
          let used := before.flatMap fun q => q.2.landing.map Prod.snd
          let free := t.spares.filter fun b => !used.contains b
          if (before.all fun q => decide (q.2.landing ≠ [] ∨ q.2.code ≠ 0)) && decide (cp.bays.length ≤ free.length) then
            { cp1 with landing := cp.bays.zip free } else cp1
    { s with copies := amSet s.copies id cp2 }

def State.startCopies (s : State) (cu : Nat) : State := (s.cu cu).copies.foldl State.startCopy s

/-- Whether a copy still has units to move or waits to fail. -/
def Copy.busy (cp : Copy) : Bool := decide (cp.kind ≠ .overlay) && (decide (cp.code ≠ 0) || decide (cp.moved < cp.total))

/-- Keeps the copy engine of a CU stepping while it has work, or, dead, copies to end (R360). -/
def State.tickCopies (s : State) (cu : Nat) : State :=
  if ((s.cu cu).copies.any fun id => ((amGet s.copies id).map Copy.busy).getD false || (s.cu cu).engineDead) && !s.agenda.any fun a => decide (a.ev = .copyUnitMove cu) then
    s.after 1 (prioRead + engineAgent 1 cu) (.copyUnitMove cu)
  else s

/-- The logical clock of a CU's copy engine: at least the horizon that its die joined at (R155, R314). -/
def State.engineClock (s : State) (cu : Nat) : Nat := max (s.cu cu).engineC (amGetD s.dies (cuSite cu) {}).floor

/-- Reads of a copy engine (R153, R155): they are events of the engine's agent, whose timestamps rise from read to read. The last of them. -/
def State.engineReads (s : State) (cu ctx c : Nat) (l : List Nat) : Nat × State :=
  let t := s.stampReads ctx (max c (s.engineClock cu)) l
  (t.1, t.2.modCu cu fun x => { x with engineC := t.1 })

/-- Queues a copy of the issuing strand: ks takes 0 and a pending status write (R269). -/
def Iss.queueCopy (x : Iss) (s : State) (ks : Nat) (cp : Copy) : State :=
  let id := s.nextId
  let cp1 := { cp with ctx := x.cn, cu := x.cu, warp := x.k, uid := x.st.uid, fibre := x.st.fibre, team := x.tn, ks := some ks,
                       c := x.st.c, kin := x.st.kin, vc := x.st.clockOf }
  let s1 := { (s.setK x.k x.st.uid false ks 0) with copies := amSet s.copies id cp1 }.bump
  let s2 := s1.modWarp x.k fun w => { w.modStrand x.e Strand.tick with kpend := w.kpend ++ [(ks, id)], kops := amSet w.kops id x.st.uid }
  let s3 := (s2.modCu x.cu fun c => { c with copies := c.copies ++ [id] }).modTeam x.tn fun t => { t with copies := t.copies ++ [id] }
  x.advance ((s3.startCopies x.cu).tickCopies x.cu)

/-- The trap of pointer fields with class-5 codes, 0 for a good one (R269, R339). -/
def Iss.copyFault (x : Iss) (l : List (Nat × Nat)) : Option TrapInfo :=
  let bad := l.filter fun c => decide (c.1 ≠ 0)
  match bad with
  | [] => none
  | b :: t =>
    let low := t.foldl (fun m c => if c.1 < m.1 then c else m) b
    let i := (lowLane x.mask).getD 0
    some { cls := 5, code := low.1, addr := low.2, lanes := maskOf [i], detail := i }

/-- The values the side port may return for a scratchpad byte (R164): the one at the point, or one written after it. -/
def sideOptions (log : List (Nat × Byte)) (point off : Nat) : List Byte :=
  let old := ((log.take point).filter fun e => decide (e.1 = off)).getLast?.map Prod.snd
  old.getD 0 :: ((log.drop point).filter fun e => decide (e.1 = off)).map Prod.snd

/-- The record as the side port returns it; the free counter names the choices from n up. -/
def sideRead (log : List (Nat × Byte)) (point off n : Nat) : List Byte :=
  (List.range 64).map fun i =>
    let l := sideOptions log point (off + i)
    l.getD (Config.sidePortPick (n + i) % l.length) 0

/-- The poisoned coordinates CPY reads: lanes below RANK (R273, R351). -/
def Iss.coordPoison (x : Iss) (s : State) (vc rank : Nat) : Option State :=
  let lanes := (lanesOf x.mask).filter fun i => decide (i < rank)
  if 120 ≤ vc then none
  else
    match lanes.filterMap fun i => (x.regPoison s vc i).map fun o => (i, o) with
    | (i, o) :: t => some (x.trap s { cls := 8, code := 1, detail := detail8 vc 0 o i, lanes := maskOf (i :: t.map Prod.fst) })
    | [] => none

/-- Copies a tensor box described by a layout record into scratchpad. (R273) -/
def execCpy (g : Pfx) (k : BitVec 8) (l c : BitVec 7) (s : State) : Out :=
  issue (.cpy g k l c) s fun x s =>
    let p := x.lowPtr s l.toNat
    let code :=
      if ptrSpace p ≠ 1 then 1
      else if ptrRank p ≠ x.team.rank then 2
      else if 4096 * x.grid.lr.bays < ptrOff p + 64 then 3
      else if ptrOff p % 64 ≠ 0 then 4
      else 0
    match x.copyFault [(code, p)] with
    | some t => x.trap s t
    | none =>
      if 16 ≤ (s.cu x.cu).copies.length then x.stall s
      else
        let rec0 := sideRead x.team.spLog x.st.sideAt (ptrOff p) s.freeCtr
        let y := layoutOf (ofBytes rec0)
        match x.poisonCheck s with
        | some t => t
        | none =>
          match x.coordPoison s c.toNat y.rank with
          | some t => t
          | none =>
            let rankOk := decide (ptrRank y.base < x.grid.groupSize x.team.group)
            let bad := (List.range 16).any fun j =>
              match x.team.spAddr x.grid.lr.bays (ptrOff p + 4 * j) with | some a => !(s.poisonIn a 4).isEmpty | none => false
            let need := (y.boxBytes + 4095) / 4096
            let cp : Copy :=
              { ctx := x.cn, cu := x.cu, warp := x.k, uid := x.st.uid, fibre := x.st.fibre, team := x.tn, ks := none, kind := .tensor,
                src := y.base, dst := 4096 * y.bay, n := y.boxBytes, recB := rec0, total := (y.boxBytes + 63) / 64,
                coords := (List.range 5).map fun d => (x.src s c.toNat d).toInt,
                code := if bad then 6 else if !y.valid x.grid.lr.bays rankOk then 1 else if x.grid.lr.spare < need then 4 else 0 }
            let s1 := (s.engineReads x.cu x.cn x.st.c (x.team.spAddr x.grid.lr.bays (ptrOff p)).toList).2
            x.queueCopy (s1.bumpFree 64) k.toNat cp

/-- The shadow-paired region of a context that holds n bytes from va whole (R276). -/
def Ctx.regionOf (c : Ctx) (va n : Nat) : Option Nat :=
  (List.range c.shadows.length).find? fun j => match c.shadows[j]? with
    | some r => decide (r.base ≤ va ∧ va + n ≤ r.base + r.bytes)
    | none => false

/-- Copies a linear run of bytes into scratchpad or a shadow-paired region. (R275) -/
def execCpyl (g : Pfx) (k : BitVec 8) (sr d : BitVec 7) (s : State) : Out :=
  issue (.cpyl g k sr d) s fun x s =>
    let pd := x.lowPtr s d.toNat
    let ps := x.lowPtr s sr.toNat
    let codeD :=
      if 1 < ptrSpace pd then 1
      else if ptrRank pd ≠ (if ptrSpace pd = 1 then x.team.rank else 0) then 2
      else if ptrOff pd % 64 ≠ 0 then 4
      else 0
    let codeS :=
      if ptrSpace ps ≠ 0 ∧ ptrSpace ps ≠ 1 ∧ ptrSpace ps ≠ 4 then 1
      else if (if ptrSpace ps = 1 then x.grid.groupSize x.team.group ≤ ptrRank ps else ptrRank ps ≠ 0) then 2
      else if ptrOff ps % 64 ≠ 0 then 4
      else 0
    match x.copyFault [(codeD, pd), (codeS, ps)] with
    | some t => x.trap s t
    | none =>
      if 16 ≤ (s.cu x.cu).copies.length then x.stall s
      else
        match x.poisonCheck s with
        | some t => t
        | none =>
          let n := ((x.prefixOp false).setWidth 32).toNat
          let scratch := decide (ptrSpace pd = 1)
          let region := if scratch then none else x.ctx.regionOf (ptrOff pd) n
          let code :=
            if n % 64 ≠ 0 ∨ n < 64 ∨ (if scratch then 65536 else 2 ^ 30 - 64) < n then 9
            else if scratch then
              (if 4096 * x.grid.lr.bays < ptrOff pd + n then 5
               else if x.grid.lr.spare < (ptrOff pd + n - 1) / 4096 - ptrOff pd / 4096 + 1 then 4 else 0)
            else if region.isNone then 5 else 0
          x.queueCopy s k.toNat
            { ctx := x.cn, cu := x.cu, warp := x.k, uid := x.st.uid, fibre := x.st.fibre, team := x.tn, ks := none, kind := .linear,
              src := ps, dst := ptrOff pd, n := n, total := n / 64, region := region, code := code }

/-- Requests that an overlay be made resident. (R277) -/
def execOvload (g : Pfx) (k n : BitVec 8) (s : State) : Out :=
  issueP (.ovload g k n) s fun x s =>
    match s.bank x.cu x.cn x.grid.lr.code n.toNat with
    | some _ =>
      let id := s.nextId
      let s1 := (s.setK x.k x.st.uid false k.toNat 0).modWarp x.k fun w =>
        { w with kpend := w.kpend ++ [(k.toNat, id)], kops := amSet w.kops id x.st.uid }
      x.advance ((s1.after 2 prioResult (.statusWordWrite x.k k.toNat id 0x80000000)).bump)
    | none =>
      if 16 ≤ (s.cu x.cu).copies.length then x.stall s
      else
        let id := s.nextId
        let s1 := x.queueCopy s k.toNat
          { ctx := x.cn, cu := x.cu, warp := x.k, uid := x.st.uid, fibre := x.st.fibre, team := x.tn, ks := none, kind := .overlay }
        let r := s1.requestOverlay (s.favoured x.team) x.cn x.cu x.grid.lr.code n.toNat
        { r.1 with ovls := amMod r.1.ovls r.2 fun o => { o with copies := o.copies ++ [id] } }

/-! ### The publish (R97, R165, R274, R276) -/

/-- The runs of a scratchpad copy: logical bay, landing place, first byte in the bay, count, first byte of the copy. -/
def Copy.runs (cp : Copy) : List (Nat × Nat × Nat × Nat × Nat) :=
  cp.landing.map fun l =>
    let lo := max cp.dst (4096 * l.1)
    let hi := min (cp.dst + cp.n) (4096 * l.1 + 4096)
    (l.1, l.2, lo - 4096 * l.1, hi - lo, lo - cp.dst)

/-- Gives n bytes from a one timestamp (R165). -/
def State.stampRun (s : State) (a n ts : Nat) : State :=
  (List.range ((a + n - 1) / 64 - a / 64 + 1)).foldl (fun s i =>
    let l := lineOf a + i
    { s.setLine l { s.line l with wts := ts, rts := ts } with tmax := raise s.tmax (homeOf (l * 64) * 64 + sliceOf (l * 64)) ts }) s

/-- The largest lease end of the lines of n bytes from a. -/
def State.runRts (s : State) (a n : Nat) : Nat :=
  (List.range ((a + n - 1) / 64 - a / 64 + 1)).foldl (fun t i => max t (s.line (lineOf a + i)).rts) 0

/-- Logs a publish's bytes as writes of the issuing fibre (R289). -/
def State.notePublish (s : State) (cp : Copy) (a n : Nat) (wrote : Bool) : State :=
  match (amGet s.teams cp.team).bind fun t => amGet s.grids t.grid with
  | some g =>
    if g.det then s.detNote cp.ctx (fibreId cp.team (s.warpNumber cp.warp) cp.fibre) cp.cu { uid := cp.uid, vc := cp.vc } a n wrote false
    else s
  | none => s

/-- A scratchpad copy publishes: every touched bay takes its landing bay in one event. -/
def State.publishBays (s : State) (id : Nat) (cp : Copy) (t : Team) : State :=
  let at0 (o : Nat) : Nat := bankAddr cp.cu o
  let ts := cp.runs.foldl (fun m r => max m (s.runRts (at0 (t.bays.getD r.1 0) + r.2.2.1) r.2.2.2.1 + 1)) (max cp.c (s.engineClock cp.cu) + 1)
  let s1 := cp.runs.foldl (fun s r =>
    let old := at0 (t.bays.getD r.1 0)
    let new := at0 r.2.1
    let bs := spRead cp.landed r.2.2.2.2 r.2.2.2.1
    let moved := ((s.putImage new 4096 (s.image old 4096)).moveLines old new 4096).moveAddrs old new 4096
    let s2 := ((moved.store (new + r.2.2.1) bs).stampRun (new + r.2.2.1) bs.length ts).modTeam cp.team fun t =>
      { t with bays := t.bays.set r.1 r.2.1, spares := t.spares.map fun b => if b = r.2.1 then old - at0 0 else b }
    (((s2.notePublish cp (new + r.2.2.1) bs.length true).noteBytes cp.uid false (new + r.2.2.1) bs.length).logSp (new + r.2.2.1) bs).afterWrite
      (new + r.2.2.1) bs.length ts 0) (s.modCu cp.cu fun c => { c with engineC := ts })
  ((s1.foldNear cp.cu ts).foldHub cp.ctx ts).endCopy id 0 cp.total 0 ts cp.vc

/-- The lines that the publish of a scratchpad copy writes, where they lie before it. -/
def Copy.publishLines (cp : Copy) (t : Team) : List Nat :=
  cp.runs.flatMap fun r => linesOf (bankAddr cp.cu (t.bays.getD r.1 0) + r.2.2.1) r.2.2.2.1

/-- Whether a copy waits for spare bays that earlier publishes are to free (R274). -/
def Copy.wantsBays (cp : Copy) : Bool := decide (cp.landing = [] ∧ cp.code = 0) && cp.region.isNone && decide (cp.kind ≠ .overlay)

/-- Whether the publish of a team's landed copies is deferred (R288): in a stop, unless a later copy has yet to land in the bays that it frees.

DEDUCED (log entry 105, unsafe): in a stop every copy is to land its last unit (R318), for which the publishes that it waits for take place. -/
def State.publishDeferred (s : State) (cp : Copy) : Bool :=
  let x := (amGet s.ctxs cp.ctx).map Ctx.state
  decide (x ≠ some .running) && !(decide (x = some .stopping) && (s.teamCopies cp.team).any fun q => q.2.wantsBays)

/-- Publishes the landed copies of a team in issue order, while its context runs (R274, R288); one that finds a line held waits in its queue
(R230). -/
def State.publishTeam (s : State) (tn : Nat) : Nat → State
  | 0 => s
  | n + 1 =>
    match s.teamCopies tn, amGet s.teams tn with
    | (id, cp) :: _, some t =>
      if !cp.ended || s.publishDeferred cp then s
      else if t.bayMoving then s.after 1 (prioWrite + engineAgent 1 cp.cu) (.copyPublish id)
      else match s.waitLines id (cp.publishLines t) with
      | some s' => s'
      | none => ((s.publishBays id cp t).leaveAll id).publishTeam tn n
    | _, _ => s

/-- A copy ends with a CODE (R344): what waits behind it goes on. -/
def State.copyFails (s : State) (id : Nat) (cp : Copy) (code : Nat) : State :=
  ((s.endCopy id code cp.moved 0 cp.c cp.vc).startCopies cp.cu).publishTeam cp.team 17

/-- The physical places of a page of a region: the selected copy and the other. -/
def State.regionPage (s : State) (cp : Copy) (r : Shadow) (va : Nat) : Option (Nat × Nat) :=
  match s.transNow (cuSite cp.cu) cp.ctx va false true false with
  | .ok a => some (a, ((a : Int) + (if r.second then -r.delta else r.delta)).toNat)
  | .bad _ _ _ => none

/-- Drops the L1 copies of n bytes from a. -/
def State.dropCopies (s : State) (a n : Nat) : State :=
  { s with l1 := s.l1.map fun (c : Nat × AMap L1Line) => (c.1, c.2.filter fun e => !(decide (lineOf a ≤ e.1) && decide (e.1 < lineOf (a + n)))) }

/-- Writes back and drops the view lines of n bytes from a. -/
def State.evictRun (s : State) (a n : Nat) : State :=
  (s.lines.filter fun e => decide (lineOf a ≤ e.1) && decide (e.1 < lineOf (a + n)) && e.2.view.isSome).foldl (fun s e => s.evictLine e.1) s

/-- The owners of the lines of n bytes from a give them up (R157). -/
def State.disown (s : State) (a n : Nat) : State :=
  (s.lines.filter fun e => decide (lineOf a ≤ e.1) && decide (e.1 < lineOf (a + n)) && e.2.owner.isSome).foldl (fun s e => s.setOwner e.1 none) s

/-- The pages of a region: each address with the places of the selected copy and of the other. -/
def State.regionPages (s : State) (cp : Copy) (r : Shadow) : List (Nat × Nat × Nat) :=
  (List.range (r.bytes / 4096)).filterMap fun i => (s.regionPage cp r (r.base + 4096 * i)).map fun p => (r.base + 4096 * i, p)

/-- The lines of pages, each given by an address in it, that others hold or wait for. -/
def State.heldIn (s : State) (pages : List Nat) : List Nat :=
  (s.lines.filter fun e => !s.lineFree e.1 &&
    pages.any fun p => decide (e.1 * 64 / 4096 = p / 4096)).map Prod.fst

/-- A region copy publishes (R276): the other copy of the whole region takes the copied bytes and, elsewhere, what the region
holds; then every home slice flips its selector. -/
def State.publishRegion (s : State) (id : Nat) (cp : Copy) (j : Nat) (r : Shadow) : State :=
  let pages := s.regionPages cp r
  let run (va : Nat) : Nat × Nat := (max cp.dst va, min (cp.dst + cp.n) (va + 4096))
  let s0 := pages.foldl (fun s p => (((s.disown p.2.1 4096).disown p.2.2 4096).evictRun p.2.1 4096).evictRun p.2.2 4096) s
  let ts := pages.foldl (fun m p =>
    let q := run p.1
    if q.1 < q.2 then max m (max (s0.runRts (p.2.1 + (q.1 - p.1)) (q.2 - q.1)) (s0.runRts (p.2.2 + (q.1 - p.1)) (q.2 - q.1)) + 1) else m)
    (max cp.c (s.engineClock cp.cu) + 1)
  let s1 := pages.foldl (fun s p =>
    let s1 := (((s.putImage p.2.2 4096 (s.image p.2.1 4096)).moveLines p.2.1 p.2.2 4096).moveAddrs p.2.1 p.2.2 4096).dropCopies p.2.1 4096
    let s2 := s1.dropCopies p.2.2 4096
    let q := run p.1
    if q.1 < q.2 then
      let a := p.2.2 + (q.1 - p.1)
      let bs := spRead cp.landed (q.1 - cp.dst) (q.2 - q.1)
      ((((s2.storeRun a bs).stampRun a bs.length ts).notePublish cp a bs.length true).noteBytes cp.uid false a bs.length).afterWrite a bs.length ts 0
    else s2) (s0.modCu cp.cu fun c => { c with engineC := ts })
  let s2 := s1.modCtx cp.ctx fun c => { c with shadows := c.shadows.set j { r with second := !r.second } }
  ((s2.foldNear cp.cu ts).foldHub cp.ctx ts).endCopy id 0 cp.total 0 ts cp.vc

/-- A region copy that has landed publishes (R230, R276): a line of the region that another holds is waited for in its queue; a home of the
region that is contained ends the copy as a source there does (R344, R360). -/
def State.tryRegion (s : State) (id : Nat) (cp : Copy) (j : Nat) (r : Shadow) : State :=
  let pages := s.regionPages cp r
  if pages.any fun p => s.contained p.2.1 || s.contained p.2.2 then ((s.containCtx cp.ctx).copyFails id cp 6).leaveAll id
  else match s.waitLines id (s.heldIn (pages.flatMap fun p => [p.2.1, p.2.2])) with
  | some s' => s'
  | none => (s.publishRegion id cp j r).leaveAll id

/-- A completed copy publishes as one event, swapping bays or flipping region selectors, and writes its status. (R274) -/
def execCopyPublish (id : Nat) (s : State) : Out :=
  .next <|
    match amGet s.copies id with
    | none => s
    | some cp =>
      let s1 := { s with copies := amSet s.copies id { cp with ended := true, endedAt := if cp.ended then cp.endedAt else s.clock } }
      match cp.region with
      | none => (((s1.publishTeam cp.team 17).leaveAll id).startCopies cp.cu).settle
      | some j =>
        match (amGet s1.ctxs cp.ctx).bind fun c => if c.state = .running then c.shadows[j]? else none with
        | none => s1.leaveAll id
        | some r => (s1.tryRegion id cp j r).settle

/-! ### Moving units (R269, R344) -/

/-- The bytes of the next unit, ascending: where each lands and what it holds, or the CODE that ends the copy; none while one
of its lines is held. -/
def State.unitOf (s : State) (cp : Copy) : Except Nat (List (Nat × (Nat ⊕ Byte))) :=
  (List.range (min 64 (cp.n - 64 * cp.moved))).foldl (fun (m : Except Nat (List (Nat × (Nat ⊕ Byte)))) (i : Nat) =>
    match m with
    | .error c => .error c
    | .ok l =>
      let b := 64 * cp.moved + i
      match s.copySrc cp (cp.source b) with
      | .error c => .error c
      | .ok (.inl a) => if s.contained a || !(s.poisonIn a 1).isEmpty then .error 6 else .ok (l ++ [(cp.place b, .inl a)])
      | .ok x => .ok (l ++ [(cp.place b, x)])) (.ok [])

/-- The CODE of a unit's destination page: a region page must translate for writing (R344). -/
def State.unitDst (s : State) (cp : Copy) : Nat :=
  match cp.region with
  | none => 0
  | some _ =>
    match s.transNow (cuSite cp.cu) cp.ctx (cp.dst + 64 * cp.moved) true (((amGet s.ctxs cp.ctx).map Ctx.sup).getD false) false with
    | .ok _ => 0
    | .bad c _ _ => if c = 6 then 2 else 6

/-- The clocks from a copy's last unit to its publish (R290): four clocks after it, and for a region a round trip to the farthest home die of
the pages it touches. -/
def State.publishClocks (s : State) (cp : Copy) : Nat :=
  5 + match cp.region with
  | none => 0
  | some _ =>
    (List.range ((cp.dst + cp.n - 1) / 4096 - cp.dst / 4096 + 1)).foldl (fun m i =>
      match s.transNow (cuSite cp.cu) cp.ctx (cp.dst + 4096 * i) true true false with
      | .ok a => max m (fullL2 (s.hops (cuSite cp.cu) (homeOf a)))
      | .bad _ _ _ => m) 0

/-- Whether a unit reads a byte of a contained home (R360). -/
def State.unitContained (s : State) (cp : Copy) : Bool :=
  (List.range (min 64 (cp.n - 64 * cp.moved))).any fun i =>
    match s.copySrc cp (cp.source (64 * cp.moved + i)) with | .ok (.inl a) => s.contained a | _ => false

/-- Writes landed bytes into the landing bays of a scratchpad copy (R97): the store of the spare bays, in no event. -/
def State.landBytes (s : State) (cp : Copy) (l : List (Nat × Byte)) : State :=
  if cp.region.isSome then s
  else
    l.foldl (fun s p =>
      match cp.landing.find? fun b => decide (b.1 = (cp.dst + p.1) / 4096) with
      | some b => s.store (bankAddr cp.cu (b.2 + (cp.dst + p.1) % 4096)) [p.2]
      | none => s) s

/-- The flits of a unit (R21, R116): for each source line a request and its answer, and for a region the data to its home. The clocks they
wait. -/
def State.unitFlits (s : State) (cp : Copy) (lines : List Nat) : State × Nat :=
  let site := cuSite cp.cu
  let fav := s.favouredCopy cp
  let r := lines.foldl (fun (t : State × Nat) l => let f := t.1.sendRound cp.ctx site (l * 64) 1 fav; (f.1, max t.2 f.2)) (s, 0)
  match cp.region, s.transNow site cp.ctx (cp.dst + 64 * cp.moved) true true false with
  | some _, .ok a => let f := r.1.sendFlits cp.ctx site (homeOf a) 1 fav false 0; (f.1, max r.2 f.2)
  | _, _ => r

/-- The addresses of the next unit whose translations its die does not hold (R105), the page of a walk that has just ended in a fault apart:
that ends the copy. -/
def State.unitMisses (s : State) (cp : Copy) : List Nat :=
  ((List.range (min 64 (cp.n - 64 * cp.moved))).flatMap fun i => cp.pagesAt (64 * cp.moved + i)).filter fun va =>
    (s.cached none (cuSite cp.cu) cp.ctx va).isNone && (decide (cp.walked ≠ some (va / 4096)) || (s.walkOf cp.ctx va).isSome)

/-- Moves the next unit of a copy: its source reads are events of the copy (R163), in the engine's agent order (R155). One whose page is not
translated waits for a walk (R105), and one whose lines are held waits in their queues (R230). -/
def State.moveUnit (s : State) (id : Nat) (cp : Copy) : State :=
  match s.unitMisses cp with
  | va :: _ =>
    let t := s.copyTrans cp [va]
    { t.1.leaveAll id with copies := amSet (t.1.leaveAll id).copies id { cp with readyAt := s.clock + max 1 t.2, walked := some (va / 4096) } }
  | [] =>
  match s.unitOf cp, s.unitDst cp with
  | .error c, _ => (if s.unitContained cp then s.containCtx cp.ctx else s).copyFails id cp c
  | .ok l, 0 =>
    let at0 := l.filterMap fun p => match p.2 with | .inl a => some a | .inr _ => none
    let lines := linesAt at0
    match s.waitLines id lines with
    | some s' => s'
    | none =>
      let key := cp.ctx * 8 + cuSite cp.cu
      let s1 := { s with copyUsed := amSet s.copyUsed key (amGetD s.copyUsed key 0 + 1) }
      let f := s1.unitFlits cp lines
      let r := f.1.engineReads cp.cu cp.ctx cp.c (lines.map (64 * ·))
      let s2 := at0.foldl (fun s a => s.notePublish cp a 1 false) r.2
      let s3 := (cp.pagesAt (64 * cp.moved)).foldl (fun s va => s.useTrans (cuSite cp.cu) cp.ctx va) s2
      let bytes : List (Nat × Byte) := l.map fun p => (p.1, match p.2 with | .inl a => s2.byte a | .inr b => b)
      let cp1 : Copy := { cp with moved := cp.moved + 1, landed := bytes.foldl (fun (m : Sparse 8) p => spSet m p.1 p.2) cp.landed, c := r.1,
                                  readyAt := if f.2 = 0 then cp.readyAt else s.clock + f.2 }
      let s4 := ({ s3 with copies := amSet s3.copies id cp1 }.landBytes cp bytes).leaveLines id lines
      if cp1.moved = cp1.total then s4.after (s.publishClocks cp + f.2) (prioWrite + engineAgent 1 cp.cu) (.copyPublish id) else s4
  | .ok _, c => s.copyFails id cp c

/-- Whether the COPY budget of a copy's context admits a unit (R116, R117). -/
def State.copyAdmits (s : State) (cp : Copy) : Bool :=
  admits (amGetD s.copyUsed (cp.ctx * 8 + cuSite cp.cu) 0) (((amGet s.ctxs cp.ctx).map Ctx.copyLimit).getD 0) 1
    (s.favouredCopy cp)

/-- One unit of a copy, if it is ready and its budget admits it; the round robin goes on behind it. -/
def State.tryUnit (s : State) (cu id : Nat) : State :=
  match amGet s.copies id with
  | none => s
  | some cp =>
    if cp.started && decide (cp.readyAt ≤ s.clock ∧ cp.moved < cp.total ∧ cp.code = 0) && (decide (cp.landing ≠ []) || cp.region.isSome) &&
        s.copyAdmits cp then
      (s.moveUnit id cp).modCu cu fun c => { c with rr := id }
    else s

/-- Every copy of a dead engine ends with CODE 6, and the contexts that are told so are contained (R360). -/
def State.loseEngine (s : State) (cu : Nat) : State :=
  (s.cu cu).copies.foldl (fun s id =>
    match amGet s.copies id with
    | some cp => ((s.containCtx cp.ctx).copyFails id cp 6).leaveAll id
    | none => s) s

/-- The copy engine moves up to two 64-byte units per clock, shared round robin. (R269) One that its budget defers holds no line meanwhile. -/
def execCopyUnitMove (cu : Nat) (s : State) : Out :=
  .next <|
    if (s.cu cu).engineDead then (s.loseEngine cu).settle
    else if (s.cu cu).engineMute then s
    else
    let s0 := s.startCopies cu
    let s1 := if (s0.cu cu).copies.any fun id => (amGet s0.copies id).any fun cp => cp.wantsBays &&
          decide (((amGet s0.ctxs cp.ctx).map Ctx.state) = some .stopping)
      then ((s0.cu cu).copies.foldl (fun s id => match amGet s.copies id with
        | some cp => if cp.wantsBays then s.publishTeam cp.team 17 else s
        | none => s) s0).startCopies cu
      else s0
    let s2 := (s1.cu cu).copies.foldl (fun s id =>
      match amGet s.copies id with
      | some cp => if cp.code ≠ 0 ∧ cp.started ∧ cp.readyAt ≤ s.clock then s.copyFails id cp cp.code else s
      | none => s) s1
    let act := (s2.cu cu).copies.filter fun id => match amGet s2.copies id with
      | some cp => cp.busy && (decide (cp.landing ≠ []) || cp.region.isSome)
      | none => false
    let ready := act.filter fun id => match amGet s2.copies id with
      | some cp => cp.started && decide (cp.readyAt ≤ s2.clock) && s2.copyAdmits cp
      | none => false
    let turn := (ready.filter fun id => decide ((s2.cu cu).rr < id)) ++ ready.filter fun id => decide (id ≤ (s2.cu cu).rr)
    let picks := match act, turn with
      | [_], [a] => [a, a]
      | _, l => l.take 2
    let s3 := (act.filter fun id => (amGet s2.copies id).any fun cp => !s2.copyAdmits cp).foldl State.leaveAll s2
    ((picks.foldl (fun s id => s.tryUnit cu id) s3).tickCopies cu).settle

end Sys2Proof.Machine
end

