-- ==== Sys2Proof/Machine/Elementary.lean ====
section
/-! DEFINITION. EXP2, LOG2, SIN and COS (R133): round_rne of the exact value, through fixed-point values carried far
beyond binary32's precision with a low bit that says the exact value goes on. That no binary32 operand's exact result
lies within the carried error of a rounding boundary is PRESUMED (log entry 7). -/

namespace Sys2Proof.Machine

/-- ln 2 × 2^200, cut to an integer. -/
def ln2Fix : Nat := 0xb17217f7d1cf79abc9e3b39803f2f6af40f343267298b62d8a

/-- π × 2^520, cut to an integer. -/
def piFix : Nat := 0x3243f6a8885a308d313198a2e03707344a4093822299f31d0082efa98ec4e6c89452821e638d01377be5466cf34e90c6cc0ac29b7c97c50dd3f84d5b5b547091792

/-- Σ y^k / k! for k below n, in fixed point with w fraction bits: term is y^k / k! of the current k. -/
def expSeries : Nat → Nat → Nat → Nat → Nat → Nat → Nat
  | 0, _, _, _, _, acc => acc
  | n + 1, w, y, k, term, acc => expSeries n w y (k + 1) (term * y / 2 ^ w / (k + 1)) (acc + term)

/-- 2^(r / 2^w') with 0 ≤ r < 2^w' as a fixed-point number with 200 fraction bits. -/
def exp2Frac (r wr : Nat) : Nat := expSeries 60 200 (r * ln2Fix / 2 ^ wr) 0 (2 ^ 200) 0

/-- EXP2 (R133). -/
def fExp2 (a : Nat) : Nat × Flags :=
  match unpack fmt32 a with
  | .nan sig => (fmt32.nan, nvIf sig)
  | .inf s => (if s then fmt32.zero false else fmt32.inf false, 0)
  | .fin s m e =>
    if m = 0 then (roundMag fmt32 .rne false 1 0)
    else if !s && decide (8 ≤ e + bitLen m) then (fmt32.inf false, fOF ||| fNX)
    else if s && decide (9 ≤ e + bitLen m) then roundMag fmt32 .rne false 3 (-400)
    else if decide (e + bitLen m < -40) then
      -- 2^x lies strictly between 1 and its neighbour on the side of x
      (if s then roundMag fmt32 .rne false (2 ^ 60 - 1) (-60) else roundMag fmt32 .rne false (2 ^ 60 + 1) (-60))
    else
      let wr := (-(min e 0)).toNat
      let v : Int := (m : Int) * (2 ^ (max e 0).toNat : Nat)
      let x : Int := if s then -v else v
      let n := x / (2 ^ wr : Nat)
      let r := (x % (2 ^ wr : Nat)).toNat
      if r = 0 then roundMag fmt32 .rne false 1 n
      else roundMag fmt32 .rne false (2 * (exp2Frac r wr / 2 ^ 60) + 1) (n - 141)

/-- Bits of log2 z for z / 2^w in [1, 2): squares z and takes a bit each round. -/
def log2Bits : Nat → Nat → Nat → Nat → Nat
  | 0, _, _, acc => acc
  | n + 1, w, z, acc =>
    let q := z * z / 2 ^ w
    if 2 ^ (w + 1) ≤ q then log2Bits n w (q / 2) (2 * acc + 1) else log2Bits n w q (2 * acc)

/-- LOG2 (R133). -/
def fLog2 (a : Nat) : Nat × Flags :=
  match unpack fmt32 a with
  | .nan sig => (fmt32.nan, nvIf sig)
  | .inf s => if s then (fmt32.nan, fNV) else (fmt32.inf false, 0)
  | .fin s m e =>
    if m = 0 then (fmt32.inf true, fDZ)
    else if s then (fmt32.nan, fNV)
    else
      let top : Int := e + bitLen m - 1
      let z := m * 2 ^ (400 + 1 - bitLen m)
      if z = 2 ^ 400 then
        (if top = 0 then (fmt32.zero false, 0) else roundMag fmt32 .rne (decide (top < 0)) top.natAbs 0)
      else
        let v : Int := top * (2 ^ 160 : Nat) + log2Bits 160 400 z 0
        -- the exact value lies strictly above v / 2^160 and below the next multiple
        if v < 0 then roundMag fmt32 .rne true (2 * v.natAbs - 1) (-161)
        else roundMag fmt32 .rne false (2 * v.natAbs + 1) (-161)

/-- The alternating series of sine (k starts at 1) or cosine (k starts at 0) of y, in fixed point with w fraction bits. -/
def trigSeries : Nat → Nat → Nat → Nat → Int → Int → Int
  | 0, _, _, _, _, acc => acc
  | n + 1, w, y, k, term, acc =>
    trigSeries n w y (k + 2) (-(term * (y * y / 2 ^ w : Nat) / (2 ^ w : Nat) / (((k + 1) * (k + 2) : Nat) : Int))) (acc + term)

/-- sin (true) or cos (false) of a non-zero finite value (R133). -/
def fTrig (sine : Bool) (s : Bool) (m : Nat) (e : Int) : Nat × Flags :=
  if e + bitLen m < -40 then
    -- x(1 - x²/6) and 1 - x²/2 lie strictly below x and 1
    (if sine then roundMag fmt32 .rne s (m * 2 ^ 60 - 1) (e - 60) else roundMag fmt32 .rne false (2 ^ 60 - 1) (-60))
  else
    -- x in units of 2^-300
    let x := m * 2 ^ (e + 300).toNat
    -- x / (π/2) = x × 2^220 / (piFix / 2)
    let t := x * 2 ^ 221
    let n := t / piFix
    let r := (t % piFix) / 2 ^ 121
    -- r is the rest in units of 2^-400
    let quad := if sine then n % 4 else (n + 1) % 4
    let v := if quad % 2 = 0 then trigSeries 60 400 r 1 (r : Int) 0 else trigSeries 60 400 r 0 (2 ^ 400 : Nat) 0
    let neg := (decide (2 ≤ quad)) != (sine && s)
    roundMag fmt32 .rne (neg != decide (v < 0)) (2 * (v.natAbs / 2 ^ 200) + 1) (-201)

/-- SIN (R133). -/
def fSin (a : Nat) : Nat × Flags :=
  match unpack fmt32 a with
  | .nan sig => (fmt32.nan, nvIf sig)
  | .inf _ => (fmt32.nan, fNV)
  | .fin s m e => if m = 0 then (fmt32.zero s, 0) else fTrig true s m e

/-- COS (R133). -/
def fCos (a : Nat) : Nat × Flags :=
  match unpack fmt32 a with
  | .nan sig => (fmt32.nan, nvIf sig)
  | .inf _ => (fmt32.nan, fNV)
  | .fin s m e => if m = 0 then (roundMag fmt32 .rne false 1 0) else fTrig false s m e

end Sys2Proof.Machine
end

