-- ==== Sys2Proof/Machine/FloatLane.lean ====
section
/-! DEFINITION. The floating-point lane instructions (R191, R192) and conversions (R193-R196). -/

namespace Sys2Proof.Machine

/-- A float instruction of one source with its latency (R187): the result word and the flags of its active lanes (R129). -/
def laneF1 (i : Instr) (s : State) (a d lat : Nat) (f : Nat → Nat × Flags) : Out :=
  issueP i s fun x s =>
    let r := fun l => f (x.src s a l).toNat
    x.result s d false lat (if lat = 4 then 2 else lat) (orFlags x.mask fun l => (r l).2) fun l => BitVec.ofNat 32 (r l).1

/-- A float instruction of two sources. -/
def laneF2 (i : Instr) (s : State) (n : Bool) (a b d lat : Nat) (f : Nat → Nat → Nat × Flags) : Out :=
  issueP i s fun x s =>
    let r := fun l => f (x.src s a l).toNat (x.src s b l).toNat
    x.result s d n lat (if lat = 4 then 2 else lat) (orFlags x.mask fun l => (r l).2) fun l => BitVec.ofNat 32 (r l).1

/-- A fused multiply-add: D is addend and destination (R191). -/
def laneF3 (i : Instr) (s : State) (n : Bool) (a b d : Nat) (f : Nat → Nat → Nat → Nat × Flags) : Out :=
  issueP i s fun x s =>
    let r := fun l => f (x.src s a l).toNat (x.src s b l).toNat (x.src s d l).toNat
    x.result s d n 4 2 (orFlags x.mask fun l => (r l).2) fun l => BitVec.ofNat 32 (r l).1

/-- A float instruction of one source and an immediate pattern. -/
def laneFI (i : Instr) (s : State) (a d : Nat) (imm : BitVec 8) (f : Nat → Nat → Nat × Flags) : Out :=
  issueP i s fun x s =>
    let r := fun l => f (x.src s a l).toNat (viImm x.g imm).toNat
    x.result s d false 4 2 (orFlags x.mask fun l => (r l).2) fun l => BitVec.ofNat 32 (r l).1

/-- A compact float operation: the constant 1 is the float 1.0 (R41, R167). -/
def laneFC (i : Instr) (s : State) (c d : BitVec 5) (f : Nat → Nat → Nat × Flags) : Out :=
  issueP i s fun x s =>
    let r := fun l => f (x.src s d.toNat l).toNat (if c = 30 then 0x3F800000 else (x.src s (compactCode c) l).toNat)
    x.result s d.toNat false 4 2 (orFlags x.mask fun l => (r l).2) fun l => BitVec.ofNat 32 (r l).1

/-- A selection raises no flag (R131, R185). -/
def noFlags (f : Nat → Nat → Nat) (a b : Nat) : Nat × Flags := (f a b, 0)

/-- Both BF16 halves of packed operands, each on its own, the flags ORed (R192). -/
def halves2 (f : Nat → Nat → Nat × Flags) (a b : Nat) : Nat × Flags :=
  let lo := f (a % 65536) (b % 65536)
  let hi := f (a / 65536) (b / 65536)
  (lo.1 + 65536 * hi.1, lo.2 ||| hi.2)

/-- The same with three operands. -/
def halves3 (f : Nat → Nat → Nat → Nat × Flags) (a b d : Nat) : Nat × Flags :=
  let lo := f (a % 65536) (b % 65536) (d % 65536)
  let hi := f (a / 65536) (b / 65536) (d / 65536)
  (lo.1 + 65536 * hi.1, lo.2 ||| hi.2)

/-- VA binary32 add, rounded by the mode field. (R191) -/
def execFadd (g : Pfx) (n : BitVec 1) (b : BitVec 7) (a : BitVec 7) (d : BitVec 7) (m : BitVec 2) (s : State) : Out :=
  laneF2 (.fadd g n b a d m) s (n = 1) a.toNat b.toNat d.toNat 4 (fAdd fmt32 (Mode.ofCode m.toNat))

/-- VA binary32 subtract, rounded by the mode field. (R191) -/
def execFsub (g : Pfx) (n : BitVec 1) (b : BitVec 7) (a : BitVec 7) (d : BitVec 7) (m : BitVec 2) (s : State) : Out :=
  laneF2 (.fsub g n b a d m) s (n = 1) a.toNat b.toNat d.toNat 4 (fSub fmt32 (Mode.ofCode m.toNat))

/-- VA binary32 multiply, rounded by the mode field. (R191) -/
def execFmul (g : Pfx) (n : BitVec 1) (b : BitVec 7) (a : BitVec 7) (d : BitVec 7) (m : BitVec 2) (s : State) : Out :=
  laneF2 (.fmul g n b a d m) s (n = 1) a.toNat b.toNat d.toNat 4 (fMul fmt32 (Mode.ofCode m.toNat))

/-- VA fused multiply-add A×B+D with one rounding. (R191) -/
def execFfma (g : Pfx) (n : BitVec 1) (b : BitVec 7) (a : BitVec 7) (d : BitVec 7) (m : BitVec 2) (s : State) : Out :=
  laneF3 (.ffma g n b a d m) s (n = 1) a.toNat b.toNat d.toNat (fFma fmt32 (Mode.ofCode m.toNat))

/-- VA binary32 divide, rounded by the mode field. (R191) -/
def execFdiv (g : Pfx) (n : BitVec 1) (b : BitVec 7) (a : BitVec 7) (d : BitVec 7) (m : BitVec 2) (s : State) : Out :=
  laneF2 (.fdiv g n b a d m) s (n = 1) a.toNat b.toNat d.toNat 16 (fDiv fmt32 (Mode.ofCode m.toNat))

/-- VA float minimum under totalOrder, a selection that raises no flag. (R131) -/
def execFmin (g : Pfx) (n : BitVec 1) (b : BitVec 7) (a : BitVec 7) (d : BitVec 7) (s : State) : Out :=
  laneF2 (.fmin g n b a d) s (n = 1) a.toNat b.toNat d.toNat 4 (noFlags (fMin 32))

/-- VA float maximum under totalOrder, a selection that raises no flag. (R131) -/
def execFmax (g : Pfx) (n : BitVec 1) (b : BitVec 7) (a : BitVec 7) (d : BitVec 7) (s : State) : Out :=
  laneF2 (.fmax g n b a d) s (n = 1) a.toNat b.toNat d.toNat 4 (noFlags (fMax 32))

/-- Packed add of two BF16 halves, RNE. (R192) -/
def execFaddBf16x2 (g : Pfx) (n : BitVec 1) (b : BitVec 7) (a : BitVec 7) (d : BitVec 7) (s : State) : Out :=
  laneF2 (.faddBf16x2 g n b a d) s (n = 1) a.toNat b.toNat d.toNat 4 (halves2 (fAdd fmtBf .rne))

/-- Packed subtract of two BF16 halves, RNE. (R192) -/
def execFsubBf16x2 (g : Pfx) (n : BitVec 1) (b : BitVec 7) (a : BitVec 7) (d : BitVec 7) (s : State) : Out :=
  laneF2 (.fsubBf16x2 g n b a d) s (n = 1) a.toNat b.toNat d.toNat 4 (halves2 (fSub fmtBf .rne))

/-- Packed multiply of two BF16 halves, RNE. (R192) -/
def execFmulBf16x2 (g : Pfx) (n : BitVec 1) (b : BitVec 7) (a : BitVec 7) (d : BitVec 7) (s : State) : Out :=
  laneF2 (.fmulBf16x2 g n b a d) s (n = 1) a.toNat b.toNat d.toNat 4 (halves2 (fMul fmtBf .rne))

/-- Packed fused multiply-add of two BF16 halves. (R192) -/
def execFfmaBf16x2 (g : Pfx) (n : BitVec 1) (b : BitVec 7) (a : BitVec 7) (d : BitVec 7) (s : State) : Out :=
  laneF3 (.ffmaBf16x2 g n b a d) s (n = 1) a.toNat b.toNat d.toNat (halves3 (fFma fmtBf .rne))

/-- Packed BF16 minimum using 16-bit totalOrder keys. (R192) -/
def execFminBf16x2 (g : Pfx) (n : BitVec 1) (b : BitVec 7) (a : BitVec 7) (d : BitVec 7) (s : State) : Out :=
  laneF2 (.fminBf16x2 g n b a d) s (n = 1) a.toNat b.toNat d.toNat 4 (halves2 (noFlags (fMin 16)))

/-- Packed BF16 maximum using 16-bit totalOrder keys. (R192) -/
def execFmaxBf16x2 (g : Pfx) (n : BitVec 1) (b : BitVec 7) (a : BitVec 7) (d : BitVec 7) (s : State) : Out :=
  laneF2 (.fmaxBf16x2 g n b a d) s (n = 1) a.toNat b.toNat d.toNat 4 (halves2 (noFlags (fMax 16)))

/-- VI binary32 add of an immediate bit pattern, RNE. (R172) -/
def execFaddImmediate (g : Pfx) (i : BitVec 8) (a : BitVec 7) (d : BitVec 7) (s : State) : Out :=
  laneFI (.faddImmediate g i a d) s a.toNat d.toNat i (fAdd fmt32 .rne)

/-- VI binary32 multiply by an immediate bit pattern, RNE. (R172) -/
def execFmulImmediate (g : Pfx) (i : BitVec 8) (a : BitVec 7) (d : BitVec 7) (s : State) : Out :=
  laneFI (.fmulImmediate g i a d) s a.toNat d.toNat i (fMul fmt32 .rne)

/-- VI float minimum with an immediate. (R172) -/
def execFminImmediate (g : Pfx) (i : BitVec 8) (a : BitVec 7) (d : BitVec 7) (s : State) : Out :=
  laneFI (.fminImmediate g i a d) s a.toNat d.toNat i (noFlags (fMin 32))

/-- VI float maximum with an immediate. (R172) -/
def execFmaxImmediate (g : Pfx) (i : BitVec 8) (a : BitVec 7) (d : BitVec 7) (s : State) : Out :=
  laneFI (.fmaxImmediate g i a d) s a.toNat d.toNat i (noFlags (fMax 32))

/-- Compact parcel for the binary32 add, RNE. (R167) -/
def execFaddCompact (g : Pfx) (c d : BitVec 5) (s : State) : Out :=
  laneFC (.faddCompact g c d) s c d (fAdd fmt32 .rne)

/-- Compact parcel for the binary32 subtract, RNE. (R167) -/
def execFsubCompact (g : Pfx) (c d : BitVec 5) (s : State) : Out :=
  laneFC (.fsubCompact g c d) s c d (fSub fmt32 .rne)

/-- Compact parcel for the binary32 multiply, RNE. (R167) -/
def execFmulCompact (g : Pfx) (c d : BitVec 5) (s : State) : Out :=
  laneFC (.fmulCompact g c d) s c d (fMul fmt32 .rne)

/-- Compact parcel for the totalOrder minimum. (R167) -/
def execFminCompact (g : Pfx) (c d : BitVec 5) (s : State) : Out :=
  laneFC (.fminCompact g c d) s c d (noFlags (fMin 32))

/-- Compact parcel for the totalOrder maximum. (R167) -/
def execFmaxCompact (g : Pfx) (c d : BitVec 5) (s : State) : Out :=
  laneFC (.fmaxCompact g c d) s c d (noFlags (fMax 32))

/-- Binary32 square root, rounded by the mode field. (R191) -/
def execFsqrt (g : Pfx) (m : BitVec 2) (a : BitVec 7) (d : BitVec 7) (s : State) : Out :=
  laneF1 (.fsqrt g m a d) s a.toNat d.toNat 16 (fSqrt fmt32 (Mode.ofCode m.toNat))

/-- Correctly rounded reciprocal. (R133) -/
def execRcp (g : Pfx) (a : BitVec 7) (d : BitVec 7) (s : State) : Out :=
  laneF1 (.rcp g a d) s a.toNat d.toNat 16 fRcp

/-- Correctly rounded reciprocal square root. (R133) -/
def execRsq (g : Pfx) (a : BitVec 7) (d : BitVec 7) (s : State) : Out :=
  laneF1 (.rsq g a d) s a.toNat d.toNat 16 fRsq

/-- Correctly rounded 2^x. (R133) -/
def execExp2 (g : Pfx) (a : BitVec 7) (d : BitVec 7) (s : State) : Out :=
  laneF1 (.exp2 g a d) s a.toNat d.toNat 16 fExp2

/-- Correctly rounded base-2 logarithm. (R133) -/
def execLog2 (g : Pfx) (a : BitVec 7) (d : BitVec 7) (s : State) : Out :=
  laneF1 (.log2 g a d) s a.toNat d.toNat 16 fLog2

/-- Correctly rounded sine of the exact operand. (R133) -/
def execSin (g : Pfx) (a : BitVec 7) (d : BitVec 7) (s : State) : Out :=
  laneF1 (.sin g a d) s a.toNat d.toNat 16 fSin

/-- Correctly rounded cosine of the exact operand. (R133) -/
def execCos (g : Pfx) (a : BitVec 7) (d : BitVec 7) (s : State) : Out :=
  laneF1 (.cos g a d) s a.toNat d.toNat 16 fCos

/-- Clears bit 31. (R191) -/
def execFabs (g : Pfx) (a : BitVec 7) (d : BitVec 7) (s : State) : Out :=
  laneF1 (.fabs g a d) s a.toNat d.toNat 4 fun v => (v % 2147483648, 0)

/-- Inverts bit 31. (R191) -/
def execFneg (g : Pfx) (a : BitVec 7) (d : BitVec 7) (s : State) : Out :=
  laneF1 (.fneg g a d) s a.toNat d.toNat 4 fun v => ((v + 2147483648) % 4294967296, 0)

/-- Conversion from the source type to the destination type under the rounding mode. (R193) -/
def execCvt (g : Pfx) (m : BitVec 2) (st : BitVec 4) (a : BitVec 7) (d : BitVec 7) (t : BitVec 4) (s : State) : Out :=
  issueP (.cvt g m st a d t) s fun x s =>
    let r := fun l => convert t.toNat st.toNat (Mode.ofCode m.toNat) (if wideType st.toNat then (x.src64 s a.toNat l).toNat else (x.src s a.toNat l).toNat)
    if wideType t.toNat then
      x.result64 s d.toNat false 4 2 (orFlags x.mask fun l => (r l).2) fun l => BitVec.ofNat 64 (r l).1
    else x.result s d.toNat false 4 2 (orFlags x.mask fun l => (r l).2) fun l => BitVec.ofNat 32 (r l).1

/-- The format word of NDEC and NENC, read once (R195, R196). -/
def Iss.formatWord (x : Iss) : Word := (x.prefixOp false).setWidth 32

/-- Class 7, code 1, for an invalid format word (R338). -/
def Iss.badFormat (x : Iss) (s : State) : State :=
  x.trap s { cls := 7, code := 1, detail := (lowLane x.mask).getD 0, lanes := x.mask }

/-- Decodes one narrow-code byte per lane into BF16 under the KSEL format word. (R195) -/
def execNdec (g : Pfx) (n : BitVec 2) (a : BitVec 7) (d : BitVec 7) (s : State) : Out :=
  issue (.ndec g n a d) s fun x s =>
    if !fmtValid x.formatWord && decide (x.mask ≠ 0) then x.badFormat s
    else
      match x.poisonCheck s with
      | some s' => s'
      | none =>
        x.result s d.toNat false 4 2 0 fun l =>
          BitVec.ofNat 32 (decodeNarrow ((x.src s a.toNat l).toNat / 2 ^ (8 * n.toNat) % 256) x.formatWord)

/-- Encodes binary32 lanes into narrow codes under the KSEL format word. (R196) -/
def execNenc (g : Pfx) (a : BitVec 7) (d : BitVec 7) (s : State) : Out :=
  issue (.nenc g a d) s fun x s =>
    if !fmtValid x.formatWord && decide (x.mask ≠ 0) then x.badFormat s
    else
      match x.poisonCheck s with
      | some s' => s'
      | none =>
        let r := fun l => encodeNarrow (unpack fmt32 (x.src s a.toNat l).toNat) x.formatWord
        x.result s d.toNat false 4 2 (orFlags x.mask fun l => (r l).2) fun l => BitVec.ofNat 32 (r l).1

end Sys2Proof.Machine
end

