-- ==== Sys2Proof/Machine/IntLane.lean ====
section
/-! DEFINITION. The integer and logic lane instructions in their VA, VI and compact forms (R188-R190), and RNG (R207). -/

namespace Sys2Proof.Machine

/-- A lane instruction of one source (R184): result readable after 4 clocks, 2 from the latch (R187). -/
def lane1 (i : Instr) (s : State) (n : Bool) (a d : Nat) (f : Word → Word) : Out :=
  issueP i s fun x s => x.result s d n 4 2 0 fun l => f (x.src s a l)

/-- A lane instruction of two sources. -/
def lane2 (i : Instr) (s : State) (n : Bool) (a b d lat : Nat) (f : Word → Word → Word) : Out :=
  issueP i s fun x s => x.result s d n lat (if lat = 4 then 2 else lat) 0 fun l => f (x.src s a l) (x.src s b l)

/-- A lane instruction of one source and an immediate. -/
def laneI (i : Instr) (s : State) (a d : Nat) (imm : BitVec 8) (f : Word → Word → Word) : Out :=
  issueP i s fun x s => x.result s d false 4 2 0 fun l => f (x.src s a l) (viImm x.g imm)

/-- A 64-bit lane instruction of two pairs. -/
def lane2w (i : Instr) (s : State) (n : Bool) (a b d : Nat) (f : DWord → DWord → DWord) : Out :=
  issueP i s fun x s => x.result64 s d n 4 2 0 fun l => f (x.src64 s a l) (x.src64 s b l)

/-- A 64-bit shift: a pair and a 32-bit count. -/
def laneShw (i : Instr) (s : State) (n : Bool) (a b d : Nat) (f : DWord → Nat → DWord) : Out :=
  issueP i s fun x s => x.result64 s d n 4 2 0 fun l => f (x.src64 s a l) (x.src s b l).toNat

/-- IMULH of R189 in the type of bit t: 0 signed, 1 unsigned. -/
def mulHigh (t : BitVec 1) (a b : Word) : Word :=
  if t = 0 then BitVec.ofInt 32 (a.toInt * b.toInt / 4294967296) else BitVec.ofNat 32 (a.toNat * b.toNat / 4294967296)

/-- IMIN of R189 in the type of bit t. -/
def minT (t : BitVec 1) (a b : Word) : Word :=
  if t = 0 then (if b.toInt < a.toInt then b else a) else if b.toNat < a.toNat then b else a

/-- IMAX of R189 in the type of bit t. -/
def maxT (t : BitVec 1) (a b : Word) : Word :=
  if t = 0 then (if a.toInt < b.toInt then b else a) else if a.toNat < b.toNat then b else a

/-- Shifts of R134, R189 by an unsigned count. -/
def shlW (a n : Word) : Word := if 32 ≤ n.toNat then 0 else a <<< n.toNat
def shrW (a n : Word) : Word := a >>> n.toNat
def sarW (a n : Word) : Word := a.sshiftRight n.toNat

/-- Quotient and remainder of R190, signed. -/
def divS (a b : Word) : Word × Word :=
  if b = 0 then (BitVec.allOnes 32, a)
  else if a.toInt = -2147483648 ∧ b.toInt = -1 then (a, 0)
  else (BitVec.ofInt 32 (a.toInt.tdiv b.toInt), BitVec.ofInt 32 (a.toInt - a.toInt.tdiv b.toInt * b.toInt))

/-- Quotient and remainder of R190, unsigned. -/
def divN (a b : Word) : Word × Word :=
  if b = 0 then (BitVec.allOnes 32, a) else (BitVec.ofNat 32 (a.toNat / b.toNat), BitVec.ofNat 32 (a.toNat % b.toNat))

/-- CLZ of R189. -/
def clz (a : Word) : Word := BitVec.ofNat 32 (32 - (if a = 0 then 0 else Nat.log2 a.toNat + 1))

/-- BREV of R189. -/
def brev (a : Word) : Word := (List.range 32).foldl (fun r i => if a.getLsbD (31 - i) then r ||| BitVec.ofNat 32 (2 ^ i) else r) 0

/-- VA move: each active lane's destination takes source A. (R189) -/
def execMov (g : Pfx) (n : BitVec 1) (a : BitVec 7) (d : BitVec 7) (s : State) : Out :=
  lane1 (.mov g n a d) s (n = 1) a.toNat d.toNat id

/-- VA 32-bit add, modulo 2^32, per active lane. (R189) -/
def execIadd (g : Pfx) (n : BitVec 1) (b : BitVec 7) (a : BitVec 7) (d : BitVec 7) (s : State) : Out :=
  lane2 (.iadd g n b a d) s (n = 1) a.toNat b.toNat d.toNat 4 (· + ·)

/-- VA 32-bit subtract, modulo 2^32. (R189) -/
def execIsub (g : Pfx) (n : BitVec 1) (b : BitVec 7) (a : BitVec 7) (d : BitVec 7) (s : State) : Out :=
  lane2 (.isub g n b a d) s (n = 1) a.toNat b.toNat d.toNat 4 (· - ·)

/-- VA 32-bit multiply that keeps the low word. (R189) -/
def execImul (g : Pfx) (n : BitVec 1) (b : BitVec 7) (a : BitVec 7) (d : BitVec 7) (s : State) : Out :=
  lane2 (.imul g n b a d) s (n = 1) a.toNat b.toNat d.toNat 4 (· * ·)

/-- VA high word of the 64-bit product, signed or unsigned by the type bit. (R189) -/
def execImulh (g : Pfx) (n : BitVec 1) (b : BitVec 7) (a : BitVec 7) (d : BitVec 7) (t : BitVec 1) (s : State) : Out :=
  lane2 (.imulh g n b a d t) s (n = 1) a.toNat b.toNat d.toNat 4 (mulHigh t)

/-- VA lesser of two values, signed or unsigned by the type bit. (R189) -/
def execImin (g : Pfx) (n : BitVec 1) (b : BitVec 7) (a : BitVec 7) (d : BitVec 7) (t : BitVec 1) (s : State) : Out :=
  lane2 (.imin g n b a d t) s (n = 1) a.toNat b.toNat d.toNat 4 (minT t)

/-- VA greater of two values, signed or unsigned by the type bit. (R189) -/
def execImax (g : Pfx) (n : BitVec 1) (b : BitVec 7) (a : BitVec 7) (d : BitVec 7) (t : BitVec 1) (s : State) : Out :=
  lane2 (.imax g n b a d t) s (n = 1) a.toNat b.toNat d.toNat 4 (maxT t)

/-- VA bitwise AND. (R189) -/
def execAndV (g : Pfx) (n : BitVec 1) (b : BitVec 7) (a : BitVec 7) (d : BitVec 7) (s : State) : Out :=
  lane2 (.andV g n b a d) s (n = 1) a.toNat b.toNat d.toNat 4 (· &&& ·)

/-- VA bitwise OR. (R189) -/
def execOrV (g : Pfx) (n : BitVec 1) (b : BitVec 7) (a : BitVec 7) (d : BitVec 7) (s : State) : Out :=
  lane2 (.orV g n b a d) s (n = 1) a.toNat b.toNat d.toNat 4 (· ||| ·)

/-- VA bitwise XOR. (R189) -/
def execXorV (g : Pfx) (n : BitVec 1) (b : BitVec 7) (a : BitVec 7) (d : BitVec 7) (s : State) : Out :=
  lane2 (.xorV g n b a d) s (n = 1) a.toNat b.toNat d.toNat 4 (· ^^^ ·)

/-- VA left shift; a count of 32 or more gives 0. (R189) -/
def execShl (g : Pfx) (n : BitVec 1) (b : BitVec 7) (a : BitVec 7) (d : BitVec 7) (s : State) : Out :=
  lane2 (.shl g n b a d) s (n = 1) a.toNat b.toNat d.toNat 4 shlW

/-- VA zero-filling right shift. (R189) -/
def execShr (g : Pfx) (n : BitVec 1) (b : BitVec 7) (a : BitVec 7) (d : BitVec 7) (s : State) : Out :=
  lane2 (.shr g n b a d) s (n = 1) a.toNat b.toNat d.toNat 4 shrW

/-- VA sign-filling right shift. (R189) -/
def execSar (g : Pfx) (n : BitVec 1) (b : BitVec 7) (a : BitVec 7) (d : BitVec 7) (s : State) : Out :=
  lane2 (.sar g n b a d) s (n = 1) a.toNat b.toNat d.toNat 4 sarW

/-- VA multiply-add whose addend is D: low 32 bits of A×B+D. (R189) -/
def execImad (g : Pfx) (n : BitVec 1) (b : BitVec 7) (a : BitVec 7) (d : BitVec 7) (s : State) : Out :=
  issueP (.imad g n b a d) s fun x s =>
    x.result s d.toNat (n = 1) 4 2 0 fun l => x.src s a.toNat l * x.src s b.toNat l + x.src s d.toNat l

/-- VA signed division, truncating toward zero, with the defined results for division by zero. (R190) -/
def execIdivS32 (g : Pfx) (n : BitVec 1) (b : BitVec 7) (a : BitVec 7) (d : BitVec 7) (s : State) : Out :=
  lane2 (.idivS32 g n b a d) s (n = 1) a.toNat b.toNat d.toNat 16 fun a b => (divS a b).1

/-- VA unsigned division. (R190) -/
def execIdivN32 (g : Pfx) (n : BitVec 1) (b : BitVec 7) (a : BitVec 7) (d : BitVec 7) (s : State) : Out :=
  lane2 (.idivN32 g n b a d) s (n = 1) a.toNat b.toNat d.toNat 16 fun a b => (divN a b).1

/-- VA signed remainder, which takes the sign of the dividend. (R190) -/
def execIremS32 (g : Pfx) (n : BitVec 1) (b : BitVec 7) (a : BitVec 7) (d : BitVec 7) (s : State) : Out :=
  lane2 (.iremS32 g n b a d) s (n = 1) a.toNat b.toNat d.toNat 16 fun a b => (divS a b).2

/-- VA unsigned remainder. (R190) -/
def execIremN32 (g : Pfx) (n : BitVec 1) (b : BitVec 7) (a : BitVec 7) (d : BitVec 7) (s : State) : Out :=
  lane2 (.iremN32 g n b a d) s (n = 1) a.toNat b.toNat d.toNat 16 fun a b => (divN a b).2

/-- VA 64-bit add on register pairs. (R189) -/
def execIaddS64 (g : Pfx) (n : BitVec 1) (b : BitVec 7) (a : BitVec 7) (d : BitVec 7) (s : State) : Out :=
  lane2w (.iaddS64 g n b a d) s (n = 1) a.toNat b.toNat d.toNat (· + ·)

/-- VA 64-bit subtract on register pairs. (R189) -/
def execIsubS64 (g : Pfx) (n : BitVec 1) (b : BitVec 7) (a : BitVec 7) (d : BitVec 7) (s : State) : Out :=
  lane2w (.isubS64 g n b a d) s (n = 1) a.toNat b.toNat d.toNat (· - ·)

/-- VA 64-bit multiply on register pairs. (R189) -/
def execImulS64 (g : Pfx) (n : BitVec 1) (b : BitVec 7) (a : BitVec 7) (d : BitVec 7) (s : State) : Out :=
  lane2w (.imulS64 g n b a d) s (n = 1) a.toNat b.toNat d.toNat (· * ·)

/-- VA 64-bit left shift with a 32-bit count. (R189) -/
def execShlS64 (g : Pfx) (n : BitVec 1) (b : BitVec 7) (a : BitVec 7) (d : BitVec 7) (s : State) : Out :=
  laneShw (.shlS64 g n b a d) s (n = 1) a.toNat b.toNat d.toNat fun a n => if 64 ≤ n then 0 else a <<< n

/-- VA 64-bit zero-filling right shift. (R189) -/
def execShrS64 (g : Pfx) (n : BitVec 1) (b : BitVec 7) (a : BitVec 7) (d : BitVec 7) (s : State) : Out :=
  laneShw (.shrS64 g n b a d) s (n = 1) a.toNat b.toNat d.toNat fun a n => a >>> n

/-- VA 64-bit sign-filling right shift. (R189) -/
def execSarS64 (g : Pfx) (n : BitVec 1) (b : BitVec 7) (a : BitVec 7) (d : BitVec 7) (s : State) : Out :=
  laneShw (.sarS64 g n b a d) s (n = 1) a.toNat b.toNat d.toNat fun a n => a.sshiftRight n

/-- VI move of the immediate X. (R172) -/
def execMovImmediate (g : Pfx) (i : BitVec 8) (d : BitVec 7) (s : State) : Out :=
  issueP (.movImmediate g i d) s fun x s => x.result s d.toNat false 4 2 0 fun _ => viImm x.g i

/-- VI add of the immediate. (R172) -/
def execIaddImmediate (g : Pfx) (i : BitVec 8) (a : BitVec 7) (d : BitVec 7) (s : State) : Out :=
  laneI (.iaddImmediate g i a d) s a.toNat d.toNat i (· + ·)

/-- VI subtract of the immediate. (R172) -/
def execIsubImmediate (g : Pfx) (i : BitVec 8) (a : BitVec 7) (d : BitVec 7) (s : State) : Out :=
  laneI (.isubImmediate g i a d) s a.toNat d.toNat i (· - ·)

/-- VI multiply by the immediate. (R172) -/
def execImulImmediate (g : Pfx) (i : BitVec 8) (a : BitVec 7) (d : BitVec 7) (s : State) : Out :=
  laneI (.imulImmediate g i a d) s a.toNat d.toNat i (· * ·)

/-- VI minimum with the immediate, signed or unsigned by the type bit. (R172) -/
def execIminImmediate (g : Pfx) (i : BitVec 8) (a : BitVec 7) (d : BitVec 7) (t : BitVec 1) (s : State) : Out :=
  laneI (.iminImmediate g i a d t) s a.toNat d.toNat i (minT t)

/-- VI maximum with the immediate, signed or unsigned by the type bit. (R172) -/
def execImaxImmediate (g : Pfx) (i : BitVec 8) (a : BitVec 7) (d : BitVec 7) (t : BitVec 1) (s : State) : Out :=
  laneI (.imaxImmediate g i a d t) s a.toNat d.toNat i (maxT t)

/-- VI AND with the immediate. (R172) -/
def execAndImmediate (g : Pfx) (i : BitVec 8) (a : BitVec 7) (d : BitVec 7) (s : State) : Out :=
  laneI (.andImmediate g i a d) s a.toNat d.toNat i (· &&& ·)

/-- VI OR with the immediate. (R172) -/
def execOrImmediate (g : Pfx) (i : BitVec 8) (a : BitVec 7) (d : BitVec 7) (s : State) : Out :=
  laneI (.orImmediate g i a d) s a.toNat d.toNat i (· ||| ·)

/-- VI XOR with the immediate. (R172) -/
def execXorImmediate (g : Pfx) (i : BitVec 8) (a : BitVec 7) (d : BitVec 7) (s : State) : Out :=
  laneI (.xorImmediate g i a d) s a.toNat d.toNat i (· ^^^ ·)

/-- VI left shift by an immediate count. (R172) -/
def execShlImmediate (g : Pfx) (i : BitVec 8) (a : BitVec 7) (d : BitVec 7) (s : State) : Out :=
  laneI (.shlImmediate g i a d) s a.toNat d.toNat i shlW

/-- VI zero-filling right shift by an immediate count. (R172) -/
def execShrImmediate (g : Pfx) (i : BitVec 8) (a : BitVec 7) (d : BitVec 7) (s : State) : Out :=
  laneI (.shrImmediate g i a d) s a.toNat d.toNat i shrW

/-- VI sign-filling right shift by an immediate count. (R172) -/
def execSarImmediate (g : Pfx) (i : BitVec 8) (a : BitVec 7) (d : BitVec 7) (s : State) : Out :=
  laneI (.sarImmediate g i a d) s a.toNat d.toNat i sarW

/-- VI 64-bit add of a sign-extended immediate. (R172) -/
def execIaddS64Immediate (g : Pfx) (i : BitVec 8) (a : BitVec 7) (d : BitVec 7) (s : State) : Out :=
  issueP (.iaddS64Immediate g i a d) s fun x s => x.result64 s d.toNat false 4 2 0 fun l => x.src64 s a.toNat l + (viImm x.g i).signExtend 64

/-- Each active lane receives riser(seed, layer X, A) using the launch's latched seed. (R207) -/
def execRng (g : Pfx) (i : BitVec 8) (a : BitVec 7) (d : BitVec 7) (s : State) : Out :=
  issueP (.rng g i a d) s fun x s => x.result s d.toNat false 4 2 0 fun l => riser x.grid.seed (viImm x.g i) (x.src s a.toNat l)

/-- Compact parcel d ← s. (R167) -/
def execMovCompact (g : Pfx) (c d : BitVec 5) (s : State) : Out :=
  lane1 (.movCompact g c d) s false (compactCode c) d.toNat id

/-- Compact parcel d ← d + s. (R167) -/
def execIaddCompact (g : Pfx) (c d : BitVec 5) (s : State) : Out :=
  lane2 (.iaddCompact g c d) s false d.toNat (compactCode c) d.toNat 4 (· + ·)

/-- Compact parcel d ← d − s. (R167) -/
def execIsubCompact (g : Pfx) (c d : BitVec 5) (s : State) : Out :=
  lane2 (.isubCompact g c d) s false d.toNat (compactCode c) d.toNat 4 (· - ·)

/-- Compact parcel d ← low word of d × s. (R167) -/
def execImulCompact (g : Pfx) (c d : BitVec 5) (s : State) : Out :=
  lane2 (.imulCompact g c d) s false d.toNat (compactCode c) d.toNat 4 (· * ·)

/-- Compact parcel for the signed minimum. (R167) -/
def execIminCompact (g : Pfx) (c d : BitVec 5) (s : State) : Out :=
  lane2 (.iminCompact g c d) s false d.toNat (compactCode c) d.toNat 4 (minT 0)

/-- Compact parcel for the signed maximum. (R167) -/
def execImaxCompact (g : Pfx) (c d : BitVec 5) (s : State) : Out :=
  lane2 (.imaxCompact g c d) s false d.toNat (compactCode c) d.toNat 4 (maxT 0)

/-- Compact parcel for bitwise AND. (R167) -/
def execAndCompact (g : Pfx) (c d : BitVec 5) (s : State) : Out :=
  lane2 (.andCompact g c d) s false d.toNat (compactCode c) d.toNat 4 (· &&& ·)

/-- Compact parcel for bitwise OR. (R167) -/
def execOrCompact (g : Pfx) (c d : BitVec 5) (s : State) : Out :=
  lane2 (.orCompact g c d) s false d.toNat (compactCode c) d.toNat 4 (· ||| ·)

/-- Compact parcel for bitwise XOR. (R167) -/
def execXorCompact (g : Pfx) (c d : BitVec 5) (s : State) : Out :=
  lane2 (.xorCompact g c d) s false d.toNat (compactCode c) d.toNat 4 (· ^^^ ·)

/-- Compact parcel for the left shift. (R167) -/
def execShlCompact (g : Pfx) (c d : BitVec 5) (s : State) : Out :=
  lane2 (.shlCompact g c d) s false d.toNat (compactCode c) d.toNat 4 shlW

/-- Compact parcel for the zero-fill right shift. (R167) -/
def execShrCompact (g : Pfx) (c d : BitVec 5) (s : State) : Out :=
  lane2 (.shrCompact g c d) s false d.toNat (compactCode c) d.toNat 4 shrW

/-- Count of the 1 bits. (R189) -/
def execPopc (g : Pfx) (a : BitVec 7) (d : BitVec 7) (s : State) : Out :=
  lane1 (.popc g a d) s false a.toNat d.toNat fun a => BitVec.ofNat 32 (popCount a)

/-- Count of the leading zeros. (R189) -/
def execClz (g : Pfx) (a : BitVec 7) (d : BitVec 7) (s : State) : Out :=
  lane1 (.clz g a d) s false a.toNat d.toNat clz

/-- Bit reversal. (R189) -/
def execBrev (g : Pfx) (a : BitVec 7) (d : BitVec 7) (s : State) : Out :=
  lane1 (.brev g a d) s false a.toNat d.toNat brev

end Sys2Proof.Machine
end

