-- ==== Sys2Proof/Machine/CrossLane.lean ====
section
/-! DEFINITION. Compares and predicates (R197-R199), the cross-lane instructions (R200-R202) and the uniform operations in registers (R203-R205). -/

namespace Sys2Proof.Machine

/-- The six comparisons by code (R173) from equality and less-than both ways. -/
def compare (cc : Nat) (eq lt gt : Bool) : Bool :=
  if cc = 0 then eq else if cc = 1 then !eq else if cc = 2 then lt else if cc = 3 then lt || eq else if cc = 4 then gt else gt || eq

/-- ICMP of type code t (R173, R197): .s32, .n32, .s64, .n64. -/
def icmp (t cc : Nat) (a b : DWord) : Bool :=
  let w := if t < 2 then 32 else 64
  let va : Int := if t % 2 = 0 then sext w a.toNat else ((a.toNat % 2 ^ w : Nat) : Int)
  let vb : Int := if t % 2 = 0 then sext w b.toNat else ((b.toNat % 2 ^ w : Nat) : Int)
  compare cc (decide (va = vb)) (decide (va < vb)) (decide (vb < va))

/-- FCMP (R130, R197). -/
def fcmp (cc a b : Nat) : Bool := compare cc (decide (a = b)) (totalLess 32 a b) (totalLess 32 b a)

/-- Integer compare of the chosen type that writes a predicate per active lane. (R197) -/
def execIcmp (g : Pfx) (f : BitVec 4) (b : BitVec 7) (a : BitVec 7) (p : BitVec 4) (t : BitVec 2) (s : State) : Out :=
  issueP (.icmp g f b a p t) s fun x s =>
    x.predResult s p.toNat fun l =>
      if t.toNat < 2 then icmp t.toNat f.toNat ((x.src s a.toNat l).setWidth 64) ((x.src s b.toNat l).setWidth 64)
      else icmp t.toNat f.toNat (x.src64 s a.toNat l) (x.src64 s b.toNat l)

/-- Float compare by totalOrder and bit equality, writing a predicate. (R197) -/
def execFcmp (g : Pfx) (f : BitVec 4) (b : BitVec 7) (a : BitVec 7) (p : BitVec 4) (s : State) : Out :=
  issueP (.fcmp g f b a p) s fun x s => x.predResult s p.toNat fun l => fcmp f.toNat (x.src s a.toNat l).toNat (x.src s b.toNat l).toNat

/-- Predicate logic through a 4-bit truth table. (R198) -/
def execPlop (g : Pfx) (f : BitVec 4) (b : BitVec 4) (a : BitVec 4) (p : BitVec 4) (s : State) : Out :=
  issueP (.plop g f b a p) s fun x s =>
    x.predResult s p.toNat fun l =>
      f.getLsbD (2 * (if (x.w.pred x.st.fibre a.toNat).getLsbD l then 1 else 0) + if (x.w.pred x.st.fibre b.toNat).getLsbD l then 1 else 0)

/-- Writes 1 where the predicate holds and 0 elsewhere. (R199) -/
def execP2v (g : Pfx) (p : BitVec 4) (d : BitVec 7) (s : State) : Out :=
  issueP (.p2v g p d) s fun x s => x.result s d.toNat false 4 2 0 fun l => if (x.w.pred x.st.fibre p.toNat).getLsbD l then 1 else 0

/-- A shuffle (R200): the lane that each active lane reads, if it is active. -/
def shuffle (i : Instr) (s : State) (n : Bool) (a b d : Nat) (pick : Nat → Nat → Option Nat) : Out :=
  issueP i s fun x s =>
    x.result s d n 6 6 0 fun l =>
      match pick l (x.src s b l).toNat with
      | some j => if j < 32 ∧ x.mask.getLsbD j then x.src s a j else x.src s a l
      | none => x.src s a l

/-- Each lane takes A from the lane that B mod 32 names. (R200) -/
def execShfl (g : Pfx) (n : BitVec 1) (b : BitVec 7) (a : BitVec 7) (d : BitVec 7) (s : State) : Out :=
  shuffle (.shfl g n b a d) s (n = 1) a.toNat b.toNat d.toNat fun _ k => some (k % 32)

/-- Each lane takes A from lane i−n. (R200) -/
def execShflUp (g : Pfx) (n : BitVec 1) (b : BitVec 7) (a : BitVec 7) (d : BitVec 7) (s : State) : Out :=
  shuffle (.shflUp g n b a d) s (n = 1) a.toNat b.toNat d.toNat fun l k => if k ≤ l then some (l - k) else none

/-- Each lane takes A from lane i+n. (R200) -/
def execShflDn (g : Pfx) (n : BitVec 1) (b : BitVec 7) (a : BitVec 7) (d : BitVec 7) (s : State) : Out :=
  shuffle (.shflDn g n b a d) s (n = 1) a.toNat b.toNat d.toNat fun l k => some (l + k)

/-- Each lane takes A from lane i XOR n. (R200) -/
def execShflXor (g : Pfx) (n : BitVec 1) (b : BitVec 7) (a : BitVec 7) (d : BitVec 7) (s : State) : Out :=
  shuffle (.shflXor g n b a d) s (n = 1) a.toNat b.toNat d.toNat fun l k => some (l ^^^ k % 32)

/-- BALLOT, ANY or ALL of a predicate over the active lanes. (R201) -/
def execVote (g : Pfx) (f : BitVec 4) (p : BitVec 4) (d : BitVec 7) (s : State) : Out :=
  issueP (.vote g f p d) s fun x s =>
    let m := x.mask &&& x.w.pred x.st.fibre p.toNat
    x.result s d.toNat false 6 6 0 fun _ =>
      if f = 0 then m else if f = 1 then (if m ≠ 0 then 1 else 0) else if m = x.mask then 1 else 0

/-- One level of the reduction tree (R150): neighbours combined, the present one of a pair kept; the flags of the level. -/
def reduceLevel (c : Word → Word → Word × Flags) : List (Option Word) → List (Option Word) × Flags
  | some a :: some b :: t => let r := reduceLevel c t; (some (c a b).1 :: r.1, (c a b).2 ||| r.2)
  | some a :: none :: t => let r := reduceLevel c t; (some a :: r.1, r.2)
  | none :: b :: t => let r := reduceLevel c t; (b :: r.1, r.2)
  | [x] => ([x], 0)
  | [] => ([], 0)

/-- The tree of R150 over the lanes' values, n levels. -/
def reduceTree (c : Word → Word → Word × Flags) : Nat → List (Option Word) → Option Word × Flags
  | 0, l => (l.headD none, 0)
  | n + 1, l =>
    let r := reduceLevel c l
    let q := reduceTree c n r.1
    (q.1, r.2 ||| q.2)

/-- The combine step of REDUX by FN (R150, R202). -/
def reduxOp (fn : Nat) (mode : Mode) (a b : Word) : Word × Flags :=
  if fn = 0 then (a + b, 0) else if fn = 1 then (minT 0 a b, 0) else if fn = 2 then (minT 1 a b, 0)
  else if fn = 3 then (maxT 0 a b, 0) else if fn = 4 then (maxT 1 a b, 0) else if fn = 5 then (a &&& b, 0)
  else if fn = 6 then (a ||| b, 0) else if fn = 7 then (a ^^^ b, 0)
  else if fn = 8 then (let r := fAdd fmt32 mode a.toNat b.toNat; (BitVec.ofNat 32 r.1, r.2))
  else if fn = 9 then (BitVec.ofNat 32 (fMin 32 a.toNat b.toNat), 0)
  else (BitVec.ofNat 32 (fMax 32 a.toNat b.toNat), 0)

/-- Fixed pairwise-tree reduction over the active lanes. (R202) -/
def execRedux (g : Pfx) (f : BitVec 4) (m : BitVec 2) (a : BitVec 7) (d : BitVec 7) (s : State) : Out :=
  issueP (.redux g f m a d) s fun x s =>
    let r := reduceTree (reduxOp f.toNat (Mode.ofCode m.toNat)) 5
      ((List.range 32).map fun l => if x.mask.getLsbD l then some (x.src s a.toNat l) else none)
    x.result s d.toNat false 12 12 r.2 fun _ => r.1.getD 0

/-- The KU operation u (R177, R204). -/
def kuOp (u : Nat) (a b : Word) : Word :=
  if u = 0 then b else if u = 1 then a + b else if u = 2 then a - b else if u = 3 then a * b else if u = 4 then a &&& b
  else if u = 5 then a ||| b else if u = 6 then a ^^^ b else if u = 7 then shlW a b else if u = 8 then shrW a b
  else if u = 9 then sarW a b else if u = 10 then minT 0 a b else if u = 11 then minT 1 a b
  else if u = 12 then maxT 0 a b else maxT 1 a b

/-- Uniform operation KD ← KD op KA, executed once per warp (KMOV, KADD … KMAX.n32 by code u). (R204) -/
def execKuRegisterOp (g : Pfx) (a : BitVec 8) (d : BitVec 8) (u : BitVec 4) (s : State) : Out :=
  issueP (.kuRegisterOp g a d u) s fun x s => x.kResult s d.toNat 2 (kuOp u.toNat (x.w.kreg d.toNat) (x.w.kreg a.toNat))

/-- Uniform operation KD ← KA op X, executed once per warp. (R204) -/
def execKuImmediateOp (g : Pfx) (i : BitVec 6) (a : BitVec 8) (d : BitVec 8) (u : BitVec 4) (s : State) : Out :=
  issueP (.kuImmediateOp g i a d u) s fun x s => x.kResult s d.toNat 2 (kuOp u.toNat (x.w.kreg a.toNat) (kuImm x.g i))

/-- Copies one lane of a vector register into a k register. (R205) -/
def execKrdl (g : Pfx) (n : BitVec 5) (a : BitVec 7) (d : BitVec 8) (s : State) : Out :=
  issueP (.krdl g n a d) s fun x s => x.kResult s d.toNat 4 (x.vreg s a.toNat n.toNat)

end Sys2Proof.Machine
end

