-- ==== Sys2Proof/Machine/Supervisor.lean ====
section
/-! DEFINITION. The supervisor instructions (R282-R286): XINV, FWWR, FWRD, LWBI, and the replies RESUME, REDIRECT and KILL with the return
from a trap (R345, R383). -/

namespace Sys2Proof.Machine

/-! ### Issue (R282) -/

/-- The accesses of a supervisor pointer: n bytes in 16-byte pieces, all of the lowest lane. -/
def Iss.supPieces (x : Iss) (s : State) (p n align : Nat) (write : Bool) : List LaneAcc :=
  let i := (lowLane x.mask).getD 0
  let ea := x.ptr s p i
  (List.range (n / 16)).map fun j =>
    { lane := i, ea := ptrAdd ea (16 * j : Nat), at0 := s.reach x [0, 15] 16 (if j = 0 then align else 16) write (ptrAdd ea (16 * j : Nat)) }

/-- The physical places of pieces. -/
def piecesAt (l : List LaneAcc) : List Nat := l.filterMap fun a => match a.at0 with | .mem p _ _ _ => some p | _ => none

/-- A supervisor operation beyond the read of its pointer: its messages to the hub and back, the walks of the pages that an LWBI of n bytes
names (R105), and the clocks it takes, of which the spec gives none (R290).

DESIGN CHOICE (log entry 30, unsafe): clocks of the supervisor operations and the alignment of windows. -/
def Iss.supMessages (x : Iss) (s : State) (kind : SupKind) (p n : Nat) : State × Nat :=
  match kind with
  | .xinv =>
    let f := s.toHub x.cn x.site (s.favoured x.team)
    let g := f.1.fromHub x.cn x.site
    (g.1, f.2 + g.2)
  | .fwwr | .fwrd => (s, fullDram 2)
  | .lwbi =>
    if ptrSpace p = 15 then (s, fullDram 2)
    else (List.range (n / 4096 + 1)).foldl (fun (m : State × Nat) i =>
      let r := m.1.translate (s.favoured x.team) x.site x.cn (ptrOff p + 4096 * i)
      (r.1, max m.2 (fullDram 2 + r.2))) (s, fullDram 2)

/-- Sends the reads of the pieces, a flit a line and as many back (R21): the clocks to their data. -/
def Iss.pieceReads (x : Iss) (s : State) (l : List Nat) : State × Nat :=
  (linesAt l).foldl (fun (m : State × Nat) n =>
    let a := n * 64
    let f := m.1.sendRound x.cn x.site a 1 (s.favoured x.team)
    (f.1, max m.2 ((if onChip a then s.chipLatency x.cu a else s.homeLatency x.site a) + f.2))) (s, 20)

/-- Starts a supervisor operation: XINV goes on with a pending status, the others hold the strand. -/
def Iss.supStart (x : Iss) (s : State) (op : SupOp) (d : Nat) : State :=
  let id := s.nextId
  let s1 := ({ s with supOps := amSet s.supOps id op }.after d prioResult (.supervisorOperationComplete id)).bump
  match op.ks with
  | some k => x.advance ((s1.setK x.k x.st.uid false k 0).modWarp x.k fun w =>
      { w with kpend := w.kpend ++ [(k, id)], kops := amSet w.kops id x.st.uid })
  | none => { (s1.modStrand x.k x.e fun st => { st with hold := .busy id, succ := x.next }) with cur := none }

/-- XINV, FWWR, FWRD and LWBI behind their checks. -/
def Iss.supOp (x : Iss) (s : State) (kind : SupKind) (p n align : Nat) (write : Bool) (arg : Nat) (ks : Option Nat) : State :=
  let l := x.supPieces s p n align write
  let i := (lowLane x.mask).getD 0
  x.addressed s l (some (maskOf [i])) fun s =>
    let at0 := piecesAt l
    let r := x.pieceReads s at0
    let m := x.supMessages r.1 kind (x.ptr s p i) arg
    x.supStart m.1
      { ctx := x.cn, warp := x.k, uid := x.st.uid, kind := kind, n := arg, ks := ks, chunks := at0, ptr := x.ptr s p i, lane := i,
        parcel := x.parcel, kin := x.st.kin, walks := s.walks.map Prod.fst }
      (r.2 + m.2)

/-- Invalidates cached translations, reporting completion in ks. (R283) -/
def execXinv (g : Pfx) (k : BitVec 8) (p : BitVec 7) (s : State) : Out :=
  issue (.xinv g k p) s fun x s => x.supOp s .xinv p.toNat 16 16 false 0 (some k.toNat)

/-- Writes a format window from memory. (R284) -/
def execFwwr (g : Pfx) (p : BitVec 7) (w : BitVec 4) (s : State) : Out :=
  issue (.fwwr g p w) s fun x s => x.supOp s .fwwr p.toNat 32 16 false w.toNat none

/-- Reads a format window into memory. (R284) -/
def execFwrd (g : Pfx) (p : BitVec 7) (w : BitVec 4) (s : State) : Out :=
  issue (.fwrd g p w) s fun x s => x.supOp s .fwrd p.toNat 32 16 true w.toNat none

/-- Writes back and invalidates every copy of a range of lines. (R285)

DESIGN CHOICE (log entry 100, unsafe): a count that is 0, above 2^30 - 64 or no multiple of 64, for which R285 states no fault, is taken as it
stands. -/
def execLwbi (g : Pfx) (k : BitVec 8) (p : BitVec 7) (s : State) : Out :=
  issue (.lwbi g k p) s fun x s => x.supOp s .lwbi p.toNat 16 64 false (x.w.kreg k.toNat).toNat none

/-- A reply: it reaches the hub 60 clocks later (R383), more over a longer route. -/
def Iss.reply (x : Iss) (s : State) (p : Nat) (kind : ReplyKind) : State :=
  let l := x.supPieces s p 64 16 false
  let i := (lowLane x.mask).getD 0
  x.addressed s l (some (maskOf [i])) fun s =>
    let f := s.toHub x.cn x.site (s.favoured x.team)
    let s := f.1
    let id := s.nextId
    let r : Reply := { ctx := x.cn, warp := x.k, uid := x.st.uid, kind := kind, chunks := piecesAt l, ptr := x.ptr s p i, lane := i,
                       parcel := x.parcel, kin := x.st.kin }
    let s1 := ({ s with replies := amSet s.replies id r }.after f.2 prioResult (.replyTakeEffect id)).bump
    { (s1.modStrand x.k x.e fun st => { st with hold := .busy id, succ := x.next }) with cur := none }

/-- Continues a frozen strand at its group, or for traps at the successor. (R345) -/
def execResume (g : Pfx) (p : BitVec 7) (s : State) : Out := issue (.resume g p) s fun x s => x.reply s p.toNat .resume

/-- Continues a frozen strand at NEWPC with invalid latches. (R345) -/
def execRedirect (g : Pfx) (p : BitVec 7) (s : State) : Out := issue (.redirect g p) s fun x s => x.reply s p.toNat .redirect

/-- Exits the lanes of a frozen strand. (R345) -/
def execKill (g : Pfx) (p : BitVec 7) (s : State) : Out := issue (.kill g p) s fun x s => x.reply s p.toNat .kill

/-! ### Completion (R283-R285) -/

/-- The number that 16-byte pieces hold, poisoned words read as markers.

DEDUCED (log entry 31, unsafe): poison in engine descriptors. -/
def State.pieceNum (s : State) (l : List Nat) : Nat :=
  l.reverse.foldl (fun n a => n * 2 ^ 128 + (s.valAt 8 false a).1.toNat + (s.valAt 8 false (a + 8)).1.toNat * 2 ^ 64) 0

/-- An engine's read for a strand: events of the strand (R155, R163). -/
def State.opRead (s : State) (id warp uid ctx : Nat) (l : List Nat) : State :=
  let c := ((s.findUid uid).bind fun p => (amGet s.warps p.1).map fun w => (w.strand p.2).c).getD 0
  let t := s.stampReads ctx c l
  t.2.agentClock warp uid id t.1

/-- The strand of an operation goes on behind it, from the next clock. -/
def State.freeStrand (s : State) (uid : Nat) : State :=
  s.modUid uid fun st => { st with hold := .none, pc := st.succ, issuableAt := s.clock + 1 }

/-- The strand of an operation traps at it. -/
def State.refuseStrand (s : State) (uid : Nat) (t : TrapInfo) : State :=
  match s.findUid uid with
  | some (k, e) => s.takeTrap k e t 0
  | none => s

/-- The entries of every translation cache that an XINV descriptor names are dropped (R283). -/
def State.dropTranslations (s : State) (kind ctx va : Nat) : State :=
  let keep (t : Tlb) : Bool := if kind = 0 then !t.covers ctx va else if kind = 1 then decide (t.ctx ≠ ctx) else false
  let keepW (e : Nat × Nat × Nat × Nat) : Bool :=
    if kind = 0 then decide (e.1 ≠ ctx ∨ e.2.2.1 ≠ va / 2 ^ (12 + 9 * e.2.1)) else if kind = 1 then decide (e.1 ≠ ctx) else false
  { s with
    tlbSlot := s.tlbSlot.map fun (c : Nat × List Tlb) => (c.1, c.2.filter keep)
    tlbDie := s.tlbDie.map fun (c : Nat × List Tlb) => (c.1, c.2.filter keep)
    walkCache := s.walkCache.filter keepW }

/-- Whether a walk is for the page that holds an address (R283): the page that the tables or a cached translation give it, of any size. -/
def State.walkHolds (s : State) (q : Walk) (ctx va : Nat) : Bool :=
  let page := (match (s.walk ctx va).1 with | .leaf t => [t] | _ => []) ++
    (s.tlbSlot ++ s.tlbDie).flatMap fun c => c.2.filter fun t => t.covers ctx va
  decide (q.ctx = ctx) && (decide (q.va / 4096 = va / 4096) || page.any fun t => t.covers ctx q.va)

/-- XINV completes (R283): the caches have dropped the entries and the matching walks in flight at issue have returned. -/
def State.xinvDone (s : State) (id : Nat) (o : SupOp) (ks : Nat) : State :=
  let d := s.pieceNum o.chunks
  let kind := bitsOf d 80 2
  let ctx := bitsOf d 64 16
  let va := bitsOf d 0 57
  let status (s : State) (v : Word) : State :=
    { s.opRead id o.warp o.uid o.ctx o.chunks with supOps := amErase s.supOps id }.after 0 prioResult (.statusWordWrite o.warp ks id v)
  if bitsOf d 82 46 ≠ 0 ∨ bitsOf d 57 7 ≠ 0 ∨ kind = 3 ∨ (kind ≠ 0 ∧ va ≠ 0) then status s 0x81000000
  else
    let waits := o.walks.any fun w => match amGet s.walks w with
      | some q => decide (kind = 2 ∨ (kind = 1 ∧ q.ctx = ctx)) || (decide (kind = 0) && s.walkHolds q ctx va)
      | none => false
    if waits then s.after 1 prioResult (.supervisorOperationComplete id)
    else status (s.dropTranslations kind ctx va) 0x80000000

/-- A window image as fields (R141). -/
def windowOf (d : Nat) : Window :=
  { scale := bitsOf d 192 64, fmt := BitVec.ofNat 32 (bitsOf d 160 32), log2l := bitsOf d 156 4, size := bitsOf d 129 24,
    en := decide (bitsOf d 128 1 = 1), store := bitsOf d 64 64, view := bitsOf d 0 64 }

/-- The fields as an image. -/
def Window.image (w : Window) : Nat :=
  w.view + w.store * 2 ^ 64 + (if w.en then 2 ^ 128 else 0) + w.size * 2 ^ 129 + w.log2l * 2 ^ 156 + w.fmt.toNat * 2 ^ 160 +
    w.scale * 2 ^ 192

/-- Whether n bytes from a lie in the DRAM region of a die. -/
def inDie (site a n : Nat) : Bool := decide (site * 2 ^ 36 ≤ a) && decide (a + n ≤ site * 2 ^ 36 + Config.dramBytes site)

/-- Whether two runs of bytes overlap. -/
def overlaps (a n b m : Nat) : Bool := decide (a < b + m) && decide (b < a + n)

/-- Whether an enabled window is valid on a die beside its other windows (R142). -/
def State.windowOk (s : State) (site no : Nat) (w : Window) : Bool :=
  let vn := 4096 * w.size
  let sn := 2048 * w.size
  fmtValid w.fmt && decide (w.log2l ≤ 7) && decide (w.size ≠ 0) && decide (w.view % 4096 = 0 ∧ w.store % 2048 = 0) &&
    inDie site w.view vn && inDie site w.store sn && !overlaps w.view vn w.store sn &&
    (List.range 16).all fun j =>
      match amGet s.windows (site * 16 + j) with
      | some o =>
        decide (j = no) || !o.en ||
          (!overlaps w.view vn o.view (4096 * o.size) && !overlaps w.view vn o.store (2048 * o.size) &&
            !overlaps w.store sn o.view (4096 * o.size) && !overlaps w.store sn o.store (2048 * o.size))
      | none => true

/-- FWWR completes (R284); the lines of an enabled view that a cache holds become view lines (R144). An image with a bit set in a reserved
field, of its format word too (R137), is invalid, and the trap leaves no event (R330). -/
def State.fwwrDone (s : State) (id : Nat) (o : SupOp) : State :=
  let d := s.pieceNum o.chunks
  let w := windowOf d
  let site := w.view / 2 ^ 36
  if bitsOf d 153 3 ≠ 0 ∨ bitsOf d 176 16 ≠ 0 ∨ w.scale % 4 ≠ 0 ∨ !inDram w.view ∨ (w.en && !s.windowOk site o.n w) then
    { s with supOps := amErase s.supOps id }.refuseStrand o.uid
      { cls := 7, code := 10, detail := o.lane, addr := o.ptr, lanes := maskOf [o.lane], parcel := o.parcel }
  else
    let s1 := { s.opRead id o.warp o.uid o.ctx o.chunks with supOps := amErase s.supOps id }
    let s2 := { s1 with windows := amSet s1.windows (site * 16 + o.n) w }
    (if w.en then s2.adoptLines w else s2).freeStrand o.uid

/-- FWRD completes (R284): the strand's writes of the image. -/
def State.fwrdDone (s : State) (id : Nat) (o : SupOp) : State :=
  let s1 := { s with supOps := amErase s.supOps id }
  let view := bitsOf (s1.pieceNum o.chunks) 0 64
  if !inDram view then
    s1.refuseStrand o.uid { cls := 7, code := 10, detail := o.lane, addr := o.ptr, lanes := maskOf [o.lane], parcel := o.parcel }
  else
    let img := (amGetD s1.windows (view / 2 ^ 36 * 16 + o.n) {}).image
    let bs := toBytes 32 img
    let s2 := (List.range o.chunks.length).foldl (fun s i =>
      let a := o.chunks.getD i 0
      let c := ((s.findUid o.uid).bind fun p => (amGet s.warps p.1).map fun w => (w.strand p.2).c).getD 0
      let t := (s.fillLine (lineOf a)).writeStamp (lineOf a) c
      let s3 := t.2.putBytes o.uid t.1 a ((bs.drop (16 * i)).take 16)
      ((s3.foldNear (warpCu o.warp) t.1).foldHub o.ctx t.1).agentClock o.warp o.uid id t.1) s1
    s2.freeStrand o.uid

/-- Writes back and drops every copy of a line (R285). -/
def State.wbInvLine (s : State) (l : Nat) : State :=
  let s1 := s.evictLine l
  let s2 := match amGet s1.lines l with | some x => s1.setLine l { x with owner := none } | none => s1
  { s2 with l1 := s2.l1.map fun (c : Nat × AMap L1Line) => (c.1, amErase c.2 l) }

/-- The lines that n bytes from a tagged pointer name: line by line through the context's translation, physical for space 15.

DESIGN CHOICE (log entry 81, unsafe): LWBI passes over the lines whose page does not translate, for which the spec names no fault. -/
def State.rangeLines (s : State) (site ctx p n : Nat) : List Nat :=
  (List.range ((n + 63) / 64)).filterMap fun i =>
    if ptrSpace p = 15 then some (lineOf (ptrOff p) + i)
    else match s.transNow site ctx (ptrOff p + 64 * i) false true false with
      | .ok a => some (lineOf a)
      | .bad _ _ _ => none

/-- LWBI completes (R285). -/
def State.lwbiDone (s : State) (id : Nat) (o : SupOp) : State :=
  let lines := s.rangeLines (cuSite (warpCu o.warp)) o.ctx o.ptr o.n
  (lines.foldl State.wbInvLine { s with supOps := amErase s.supOps id }).freeStrand o.uid

/-- An XINV, FWWR, FWRD or LWBI finishes its package-wide work, and its strand is freed or its status is written. (R285) -/
def execSupervisorOperationComplete (id : Nat) (s : State) : Out :=
  .next <|
    match amGet s.supOps id with
    | none => s
    | some o =>
      if s.earlierPending id o.uid o.kin then s.after 1 prioResult (.supervisorOperationComplete id)
      else
        let ls := linesAt o.chunks
        match s.waitLines id ls with
        | some s' => s'
        | none =>
          match o.kind with
          | .xinv => (s.xinvDone id o (o.ks.getD 0)).leaveLines id ls
          | .fwwr => ((s.fwwrDone id o).leaveLines id ls).settle
          | .fwrd => ((s.fwrdDone id o).leaveLines id ls).settle
          | .lwbi => ((s.lwbiDone id o).leaveLines id ls).settle

/-! ### Replies (R345, R383) -/

/-- The frozen strand whose posted record has a CTX and SEQ. -/
def State.findFrozen (s : State) (ctx seq : Nat) : Option (Nat × Nat) :=
  s.warps.findSome? fun p =>
    if s.ctxOf p.1 = ctx then
      (p.2.liveEntries.find? fun e =>
        let st := p.2.strand e
        decide (st.state = .frozen ∧ st.seq = some seq) && st.trapPosted).map fun e => (p.1, e)
    else none

/-- The identity of the frozen strand of a stopped context's image. -/
def State.findSaved (s : State) (ctx seq : Nat) : Option Nat :=
  (((amGet s.ctxs ctx).bind Ctx.saved).map Saved.warps).bind fun ws =>
    ws.findSome? fun p => (p.2.table.find? fun st =>
      decide (st.state = .frozen ∧ st.seq = some seq) && st.trapPosted).map Strand.uid

/-- Whether the kernel of a strand in a stopped context's image has an overlay (R345). -/
def State.savedHolds (s : State) (ctx uid ovl : Nat) : Bool :=
  match (amGet s.ctxs ctx).bind Ctx.saved with
  | none => true
  | some v =>
    let team := (v.warps.find? fun p => p.2.table.any fun st => decide (st.uid = uid)).map fun p => p.2.team
    match (team.bind fun tn => amGet v.teams tn).bind fun t => (amGet s.grids t.grid).orElse fun _ => amGet v.grids t.grid with
    | some g => (match s.directory 8 ctx g.lr.code ovl (((amGet s.ctxs ctx).map Ctx.sup).getD false) with | .ok _ _ => true | _ => false)
    | none => true

/-- Marks the strand of an identity in a saved image. -/
def State.modSaved (s : State) (ctx uid : Nat) (f : Strand → Strand) : State :=
  s.modCtx ctx fun c => { c with saved := c.saved.map fun v =>
    { v with warps := v.warps.map fun p => (p.1, { p.2 with table := p.2.table.map fun st => if st.uid = uid then f st else st }) } }

/-- The strand leaves state 6 (R345), issuable in the next clock. -/
def State.applyReply (s : State) (r : Reply) : State :=
  match s.findUid r.target with
  | none => s
  | some (k, e) =>
    match amGet s.warps k with
    | none => s
    | some w =>
      if (w.strand e).state ≠ .frozen then s
      else
        match r.kind with
        | .resume => (s.modStrand k e fun st => { st.resumed with issuableAt := s.clock + 1, walked := [] }).wantOverlays k
        | .redirect => (s.modStrand k e fun st => { st.redirected r.newpc with issuableAt := s.clock + 1, walked := [] }).wantOverlays k
        | .kill => s.exitLanes k e (w.strand e).mask

/-- Whether a kernel's directory has an overlay, for the strand at a place.

DEDUCED (log entry 68, unsafe): the check of NEWPC. -/
def State.kernelHolds (s : State) (k ovl : Nat) : Bool :=
  match s.gridOf k with
  | some (_, g) =>
    (s.bank (warpCu k) g.ctx g.lr.code ovl).isSome ||
      (match s.directory (cuSite (warpCu k)) g.ctx g.lr.code ovl (((amGet s.ctxs g.ctx).map Ctx.sup).getD false) with | .ok _ _ => true | _ => false)
  | none => true

/-- Whether a reserved field of a trap record is set (R9, R335). -/
def recordReserved (d : Nat) : Bool := decide (bitsOf d 448 64 ≠ 0 ∨ bitsOf d 96 11 ≠ 0 ∨ bitsOf d 8 56 ≠ 0)

/-- The hub's check of a reply (R345): what it names, or the trap of the replying strand, which leaves no event (R330).

DEDUCED (log entry 76, unsafe): a record with a reserved field set, which R9 makes invalid, names no frozen strand. -/
def State.replyCheck (s : State) (id : Nat) (r : Reply) : State :=
  let d := s.pieceNum r.chunks
  let back := s.hubTrip (cuSite (warpCu r.warp))
  let seq := bitsOf d 64 32
  let ctx := bitsOf d 107 6
  let pc := BitVec.ofNat 23 (bitsOf d 209 23)
  let refuse (code : Nat) : State :=
    { s with replies := amErase s.replies id }.refuseStrand r.uid
      { cls := 7, code := code, detail := r.lane, addr := r.ptr, lanes := maskOf [r.lane], parcel := r.parcel }
  let read := s.opRead id r.warp r.uid r.ctx r.chunks
  if recordReserved d then refuse 9 else
  match s.findFrozen ctx seq with
  | some (k, e) =>
    if r.kind = .redirect ∧ !s.kernelHolds k (pcOvl pc) then refuse 4
    else
      let uid := ((amGet s.warps k).map fun w => (w.strand e).uid).getD 0
      let f := read.fromHub ctx (cuSite (warpCu k))
      let s1 := f.1.modStrand k e fun st => { st with trapPosted := false }
      { s1 with replies := amSet s1.replies id { r with stage := 1, target := uid, tctx := ctx, seq := seq, newpc := pc } }.after f.2 prioResult
        (.replyTakeEffect id)
  | none =>
    match s.findSaved ctx seq with
    | some uid =>
      if r.kind = .redirect ∧ !s.savedHolds ctx uid (pcOvl pc) then refuse 4 else
      let s1 := (read.modSaved ctx uid fun st => { st with trapPosted := false }).modCtx ctx fun c => { c with heldReplies := c.heldReplies ++ [id] }
      { s1 with replies := amSet s1.replies id { r with stage := 2, target := uid, tctx := ctx, seq := seq, newpc := pc } }.after (120 + back) prioResult
        (.replyTakeEffect id)
    | none => refuse 9

/-- A reply reaches the hub, is checked against CTX and SEQ, and the named strand leaves state 6. (R383) -/
def execReplyTakeEffect (id : Nat) (s : State) : Out :=
  .next <|
    match amGet s.replies id with
    | none => s
    | some r =>
      if r.stage = 0 then
        if s.earlierPending id r.uid r.kin then s.after 1 prioResult (.replyTakeEffect id)
        else
          match s.waitLines id (linesAt r.chunks) with
          | some s' => s'
          | none => ((s.replyCheck id r).leaveLines id (linesAt r.chunks)).settle
      else if r.stage = 1 then
        let far := ((s.findUid r.target).map Prod.fst).getD r.warp
        let f := s.toHub r.tctx (cuSite (warpCu far)) (s.favouredWarp far)
        let g := f.1.fromHub r.ctx (cuSite (warpCu r.warp))
        let s := g.1
        let back := f.2 + g.2
        if ((amGet s.ctxs r.tctx).map Ctx.state) ≠ some .running then
          { (s.modCtx r.tctx fun c => { c with heldReplies := c.heldReplies ++ [id] }) with
            replies := amSet s.replies id { r with stage := 2 } }.after back prioResult (.replyTakeEffect id)
        else
          ({ s with replies := amSet s.replies id { r with stage := 2 } }.applyReply r |>.after back prioResult (.replyTakeEffect id)).settle
      else
        -- a reply held for a stopped context stays with the hub; its strand goes on (R345, R383)
        let held := s.ctxs.any fun c => c.2.heldReplies.contains id
        let s1 := if held then { s with replies := amSet s.replies id { r with stage := 3 } } else { s with replies := amErase s.replies id }
        (s1.freeStrand r.uid).settle

end Sys2Proof.Machine
end

