-- ==== Sys2Proof/Machine/Sched.lean ====
section
/-! DEFINITION. The choice of the group to issue (R80, R118-R120, R291-R294, R297, R298, R374), the fetch of a group (R182), what the issue
of a group changes around its effect, and the retirement of strands (R75, R245). -/

namespace Sys2Proof.Machine

/-! ### Fetch (R165, R182) -/

/-- The halfwords at a PC of a warp's kernel, to the end of the loaded overlay: at most the seven of the longest group. -/
def State.fetch (s : State) (k : Nat) (pc : BitVec 23) : List (BitVec 16) :=
  match s.gridOf k with
  | some (_, g) =>
    match s.bank (warpCu k) g.ctx g.lr.code (pcOvl pc) with
    | some b => (List.range (min 7 (min b.len 32768 - pcOff pc))).map fun i => spGet b.code (pcOff pc + i)
    | none => []
  | none => []

/-- The group a strand is to issue; past the end of its overlay there is none (R182). -/
def State.group (s : State) (k e : Nat) : Decoded :=
  match amGet s.warps k with
  | some w => if (w.strand e).pastEnd then decode [] else decode (s.fetch k (w.strand e).pc)
  | none => decode []

/-! ### Scoreboard stalls (R118, R129, R162, R218, R237, R287) -/

/-- Whether the lanes of a transfer disagree on the next PC (R70). -/
def Iss.diverges (x : Iss) (s : State) (i : Instr) : Bool :=
  let lanes := lanesOf x.mask
  let split (p : Nat) : Bool := decide (x.mask &&& x.w.pred x.st.fibre p ≠ 0) && decide (x.mask &&& ~~~ (x.w.pred x.st.fibre p) ≠ 0)
  let targets (a : Nat) : Bool := decide (1 < ((lanes.map fun l => x.src s a l).eraseDups).length)
  match i with
  | .brt _ o p => split p.toNat && decide (x.relPc o.toInt ≠ x.next)
  | .brf _ o p => split p.toNat && decide (x.relPc o.toInt ≠ x.next)
  | .jmpi _ r => targets r.toNat
  | .ret _ r => targets r.toNat
  | .calli _ _ a => targets a.toNat
  | _ => false

/-- Whether a fence window makes the group stall (R162, R218, R237, R287). -/
def Iss.windowStall (x : Iss) (s : State) (i : Instr) : Bool :=
  match x.st.fence with
  | none => false
  | some fw => decide (16 ≤ fw.issued) || x.info.writes || x.info.sync || (x.info.control && x.diverges s i)

/-- Whether the k register that a YIELDC names awaits a write by none of the operations that R250 lets it not wait for: an XINV's status. -/
def Iss.yieldWaits (x : Iss) (s : State) (k : Nat) : Bool :=
  x.w.kpend.any fun q => decide (q.1 = k) && (amGet s.supOps q.2).isSome

/-- Whether the guard's predicate is still to be written, and with it the reduced mask (R167). -/
def Iss.guardPending (x : Iss) : Bool :=
  match x.g.pred with
  | some (p, _) => x.w.pipe.any fun e => e.2.res.contains (.pred x.st.fibre p.toNat)
  | none => false

/-- Whether a pending write covers something the group reads or writes (R118, R250, R299). -/
def Iss.pending (x : Iss) (s : State) : Bool :=
  let vs := regsOf x.info.allSrcs ++ dstRegs x.info ++ (match x.info.lane1 with | some l => [l.1] | none => [])
  let ks := kRead x.info x.g ++ x.info.kdst ++ x.info.ksts
  let waitK := (kRead x.info x.g).filter (fun k => !x.info.kyield.contains k) ++ x.info.kdst ++ x.info.ksts
  let rs := vs.flatMap x.resOf ++ ks.map Res.kreg ++ (pRead x.info x.g ++ x.info.pdst).map (Res.pred x.st.fibre ·)
  rs.any (fun r => x.w.pipe.any fun p => p.2.res.contains r) ||
    waitK.any (fun k => x.w.kpend.any fun q => decide (q.1 = k)) || x.info.kyield.any (x.yieldWaits s) ||
    (latchesOf x.info.allSrcs).any (fun j =>
      let l := x.st.latches.getD j {}
      l.valid && (l.load.isSome || decide (s.clock < l.ready))) ||
    (x.info.fstat && (x.w.flagsPending x.st.fibre || x.w.flagsHeld x.st.fibre x.e))

/-- Whether a group stalls on the scoreboard (R118); one with an empty reduced mask reads nothing and waits for nothing but its guard, and a
place in its fence's window (R210, R218, R333). -/
def Iss.stalls (x : Iss) (s : State) (i : Instr) : Bool :=
  (match x.st.hold with | .stall _ => true | _ => false) || x.guardPending ||
    (if x.mask = 0 then x.st.fence.any fun fw => decide (16 ≤ fw.issued)
     else x.windowStall s i || x.pending s || x.engineStall s i || x.memWait s i)

/-! ### Issuable strands (R118) -/

/-- Whether a group is a backward branch (R317, R319). -/
def Instr.backward (i : Instr) : Bool :=
  match i with
  | .bra _ o => o.msb
  | .brt _ o _ => o.msb
  | .brf _ o _ => o.msb
  | _ => false

/-- A strand's group at issue, for the checks of the scheduler. -/
def State.issAt (s : State) (k e : Nat) (i : Instr) : Option Iss := issOf i { s with cur := some { warp := k, entry := e } }

/-- Whether a budget defers a strand's next group (R117). -/
def State.deferAt (s : State) (k e : Nat) : Bool :=
  match s.group k e with
  | .ok i _ => (s.issAt k e i).any fun x => x.defers s i
  | .trap _ _ _ => false

/-- Whether a strand stands at a migration point (R319, R376): every group boundary on Flight 1; on Flight 2 a strand held at issue, for a
budget, a block or a bay in operation too, one marked at its last transfer, one at an overlay's first group or at a backward branch.

DESIGN CHOICE (log entry 44, unsafe): safe points of a stop on Flight 2. -/
def State.atMigPoint (s : State) (k e : Nat) : Bool :=
  match amGet s.warps k with
  | none => true
  | some w =>
    let st := w.strand e
    decide (Config.flight (cuSite (warpCu k)) = 1 ∨ st.state ≠ .ready ∨ st.hold ≠ .none ∨ pcOff st.pc = 0) || st.stopped || w.op.isSome ||
      w.spilled.isSome || st.ovlWait.isSome || (s.teamOf k).any (fun t => t.2.bayMoving) || s.deferAt k e || (match s.group k e with | .ok i _ => Instr.backward i | .trap _ _ _ => true)

/-- Whether a strand's context lets it issue: it runs, or it stops with MIG and the strand has not reached a migration point. -/
def State.runs (s : State) (k e : Nat) : Bool :=
  match amGet s.ctxs (s.ctxOf k) with
  | some c => decide (c.state = .running) || (decide (c.state = .stopping) && c.mig && !s.atMigPoint k e)
  | none => false

/-- Whether nothing but the scoreboard can keep a strand from issuing: it is in state 1 with lanes left, not held, its overlay is
resident, its warp and team are not held by an allocator, and its context runs. -/
def State.mayIssue (s : State) (k e : Nat) : Bool :=
  match amGet s.warps k, s.teamOf k with
  | some w, some (_, t) =>
    let st := w.strand e
    decide (st.state = .ready ∧ st.mask ≠ 0 ∧ st.issuableAt ≤ s.clock) && st.ovlWait.isNone &&
      (match st.hold with | .busy _ => false | _ => true) && w.op.isNone && w.spilled.isNone && t.started && !t.bayMoving &&
      s.runs k e && !(s.cu (warpCu k)).dead && !(s.cu (warpCu k)).mute && (s.resident k st.pc || st.pastEnd)
  | _, _ => false

/-- Whether a strand's next group stalls on the scoreboard, with its SW prefix. -/
def State.stallAt (s : State) (k e : Nat) : Bool × Option Bool :=
  match s.group k e with
  | .ok i _ =>
    match s.issAt k e i with
    | some x => (x.stalls s i, i.pfx.sw)
    | none => (false, i.pfx.sw)
  | .trap _ _ _ => (false, none)

/-- Whether a strand is issuable (R118). -/
def State.issuable (s : State) (k e : Nat) : Bool := s.mayIssue k e && !(s.stallAt k e).1 && !s.deferAt k e

/-- Whether a holder is at a switch (R80): it stalls at a `~` group. -/
def State.atSwitch (s : State) (k e : Nat) : Bool := s.mayIssue k e && decide (s.stallAt k e = (true, some false))

/-! ### The slot policy (R119, R291, R297) -/

/-- The best of a list by a key, the first on a tie. -/
def firstMin {α : Type} (key : α → Nat) : List α → Option α
  | [] => none
  | a :: t => match firstMin key t with
    | none => some a
    | some b => if key b < key a then some b else some a

/-- The strand that the policy of a warp's launch chooses among entries.

DEDUCED (log entry 33, unsafe): issue order among the strands of a warp slot. -/
def State.chooseHolder (s : State) (k : Nat) (w : Warp) (l : List Nat) : Option Nat :=
  let rr := ((s.gridOf k).map fun g => g.2.lr.rr).getD false
  let n := max w.fibres.length 1
  if rr then firstMin (fun e => ((w.strand e).fibre + 2 * n - w.lastFibre - 1) % n * 8 + e) l
  else firstMin (fun e => (w.strand e).lastIssue * 32 + (w.strand e).fibre * 8 + e) l

def Warp.hold (w : Warp) (e : Nat) : Warp := { w with holder := some e, vacated := false, lastFibre := (w.strand e).fibre }

/-- Makes a warp slot's holder what it is in this clock (R118, R292, R298): a successor for one that left, the switch of one that stalls at
`~`, the first strand to become issuable where there is none. A holder chosen in a switch clock, or in the clock in which an event made the
one before it leave, issues in the next (R293). -/
def State.updateHolder (s : State) (k : Nat) : State :=
  match amGet s.warps k with
  | none => s
  | some w =>
    let live := w.liveEntries
    match w.holder with
    | some e =>
      if w.vacated then
        match s.chooseHolder k w (live.filter fun a =>
            decide ((w.strand a).state = .ready ∧ (w.strand a).mask ≠ 0 ∧ (w.strand a).issuableAt ≤ w.leftAt + 1) && decide (s.stallAt k a ≠ (true, some false))) with
        | some a => { s.modWarp k fun w => w.hold a with tried := if w.leftAt = s.clock then k :: s.tried else s.tried }
        | none => s.modWarp k fun w => { w with holder := none, vacated := false }
      else if s.atSwitch k e then
        let s1 := { (s.modStrand k e fun st => { st.dropLatches with switched := true }) with tried := k :: s.tried }
        match s.chooseHolder k w (live.filter fun a => decide (a ≠ e) && s.issuable k a) with
        | some a => s1.modWarp k fun w => w.hold a
        | none => s1.modWarp k fun w => { w with holder := none, lastFibre := (w.strand e).fibre }
      else s
    | none =>
      match s.chooseHolder k w (live.filter fun a => s.issuable k a) with
      | some a => s.modWarp k fun w => w.hold a
      | none => s

/-! ### The choice of a warp slot (R120, R374) -/

/-- The warp slots of an issue slot that hold warps. -/
def State.slotWarps (s : State) (slot : Nat) : List Nat := ((List.range 8).map (8 * slot + ·)).filter fun k => (amGet s.warps k).isSome

/-- The warp slots of an issue slot that can issue their holder in this clock. -/
def State.readySlots (s : State) (slot : Nat) : List Nat :=
  (s.slotWarps slot).filter fun k => !s.tried.contains k &&
    (match (amGet s.warps k).bind Warp.holder with | some e => s.issuable k e | none => false)

/-- The last issue of a warp slot's holder. -/
def State.holderIssue (s : State) (k : Nat) : Nat :=
  match amGet s.warps k with
  | some w => (match w.holder with | some e => (w.strand e).lastIssue | none => 0)
  | none => 0

/-- The warp slot that R120 chooses among those that can issue. -/
def State.chooseSlot (s : State) (slot : Nat) (l : List Nat) : Option Nat :=
  let last := amGet (s.cu (slot / 4)).lastSlot slot
  if (s.slotWarps slot).any fun k => ((s.gridOf k).map fun g => g.2.lr.rr).getD false then
    let n := match last with | some (k, _) => k % 8 | none => 7
    firstMin (fun k => (k % 8 + 15 - n) % 8) l
  else
    match last with
    | some (k, t) => if l.contains k ∧ t + 1 = s.clock then some k else firstMin (fun k => s.holderIssue k * 8 + k % 8) l
    | none => firstMin (fun k => s.holderIssue k * 8 + k % 8) l

/-- Lets a warp slot issue its holder in the next step. -/
def State.issueFrom (s : State) (k : Nat) : State :=
  match (amGet s.warps k).bind Warp.holder with
  | some e => { s with cur := some { warp := k, entry := e } }
  | none => s

/-- A strand chosen to hold its warp slot, or any of a slot without a holder, whose overlay has been replaced requests it again (R279). -/
def State.askAgain (s : State) (k : Nat) : State :=
  match amGet s.warps k, s.teamOf k with
  | some w, some (_, t) =>
    let ask := (match w.holder with | some e => [e] | none => w.liveEntries).filter fun e => t.started && s.runs k e
    ask.foldl (fun s e => s.wantOverlay k e) s
  | _, _ => s

def State.updateHolders (s : State) (slot : Nat) : State :=
  ((s.slotWarps slot).filter fun k => !s.tried.contains k).foldl (fun s k => (s.updateHolder k).askAgain k) s

/-- Starts the gather of an MMAG that a warp slot's issuable holder comes to, with the walks it needs: in the first clock in which it finds
every source other than the rows readable, whichever warp slot issues (R305). -/
def State.startGatherOf (s : State) (k : Nat) : State :=
  match (amGet s.warps k).bind Warp.holder with
  | none => s
  | some e =>
    match s.group k e with
    | .ok (.mmag g c b a d n) _ =>
      if (amGet s.gathers (((amGet s.warps k).map fun w => (w.strand e).uid).getD 0)).isSome then s
      else
        match execMmag g c b a d n { s with cur := some { warp := k, entry := e } } with
        | .next t => if t.tried = k :: s.tried then { t with toServe := s.toServe } else s
        | _ => s
    | _ => s

def State.startGathers (s : State) (slot : Nat) : State := (s.readySlots slot).foldl State.startGatherOf s

/-- Each clock an issue slot chooses a warp slot and issues its holder's group, changing holders at switch points. (R118) -/
def execIssueSelect (slot : Nat) (s : State) : Out :=
  .next <|
    let s1 := (s.updateHolders slot).startGathers slot
    match s1.chooseSlot slot (s1.readySlots slot) with
    | some k => s1.issueFrom k
    | none => s1

/-- The warp slots of an issue slot whose holders R374 puts ahead: of a lowest unfinished team, issuable, and not issued for 256
clocks. -/
def State.starved (s : State) (slot : Nat) : List Nat :=
  (s.readySlots slot).filter fun k =>
    decide (s.holderIssue k + 256 < s.clock) && (((s.teamOf k).map fun t => s.favoured t.2).getD false)

/-- A holder of a lowest unfinished team that has not issued for 256 clocks is issued ahead of the normal choice. (R374) -/
def execStarvationIssue (slot : Nat) (s : State) : Out :=
  .next <|
    let s1 := (s.updateHolders slot).startGathers slot
    match s1.starved slot with
    | k :: _ => s1.issueFrom k
    | [] =>
      match s1.chooseSlot slot (s1.readySlots slot) with
      | some k => s1.issueFrom k
      | none => s1

/-! ### Around the effect of a group -/

/-- What the issue of a group leaves with its strand, its warp slot and the bank it was fetched from (R119, R120, R279). -/
def State.noteIssue (s : State) (k e uid : Nat) (pc : BitVec 23) (parcel : Nat) : State :=
  match s.gridOf k with
  | none => s
  | some (_, g) =>
    (s.modWarp k fun w => { w.modStrand e (fun st =>
        if st.live && st.mine uid then { st with lastIssue := s.clock, walked := if st.state = .ready then [] else st.walked, parcel := parcel } else st) with
        lastIssue := s.clock }).modCu (warpCu k) fun c =>
      { c with lastSlot := amSet c.lastSlot (warpIssue k) (k, s.clock)
               banks := c.banks.map fun b => if b.ctx = g.ctx ∧ b.dir = g.lr.code ∧ b.ovl = pcOvl pc then { b with fetchedAt := s.clock } else b }

/-- The yield of a `~~` group (R80, R118, R293, R294): its latches become invalid and another issuable strand of the slot holds it.

DESIGN CHOICE (log entry 101, unsafe): of a `~~` transfer that splits, the latches of the entry that issued it become invalid, and its other
children keep those they took with them, which R80 and R294 leave open. -/
def State.yieldTurn (s : State) (k e : Nat) : State :=
  match amGet s.warps k with
  | none => s
  | some w =>
    if w.vacated ∨ w.holder ≠ some e then s
    else
      let s1 := s.modStrand k e Strand.dropLatches
      match s1.chooseHolder k { w with lastFibre := (w.strand e).fibre } (w.liveEntries.filter fun a => decide (a ≠ e) && s1.issuable k a) with
      | some a => s1.modWarp k fun w => w.hold a
      | none => s1

/-- Whether a group has issued: one held at issue has put its warp slot among those tried in this clock. -/
def State.issuedFrom (s s' : State) (k : Nat) : Bool := decide (s'.tried ≠ k :: s.tried)

/-- Whether a strand has just moved into an overlay that is not resident, from a PC (R236). -/
def State.leftBank (s : State) (k e uid : Nat) (pc : BitVec 23) : Bool :=
  match amGet s.warps k with
  | some w =>
    let st := w.strand e
    st.mine uid && decide (st.state = .ready) && decide (pcOvl st.pc ≠ pcOvl pc) && !s.resident k st.pc
  | none => false

/-- Whether a group's target is a PC of any overlay (R241). -/
def Instr.indirect (i : Instr) : Bool := match i with | .jmpi .. => true | .ret .. => true | .calli .. => true | .fcall .. => true | _ => false

/-- Marks the strand that has issued a group from PC, or what it has split into, where its next group would lie past the end of its overlay
(R182). -/
def State.markPast (s : State) (k uid : Nat) (pc : BitVec 23) (i : Instr) : State :=
  let next := BitVec.ofNat 23 (pc.toNat + i.len)
  let ends := decide (pcOff pc + i.len = 32768) && !Instr.indirect i
  s.modWarp k fun w =>
    { w with
      table := w.table.map fun st =>
        if st.mine uid then { st with ranPast := ends && (decide (st.pc = next) || decide (st.succ = next ∧ (st.state ≠ .ready ∨ st.hold ≠ .none))) }
        else st
      overflow := w.overflow.map fun p =>
        if follows p.uid uid p.kin then { p with ranPast := ends && (decide (p.pc = next) || decide (p.succ = next ∧ p.atJoin = true)) } else p }

/-- The switch of a holder whose `~` group is held at issue as it is tried (R118): R119 chooses among the other issuable strands in that clock. -/
def State.switchHeld (s : State) (k e : Nat) : State :=
  match amGet s.warps k with
  | some w =>
    if w.holder.isSome then s
    else match s.chooseHolder k w (w.liveEntries.filter fun a => decide (a ≠ e) && s.issuable k a) with
      | some a => s.modWarp k fun w => w.hold a
      | none => s
  | none => s

/-- What surrounds the effect of a group that a strand issues from PC: a `~~` group hands the warp slot on, and so does a transfer with
`~` into an overlay that is not resident (R118, R236). -/
def State.afterIssue (s s' : State) (k e : Nat) (pc : BitVec 23) (i : Instr) : State :=
  if s.issuedFrom s' k then
    let uid := ((amGet s.warps k).map fun w => (w.strand e).uid).getD 0
    let s1 := s'.noteIssue k e uid pc i.word
    let s2 := if i.pfx.sw = some true ∨ (i.pfx.sw = some false ∧ s1.leftBank k e uid pc) then s1.yieldTurn k e else s1
    let s3 := s2.modStrand k e fun st => if st.mine uid then { st with stopped := decide (pcOvl st.pc ≠ pcOvl pc ∨ st.pc.toNat < pc.toNat) } else st
    ((s3.markPast k uid pc i).wantOverlay k e).dropGather (warpCu k) uid
  else s'.switchHeld k e

/-- A group that does not decode traps (R181, R182, R335). -/
def State.decodeFault (s : State) (k e code off parcel : Nat) : State :=
  match amGet s.warps k with
  | none => { s with cur := none }
  | some w =>
    let st := w.strand e
    { ((s.takeTrap k e { cls := 1, code := code, detail := off, parcel := parcel } st.pc).noteIssue k e st.uid st.pc parcel) with cur := none }

/-! ### Retirement and barriers (R75, R245, R247, R373) -/

/-- A strand with an empty mask retires once its pending register writes land. (R245) -/
def execStrandRetire (uid : Nat) (s : State) : Out :=
  .next <|
    match s.findUid uid with
    | none => s
    | some (k, e) =>
      match amGet s.warps k with
      | none => s
      | some w =>
        let st := w.strand e
        if st.mask ≠ 0 ∨ w.writesPending st then s
        else
          let s1 := match s.gridOf k with
            | some (gn, _) => s.modGrid gn fun g => { g with vcEnd := vcJoin g.vcEnd st.clockOf }
            | none => s
          let s2 := s1.modWarp k fun w => { w.leave e s.clock with table := w.table.set e {} }
          (s2.freedEntry k e st.fibre).settle

/-- Once every participant has arrived and its events are acknowledged, the barrier releases after its latency. (R247) -/
def execBarrierRelease (id : Nat) (s : State) : Out :=
  .next <|
    match amGet s.episodes id with
    | none => s
    | some ep => (s.barRelease id ep).settle

/-- The number of a state in DETAIL (R364). -/
def StrandState.number : StrandState → Nat
  | .free => 0 | .ready => 1 | .barrier => 2 | .countWait => 3 | .statusWait => 4 | .atJoin => 5 | .frozen => 6

/-- A strand waiting too long in states 2–5 is frozen with class 12, code 4. (R373)

DEDUCED (log entry 37, unsafe): fields of watchdog and notice records. -/
def execWatchdogExpiry (uid : Nat) (s : State) : Out :=
  .next <|
    match s.findUid uid with
    | none => s
    | some (k, e) =>
      match amGet s.warps k with
      | none => s
      | some w =>
        let st := w.strand e
        if (st.state = .barrier ∨ st.state = .countWait ∨ st.state = .statusWait ∨ st.state = .atJoin) ∧ s.watchLimit ≤ s.clock - st.waitSince then
          (s.takeTrap k e { cls := 12, code := 4, detail := st.state.number, lanes := st.mask, parcel := st.parcel } st.pc).settle
        else s

end Sys2Proof.Machine
end

