-- ==== Sys2Proof/Machine/Dealing.lean ====
section
/-! DEFINITION. The launch sequencer (R60-R64, R82, R106-R114, R152, R365-R368, R372, R380): acceptance and refusal, dependence counters, dealing
and reservation, the start and end of teams, and the retirement of grids. -/

namespace Sys2Proof.Machine

/-! ### Helpers -/

/-- The clocks of a read between the hub and a line's home: the level that serves it, one spoke hop away. -/
def State.hubLatency (s : State) (a : Nat) : Nat :=
  if (s.line (lineOf a)).inL2 then fullL2 (s.hubHops (homeOf a)) else fullDram (s.hubHops (homeOf a))

def State.supOf (s : State) (ctx : Nat) : Bool := ((amGet s.ctxs ctx).map Ctx.sup).getD false

/-- Whether a dealing step is due by a clock. -/
def State.dealDue (s : State) (t : Nat) : Bool := s.agenda.any fun a => decide (a.ev = .dealingStep ∧ a.due ≤ t)

/-- Schedules a dealing step d clocks from now, unless one is due by then. -/
def State.tickDeal (s : State) (d : Nat) : State := if s.dealDue (s.clock + d) then s else s.after d prioLate .dealingStep

/-- Whether a launch still has a unit to deal. -/
def Grid.undealt (g : Grid) : Bool := decide (g.nextTeam < g.lr.total) && !g.held && !g.dropped && !g.retired

/-- A notice record (R365): no strand is frozen by it. -/
def State.notice (s : State) (ctx number : Nat) (who : Issuer) (t : TrapInfo) : State :=
  s.sendRecord ctx 0 (2 ^ 33) 0 (recordNum s.trapVersion ctx number who.team who.warp who.fibre who.entry 0 0 t)

/-! ### Acceptance (R107-R110, R254, R255, R366) -/

/-- The fields of a launch record read as a number (R107). -/
def launchRec (n : Nat) : LaunchRec :=
  { param := toBytes 64 (bitsOf n 512 512), done := bitsOf n 448 64, waitn := bitsOf n 384 64, waitc := bitsOf n 320 64,
    winmapAt := bitsOf n 256 64, prio := bitsOf n 219 3, group := bitsOf n 217 2, rr := decide (bitsOf n 216 1 = 1),
    det := decide (bitsOf n 215 1 = 1), spare := bitsOf n 208 7, bays := bitsOf n 201 7, regs := bitsOf n 198 3,
    fibres := bitsOf n 196 2 + 1, warps := bitsOf n 192 4 + 1, gridz := bitsOf n 160 32, gridy := bitsOf n 128 32,
    gridx := bitsOf n 96 32, entry := BitVec.ofNat 23 (bitsOf n 64 23), code := bitsOf n 0 64 }

/-- Whether a record keeps the limits of R107. -/
def recordOk (n : Nat) : Bool :=
  let r := launchRec n
  decide (bitsOf n 222 34 = 0 ∧ bitsOf n 87 9 = 0 ∧ r.regs ≤ 5 ∧ r.spare ≤ 64 ∧ r.bays ≤ 64 ∧ r.bays + r.spare ≤ 64) &&
    decide (1 ≤ r.gridx ∧ 1 ≤ r.gridy ∧ 1 ≤ r.gridz ∧ r.total ≤ 2 ^ 40) &&
    decide (r.done < 2 ^ 57 ∧ r.waitc < 2 ^ 57 ∧ r.winmapAt < 2 ^ 57 ∧ r.code < 2 ^ 57) &&
    decide (r.done % 8 = 0 ∧ r.waitc % 8 = 0 ∧ r.winmapAt % 64 = 0 ∧ r.code % 64 = 0)

/-- The refusal code of a launch, or 0 (R366). -/
def State.launchCode (s : State) (l : Launch) (n : Nat) (imgOk : Bool) : Nat :=
  let r := launchRec n
  let queued := (s.grids.filter fun g => decide (g.2.ctx = l.ctx ∧ g.2.lr.prio = r.prio ∧ g.2.nextTeam < g.2.lr.total) && !g.2.dropped).length
  if !recordOk n then 1
  else if 10 < l.depth then 2
  else if l.wNum ≠ 0 then 3
  else if 1024 ≤ queued then 4
  else if !allCus.any fun cu => s.unitFitsEmpty r (min (2 ^ r.group) r.total) cu then 5
  else if ((amGet s.ctxs l.ctx).map Ctx.state) ≠ some .running then 6
  else if !imgOk then 7
  else 0

/-- n bytes at a virtual address as the hub reads them for a context, poisoned words as markers; none when they cannot be read. -/
def State.hubRead (s : State) (ctx va n : Nat) : Option (List Byte) :=
  (List.range (n / 8)).foldl (fun (m : Option (List Byte)) (i : Nat) =>
    match m with
    | none => none
    | some l =>
      match s.transNow 8 ctx (va + 8 * i) false (s.supOf ctx) false with
      | .ok a => if s.contained a then none else some (l ++ toBytes 8 (s.valAt 8 false a).1.toNat)
      | .bad _ _ _ => none) (some [])

/-- Why n bytes at a virtual address cannot be read by the hub: class, code and origin of the first fault or poison (R108, R366). -/
def State.hubFault (s : State) (ctx va n : Nat) : Option (Nat × Nat × Nat) :=
  (List.range (n / 8)).findSome? fun i =>
    match s.transNow 8 ctx (va + 8 * i) false (s.supOf ctx) false with
    | .bad cls code o => some (cls, code, o)
    | .ok a => if s.contained a then some (8, 1, 7) else ((s.poisonIn a 8).head?).map fun p => (8, 1, p.2)

/-- The physical addresses of the 64-byte chunks of n bytes at a virtual address. -/
def State.hubChunks (s : State) (ctx va n : Nat) : List Nat :=
  (List.range (n / 64)).filterMap fun i => match s.transNow 8 ctx (va + 64 * i) false true false with | .ok a => some a | .bad _ _ _ => none

/-- The hub sends a message for a virtual address to its home (R21, R111): the clocks of its translation (R105) and of its way. -/
def State.hubSend (s : State) (ctx va : Nat) : State × Nat :=
  let t := s.translate true 8 ctx va
  match s.transNow 8 ctx va false true false with
  | .ok a =>
    let f := t.1.sendFlits ctx 8 (homeOf a) 1 true true 0
    (f.1, t.2 + halfL2 (s.hubHops (homeOf a)) + f.2)
  | .bad _ _ _ => t

/-- The home of an address answers the hub (R21, R116): the clocks by which the answer is lengthened. -/
def State.hubAnswer (s : State) (ctx a : Nat) : State × Nat := s.sendFlits ctx (homeOf a) 8 1 true false 0

/-- A read of the hub at a virtual address (R21, R105, R121): the clocks of its translation and of the level that serves it. -/
def State.hubAsk (s : State) (ctx va : Nat) : State × Nat :=
  let t := s.translate true 8 ctx va
  match s.transNow 8 ctx va false true false with
  | .ok a =>
    let f := t.1.sendFlits ctx 8 (homeOf a) 1 true true 0
    let g := f.1.hubAnswer ctx a
    (g.1, t.2 + s.hubLatency a + f.2 + g.2)
  | .bad _ _ _ => t

/-- The read events of a hub read (R163): of the sequencer, whose timestamps rise from one to the next (R155). -/
def State.hubStamp (s : State) (ctx va n c : Nat) : State :=
  let s1 := (List.range (n / 64)).foldl (fun s i => s.useTrans 8 ctx (va + 64 * i)) s
  let t := s1.stampReads ctx (max c (amGetD s1.hubC 3 0)) (s.hubChunks ctx va n)
  { t.2 with hubC := raise t.2.hubC 3 t.1 }

/-- Accepts a launch (R108): its number, seed, depth and place in its queue; a counter is read at once (R111). -/
def State.acceptLaunch (s : State) (l : Launch) (r : LaunchRec) (winmap : Sparse 8) : State :=
  match amGet s.ctxs l.ctx with
  | none => s
  | some c =>
    let gn := s.nextId
    let g : Grid :=
      { ctx := l.ctx, number := c.nextNumber, parent := l.grid, depth := l.depth, lr := r, det := l.det || r.det, winmap := winmap,
        seed := c.seed, c := l.c, issuer := l.issuer, held := decide (r.waitc ≠ 0), dealFrom := s.clock + 1, vc := l.vc }
    let s1 := ({ s with grids := amSet s.grids gn g }.modCtx l.ctx fun c => { c with nextNumber := c.nextNumber + 1 }).bump
    let s2 := match l.grid with
      | some p => s1.modGrid p fun g => { g with children := g.children + 1 }
      | none => s1
    if r.waitc ≠ 0 then
      let f := s2.hubSend l.ctx r.waitc
      f.1.after f.2 (prioRead + hubAgent 3) (.dependenceCounterReread gn)
    else s2.tickDeal 1

/-- The LAUNCH status word (R255). -/
def launchStatus (code number : Nat) : Word := BitVec.ofNat 32 (0x80000000 + code % 128 * 2 ^ 24 + number % 2 ^ 24)

/-- Writes the status word of a LAUNCH at its end (R255). -/
def State.launchEnds (s : State) (id : Nat) (l : Launch) (code number : Nat) : State :=
  let f := s.fromHub l.ctx (cuSite (warpCu l.warp))
  ({ f.1 with launches := amErase f.1.launches id }.modWarp l.warp fun w => { w with kts := amSet w.kts l.ks (0, []) }).after
    f.2 prioResult (.statusWordWrite l.warp l.ks id (launchStatus code number))

/-- The strand that a LAUNCH traps (R108): the one that issued it or, when it has split since, the lowest entry with lanes that descends from it
and is not frozen. -/
def State.launcher (s : State) (l : Launch) : Option Nat :=
  (amGet s.warps l.warp).bind fun w =>
    w.liveEntries.find? fun e => (w.strand e).mine l.uid && decide ((w.strand e).state ≠ .frozen ∧ (w.strand e).mask ≠ 0)

/-- Whether such a strand is parked or frozen: it traps when it runs again. -/
def State.launcherAway (s : State) (l : Launch) : Bool :=
  (amGet s.warps l.warp).any fun w =>
    w.overflow.any (fun p => follows p.uid l.uid p.kin) || w.table.any fun st => st.live && st.mine l.uid && decide (st.state = .frozen)

/-- A record that cannot be read when the hub reads it traps the LAUNCH (R108): its strand is frozen at that group, and ks has no pending
write; one that is parked or frozen then traps when it runs again. With no such strand left, or its context no longer running, the launch is
refused.

DESIGN CHOICE (log entry 80, unsafe): the strand may have issued later groups by then. -/
def State.launchTraps (s : State) (id : Nat) (l : Launch) (f : Nat × Nat × Nat) : State :=
  match s.launcher l with
  | some e =>
    (({ s with launches := amErase s.launches id }.modWarp l.warp fun w =>
      { w.modStrand e fun st => { st with pc := l.pc } with
        kpend := w.kpend.filter (fun q => decide (q.2 ≠ id)), kops := amErase w.kops id }).takeTrap l.warp e
        { cls := f.1, code := f.2.1, detail := if f.1 = 8 then detail8 0 (if f.2.1 = 4 then 5 else 4) f.2.2 l.lane else l.lane, addr := l.addr,
          lanes := maskOf [l.lane], parcel := l.parcel } l.pc).settle
  | none =>
    if s.launcherAway l && decide (((amGet s.ctxs l.ctx).map Ctx.state) = some .running) then
      { s with launches := amSet s.launches id { l with stage := 4 } }.after 1 (prioRead + hubAgent 3) (.launchAccept id)
    else s.launchEnds id l 1 0

/-- The trap or refusal of a launch whose record cannot be read, with what a contained home does to its context (R360). -/
def State.launchLost (s : State) (id : Nat) (l : Launch) (f : Nat × Nat × Nat) : State :=
  (if f.2.2 = 7 ∨ f.2.2 = 15 then s.containAt 8 l.ctx l.addr else s).launchTraps id l f

/-- The hub reads the launch record and window-map image, then accepts, numbers and queues the launch or refuses it. (R108) -/
def execLaunchAccept (id : Nat) (s : State) : Out :=
  .next <|
    match amGet s.launches id with
    | none => s
    | some l =>
      if l.stage = 1 then
        let f := s.hubAsk l.ctx l.addr
        { f.1 with launches := amSet f.1.launches id { l with stage := 2, order := f.1.nextId } }.bump.after f.2 (prioRead + hubAgent 3)
          (.launchAccept id)
      else if l.stage = 4 then
        match s.hubFault l.ctx l.addr 128 with
        | some f => s.launchTraps id l f
        | none => s.launchTraps id l (8, 1, 0)
      else if l.stage = 2 then
        let ls := linesAt (s.hubChunks l.ctx l.addr 128)
        match s.waitLines id ls, s.hubFault l.ctx l.addr 128 with
        | some s', _ => s'
        | none, some f => (s.launchLost id l f).leaveLines id ls
        | none, none =>
          let bs := (s.hubRead l.ctx l.addr 128).getD []
          let r := launchRec (ofBytes bs)
          let a := ({ s with launches := amSet s.launches id { l with stage := 3, recBytes := bs } }.hubStamp l.ctx l.addr 128 l.c).hubAsk l.ctx r.winmapAt
          (a.1.after (1 + a.2) (prioRead + hubAgent 3) (.launchAccept id)).leaveLines id ls
      else if s.launches.any fun q => decide (q.2.ctx = l.ctx ∧ (q.2.stage = 2 ∨ q.2.stage = 3) ∧ q.2.order < l.order) then
        -- launches are accepted in arrival order (R109)
        s.after 1 (prioRead + hubAgent 3) (.launchAccept id)
      else
        let n := ofBytes l.recBytes
        let r := launchRec n
        let ls := linesAt (s.hubChunks l.ctx r.winmapAt 64)
        match s.waitLines id ls with
        | some s' => s'
        | none =>
          let code := s.launchCode l n (s.hubFault l.ctx r.winmapAt 64).isNone
          let number := ((amGet s.ctxs l.ctx).map Ctx.nextNumber).getD 0
          let s0 := if (s.hubFault l.ctx r.winmapAt 64).any fun f => decide (f.2.2 = 7) then s.containAt 8 l.ctx r.winmapAt else s
          let s1 := s0.hubStamp l.ctx r.winmapAt 64 l.c
          let s2 := if code = 0 then s1.acceptLaunch l r (runOf 0 ((s.hubRead l.ctx r.winmapAt 64).getD [])) else s1
          (s2.launchEnds id l code (if code = 0 then number else 0)).leaveLines id ls

/-- An SWR of sr.seed reaches the hub and becomes the context seed. (R152) -/
def execSeedArrival (ctx : Nat) (v : BitVec 32) (s : State) : Out := .next (s.modCtx ctx fun c => { c with seed := v })

/-! ### Dependence counters (R111, R367) -/

/-- A held launch is dropped with a notice record (R367). -/
def State.dropLaunch (s : State) (gn : Nat) (g : Grid) (reason : Nat) : State :=
  (s.modGrid gn fun g => { g with dropped := true, held := false }).notice g.ctx g.number g.issuer
    { cls := 12, code := 3, detail := reason, addr := g.lr.waitc }

/-- After a write to a held launch's counter, the home slice re-reads it, at a timestamp above the write's, and the launch may be released.
(R111) -/
def execDependenceCounterReread (grid : Nat) (s : State) : Out :=
  .next <|
    match amGet s.grids grid with
    | none => s
    | some g =>
      if !g.held then s
      else
        match s.transNow 8 g.ctx g.lr.waitc false (s.supOf g.ctx) false with
        | .bad _ _ _ => s.dropLaunch grid g 1
        | .ok a =>
          match s.waitLines grid [lineOf a] with
          | some s' => s'
          | none =>
          if s.contained a then ((s.dropLaunch grid g 2).containCtx g.ctx).leaveLines grid [lineOf a]
          else if !(s.poisonIn a 8).isEmpty then (s.dropLaunch grid g 2).leaveLines grid [lineOf a]
          else
            let f := s.hubAnswer g.ctx a
            let back := s.hubLatency a - halfL2 (s.hubHops (homeOf a)) + f.2
            let above := if g.waitPhys = 0 then 0 else (s.line (lineOf a)).wts
            let t := ((f.1.useTrans 8 g.ctx g.lr.waitc).fillLine (lineOf a)).readStamp (lineOf a)
              (max (max (max g.c s.horSys) (amGetD s.hubC 3 0)) above) (s.lease g.ctx)
            let s1 := { t.2 with hubC := raise s.hubC 3 t.1 }.modGrid grid fun g => { g with waitPhys := a }
            (if g.lr.waitn ≤ s.num a 8 then
              (s1.modGrid grid fun g =>
                { g with held := false, acquireTs := t.1, dealFrom := s.clock + back + 1, vc := vcJoin g.vc (amGetD s.detSync (a / 8) []) }).tickDeal
                (back + 1)
            else s1).leaveLines grid [lineOf a]

/-! ### Dealing (R113, R114) -/

/-- Warps of a context on a CU. -/
def State.ctxWarps (s : State) (ctx cu : Nat) : Nat := (s.warps.filter fun w => decide (warpCu w.1 = cu ∧ s.ctxOf w.1 = ctx)).length

/-- The rank of a CU for a context (R114): fewest of its warps, lowest site, lowest number. -/
def State.cuRank (s : State) (ctx cu : Nat) : Nat := s.ctxWarps ctx cu * 1024 + cu

/-- The CUs that the next unit of a launch goes to, in rank order (R63, R114).

DEDUCED (log entry 36, unsafe): placement of teams and unreadable launch records.

DEDUCED (log entry 103, unsafe): the gallery that the keys rank first is that of the CU they rank first among those of galleries with enough
fitting CUs, and a last group that is smaller needs as many of them as it has teams. -/
def State.placeFor (s : State) (gn : Nat) (g : Grid) : Option (List Nat) :=
  let n := g.unitSize
  let fit := allCus.filter fun cu => s.openCu cu && s.fitsCu g.lr gn cu
  if g.lr.group = 0 then (firstMin (s.cuRank g.ctx) fit).map fun cu => [cu]
  else
    let wide := fit.filter fun cu => decide (n ≤ (fit.filter fun u => decide (cuGallery u = cuGallery cu)).length)
    (firstMin (s.cuRank g.ctx) wide).map fun cu => (fit.filter fun u => decide (cuGallery u = cuGallery cu)).take n

/-- The place of a fibre's entry in the loader's table: by context, kernel, entry label and fibre. -/
def fibreKey (ctx : Nat) (lr : LaunchRec) (f : Nat) : Nat := ((ctx * 2 ^ 57 + lr.code) * 2 ^ 23 + lr.entry.toNat) * 4 + f

/-- The entry PC of a fibre (R49): the record's ENTRY for fibre 0, the loader's table for the others.

DESIGN CHOICE (log entry 6, unsafe): where the entries of fibres 1 to 3 are kept is not said, and the model keeps a loader's table; one it does
not list starts at ENTRY. -/
def State.fibrePc (s : State) (ctx : Nat) (lr : LaunchRec) (f : Nat) : BitVec 23 :=
  if f = 0 then lr.entry else (amGet s.fibreEntry (fibreKey ctx lr f)).getD lr.entry

/-- A warp as a team starts (R59, R65, R95, R380). -/
def State.freshWarp (s : State) (g : Grid) (tn j block uid c : Nat) : Warp :=
  { team := tn, number := j, block := block, blockBytes := g.lr.blockBytes, winmap := g.winmap, fibres := List.replicate g.lr.fibres {},
    lastFibre := g.lr.fibres - 1, lastIssue := s.clock + 64,
    table := (List.range 8).map fun f =>
      if f < g.lr.fibres then
        { uid := uid + f, state := .ready, fibre := f, mask := BitVec.allOnes 32, pc := s.fibrePc g.ctx g.lr f, c := c, vc := g.vc,
          lastIssue := s.clock + 64, issuableAt := s.clock + 64 }
      else {} }

/-- Zeroes a team's tiles with their row flags and poison (R95). -/
def State.zeroTiles (s : State) (cu slot : Nat) : State :=
  let a := accAddr cu (slot * 16384)
  let s1 := s.zero a 16384
  { s1 with rowFlags := s1.rowFlags.filter fun r => !(decide (a ≤ r.1) && decide (r.1 < a + 16384)) }

/-- Places the team with the next index of a launch on a CU (R86, R87, R96, R114, R380): it starts 64 clocks later, and its grants take of the
L1's room (R26). -/
def State.placeTeam (s : State) (gn cu t rank c0 : Nat) : State :=
  match amGet s.grids gn with
  | none => s
  | some g =>
    let tn := s.nextId
    match slotsFor g.lr.warps (s.usedSlots gn cu), fitBank g.lr (topOf cu) tn (s.grantsFor gn cu) with
    | some slots, some (blocks, bays, _) =>
      let size := g.lr.blockBytes
      let team : Team :=
        { grid := gn, index := t, group := t / 2 ^ g.lr.group, rank := rank, cu := cu, warps := slots.map (warpKey cu ·),
          bays := bays.take g.lr.bays, spares := bays.drop g.lr.bays, startAt := s.clock + 64, c0 := c0, vc0 := g.vc }
      let ws : List (Nat × Warp) := (List.range g.lr.warps).map fun j =>
        (warpKey cu (slots.getD j 0), s.freshWarp g tn j (blocks.getD j 0) (tn + 1 + 4 * j) c0)
      let warps : AMap Warp := ws.foldl (fun (m : AMap Warp) (w : Nat × Warp) => amSet m w.1 w.2) s.warps
      let s1 : State := { s with teams := amSet s.teams tn team, warps := warps, nextId := tn + 1 + 4 * g.lr.warps }
      let s2 := s1.modCu cu fun c => { c with grants := c.grants ++ blocks.map (fun o => (o, size, tn)) ++ bays.map (fun o => (o, 4096, tn)) }
      let s3 := blocks.foldl (fun s o => s.zero (bankAddr cu o) size) s2
      let s4 := bays.foldl (fun s o => s.zero (bankAddr cu o) 4096) s3
      let s5 : State := slots.foldl (fun (s : State) (j : Nat) => s.zeroTiles cu j) s4
      (s5.after 64 prioResult (.teamStart tn)).fitL1 cu
    | _, _ => s

/-- Deals the next unit of a launch to its CUs. -/
def State.dealUnit (s : State) (gn : Nat) (g : Grid) (cus : List Nat) : State :=
  let c0 := max (max g.c g.acquireTs) s.horSys
  let s1 := (List.range cus.length).foldl (fun s r => s.placeTeam gn (cus.getD r 0) (g.nextTeam + r) r c0) s
  (s1.modGrid gn fun g => { g with nextTeam := g.nextTeam + cus.length, failSince := none, reserved := false }).unkeep gn

/-- A launch that fits nowhere (R113): it may become reserved; a reserved one that would fit by total free store starts a compaction
(R372). -/
def State.misfit (s : State) (gn : Nat) (g : Grid) : State :=
  match g.failSince with
  | none => (s.modGrid gn fun g => { g with failSince := some s.clock }).after Config.period prioLate (.launchReservation gn)
  | some _ =>
    if !g.reserved || s.cus.any fun c => decide (c.2.compacting = some gn) then s
    else
      match firstMin (s.cuRank g.ctx) (allCus.filter fun cu => s.openCu cu && s.fitsByTotal g.lr gn cu && !s.fitsCu g.lr gn cu) with
      | some cu => (s.modCu cu fun c => { c with compacting := some gn }).after 0 prioLate (.compaction cu)
      | none => s

/-- The dealing step of one context: the first launch, in order, whose next unit can be placed. -/
def State.dealFirst (s : State) : List (Nat × Grid) → State
  | [] => s
  | (gn, g) :: t =>
    match s.placeFor gn g with
    | some cus => s.dealUnit gn g cus
    | none => (s.misfit gn g).dealFirst t

def State.dealCtx (s : State) (cn : Nat) : State :=
  if ((amGet s.ctxs cn).map Ctx.state) = some .running then
    s.dealFirst (sortBy (fun g : Nat × Grid => g.2.order)
      (s.grids.filter fun g => decide (g.2.ctx = cn ∧ g.2.dealFrom ≤ s.clock) && g.2.undealt))
  else s

/-- Each clock the sequencer deals one unit per context to the CUs chosen by R114 (R113): the last step that is due in a clock. -/
def execDealingStep (s : State) : Out :=
  .next <|
    if s.dealDue s.clock then s else
    let cs := s.ctxs.map Prod.fst
    let order := (cs.filter fun c => decide (s.dealNext ≤ c)) ++ cs.filter fun c => decide (c < s.dealNext)
    let s1 := order.foldl State.dealCtx s
    let s2 := { s1 with dealNext := match order with | c :: _ => c + 1 | [] => 0 }
    if s2.grids.any fun g => g.2.undealt && decide (((amGet s2.ctxs g.2.ctx).map Ctx.state) = some .running) then s2.tickDeal 1 else s2

/-- A launch that fails to fit for one whole budget period becomes reserved. (R113) -/
def execLaunchReservation (grid : Nat) (s : State) : Out :=
  .next <|
    match amGet s.grids grid with
    | none => s
    | some g =>
      match g.failSince with
      | some t => if t + Config.period ≤ s.clock ∧ !g.reserved then s.modGrid grid fun g => { g with reserved := true } else s
      | none => s

/-! ### Teams and grids (R60, R114, R245) -/

/-- A dealt team's warps start 64 clocks after the deal once its grants are zeroed. (R114) -/
def execTeamStart (team : Nat) (s : State) : Out :=
  .next <|
    match amGet s.teams team with
    | none => s
    | some t =>
      if t.started then s
      else t.warps.foldl State.wantOverlays (s.modTeam team fun t => { t with started := true })

/-- The warp slots of a finished team are free, or kept for a reserved launch (R113). -/
def State.freeSlots (s : State) (cu : Nat) (ks : List Nat) : State :=
  let s1 := { s with warps := s.warps.filter fun w => !ks.contains w.1 }
  match s.keeper cu with
  | some gn => s1.modCu cu fun c => { c with keptSlots := c.keptSlots ++ ks.map fun k => (warpSlot k, gn) }
  | none => s1

/-- A team whose lanes exited, writes acknowledged and copies ended returns its resources. (R60) -/
def execTeamFinish (team : Nat) (s : State) : Out :=
  .next <|
    match amGet s.teams team with
    | none => s
    | some t =>
      if !s.teamDone t then s
      else
        let mine := (s.cu t.cu).grants.filter fun g => decide (g.2.2 = team)
        let s0 := t.warps.foldl (fun s k => s.detClear (accAddr t.cu (warpSlot k * 16384)) 16384)
          (mine.foldl (fun s g => s.detClear (bankAddr t.cu g.1) g.2.1) s)
        let s1 := mine.foldl (fun s g => s.returnBlock t.cu g.1) { s0 with teams := amErase s0.teams team }
        let s2 := (s1.freeSlots t.cu t.warps).modGrid t.grid fun g => { g with finished := insRising t.index g.finished }
        let s3 := match amGet s2.grids t.grid with
          | some g => if g.finished.length = g.lr.total then s2.after 0 prioResult (.gridRetire t.grid) else s2
          | none => s2
        s3.settle

/-- The completion add cannot be made (R368): a notice record, and an error record for poison of an origin or containment. -/
def State.addFails (s : State) (g : Grid) (a reason origin : Nat) : State :=
  let s1 := s.notice g.ctx g.number {} { cls := 12, code := 5, detail := reason, addr := g.lr.done }
  if reason = 1 then s1 else s1.logErr { paddr := a, ctx := g.ctx, unit := originUnit origin, site := homeOf a, kind := 2 }

/-- The completion add of a retired grid (R112): one `.sys` release atomic of the sequencer.

DEDUCED (log entry 42, safe): timestamp of completion counters. -/
def State.completionAdd (s : State) (g : Grid) : State :=
  match s.transNow 8 g.ctx g.lr.done true (s.supOf g.ctx) false with
  | .bad _ _ _ => s.addFails g 0 1 0
  | .ok a =>
    if s.contained a then (s.addFails g a 3 7).containCtx g.ctx
    else
      let s1 := (s.useTrans 8 g.ctx g.lr.done).fillLine (lineOf a)
      match s1.poisonIn a 8 with
      | (_, o) :: _ => s1.addFails g a 2 o
      | [] =>
        let t := s1.writeStamp (lineOf a) (max (s.horizon g.ctx 0 2) (amGetD s.hubC 3 0))
        let v := (s1.num a 8 + 1) % 2 ^ 64
        let s2 := { t.2 with hubC := raise s.hubC 3 t.1, detSync := amSet t.2.detSync (a / 8) (vcJoin (amGetD t.2.detSync (a / 8) []) g.vcEnd) }
        let f := (s2.putBytes 0 t.1 a (toBytes 8 v)).hubAnswer g.ctx a
        f.1.after (halfL2 (s.hubHops (homeOf a)) + f.2) prioResult (.horizonFold g.ctx t.1)

/-- A grid whose teams and children are done retires and its DONE counter is atomically incremented. (R112) -/
def execGridRetire (grid : Nat) (s : State) : Out :=
  .next <|
    match amGet s.grids grid with
    | none => s
    | some g =>
      if g.retired then
        match s.transNow 8 g.ctx g.lr.done true true false with
        | .ok a =>
          (match s.waitLines grid [lineOf a] with
           | some s' => s'
           | none => (({ s with grids := amErase s.grids grid }.completionAdd g).leaveLines grid [lineOf a]).settle)
        | .bad _ _ _ => ({ s with grids := amErase s.grids grid }.completionAdd g).settle
      else if g.finished.length ≠ g.lr.total ∨ g.children ≠ 0 then s
      else
        let s1 := match g.parent with
          | some p => (s.modGrid p fun q => { q with children := q.children - 1, vcEnd := vcJoin q.vcEnd g.vcEnd }).after 0 prioResult (.gridRetire p)
          | none => s
        if g.lr.done = 0 then { s1 with grids := amErase s1.grids grid }
        else
          let f := (s1.modGrid grid fun g => { g with retired := true }).hubSend g.ctx g.lr.done
          f.1.after f.2 (prioWrite + hubAgent 3) (.gridRetire grid)

end Sys2Proof.Machine
end

