-- ==== Sys2Proof/Machine/Posting.lean ====
section
/-! DEFINITION. The hub trap poster (R336, R337, R382): the numbering of records, their writes and the releases of POSTED, the full ring,
and the ring that cannot be written. -/

namespace Sys2Proof.Machine

/-! ### Numbering (R336) -/

/-- A record reaches the hub: it takes the next SEQ. -/
def State.numberRecord (s : State) (ctx : Nat) (r : Nat × Nat × Nat × Nat) : State :=
  match amGet s.ctxs ctx with
  | none => s
  | some c =>
    let seq := c.nextSeq
    (s.modCtx ctx fun c =>
      { c with nextSeq := seq + 1, records := c.records ++ [(seq, r.2.2.1, r.2.2.2 + seq % 2 ^ 32 * 2 ^ 64)] }).modUid r.2.2.1 fun st =>
        if st.state = .frozen then { st with seq := some (seq % 2 ^ 32), trapPosted := false } else st

/-- The records that have reached the hub by now, in arrival order and, within a clock, by site, CU, warp slot and entry. -/
def State.numberRecords (s : State) (ctx : Nat) : State :=
  match amGet s.ctxs ctx with
  | none => s
  | some c =>
    let here := sortBy (fun r : Nat × Nat × Nat × Nat => r.1 * 2 ^ 40 + r.2.1) (c.inflight.filter fun r => decide (r.1 ≤ s.clock))
    here.foldl (fun s r => s.numberRecord ctx r)
      (s.modCtx ctx fun c => { c with inflight := c.inflight.filter fun r => !decide (r.1 ≤ s.clock) })

/-! ### The ring -/

/-- Where record s lies. -/
def Ctx.recordAt (c : Ctx) (seq : Nat) : Nat := c.trapq + 64 + 64 * (seq % 2 ^ c.log2n)

/-- Whether the ring has no room for the record the hub holds first, by TAKEN as it read it last. -/
def Ctx.noRoom (c : Ctx) : Bool := match c.records with | r :: _ => decide (c.taken + 2 ^ c.log2n ≤ r.1) | [] => false

/-- The ring cannot be written (R337): the hub keeps the records, stops the context as PREEMPT does, and logs the ring address. -/
def State.ringFails (s : State) (ctx a : Nat) : State :=
  match amGet s.ctxs ctx with
  | none => s
  | some c =>
    let s1 := (s.modCtx ctx fun c => { c with posting := none, ringFailed := true }).logErr { paddr := a, ctx := ctx, unit := 0, site := homeOf a, kind := 2 }
    if c.state = .running then s1.askStop ctx false false 23
    else if c.state = .stopping ∧ c.stopCode = 0 then s1.modCtx ctx fun c => { c with stopCode := 23 }
    else s1

/-- Writes n bytes of a ring at a virtual address as an event of the trap poster, and whether the ring could be written; at a line that
another holds it waits in the queue (R230), and answers none. -/
def State.ringWrite (s : State) (ctx va : Nat) (bs : List Byte) : State × Option Bool :=
  let left (s : State) : State := s.leaveAll (posterKey ctx)
  match s.transNow 8 ctx va true (s.supOf ctx) false with
  | .bad _ _ _ => (left (s.ringFails ctx va), some false)
  | .ok a =>
    if s.contained a then (left ((s.modCtx ctx fun c => { c with posting := none, ringFailed := true }).containCtx ctx), some false)
    else match s.waitLines (posterKey ctx) [lineOf a] with
    | some s' => (s', none)
    | none =>
      if !(s.poisonIn a bs.length).isEmpty then (left (s.ringFails ctx a), some false)
      else
        let t := ((s.useTrans 8 ctx va).fillLine (lineOf a)).writeStamp (lineOf a) (amGetD s.hubC 6 0)
        (left ({ t.2 with hubC := raise s.hubC 6 t.1 }.putBytes 0 t.1 a bs), some true)

/-- The record's class, for the choice of the MSI-X vector. -/
def recordClass (num : Nat) : Nat := bitsOf num 232 8

/-- POSTED has been raised for the first record held: MSI-X is signalled and a reply may name the record. -/
def State.recordPosted (s : State) (ctx : Nat) : State :=
  match amGet s.ctxs ctx with
  | none => s
  | some c =>
    match c.records with
    | [] => s
    | (seq, uid, num) :: rest =>
      ((s.modCtx ctx fun c => { c with records := rest, posted := c.posted + 1 }).modUid uid fun st =>
        if st.state = .frozen ∧ st.seq = some (seq % 2 ^ 32) then { st with trapPosted := true } else st).say
        (.msix c.func (if recordClass num = 11 ∧ c.dbg then 2 else 1))

/-- Sets the next stage of the posting, d clocks from now: writes and reads at the ring's home in the order of the poster's agent (R155). -/
def State.postAt (s : State) (ctx stage d : Nat) : State :=
  (s.modCtx ctx fun c => { c with posting := some (stage, s.clock + d) }).after d
    (if stage = 1 ∨ stage = 3 then prioWrite + hubAgent 6 else if stage = 5 then prioRead + hubAgent 6 else prioResult) (.trapRecordPost ctx)

/-- The clocks of a message between the hub and the home of an address of a ring (R336, R382). -/
def State.ringMsg (s : State) (ctx va : Nat) : Nat :=
  match s.transNow 8 ctx va false true false with | .ok a => s.hubMsg (homeOf a) | .bad _ _ _ => 150

/-- Sets a stage of the posting that begins with a message to a place in the ring, which its translation comes before (R105). -/
def State.postTo (s : State) (ctx stage va : Nat) : State :=
  let t := s.translate true 8 ctx va
  t.1.postAt ctx stage (t.2 + s.ringMsg ctx va)

/-- Where the record that the hub holds first is to lie. -/
def Ctx.nextAt (c : Ctx) : Nat := match c.records with | r :: _ => c.recordAt r.1 | [] => c.trapq

/-- Begins to post the first record held, when nothing is being posted and the context has not been saved: with no room the hub reads
TAKEN again.

DEDUCED (log entry 43, unsafe): overlap of trap postings. -/
def State.startPost (s : State) (ctx : Nat) : State :=
  match amGet s.ctxs ctx with
  | none => s
  | some c =>
    if c.posting.isSome || c.ringFull || c.ringFailed || c.records.isEmpty || !decide (c.state = .running ∨ c.state = .stopping) then s
    else if c.noRoom then s.postTo ctx 5 (c.trapq + 16) else s.postTo ctx 1 c.nextAt

/-- The read of TAKEN at its home (R336): from now the home slice reads it again after each write to it. -/
def State.readTaken (s : State) (ctx : Nat) (c : Ctx) : State :=
  let left (s : State) : State := s.leaveAll (posterKey ctx)
  match s.transNow 8 ctx (c.trapq + 16) false (s.supOf ctx) false with
  | .bad _ _ _ => left (s.ringFails ctx c.trapq)
  | .ok a =>
    if s.contained a then left ((s.modCtx ctx fun c => { c with posting := none, ringFailed := true }).containCtx ctx)
    else match s.waitLines (posterKey ctx) [lineOf a] with
    | some s' => s'
    | none =>
      if !(s.poisonIn a 8).isEmpty then left (s.ringFails ctx a)
      else
        let t := ((s.useTrans 8 ctx (c.trapq + 16)).fillLine (lineOf a)).readStamp (lineOf a) (max s.horSys (amGetD s.hubC 6 0)) (s.lease ctx)
        left (({ t.2 with hubC := raise s.hubC 6 t.1 }.modCtx ctx fun c =>
          { c with posting := none, ringAt := a, ringFull := true, takenQ := c.takenQ ++ [s.num a 8] }).after (s.hubMsg (homeOf a)) prioResult (.takenReread ctx))

/-- The step of a posting whose clock has come (R336, R382): 1 the record is written at its home, 2 that write is acknowledged, 3 POSTED is
raised there, 4 the release is acknowledged, 5 TAKEN is read. -/
def State.postStep (s : State) (ctx : Nat) (c : Ctx) (stage : Nat) : State :=
  let folded (s : State) : State := s.foldHub ctx (amGetD s.hubC 6 0)
  if stage = 1 then
    match c.records with
    | [] => s.modCtx ctx fun c => { c with posting := none }
    | (seq, _, num) :: _ =>
      match s.ringWrite ctx (c.recordAt seq) (toBytes 64 num) with
      | (s1, some true) => s1.postAt ctx 2 (s.ringMsg ctx c.nextAt)
      | (s1, _) => s1
  else if stage = 2 then (folded s).postTo ctx 3 (c.trapq + 8)
  else if stage = 3 then
    match s.ringWrite ctx (c.trapq + 8) (toBytes 8 (c.posted + 1)) with
    | (s1, some true) => (s1.recordPosted ctx).postAt ctx 4 (s.ringMsg ctx (c.trapq + 8))
    | (s1, _) => s1
  else if stage = 4 then ((folded s).modCtx ctx fun c => { c with posting := none }).startPost ctx
  else s.readTaken ctx c

/-- The hub writes a trap record into the ring, releases POSTED and signals MSI-X. (R336) -/
def execTrapRecordPost (ctx : Nat) (s : State) : Out :=
  .next <|
    let s1 := s.numberRecords ctx
    match amGet s1.ctxs ctx with
    | none => s1.leaveAll (posterKey ctx)
    | some c =>
      match c.posting with
      | some (stage, due) => if due ≤ s.clock then s1.postStep ctx c stage else s1
      | none => (s1.startPost ctx).leaveAll (posterKey ctx)

/-- While the ring is full, a write to TAKEN is re-read and posting resumes. (R336) -/
def execTakenReread (ctx : Nat) (s : State) : Out :=
  .next <|
    match amGet s.ctxs ctx with
    | none => s
    | some c =>
      match c.takenQ with
      | [] => s
      | v :: rest =>
        let c1 := { c with taken := v, takenQ := rest }
        (s.modCtx ctx fun _ => { c1 with ringFull := c.ringFull && c1.noRoom }).startPost ctx

/-- The held records of a restored context are posted while the ring has room, before any strand issues (R321, R337); at most n. -/
def State.postHeld (s : State) (ctx : Nat) : Nat → State
  | 0 => s
  | n + 1 =>
    match amGet s.ctxs ctx with
    | none => s
    | some c =>
      match c.records with
      | [] => s
      | (seq, _, num) :: _ =>
        if c.noRoom || c.ringFailed then s.startPost ctx
        else
          match s.ringWrite ctx (c.recordAt seq) (toBytes 64 num) with
          | (s1, some true) =>
            (match s1.ringWrite ctx (c.trapq + 8) (toBytes 8 (c.posted + 1)) with
             | (s2, some true) => (s2.recordPosted ctx).postHeld ctx n
             | (s2, some false) => s2
             | (_, none) => s1.startPost ctx)
          | (s1, some false) => s1
          | (_, none) => s.startPost ctx

end Sys2Proof.Machine
end

