-- ==== Sys2Proof/Machine/HostLink.lean ====
section
/-! DEFINITION. The hub ordering point and what passes it (R166, R307-R310, R327, R362): inbound writes as pieces, inbound reads, peer writes,
the hub copy engine, and the state of the host link. -/

namespace Sys2Proof.Machine

/-! ### Ordering domains and pieces (R166, R308, R327) -/

/-- The ordering domains: a PCIe function, a peer port, a Relaxed Ordering write of its own. -/
def domainFn (fn : Nat) : Nat := fn
def domainPeer (p : Nat) : Nat := 32 + p
def domainRelaxed (fn seq : Nat) : Nat := 64 + 32 * seq + fn

/-- The function that reports the errors of a domain; a peer port's are the physical function's. -/
def domainOwner (d : Nat) : Nat := if d < 32 then d else if d < 64 then 0 else (d - 64) % 32

/-- A host link error is logged (R362, R363). -/
def State.hostErr (s : State) (a : Nat) : State := s.logErr { paddr := a, unit := 7, site := 8, kind := 9 }

/-- Pieces end at multiples of 256 of the device address: the bytes of each, at most n pieces. -/
def pieceRuns (va : Nat) (data : List Byte) : Nat → List (Nat × List Byte)
  | 0 => []
  | n + 1 =>
    if data = [] then []
    else
      let k := 256 - va % 256
      (va, data.take k) :: pieceRuns (va + k) (data.drop k) n

/-- A request that is not supported is dropped and logged through AER (R307, R362). -/
def State.unsupported (s : State) (fn : Nat) : State := (s.hostErr 0).say (.aer fn)

/-- A piece arrives (R327 step 1): it takes the next sequence number, and its translation is asked for (R105); one that faults in translation
or permission is dropped (R362). -/
def State.admitPiece (s : State) (domain write ctx : Nat) (pf ep : Bool) (desc : Option Nat) (p : Nat × List Byte) : State :=
  let s1 : State := { s with hubSeq := s.hubSeq + 1 }
  match s.transNow 8 ctx p.1 true pf false with
  | .bad _ _ _ => s1.unsupported (domainOwner domain)
  | .ok a =>
    let t := s1.translate true 8 ctx p.1
    let q : Piece := { domain := domain, write := write, ctx := ctx, addr := a, data := p.2, ep := ep, seq := s.hubSeq,
                       readyAt := s.clock + t.2, desc := desc }
    let s2 : State := { t.1 with pieces := amSet t.1.pieces t.1.nextId q }
    (if t.2 = 0 then s2 else s2.after t.2 prioResult (.pieceBid s2.nextId)).bump

/-- Whether an earlier write of the piece's domain has yet to be acknowledged (R166). -/
def State.pieceWaits (s : State) (p : Piece) : Bool := s.pieces.any fun q => decide (q.2.domain = p.domain ∧ q.2.write < p.write)

/-- Whether an earlier write of a read's domain has yet to be acknowledged (R166). -/
def State.readWaits (s : State) (r : HRead) : Bool := s.pieces.any fun q => decide (q.2.domain = r.domain ∧ q.2.seq < r.after)

/-- Releases the pieces and reads that are translated and that nothing of their domain holds back: their requests go to the homes (R327 step
2). -/
def State.releasePieces (s : State) : State :=
  let s1 := s.pieces.foldl (fun s p =>
    if p.2.released || decide (s.clock < p.2.readyAt) || s.pieceWaits p.2 then s
    else { s with pieces := amSet s.pieces p.1 { p.2 with released := true } }.after (s.hubMsg (homeOf p.2.addr)) (prioWrite + hubAgent 4) (.pieceBid p.1)) s
  s1.hreads.foldl (fun s r =>
    if r.2.sent || decide (s.clock < r.2.readyAt) || s.readWaits r.2 then s
    else { s with hreads := amSet s.hreads r.1 { r.2 with sent := true } }.after (s.hubMsg (homeOf r.2.addr)) (prioRead + hubAgent 4) (.pieceBid r.1)) s1

/-- An inbound posted write of a domain to a context's memory. -/
def State.inboundWrite (s : State) (domain ctx va : Nat) (data : List Byte) (pf ep : Bool) (desc : Option Nat) : State :=
  let write := s.hubSeq
  ((pieceRuns va data (data.length + 1)).foldl (fun s p => s.admitPiece domain write ctx pf ep desc p) s).releasePieces

/-- The context a function's BAR2 opens onto. -/
def State.aperture (s : State) (fn : Nat) : Option Nat :=
  if s.firmwareOk then (amGet s.fnCtx fn).bind fun c => if (amGet s.ctxs c).isSome then some c else none else none

/-- The key of the IDE stream of a TLP (R307): a selective one of its function, or 0, that of the link. -/
def ideKey (t : HostTlp) : Nat := if t.stream = 0 then 0 else t.fn * 256 + t.stream

/-- Whether an inbound TLP is discarded: the link is down, it fails its integrity check, or its IDE stream is insecure (R362). -/
def State.tlpLost (s : State) (t : HostTlp) : Bool := !s.hostUp || !t.integrity || s.insecure.contains (ideKey t)

/-- What a discarded TLP leaves: an integrity failure makes its stream insecure. -/
def State.loseTlp (s : State) (t : HostTlp) : State :=
  if s.hostUp ∧ !t.integrity ∧ !s.insecure.contains (ideKey t) then
    { s with insecure := s.insecure ++ [ideKey t] }.hostErr 0
  else s

/-- Whether an inbound request of n bytes keeps the limits of the host port (R307, R308): at most max bytes, within the 1 TiB of BAR2, on one of
the 8 IDE streams of its function, and for a read within a page.

DESIGN CHOICE (log entry 82, unsafe): a request beyond them is an Unsupported Request. -/
def tlpFits (t : HostTlp) (n max : Nat) : Bool := decide (n ≤ max ∧ t.addr + n ≤ 2 ^ 40 ∧ t.stream ≤ 8)

/-! ### BAR0 (R308, R363, R379) -/

/-- A die's join status word (R379). -/
def Die.joinWord (d : Die) : Nat := d.status % 4 + d.step % 16 * 2 ^ 4 + d.reason % 256 * 2 ^ 8 + d.tries % 256 * 2 ^ 16

/-- A byte of a function's BAR0 as the host reads it: the dies' join words from 0, the error log from 4,096 with the oldest record first, and
the MSI-X table from 2^20.

DESIGN CHOICE (log entry 86, unsafe): where the parts of BAR0 lie. -/
def State.bar0Byte (s : State) (fn o : Nat) : Byte :=
  let byteOf (n i : Nat) : Byte := BitVec.ofNat 8 (n / 256 ^ i)
  if o < 32 then byteOf (amGetD s.dies (o / 4) {}).joinWord (o % 4)
  else if o < 4096 then 0
  else if o < 2 ^ 20 then match s.errLog[(o - 4096) / 32]? with | some r => byteOf r.image (o % 32) | none => 0
  else if o < 2 ^ 20 + 32768 then byteOf (amGetD s.msixTable (fn * 2048 + (o - 2 ^ 20) / 16) 0).toNat (o % 16)
  else 0

/-- A byte written to a function's BAR0: the MSI-X table takes it. -/
def State.setBar0 (s : State) (fn o : Nat) (b : Byte) : State :=
  if 2 ^ 20 ≤ o ∧ o < 2 ^ 20 + 32768 then
    let key := fn * 2048 + (o - 2 ^ 20) / 16
    let old := amGetD s.msixTable key 0
    let sh := 8 * (o % 16)
    { s with msixTable := amSet s.msixTable key ((old &&& ~~~(BitVec.ofNat 128 255 <<< sh)) ||| (b.setWidth 128 <<< sh)) }
  else s

/-- Whether a request to BAR0 of one of the 32 functions is within its 16 MiB; unverified firmware shows PF 0 alone (R307, R308, R324). -/
def State.bar0Fits (s : State) (t : HostTlp) (n max : Nat) : Bool :=
  decide (n ≤ max ∧ t.addr + n ≤ 2 ^ 24 ∧ t.stream ≤ 8 ∧ t.fn ≤ 31) && (s.firmwareOk || decide (t.fn = 0))

/-- An inbound posted write is cut into 256-byte pieces that take sequence numbers. (R166) -/
def execHostPostedWrite (t : HostTlp) (data : List (BitVec 8)) (s : State) : Out :=
  .next <|
    if s.tlpLost t then s.loseTlp t
    else if t.bar0 then
      if s.bar0Fits t data.length 512 then (List.range data.length).foldl (fun s i => s.setBar0 t.fn (t.addr + i) (data.getD i 0)) s
      else s.unsupported t.fn
    else
      match if tlpFits t data.length 512 then s.aperture t.fn else none with
      | none => s.unsupported t.fn
      | some c => s.inboundWrite (if t.relaxed then domainRelaxed t.fn s.hubSeq else domainFn t.fn) c t.addr data (decide (t.fn = 0)) t.ep none

/-- Whether a number is that of one of the twelve peer ports, and its link is up (R310). -/
def State.portUp (s : State) (p : Nat) : Bool := decide (p < 12) && s.linkUp (16 + p)

/-- Writes arriving on a peer port pass the ordering point as a domain of their own. (R310)

DESIGN CHOICE (log entry 104, unsafe): they are translated as those of PF 0 are, for its aperture context and with its rights; which context
takes them is left open. -/
def execPeerPortWrite (port addr : Nat) (data : List (BitVec 8)) (s : State) : Out :=
  .next <|
    if !s.portUp port then s
    else
      match s.aperture 0 with
      | none => s
      | some c => s.inboundWrite (domainPeer port) c addr data true false none

/-! ### Bids, timestamps, commits and acknowledgements (R327) -/

/-- A read of the ordering point performs at its home as a `.sys` acquire (R166): the bytes go back to the hub. Its poisoned words come as
markers with EP (R362). -/
def State.hostReadAt (s : State) (id : Nat) (r : HRead) : State :=
  let back (s : State) (r : HRead) : State := { s with hreads := amSet s.hreads id r }.after (s.hubMsg (homeOf r.addr)) prioResult
    (.pieceRouteAck id)
  let lines := (List.range ((r.addr % 64 + r.n + 63) / 64)).map (lineOf r.addr + ·)
  if s.contained r.addr then
    back s { r with data := some ((List.range r.n).map fun i => BitVec.ofNat 8 ((marker 7).toNat / 256 ^ ((r.addr + i) % 4))), ep := true }
  else match s.waitLines id lines with
  | some s' => s'
  | none =>
    let u := lines.foldl (fun s l => s.fillLine l) s
    let q := lines.foldl (fun (q : State) l =>
      let t := q.readStamp l (max q.horSys (amGetD q.hubC 4 0)) (q.lease r.ctx)
      { t.2 with hubC := raise q.hubC 4 t.1 }) u
    let byteAt (i : Nat) : Byte :=
      match u.poisonIn (r.addr + i) 1 with
      | (_, o) :: _ => BitVec.ofNat 8 ((marker o).toNat / 256 ^ ((r.addr + i) % 4))
      | [] => u.byte (r.addr + i)
    (back q { r with data := some ((List.range r.n).map byteAt), ep := !(u.poisonIn r.addr r.n).isEmpty }).leaveLines id lines

/-- A released piece's bid reaches its home, which locks the lines and replies with rts + 1. (R327) -/
def execPieceBid (id : Nat) (s : State) : Out :=
  .next <|
    match amGet s.pieces id with
    | some p =>
      if !p.released then s.releasePieces
      else if s.contained p.addr then s.after (s.hubMsg (homeOf p.addr)) prioResult (.pieceRouteAck id)
      else ({ s with pieces := amSet s.pieces id { p with left := p.lines.length } }.lockPiece id 8)
    | none =>
      match amGet s.hreads id with
      | some r => if !r.sent then s.releasePieces else if r.data.isSome then s else s.hostReadAt id r
      | none => s

/-- Whether a piece may take its timestamp now: its bid is at the hub and its domain's earlier pieces have theirs. -/
def State.stampable (s : State) (p : Piece) : Bool :=
  p.ts.isNone && p.bid.isSome && decide (p.bidAt ≤ s.clock) &&
    s.pieces.all fun q => decide (q.2.domain ≠ p.domain ∨ p.seq ≤ q.2.seq) || q.2.ts.isSome

/-- A piece takes its timestamp and its commit leaves. -/
def State.stampPiece (s : State) (id : Nat) : State :=
  match amGet s.pieces id with
  | none => s
  | some p =>
    if s.stampable p then
      let ts := max (s.hubH + 1) (p.bid.getD 0)
      { s with hubH := ts, pieces := amSet s.pieces id { p with ts := some ts } }.after (s.hubMsg (homeOf p.addr)) (prioWrite + hubAgent 4) (.pieceCommit id)
    else s

/-- A piece whose bid has returned takes its timestamp and its commit is sent. (R327) -/
def execPieceTimestamp (s : State) : Out :=
  .next ((sortBy (fun p : Nat × Piece => p.2.seq) s.pieces).foldl (fun s p => s.stampPiece p.1) s)

/-- Writes bytes that may cross lines, with what a write sets off; with EP every 8-byte word they cover is poisoned first (R362). -/
def State.putRun (s : State) (ep : Bool) (ts a : Nat) (bs : List Byte) : Nat → State
  | 0 => s
  | n + 1 =>
    if bs = [] then s
    else
      let k := 64 - a % 64
      let b := bs.take k
      let s1 := if ep then ((((s.noteBytes 0 false a b.length).store a b).poisonRange a b.length 6).logSp a b).afterWrite a b.length ts 0
                else s.putBytes 0 ts a b
      s1.putRun ep ts (a + k) (bs.drop k) n

/-- The home writes the piece at its timestamp, unlocks and acknowledges the route. (R327) -/
def execPieceCommit (id : Nat) (s : State) : Out :=
  .next <|
    match amGet s.pieces id with
    | none => s
    | some p =>
      let ts := p.ts.getD 0
      let s1 := p.lines.foldl (fun s l => s.fillLine l) s
      let s2 := (s1.stampRun p.addr p.data.length ts).putRun p.ep ts p.addr p.data (p.data.length + 1)
      let s3 := if s.contained p.addr then s
        else if p.ep then s2.logErr { paddr := p.addr, ctx := p.ctx, unit := 7, site := homeOf p.addr, kind := 2 } else s2
      let s4 := p.lines.foldl (fun s l => if (s.line l).lock = some id then s.setLine l { s.line l with lock := none } else s) s3
      (p.lines.foldl (fun s l => s.freeLine l) s4).after (s.hubMsg (homeOf p.addr)) prioResult (.pieceRouteAck id)

/-! ### Ends of reads, writes and descriptors (R309, R362) -/

/-- The host page that a page of host addresses means (R307, R309): of the device's ATS cache, else asked for. -/
def State.hostPage (s : State) (p : Nat) : State :=
  if (amGet s.atsCache p).isSome then s else { s with atsCache := amSet s.atsCache p (Config.hostPage p) }.say (.ats p)

/-- Writes bytes to host memory at host addresses, page by page through ATS; at most n pages. -/
def State.toHost (s : State) (a : Nat) (bs : List Byte) : Nat → State
  | 0 => s
  | n + 1 =>
    if bs = [] then s
    else
      let k := 4096 - a % 4096
      let s1 := s.hostPage (a / 4096)
      (s1.say (.hostMem (amGetD s1.atsCache (a / 4096) 0 * 4096 + a % 4096) (bs.take k))).toHost (a + k) (bs.drop k) n

/-- A descriptor of the hub copy engine ends (R309): a status byte in its place in host memory and an MSI-X vector.

DESIGN CHOICE (log entry 82, unsafe): the error status of a descriptor that ends because the link goes down is among the messages at once. -/
def State.endDesc (s : State) (id : Nat) (ok : Bool) : State :=
  match amGet s.descs id with
  | none => s
  | some d =>
    ({ s with descs := amErase s.descs id, hreads := s.hreads.filter fun r => decide (r.2.desc ≠ some id) }.toHost d.desc [Config.copyStatus ok] 1).say
      (.msix d.fn (Config.copyVector % 2048))

/-- Whether a descriptor still has pieces or reads to come. -/
def State.descBusy (s : State) (id : Nat) : Bool :=
  (s.pieces.any fun p => decide (p.2.desc = some id)) || s.hreads.any fun r => decide (r.2.desc = some id)

/-- A descriptor with nothing more to come completes. -/
def State.descDone (s : State) (d : Option Nat) : State :=
  match d with
  | some id => if s.descBusy id then s else s.after 0 prioResult (.hubCopyComplete id)
  | none => s

/-- The last route acknowledgement folds the timestamp and releases later pieces of the domain. (R327) -/
def execPieceRouteAck (id : Nat) (s : State) : Out :=
  .next <|
    match amGet s.pieces id with
    | some p =>
      let s1 : State := { s with pieces := amErase s.pieces id }
      let s2 := match p.ts with | some t => s1.foldHub p.ctx t | none => s1
      (s2.releasePieces).descDone p.desc
    | none =>
      match amGet s.hreads id with
      | none => s
      | some r =>
        let s1 : State := { s with hreads := amErase s.hreads id }
        let bs := r.data.getD []
        match r.desc with
        | none => s1.say (.completion r.domain true r.ep bs)
        | some d =>
          match amGet s.descs d with
          | none => s1
          | some h =>
            (match h.port with
             | some p => s1.say (.peer p (h.host + r.off) bs)
             | none => s1.toHost (h.host + r.off) bs (bs.length + 1)).descDone (some d)

/-! ### Inbound reads and the hub copy engine (R308, R309) -/

/-- A read of a domain at a context's address: it waits for the domain's earlier writes; a fault ends it at once (R362).

DEDUCED (log entry 50, unsafe): clocks of host reads. -/
def State.inboundRead (s : State) (domain ctx va n off : Nat) (pf : Bool) (desc : Option Nat) : Option State :=
  match s.transNow 8 ctx va false pf false with
  | .bad _ _ _ => none
  | .ok a =>
    let t := s.translate true 8 ctx va
    let r : HRead := { domain := domain, ctx := ctx, addr := a, n := n, off := off, after := s.hubSeq, readyAt := s.clock + t.2, desc := desc }
    let s1 : State := { t.1 with hreads := amSet t.1.hreads t.1.nextId r }
    some ((if t.2 = 0 then s1 else s1.after t.2 prioResult (.pieceBid s1.nextId)).bump.releasePieces)

/-- The runs of n bytes within pages of 4 KiB. -/
def pageRuns (va n : Nat) : Nat → List (Nat × Nat)
  | 0 => []
  | f + 1 => if n = 0 then [] else
      let k := min n (4096 - va % 4096)
      (va, k) :: pageRuns (va + k) (n - k) f

/-- A read that arrives on a peer port (R310), page by page: each run answers by itself, one that faults as unsupported (R362). -/
def State.peerRead (s : State) (p c va n : Nat) : State :=
  (pageRuns va n (n / 4096 + 2)).foldl (fun s r =>
    (s.inboundRead (domainPeer p) c r.1 r.2 0 true none).getD (s.say (.completion (domainPeer p) false false []))) s

/-- An inbound host read, or a read that arrives on a peer port, is performed as a .sys acquire after its domain's earlier writes. (R166, R310) -/
def execHostRead (t : HostTlp) (n : Nat) (s : State) : Out :=
  .next <|
    match t.port with
    | some p =>
      if !s.portUp p then s
      else
        (match s.aperture 0 with
         | some c => s.peerRead p c t.addr n
         | none => s.say (.completion (domainPeer p) false false []))
    | none =>
    if s.tlpLost t then s.loseTlp t
    else if t.bar0 then
      if s.bar0Fits t n 4096 then s.say (.completion (domainFn t.fn) true false ((List.range n).map fun i => s.bar0Byte t.fn (t.addr + i)))
      else s.say (.completion (domainFn t.fn) false false [])
    else
      match (if tlpFits t n 4096 ∧ t.addr % 4096 + n ≤ 4096 then s.aperture t.fn else none).bind fun c =>
          s.inboundRead (domainFn t.fn) c t.addr n 0 (decide (t.fn = 0)) none with
      | some s1 => s1
      | none => s.say (.completion (domainFn t.fn) false false [])

/-- The hub copy engine executes a BAR0 ring descriptor between host and device memory. (R309)

DESIGN CHOICE (log entry 86, unsafe): where the rings lie in BAR0 and how an entry is laid out is left open, and a descriptor comes as an input. -/
def execHubCopyDescriptor (d : HubDesc) (s : State) : Out :=
  .next <|
    let id := s.nextId
    -- host memory is read through ATS
    let s0 := if d.port.isNone ∧ d.toDevice then
        (List.range ((d.host % 4096 + d.n + 4095) / 4096)).foldl (fun s i => s.hostPage (d.host / 4096 + i)) s else s
    let s1 := ({ s0 with descs := amSet s.descs id d }).bump
    let portOk := match d.port with | some p => s.portUp p | none => true
    match s.aperture d.fn with
    | none => s1.endDesc id false
    | some c =>
      if !s.hostUp || !portOk then s1.endDesc id false
      else if d.toDevice then
        (s1.inboundWrite (domainFn d.fn) c d.dev (d.data.take d.n) (decide (d.fn = 0)) false (some id)).descDone (some id)
      else
        let go := (pageRuns d.dev d.n (d.n / 4096 + 2)).foldl (fun (m : Option State) (r : Nat × Nat) =>
          m.bind fun s => s.inboundRead (domainFn d.fn) c r.1 r.2 (r.1 - d.dev) (decide (d.fn = 0)) (some id)) (some s1)
        match go with
        | some s2 => s2.descDone (some id)
        | none => s1.endDesc id false

/-- A descriptor completes and reports through MSI-X and a status byte. (R309) -/
def execHubCopyComplete (id : Nat) (s : State) : Out := .next (if s.descBusy id then s else s.endDesc id true)

/-! ### The link (R307, R362) -/

/-- The host link goes down and outbound requests and descriptors end with an error. (R362) -/
def execHostLinkDown (s : State) : Out :=
  .next <|
    let s1 := s.descs.foldl (fun s d => s.endDesc d.1 false) { s with hostUp := false }
    ({ s1 with hreads := s1.hreads.filter fun r => decide (32 ≤ r.2.domain ∧ r.2.domain < 64) }).hostErr 0

/-- The host port trains after the link has gone down and resumes carrying traffic. (R307) -/
def execHostLinkUp (s : State) : Out := .next { s with hostUp := true }

/-- The management processor re-keys an insecure IDE stream, so its TLPs are no longer discarded. (R362) -/
def execIdeRekey (stream : Nat) (s : State) : Out := .next { s with insecure := s.insecure.filter (· ≠ stream) }

/-- The host sends an ATS invalidation request for host-address translations held by the device. (R307) -/
def execAtsInvalidation (addr : Nat) (s : State) : Out := .next { s with atsCache := amErase s.atsCache (addr / 4096) }

end Sys2Proof.Machine
end

