-- ==== Sys2Proof/Machine/Stopping.lean ====
section
/-! DEFINITION. Stopping a context (R234, R258, R288, R313, R318-R320, R375-R377): PREEMPT, HALT, the completion of issued work, the save
area, the ends of a stop, and KILL. -/

namespace Sys2Proof.Machine

/-- The context port reports the outcome of a command (R377). -/
def State.report (s : State) (ctx code : Nat) : State := s.say (.port ctx code)

/-- The warps of a context. -/
def State.ctxWarpKeys (s : State) (ctx : Nat) : List Nat := (s.warps.filter fun w => decide (s.ctxOf w.1 = ctx)).map Prod.fst

/-- The teams of a context. -/
def State.ctxTeams (s : State) (ctx : Nat) : List (Nat × Team) :=
  s.teams.filter fun t => decide (((amGet s.grids t.2.grid).map Grid.ctx) = some ctx)

/-! ### Stage 1: issue halts (R318, R319) -/

/-- Whether no strand of a context will issue another group. -/
def State.issueHalted (s : State) (ctx : Nat) : Bool :=
  (s.ctxWarpKeys ctx).all fun k =>
    match amGet s.warps k with
    | some w => w.liveEntries.all fun e => decide ((w.strand e).state ≠ .ready ∨ (w.strand e).mask = 0) || !s.runs k e
    | none => true

/-- A speculative fence window is discarded; the strand stands behind the FENCE, which is complete (R234). -/
def State.discardWindow (s : State) (k e : Nat) : State :=
  match (amGet s.warps k).map fun w => w.strand e with
  | none => s
  | some st =>
    match st.fence with
    | none => s
    | some fw =>
      let s1 := (s.undo.filter fun u => decide (u.1 = st.uid)).foldl (fun s u => s.undoOne u.2) s
      let late (n u : Nat) : Bool := decide (u = st.uid ∧ fw.firstOp ≤ n)
      let s2 := { (s1.dropUndo st.uid).detDrop st.uid fw.firstOp with
        reqs := s1.reqs.filter fun q => !late q.1 q.2.uid
        loads := s1.loads.filter fun q => !late q.1 q.2.uid }
      let h := match fw.horizon with | some h => h | none => s.horizon (s.ctxOf k) (warpCu k) fw.scope
      s2.modWarp k fun w =>
        { (w.modStrand e fun st =>
            { st.dropLatches with fence := none, hold := .none, pc := fw.pc, walked := [], ovlWait := none, atHome := false, c := max st.c h }) with
          pipe := w.pipe.filter fun p => !late p.1 p.2.uid }

/-- The overlays in progress of a context are abandoned: an OVLOAD ends with CODE 10 (R288, R344). -/
def State.dropOverlays (s : State) (ctx : Nat) : State :=
  (s.ovls.filter fun o => decide (o.2.ctx = ctx)).foldl (fun s o =>
    let free (st : Strand) : Strand := if st.ovlWait = some o.1 ∨ st.hold = Hold.stall o.1 then { st with ovlWait := none, hold := .none } else st
    let ws : AMap Warp := s.warps.map fun (w : Nat × Warp) => (w.1, { w.2 with table := w.2.table.map free })
    let s1 : State := { s with ovls := amErase s.ovls o.1, warps := ws }
    (o.2.copies.foldl (fun s c => s.endCopy c 10 0 0 0 []) s1).retryLoads o.2.cu) s

/-- The queued MMABs of a team that name a rank, in their order. -/
def State.queuedMmabs (s : State) (t : Nat × Team) (rank : Nat) : List MatOp :=
  (s.cu t.2.cu).queue.filter fun m => decide (m.team = t.1 ∧ m.form = .broadcast ∧ m.bRank = rank)

/-- Gathers in progress stand as not issued, and so does an MMAB of an episode in which some participant has not issued: every other episode
completes (R288).

DESIGN CHOICE (log entry 84, unsafe): a stop that finds an MMAB whose partners have not issued. -/
def State.unissueMatrix (s : State) (ctx : Nat) : State :=
  let s1 := (s.gathers.filter fun g => decide (s.ctxOf g.2.warp = ctx)).foldl (fun s g => s.dropGather (warpCu g.2.warp) g.1) s
  (s1.ctxTeams ctx).foldl (fun s t =>
    (List.range 8).foldl (fun s r =>
      let formed := (s1.groupTeams t.2.grid t.2.group).foldl (fun n u => min n (s1.queuedMmabs u r).length) 4
      ((s1.queuedMmabs t r).drop formed).foldl (fun s m =>
        (s.unqueue t.2.cu m).modUid m.uid fun st => { st with hold := .none }) s) s) s1

/-- What happens once issue has halted: windows are discarded, blocked REGGROWs, gathers and lone MMABs stand as not issued, overlay loads
are abandoned. -/
def State.beginStop (s : State) (ctx : Nat) : State :=
  let ks := s.ctxWarpKeys ctx
  let s1 := ks.foldl (fun s k => (List.range 8).foldl (fun s e => s.discardWindow k e) s) s
  let s2 := ((ks.foldl State.unblockGrow s1).unissueMatrix ctx).dropOverlays ctx
  (s2.modCtx ctx fun c => { c with stopBegun := true }).settle

/-! ### Stages 2 and 3: issued work completes, copies land (R234, R258, R288, R318) -/

/-- Whether a strand has no fence of its own in progress. -/
def Strand.quiet (st : Strand) : Bool := st.fenceStep1.isNone && st.fence.isNone

/-- Whether a warp has nothing in progress but the status writes of deferred publishes, for which a strand whose lanes have exited may wait too
(R245, R288). -/
def State.warpQuiet (s : State) (k : Nat) (w : Warp) : Bool :=
  w.pipe.isEmpty && w.op.isNone && w.table.all Strand.quiet &&
    (w.kpend.all fun q => (amGet s.copies q.2).isSome) &&
    (s.loads.all fun l => decide (l.2.warp ≠ k)) &&
    ((s.cu (warpCu k)).matOps.all fun m => decide (m.warp ≠ k)) &&
    (s.gathers.all fun g => decide (g.2.warp ≠ k)) &&
    (w.table.all fun st => s.episodes.all fun ep => !ep.2.uids.contains st.uid || !st.live)

/-- Whether everything issued by a context has completed and every copy has landed or ended. -/
def State.stopReady (s : State) (ctx : Nat) (c : Ctx) : Bool :=
  (s.reqs.all fun r => decide (r.2.ctx ≠ ctx)) && (s.mcas.all fun m => decide (m.2.ctx ≠ ctx)) &&
    (s.launches.all fun l => decide (l.2.ctx ≠ ctx)) && (s.supOps.all fun o => decide (o.2.ctx ≠ ctx)) &&
    (s.replies.all fun r => decide (r.2.ctx ≠ ctx ∨ r.2.stage = 3)) && (s.copies.all fun q => decide (q.2.ctx ≠ ctx) || q.2.ended) &&
    (s.warps.all fun w => decide (s.ctxOf w.1 ≠ ctx) || s.warpQuiet w.1 w.2) &&
    ((s.ctxTeams ctx).all fun t => !t.2.bayMoving && !s.teamDone t.2) && c.inflight.isEmpty && c.posting.isNone

/-! ### Stage 4: the save area (R320) -/

/-- What a segment of the save area holds: the header; a team's header; a warp's control; bytes of the physical space; a pending publish
record; a trap record. -/
inductive SegSrc where
  | header
  | team (tn : Nat)
  | control (k : Nat)
  | at0 (a : Nat)
  | publish (id : Nat)
  | record (n : Nat)
  deriving DecidableEq, Repr

/-- A segment: its offset, its bytes, what it holds, and the CU whose save engine writes it (none: the hub). -/
structure Seg where
  off : Nat
  len : Nat
  src : SegSrc
  cu : Option Nat
  deriving DecidableEq, Repr

/-- Lays segments end to end from an offset. -/
def layOut : Nat → List (Nat × SegSrc × Option Nat) → List Seg
  | _, [] => []
  | o, (n, x, c) :: t => { off := o, len := n, src := x, cu := c } :: layOut (o + n) t

/-- Where a warp's register block is: on its CU or in the spill pool. -/
def blockAt (k : Nat) (w : Warp) : Nat := match w.spilled with | some a => a | none => bankAddr (warpCu k) w.block

/-- The segments of a team's image. -/
def teamSegs (n tn : Nat) (t : Team) (ws : List (Nat × Warp)) : List (Nat × SegSrc × Option Nat) :=
  [(256, .team tn, some t.cu)] ++
    ws.map (fun w => (w.2.blockBytes, .at0 (blockAt w.1 w.2), some t.cu)) ++
    ws.map (fun w => (8192, .control w.1, some t.cu)) ++
    ws.map (fun w => (16384, .at0 (accAddr (warpCu w.1) (warpSlot w.1 * 16384)), some t.cu)) ++
    (t.bays.take n).map fun o => (4096, .at0 (bankAddr t.cu o), some t.cu)

/-- The segments of a save area (R320). -/
def State.saveSegs (s : State) (teams : List (Nat × Team)) (warps : List (Nat × Warp)) (pubs : List (Nat × Copy))
    (recs : List (Nat × Nat × Nat)) : List Seg :=
  layOut 0 <|
    [(4096, SegSrc.header, none)] ++
      (teams.flatMap fun t => teamSegs (((amGet s.grids t.2.grid).map fun g => g.lr.bays).getD 0) t.1 t.2
        (t.2.warps.filterMap fun k => (amGet warps k).map fun w => (k, w))) ++
      (pubs.flatMap fun q => q.2.landing.map fun l => (4096, .at0 (bankAddr q.2.cu l.2), some q.2.cu)) ++
      (pubs.map fun q => (64, .publish q.1, some q.2.cu)) ++ recs.map fun r => (64, .record r.2.2, none)

/-- The teams of a context in the order of R320. -/
def State.saveOrder (s : State) (ctx : Nat) : List (Nat × Team) :=
  sortBy (fun t : Nat × Team => ((amGet s.grids t.2.grid).map Grid.number).getD 0 * 2 ^ 40 + t.2.index) (s.ctxTeams ctx)

/-- The clock in which a landed copy would have published: a team's scratchpad copies publish in issue order (R274). -/
def State.publishClock (s : State) (id : Nat) (cp : Copy) : Nat :=
  if cp.region.isSome then cp.endedAt
  else ((s.teamCopies cp.team).filter fun q => decide (q.1 ≤ id)).foldl (fun m q => max m q.2.endedAt) cp.endedAt

/-- The pending publishes of a context in publish order. -/
def State.pendingPublishes (s : State) (ctx : Nat) : List (Nat × Copy) :=
  sortBy (fun q : Nat × Copy => s.publishClock q.1 q.2) (s.copies.filter fun q => decide (q.2.ctx = ctx) && q.2.ended)

/-- The segments that a context's save writes now. -/
def State.ctxSegs (s : State) (ctx : Nat) : List Seg :=
  s.saveSegs (s.saveOrder ctx) s.warps (s.pendingPublishes ctx) (((amGet s.ctxs ctx).map Ctx.records).getD [])

/-- The clocks of a save: each CU's save engine writes 128 bytes a clock. -/
def saveClocks (segs : List Seg) : Nat :=
  let per (cu : Nat) : Nat := ((segs.filter fun g => decide (g.cu = some cu)).map Seg.len).sum
  (((segs.filterMap Seg.cu).eraseDups).map fun cu => (per cu + 127) / 128).foldl max 1

/-- The end of the last segment. -/
def segsEnd (segs : List Seg) : Nat := segs.foldl (fun m g => max m (g.off + g.len)) 0

/-- The physical pages of the save area, or none when one cannot be written, or read. -/
def State.savePages (s : State) (ctx at0 bytes : Nat) (write : Bool) : Option (List Nat) :=
  (List.range ((bytes + 4095) / 4096)).foldl (fun (m : Option (List Nat)) (i : Nat) =>
    match m, s.transNow 8 ctx (at0 + 4096 * i) write (s.supOf ctx) false with
    | some l, .ok a => if s.contained a then none else some (l ++ [a])
    | _, _ => none) (some [])

/-- The physical address of an offset of the save area. -/
def pageAt (pages : List Nat) (o : Nat) : Nat := pages.getD (o / 4096) 0 + o % 4096

/-- A strand's entry as the save engine and the debugger see it (R67). -/
def Strand.image (st : Strand) : Nat :=
  st.mask.toNat + st.pc.toNat * 2 ^ 32 + st.fibre * 2 ^ 55 + st.parent * 2 ^ 57 + st.state.number * 2 ^ 61 + st.waitk.toNat * 2 ^ 64

/-- An overflow record: the low 64 bits of the entry image, in state 1 or 5 (R76). -/
def Parked.image (q : Parked) : Nat :=
  q.mask.toNat + q.pc.toNat * 2 ^ 32 + q.fibre * 2 ^ 55 + q.parent * 2 ^ 57 + (if q.atJoin then 5 else 1) * 2 ^ 61

/-- Words of a map as they are handed out: a poisoned one as its marker (R349). -/
def markedWords (m : Sparse 32) (pois : AMap Nat) (n : Nat) : List Byte :=
  (List.range n).flatMap fun j => toBytes 4 (match amGet pois j with | some o => marker o | none => spGet m j).toNat

/-- Where the predicates lie in a warp's control segment. -/
def predsAt : Nat := 6408

/-- A warp's control segment (R320): 256 k registers, the 64 bytes of the window map, the 8 entries of the strand table at 16 bytes, the split
records of 4 fibres (a byte a token, bit 7 set with the parent while it is in use), 128 overflow records, the 4 latches of each of the 8
entries with a byte of validity bits an entry, and the 12 predicates of 4 fibres.

DESIGN CHOICE (log entry 45, unsafe): the layout of the save area's headers, control segments and publish records. -/
def Warp.control (w : Warp) : List Byte :=
  let token (f t : Nat) : Byte := match amGet (w.fibre f).tokens t with | some p => BitVec.ofNat 8 (128 + p) | none => 0
  let latch (st : Strand) (j : Nat) : List Byte := (List.range 32).flatMap fun i => toBytes 4 (spGet (st.latches.getD j {}).data i).toNat
  let valid (st : Strand) : Nat := ((List.range 4).map fun j => if (st.latches.getD j {}).valid then 2 ^ j else 0).sum
  let parked := w.overflow.flatMap fun q => toBytes 8 q.image
  markedWords w.k w.kPoison 256 ++ spRead w.winmap 0 64 ++
    ((List.range 8).flatMap fun e => toBytes 16 (if (w.strand e).live then (w.strand e).image else 0)) ++
    ((List.range 4).flatMap fun f => (List.range 16).map fun t => token f t) ++
    parked ++ List.replicate (1024 - parked.length) 0 ++
    ((List.range 8).flatMap fun e => (List.range 4).flatMap fun j => latch (w.strand e) j) ++
    ((List.range 8).map fun e => BitVec.ofNat 8 (valid (w.strand e))) ++
    (List.range 4).flatMap fun f => markedWords (w.fibre f).preds (w.fibre f).predPoison 12

/-- A team's header (R320): its grid (4 bytes), index (8) and rank (4); from byte 16 its bay map, two bytes a bay for its place in units of 4 KiB,
the logical bays before the spare ones, at most 64 of both (R107); from byte 144 the flags of the four fibres of each of its warps. -/
def Team.header (t : Team) (number : Nat) (ws : List Warp) : List Byte :=
  let bays := ((t.bays ++ t.spares).flatMap fun o => toBytes 2 (o / 4096)).take 128
  toBytes 4 number ++ toBytes 8 t.index ++ toBytes 4 t.rank ++ bays ++ List.replicate (128 - bays.length) 0 ++
    ws.flatMap fun w => (List.range 4).map fun f => (w.fibre f).fstat.setWidth 8

/-- The header of a save area (R320): the acceptance counter (8 bytes), the seed (4), the count of teams (4), and from byte 16 the launches
still to be dealt in the order of their queues, 16 bytes each: number (4), next team (8), priority (1), whether it is reserved (1). -/
def State.saveHeader (s : State) (ctx teams : Nat) (c : Ctx) : List Byte :=
  let q := sortBy (fun g : Nat × Grid => g.2.order) (s.grids.filter fun g => decide (g.2.ctx = ctx) && decide (g.2.nextTeam < g.2.lr.total))
  toBytes 8 c.nextNumber ++ toBytes 4 c.seed.toNat ++ toBytes 4 teams ++
    (q.flatMap fun g => toBytes 4 g.2.number ++ toBytes 8 g.2.nextTeam ++ toBytes 1 g.2.lr.prio ++ toBytes 3 (if g.2.reserved then 1 else 0)).take 4080

/-- A pending publish record (R320): the copy's kind (1 byte: 0 CPY, 1 CPYL), its status register (1), the logical number of its warp (1), the
count of its destination bays or, of a region, 0 (1), its final status word (4), and its logical destination bays (a byte each) or the
region's number. -/
def Copy.record (cp : Copy) (number : Nat) : List Byte :=
  toBytes 1 (match cp.kind with | .tensor => 0 | .linear => 1 | .overlay => 2) ++ toBytes 1 (cp.ks.getD 0) ++ toBytes 1 number ++
    toBytes 1 cp.landing.length ++ toBytes 4 (copyStatus cp.code cp.total).toNat ++
    match cp.region with
    | some j => toBytes 1 j
    | none => cp.landing.map fun l => BitVec.ofNat 8 l.1

/-- Bytes at the start of a segment; what no item of it covers is open.

DESIGN CHOICE (log entry 89, safe): those bytes are free values, Config.saveByte. -/
def State.padded (s : State) (g : Seg) (bs : List Byte) : Sparse 8 :=
  runOf 0 ((bs ++ (List.range (g.len - bs.length)).map fun i => Config.saveByte (s.freeCtr + g.off + bs.length + i)).take g.len)

/-- n bytes from a as they are handed out: poisoned words as their markers (R349). -/
def State.markedImage (s : State) (a n : Nat) : Sparse 8 :=
  let im := s.image a n
  im.2.foldl (fun m e => spWrite m e.1 ((List.range (poisonUnit (a + e.1) / 4)).flatMap fun _ => toBytes 4 (marker e.2).toNat)) im.1

/-- The bytes of a segment, by offset in it. -/
def State.segImage (s : State) (ctx : Nat) (g : Seg) : Sparse 8 :=
  match g.src with
  | .header => match amGet s.ctxs ctx with | some c => s.padded g (s.saveHeader ctx (s.ctxTeams ctx).length c) | none => []
  | .team tn =>
    match amGet s.teams tn with
    | some t => s.padded g (t.header (((amGet s.grids t.grid).map Grid.number).getD 0) (t.warps.filterMap fun k => amGet s.warps k))
    | none => []
  | .control k => match amGet s.warps k with | some w => s.padded g w.control | none => []
  | .at0 a => s.markedImage a g.len
  | .publish id => match amGet s.copies id with | some cp => s.padded g (cp.record (s.warpNumber cp.warp)) | none => []
  | .record n => runOf 0 (toBytes 64 n)

/-- The runs of the physical pages that n bytes of a save area take. -/
def saveRuns (pages : List Nat) (n : Nat) : List (Nat × Nat) :=
  (List.range pages.length).map fun i => (pages.getD i 0, min 4096 (n - 4096 * i))

/-- Writes a segment into the pages of the save area. -/
def State.putSeg (s : State) (pages : List Nat) (g : Seg) (im : Sparse 8) : State :=
  (pageRuns g.off g.len (g.len / 4096 + 2)).foldl (fun s r =>
    let here := im.filter fun e => decide (r.1 ≤ g.off + e.1) && decide (g.off + e.1 < r.1 + r.2)
    s.putImage (pageAt pages r.1) r.2 (here.map fun e => (g.off + e.1 - r.1, e.2), [])) s

/-- The lines of a segment in the pages of the save area. -/
def Seg.lines (g : Seg) (pages : List Nat) : List Nat :=
  (pageRuns g.off g.len (g.len / 4096 + 2)).flatMap fun r => linesOf (pageAt pages r.1) r.2

/-- The save's own number for the agent of the segments that no CU writes. -/
def hubSaver : Nat := 512

/-- A line's write event of a save engine (R153, R155), whose timestamps rise from line to line: the clocks of the engines by CU. -/
def saveStamp (m : State × AMap Nat) (who l : Nat) : State × AMap Nat :=
  let t := m.1.writeStamp l (amGetD m.2 who m.1.horSys)
  (t.2, amSet m.2 who t.1)

/-- Writes the save area: a write event for each line, of the save engine of the CU it comes from (R156), folded into the horizons of every
scope that holds the engine (R160). -/
def State.writeSave (s : State) (ctx : Nat) (segs : List Seg) (pages : List Nat) : State :=
  let t := segs.foldl (fun m g => (g.lines pages).foldl (fun m l => saveStamp m (g.cu.getD hubSaver) l) m) (s, [])
  let s1 := (segs.foldl (fun u g => u.putSeg pages g (s.segImage ctx g)) t.1).bumpFree (segsEnd segs)
  let s2 := segs.foldl (fun s g => (g.lines pages).foldl (fun s l => s.afterWrite (l * 64) 64 (s.line l).wts 0) s) s1
  t.2.foldl (fun s e => (if e.1 < hubSaver then s.foldNear e.1 e.2 else s).foldHub ctx e.2) s2

/-- A strand as the image holds it: what the spec saves, nothing of its issue. -/
def Strand.saved (st : Strand) : Strand :=
  { st with hold := .none, walked := [], ovlWait := none, waitTs := none, switched := false, stopped := false, lastIssue := 0, issuableAt := 0,
            atHome := false }

/-- A warp as the image holds it. One that HALT saves while it is spilled keeps its place in the pool, which its block goes back to (R371). -/
def Warp.saved (w : Warp) (keep : Bool) : Warp :=
  { w with table := w.table.map Strand.saved, holder := none, vacated := false, lastFibre := w.fibres.length - 1, lastIssue := 0,
           spilled := if keep then w.spilled else none }

/-- The saved image of a context. -/
def State.savedImage (s : State) (ctx : Nat) (c : Ctx) (segs : List Seg) : Saved :=
  let pubs := s.pendingPublishes ctx
  let here {α : Type} (m : List (Nat × α)) (unit : Nat) : List (Nat × α) :=
    segs.flatMap fun g => match g.src with
      | .at0 a => (m.filter fun e => decide (a ≤ e.1 * unit) && decide (e.1 * unit < a + g.len)).map fun e =>
          (g.off / unit + (e.1 - a / unit), e.2)
      | _ => []
  { mig := c.mig && !c.aborted, nextNumber := c.nextNumber, seed := c.seed, records := c.records,
    selectors := c.shadows.map Shadow.second, teams := s.saveOrder ctx,
    warps := (s.ctxWarpKeys ctx).filterMap fun k => (amGet s.warps k).map fun w => (k, w.saved c.stopHalt),
    rowFlags := here s.rowFlags 1, poison := here s.poison 1, lines := here s.lines 64, publishes := pubs }

/-! ### Teams leave (R318, R360, KILL) -/

/-- The bank store and warp slots of teams return to their CUs. -/
def State.freeTeams (s : State) (ts : List (Nat × Team)) : State :=
  ts.foldl (fun s t =>
    let blocks := ((s.cu t.2.cu).grants.filter fun g => decide (g.2.2 = t.1)).map fun g => g.1
    (blocks.foldl (fun s o => s.returnBlock t.2.cu o) s).freeSlots t.2.cu t.2.warps) s

/-- The places of spilled warps in the spill pools are free. -/
def State.freePools (s : State) (ws : List (Nat × Warp)) : State :=
  let pools := ws.filterMap fun w => w.2.spilled
  { s with spillUsed := s.spillUsed.filter fun u => !pools.contains u.1 }

/-- Takes teams and their warps and copies out of the CUs; what they hold stays granted. -/
def State.removeTeams (s : State) (ts : List (Nat × Team)) : State :=
  let tns := ts.map Prod.fst
  let ks := ts.flatMap fun t => t.2.warps
  let gone (id : Nat) : Bool := match amGet s.copies id with | some cp => tns.contains cp.team | none => true
  { s with
    teams := s.teams.filter fun t => !tns.contains t.1
    warps := s.warps.filter fun w => !ks.contains w.1
    copies := s.copies.filter fun q => !tns.contains q.2.team
    cus := s.cus.map fun (c : Nat × Cu) => (c.1,
      { c.2 with copies := c.2.copies.filter (fun id => !gone id), blocked := c.2.blocked.filter (fun k => !ks.contains k),
                 spillList := c.2.spillList.filter (fun k => !ks.contains k),
                 favoured := c.2.favoured.filter (fun k => !ks.contains k)
                 kept := if c.2.favoured.any ks.contains then c.2.kept.filter (fun r => decide (r.2.2 ≠ forFavoured)) else c.2.kept }) }

/-- The teams of an image keep only their warp slots (R313, HALT). -/
def State.reserveSlots (s : State) (ctx : Nat) (ts : List (Nat × Team)) : State :=
  s.modCtx ctx fun c => { c with reservedSlots := ts.flatMap fun t => t.2.warps }

/-! ### Stage 5: the report -/

/-- The code of a completed stop (R377). -/
def Ctx.endCode (c : Ctx) : Nat := if c.stopCode ≠ 0 then c.stopCode else if c.aborted then 32 else 0

/-- The stop of a context is complete: its image stands, its CUs are free or reserved. -/
def State.finishStop (s : State) (ctx : Nat) (c : Ctx) (im : Saved) : State :=
  let ts := im.teams
  let s1 := s.removeTeams ts
  let s2 := if c.stopHalt then s1.reserveSlots ctx ts
    else (s1.freeTeams ts).freePools (s.warps.filter fun w => decide (s.ctxOf w.1 = ctx))
  let st : CtxState := if c.stopCode = 33 then .contained else if c.stopHalt then .halted else .preempted
  (s2.modCtx ctx fun c => { c with state := st, saved := some im, stopAt := none, saving := false, stopBegun := false }).report ctx c.endCode

/-- The last CU finishes saving and the port reports the context stopped. (R318) -/
def execSaveComplete (ctx : Nat) (s : State) : Out :=
  .next <|
    match amGet s.ctxs ctx with
    | none => s
    | some c =>
      if c.state ≠ .stopping ∨ !c.saving then s.leaveAll (saverKey ctx)
      else if !s.stopReady ctx c then (s.modCtx ctx fun c => { c with saving := false }).leaveAll (saverKey ctx)
      else
        let segs := s.ctxSegs ctx
        match s.savePages ctx c.save (segsEnd segs) true with
        | none => s.leaveAll (saverKey ctx)
        | some pages =>
          match s.waitLines (saverKey ctx) (s.heldIn pages) with
          | some s' => s'
          | none =>
            let im := s.savedImage ctx c segs
            (((s.writeSave ctx segs pages).finishStop ctx c im).leaveAll (saverKey ctx)).tickDeal 1

/-- The stops in progress go on as far as they can in this clock (R318). -/
def State.stopTick (s : State) : State :=
  s.ctxs.foldl (fun s c =>
    match amGet s.ctxs c.1 with
    | some x =>
      if x.state ≠ .stopping ∨ x.saving then s
      else if !x.stopBegun then (if s.issueHalted c.1 then s.beginStop c.1 else s)
      else if s.stopReady c.1 x then
        (s.modCtx c.1 fun x => { x with saving := true }).after (saveClocks (s.ctxSegs c.1)) prioLate (.saveComplete c.1)
      else s
    | none => s) s

/-! ### Commands and timeouts (R313, R375, R376) -/

/-- A stop command applies to a running context. -/
def State.stopCommand (s : State) (ctx : Nat) (keep mig : Bool) : State :=
  match amGet s.ctxs ctx with
  | some c => if s.firmwareOk && decide (c.state = .running) then s.askStop ctx keep mig 0 else s.report ctx 21
  | none => s.report ctx 21

/-- Context command that halts issue, completes work, saves the context and frees its CUs. (R318) -/
def execPreempt (ctx : Nat) (mig : Bool) (s : State) : Out := .next (s.stopCommand ctx false mig)

/-- Context command that stops and saves as PREEMPT but keeps the CUs reserved. (R318) -/
def execHalt (ctx : Nat) (mig : Bool) (s : State) : Out := .next (s.stopCommand ctx true mig)

/-- A strand missing its migration point within 2,700 clocks makes the save fall back to MIG = 0. (R376) -/
def execMigrationAbort (ctx : Nat) (s : State) : Out :=
  .next <|
    match amGet s.ctxs ctx with
    | some c =>
      if c.state = .stopping ∧ c.mig ∧ (c.stopAt.getD s.clock) + 2700 ≤ s.clock ∧ !s.issueHalted ctx then s.modCtx ctx fun c => { c with mig := false, aborted := true } else s
    | none => s

/-- A stop not complete within 2^24 clocks fails and the context is contained. (R375) -/
def execStopTimeout (ctx : Nat) (s : State) : Out :=
  .next <|
    match amGet s.ctxs ctx with
    | some c =>
      match c.stopAt with
      | some t =>
        if c.state = .stopping ∧ t + 2 ^ 24 ≤ s.clock then
          (s.modCtx ctx fun c => { c with state := .contained, stopAt := none, saving := false }).report ctx 33
        else s
      | none => s
    | none => s

/-! ### KILL (R313) and the loss of teams (R360) -/

/-- The MCAS of lost warps: one whose event has taken place is carried out, the locks of the others are released. -/
def State.loseMcas (s : State) (ks : List Nat) : State :=
  (s.mcas.filter fun m => ks.contains m.2.warp).foldl (fun s m =>
    let s1 := m.2.due.foldl (fun s d => s.mcasFree State.grantLock m.1 d.1 m.2) s
    let s2 := { s1 with mcas := amErase s1.mcas m.1 }
    m.2.lines.foldl (fun s l =>
      if (s.line l).lock = some m.1 then (s.setLine l { s.line l with lock := none }).freeLine l else s) s2) s

/-- Everything in progress of warps that are no more is dropped. -/
def State.loseWork (s : State) (ks : List Nat) : State :=
  let s0 := s.loseMcas ks
  let uids := ks.flatMap fun k => match amGet s0.warps k with
    | some w => (w.table.map Strand.uid) ++ w.overflow.map Parked.uid
    | none => []
  let ids := (s0.reqs.filter fun r => ks.contains r.2.warp).map Prod.fst
  let s0 := (s0.gathers.filter fun g => ks.contains g.2.warp).foldl (fun s g => s.dropGather (warpCu g.2.warp) g.1) s0
  { s0 with
    lines := s0.lines.map fun (l : Nat × Line) => (l.1, { l.2 with queue := l.2.queue.filter fun q => !ids.contains q })
    reqs := s0.reqs.filter fun r => !ks.contains r.2.warp
    loads := s0.loads.filter fun l => !ks.contains l.2.warp
    launches := s0.launches.filter fun l => !ks.contains l.2.warp
    supOps := s0.supOps.filter fun o => !ks.contains o.2.warp
    replies := s0.replies.filter fun r => !ks.contains r.2.warp
    episodes := s0.episodes.filter fun ep => !ep.2.uids.any fun u => uids.contains u
    undo := s0.undo.filter fun u => !uids.contains u.1
    cus := s0.cus.map fun (c : Nat × Cu) => (c.1,
      { c.2 with running := c.2.running.filter (fun m => !ks.contains m.warp), queue := c.2.queue.filter (fun m => !ks.contains m.warp) }) }

/-- Teams are lost with everything they have in progress. -/
def State.loseTeams (s : State) (ts : List (Nat × Team)) : State :=
  let ks := ts.flatMap fun t => t.2.warps
  ((s.loseWork ks).removeTeams ts).freePools (s.warps.filter fun w => ks.contains w.1)

/-- The state of a context is discarded: its teams, queues, pending publishes, held records and reservations. -/
def State.dropCtx (s : State) (ctx : Nat) : State :=
  let live := s.ctxTeams ctx
  let kept := match amGet s.ctxs ctx with
    | some c => if c.reservedSlots = [] then [] else (c.saved.map Saved.teams).getD []
    | none => []
  let s1 := (((s.dropOverlays ctx).loseTeams live).modCtx ctx fun c => { c with reservedSlots := [] }).freeTeams live
  let s2 := (s1.freeTeams kept).freePools ((((amGet s.ctxs ctx).bind Ctx.saved).map Saved.warps).getD [])
  let s3 := { s2 with
    ctxs := amErase s2.ctxs ctx
    grids := s2.grids.filter fun g => decide (g.2.ctx ≠ ctx)
    launches := s2.launches.filter fun l => decide (l.2.ctx ≠ ctx)
    copies := s2.copies.filter fun q => decide (q.2.ctx ≠ ctx)
    walks := s2.walks.filter fun w => decide (w.2.ctx ≠ ctx)
    detLog := s2.detLog.filter fun d => decide (d.ctx ≠ ctx)
    fnCtx := s2.fnCtx.filter fun f => decide (f.2 ≠ ctx)
    cus := s2.cus.map fun (c : Nat × Cu) => (c.1,
      { c.2 with banks := c.2.banks.filter fun b => decide (b.ctx ≠ ctx) }) }
  (((s3.unkeep (restoreKey ctx)).dropTranslations 1 ctx 0).startWalks Config.walkers |>.leaveAll (posterKey ctx) |>.leaveAll (saverKey ctx)).settle

/-- Context command that stops the context and discards its state and pending publishes. (R313)

DESIGN CHOICE (log entry 49, unsafe): accesses in flight when a context is killed. -/
def execContextKill (ctx : Nat) (s : State) : Out :=
  .next <|
    match amGet s.ctxs ctx with
    | none => s.report ctx 21
    | some _ => if s.firmwareOk then ((s.dropCtx ctx).tickDeal 1).report ctx 0 else s.report ctx 21

end Sys2Proof.Machine
end

