-- ==== Sys2Proof/Machine/Starting.lean ====
section
/-! DEFINITION. Starting and restoring contexts (R106, R311-R313, R321, R336, R377): the context record and its checks, START, RESTORE and
CONTINUE. -/

namespace Sys2Proof.Machine

/-! ### The context record (R115, R311, R312) -/

/-- The fields of a context record read as a number, put into a context. -/
def Ctx.withRecord (c : Ctx) (n addr : Nat) : Ctx :=
  { c with
    recAt := addr, save := bitsOf n 704 64, trapq := bitsOf n 768 64, ptroot := bitsOf n 640 64, rootl := bitsOf n 576 64,
    finrev := bitsOf n 24 8, minstep := bitsOf n 16 8, func := bitsOf n 11 5, dbg := decide (bitsOf n 10 1 = 1),
    sup := decide (bitsOf n 9 1 = 1), place := bitsOf n 7 2, lease := 1024 * 4 ^ bitsOf n 5 2, mxsLimit := bitsOf n 896 8,
    copyLimit := bitsOf n 928 32, linkLimit := bitsOf n 960 32, atomLimit := bitsOf n 992 32 }

/-- Whether a record's fields are accepted (R311, R337). -/
def ctxRecordOk (n addr : Nat) : Bool :=
  decide (bitsOf n 32 512 = 0 ∧ bitsOf n 904 24 = 0 ∧ bitsOf n 7 2 ≠ 3 ∧ bitsOf n 5 2 ≠ 3) &&
    decide (bitsOf n 704 64 % 4096 = 0 ∧ bitsOf n 640 64 % 4096 = 0 ∧ bitsOf n 768 64 ≠ 0 ∧ bitsOf n 768 64 % 64 = 0 ∧ addr % 128 = 0)

/-- The record at a physical address, unless it cannot be read.

DEDUCED (log entry 17, unsafe): which addresses of a context record are physical. -/
def State.ctxRecord (s : State) (addr : Nat) : Option Nat :=
  if inDram addr && inDram (addr + 127) && !s.contained addr && (s.poisonIn addr 128).isEmpty then some (s.num addr 128) else none

/-- A shadow-region table entry read as a number (R312), unless a field is out of its limits. -/
def shadowOf (n : Nat) : Option Shadow :=
  let d : Int := (BitVec.ofNat 64 (bitsOf n 64 64)).toInt
  if bitsOf n 160 96 ≠ 0 ∨ bitsOf n 128 32 = 0 ∨ d % 65536 ≠ 0 ∨ bitsOf n 0 64 % 65536 ≠ 0 then none
  else some { base := bitsOf n 0 64, bytes := 65536 * bitsOf n 128 32, delta := d }

/-- Whether no two regions overlap. -/
def shadowsApart : List Shadow → Bool
  | [] => true
  | r :: t => (t.all fun q => decide (r.base + r.bytes ≤ q.base ∨ q.base + q.bytes ≤ r.base)) && shadowsApart t

/-- The regions of a context's table, or the code that refuses the command: 22 when the table cannot be read, 16 when it is invalid. -/
def State.shadowTable (s : State) (ctx addr n : Nat) : Except Nat (List Shadow) :=
  if addr = 0 ∨ n = 0 then .ok []
  else
    match s.hubRead ctx addr (32 * n) with
    | none => .error 22
    | some bs =>
      if (s.hubFault ctx addr (32 * n)).isSome then .error 22
      else
        let l := (List.range n).map fun j => shadowOf (ofBytes ((bs.drop (32 * j)).take 32))
        if l.all Option.isSome && shadowsApart (l.filterMap id) then .ok (l.filterMap id) else .error 16

/-- Whether the contract serves a Finrin revision (R321). -/
def State.servesRevision (s : State) (finrev : Nat) : Bool :=
  let have_ := s.contract.toNat / 2 ^ 24
  decide (finrev / 16 = have_ / 16 ∧ finrev % 16 ≤ have_ % 16)

/-- The checks of a context record that START and RESTORE share, in their order (R377): the context with the record's fields, or
the code of the first check that fails.

DEDUCED (log entry 47, unsafe): codes of bad context records. -/
def State.loadRecord (s : State) (ctx addr : Nat) (c : Ctx) : Except Nat Ctx :=
  match s.ctxRecord addr with
  | none => .error 22
  | some n =>
    if !ctxRecordOk n addr then .error 16
    else
      let c1 := c.withRecord n addr
      match { s with ctxs := amSet s.ctxs ctx c1 }.shadowTable ctx (bitsOf n 832 64) (bitsOf n 0 5) with
      | .error k => .error k
      | .ok l =>
        if !s.servesRevision c1.finrev then .error 17
        else if Config.stepping < c1.minstep then .error 18
        else .ok { c1 with shadows := l }

/-- The record of a context that CONTINUE goes on with: the fields that were read last, whatever has been stored to it since (R311); it must be
there to be read, and the part must serve it (R377).

DEDUCED (log entry 107, unsafe): CONTINUE takes no field of the record anew. -/
def State.heldRecord (s : State) (c : Ctx) : Except Nat Ctx :=
  match s.ctxRecord c.recAt with
  | none => .error 22
  | some _ => if !s.servesRevision c.finrev then .error 17 else if Config.stepping < c.minstep then .error 18 else .ok c

/-- The ring header of a context as a number (R336), unless it cannot be read. -/
def State.ringHeader (s : State) (ctx trapq : Nat) : Option Nat :=
  if (s.hubFault ctx trapq 64).isSome then none else (s.hubRead ctx trapq 64).map ofBytes

/-- LOG2N and TAKEN of a ring header. -/
def ringSize (h : Nat) : Nat := bitsOf h 0 8
def ringTaken (h : Nat) : Nat := bitsOf h 128 64

/-- Whether a ring header is valid (R336): LOG2N within its range, every reserved bit 0 (R9).

DEDUCED (log entry 76, unsafe): a header with a reserved bit set is refused with the code of its LOG2N. -/
def ringOk (h : Nat) : Bool := decide (4 ≤ ringSize h ∧ ringSize h ≤ 12 ∧ bitsOf h 8 56 = 0 ∧ bitsOf h 192 320 = 0)

/-- POSTED as the ring header holds it (R336). -/
def State.ringPosted (s : State) (ctx trapq : Nat) : Nat := bitsOf (ofBytes ((s.hubRead ctx trapq 64).getD [])) 64 64

/-! ### START (R106, R313, R377) -/

/-- The root launch of a context: at depth 0, ordered after every acknowledged event. -/
def State.rootLaunch (s : State) (ctx : Nat) (c : Ctx) : Launch := { ctx := ctx, addr := c.rootl, c := s.horSys }

/-- The function of a started context opens onto it, unless it has a live aperture context (R308).

DESIGN CHOICE (log entry 48, unsafe): which context a function's BAR2 opens onto. -/
def State.nameAperture (s : State) (fn ctx : Nat) : State :=
  if (s.aperture fn).isSome then s else { s with fnCtx := amSet s.fnCtx fn ctx }

/-- START behind the check of the context record: the ring header, a joined die and the root launch record.

DESIGN CHOICE (log entry 78, unsafe): a ROOTL that is not aligned, or has bits 63 to 57 set. -/
def State.startWith (s : State) (ctx : Nat) (c : Ctx) : Except Nat State :=
  let s1 : State := { s with ctxs := amSet s.ctxs ctx c }
  match s1.ringHeader ctx c.trapq with
  | none => .error 22
  | some h =>
    if !ringOk h then .error 16
    else if !s.dies.any fun d => d.2.pooled then .error 20
    else
      match s1.hubRead ctx c.rootl 128 with
      | none => .error 22
      | some bs =>
        let n := ofBytes bs
        let r := launchRec n
        let img := s1.hubRead ctx r.winmapAt 64
        let code := s1.launchCode (s1.rootLaunch ctx c) n (s1.hubFault ctx r.winmapAt 64).isNone
        if (s1.hubFault ctx c.rootl 128).isSome then .error 22
        else if code ≠ 0 then .error code
        else
          let s2 := s1.modCtx ctx fun c => { c with log2n := ringSize h, taken := ringTaken h }
          let s3 := ((s2.hubStamp ctx c.rootl 128 s.horSys).hubStamp ctx r.winmapAt 64 s.horSys).hubStamp ctx c.trapq 64 s.horSys
          .ok ((s3.acceptLaunch (s3.rootLaunch ctx c) r (runOf 0 (img.getD []))).nameAperture c.func ctx)

/-- Context command that reads and checks the record and accepts the root grid. (R313) -/
def execStart (ctx addr : Nat) (s : State) : Out :=
  .next <|
    if 64 ≤ ctx then s.report ctx 24
    else if (amGet s.ctxs ctx).isSome ∨ !s.firmwareOk then s.report ctx 21
    else
      match s.loadRecord ctx addr {} with
      | .error k => s.report ctx k
      | .ok c =>
        let seed := BitVec.ofNat 32 (bitsOf (s.num addr 128) 544 32)
        match s.startWith ctx { c with seed := seed } with
        | .error k => s.report ctx k
        | .ok s1 => s1.report ctx 0

/-! ### Placing saved teams (R26, R63, R114, R321) -/

/-- The place of a saved team on a CU, behind the places already chosen. -/
def State.tryPlace (s : State) (ctx : Nat) (im : Saved) (chosen : List Place) (tn : Nat) (t : Team) (cu : Nat) : Option Place :=
  let here := chosen.filter fun p => decide (p.cu = cu)
  let extra := here.flatMap fun p =>
    let sizes := match amGet im.teams p.tn with | some u => im.sizes u | none => []
    (p.blocks.zip sizes).map (fun b => (b.1, b.2, p.tn)) ++ p.bays.map fun o => (o, 4096, p.tn)
  if s.openCu cu then placeOn im tn t cu (s.usedSlots (restoreKey ctx) cu ++ here.flatMap Place.slots) (s.grantsFor (restoreKey ctx) cu ++ extra) else none

/-- The rank of a CU for a context behind the places already chosen (R114). -/
def State.placeRank (s : State) (ctx : Nat) (chosen : List Place) (cu : Nat) : Nat :=
  s.cuRank ctx cu + 1024 * ((chosen.filter fun p => decide (p.cu = cu)).flatMap Place.slots).length

/-- Places the members of a group on different CUs among those given. -/
def State.placeMembers (s : State) (ctx : Nat) (im : Saved) (cus : List Nat) : List (Nat × Team) → List Place → Option (List Place)
  | [], chosen => some chosen
  | (tn, t) :: rest, chosen =>
    match firstMin (s.placeRank ctx chosen) (cus.filter fun cu => (s.tryPlace ctx im chosen tn t cu).isSome) with
    | none => none
    | some cu =>
      match s.tryPlace ctx im chosen tn t cu with
      | some p => s.placeMembers ctx im (cus.filter (· ≠ cu)) rest (chosen ++ [p])
      | none => none

/-- Places the saved teams in the order of R320, the members of one gallery group together in one gallery; at most n units. -/
def State.placeAll (s : State) (ctx : Nat) (im : Saved) : Nat → List (Nat × Team) → List Place → Option (List Place)
  | 0, _, chosen => some chosen
  | n + 1, l, chosen =>
    match l with
    | [] => some chosen
    | (tn, t) :: rest =>
      let unit := (tn, t) :: rest.filter fun u => decide (u.2.grid = t.grid ∧ u.2.group = t.group)
      let others := rest.filter fun u => !decide (u.2.grid = t.grid ∧ u.2.group = t.group)
      let firsts := sortBy (s.placeRank ctx chosen) (allCus.filter fun cu => (s.tryPlace ctx im chosen tn t cu).isSome)
      match firsts.findSome? fun cu =>
          s.placeMembers ctx im (cu :: allCus.filter fun u => decide (u ≠ cu ∧ cuGallery u = cuGallery cu)) unit chosen with
      | none => none
      | some c => s.placeAll ctx im n others c

/-- The places that CONTINUE keeps. -/
def Saved.samePlaces (im : Saved) : List Place :=
  im.teams.map fun t =>
    { tn := t.1, cu := t.2.cu, slots := t.2.warps.map warpSlot,
      blocks := t.2.warps.map fun k => ((amGet im.warps k).map Warp.block).getD 0, bays := t.2.bays ++ t.2.spares }

/-- Whether every saved team fits some empty CU of a joined die (R377, code 20). -/
def State.everFits (s : State) (im : Saved) : Bool :=
  im.teams.all fun t =>
    allCus.any fun cu => (amGetD s.dies (cuSite cu) {}).pooled && !(s.cu cu).dead && (placeOn im t.1 t.2 cu [] []).isSome

/-! ### Writing an image back (R321) -/

/-- The new place of an old warp key. -/
def newKey (im : Saved) (ps : List Place) (k : Nat) : Nat :=
  (ps.findSome? fun p => (amGet im.teams p.tn).bind fun t =>
    ((List.range t.warps.length).find? fun j => decide (t.warps.getD j 0 = k)).map fun j => warpKey p.cu (p.slots.getD j 0)).getD k

/-- A saved strand back in a table: its clock is at least the package horizon, and the watchdog, which no image holds, counts anew. -/
def Strand.back (st : Strand) (h now : Nat) : Strand :=
  if st.live then { st with c := max st.c h, lastIssue := now, issuableAt := now + 1, waitSince := now } else st

/-- The teams of an image at their places. -/
def Saved.newTeams (im : Saved) (ps : List Place) : List (Nat × Team) :=
  ps.filterMap fun p => (amGet im.teams p.tn).map fun t =>
    (p.tn, { t with cu := p.cu, warps := p.slots.map (warpKey p.cu ·), bays := p.bays.take t.bays.length, spares := p.bays.drop t.bays.length,
                    started := true, bayMoving := false, episodes := [] })

/-- The warps of an image at their places. -/
def Saved.newWarps (im : Saved) (ps : List Place) (h now : Nat) : List (Nat × Warp) :=
  ps.flatMap fun p => match amGet im.teams p.tn with
    | none => []
    | some t => (List.range t.warps.length).filterMap fun j => (amGet im.warps (t.warps.getD j 0)).map fun w =>
        (warpKey p.cu (p.slots.getD j 0),
          { w with block := p.blocks.getD j 0, table := w.table.map fun st => st.back h now,
                   overflow := w.overflow.map fun q => { q with c := max q.c h, since := now } })

/-- A pending publish at its team's new place: its landing bays are the team's spare bays of the same rank. -/
def Saved.newCopy (im : Saved) (ps : List Place) (cp : Copy) : Copy :=
  match amGet im.teams cp.team, ps.find? fun p => decide (p.tn = cp.team) with
  | some t, some p =>
    let old := t.bays ++ t.spares
    let f (o : Nat) : Nat := match (List.range old.length).find? fun j => decide (old.getD j 0 = o) with | some j => p.bays.getD j 0 | none => o
    { cp with cu := p.cu, warp := newKey im ps cp.warp, landing := cp.landing.map fun l => (l.1, f l.2) }
  | _, _ => cp

/-- The runs by which the old places of an image's bytes become the new ones. -/
def movedRuns (old new : List Seg) : List (Nat × Nat × Nat) :=
  (old.zip new).filterMap fun g => match g.1.src, g.2.src with
    | .at0 a, .at0 b => some (a, b, g.1.len)
    | _, _ => none

/-- n words read back from the save area over saved ones: a word that holds its poison's marker keeps what was saved, poisoned (R349); any
other takes what it holds, which a debugger may have written (R322). -/
def State.readWords (s : State) (pages : List Nat) (at0 n : Nat) (m : Sparse 32) (pois : AMap Nat) : Sparse 32 × AMap Nat :=
  (List.range n).foldl (fun (r : Sparse 32 × AMap Nat) j =>
    let v := BitVec.ofNat 32 (s.num (pageAt pages (at0 + 4 * j)) 4)
    match amGet pois j with
    | some o => if v = marker o then r else (spSet r.1 j v, amErase r.2 j)
    | none => (spSet r.1 j v, r.2)) (m, pois)

/-- The k registers and predicates of a warp as its control segment holds them (R322).

DESIGN CHOICE (log entry 45, unsafe): the layout of the save area's headers, control segments and publish records. -/
def State.readControl (s : State) (pages : List Nat) (off : Nat) (w : Warp) : Warp :=
  let k := s.readWords pages off 256 w.k w.kPoison
  { w with
    k := k.1, kPoison := k.2
    fibres := (List.range w.fibres.length).map fun f =>
      let p := s.readWords pages (off + predsAt + 48 * f) 12 (w.fibre f).preds (w.fibre f).predPoison
      { w.fibre f with preds := p.1, predPoison := p.2 } }

/-- Reads a segment back from the save area: its bytes, row flags and timestamps; the poison of the words that still hold their marker (R349);
k registers and predicates. -/
def State.readSeg (s : State) (im : Saved) (pages : List Nat) (g : Seg) : State :=
  match g.src with
  | .at0 a =>
    let s1 := s.zero a g.len
    let chunks := pageRuns g.off g.len (g.len / 4096 + 2)
    let mem := chunks.foldl (fun (m : List Host.Cell) c =>
      (s.image (pageAt pages c.1) c.2).1.foldl (fun (m : List Host.Cell) e => spSet m (a + (c.1 - g.off) + e.1) e.2) m) s1.mem
    let inSeg (o : Nat) : Bool := decide (g.off ≤ o) && decide (o < g.off + g.len)
    let rf := (im.rowFlags.filter fun e => inSeg e.1).foldl (fun (m : Sparse 32) e => spSet m (a + (e.1 - g.off)) e.2)
      (s1.rowFlags.filter fun e => !(decide (a ≤ e.1) && decide (e.1 < a + g.len)))
    let still (e : Nat × Nat) : Bool := decide (ofBytes (spRead mem (a + (e.1 - g.off)) 4) = (marker e.2).toNat)
    let po := (im.poison.filter fun e => inSeg e.1 && still e).foldl (fun (m : AMap Nat) e => amSet m (a + (e.1 - g.off)) e.2) s1.poison
    let ls := (im.lines.filter fun e => inSeg (e.1 * 64)).foldl (fun (m : AMap Line) e => amSet m (lineOf a + (e.1 - g.off / 64)) e.2) s1.lines
    { s1 with mem := mem, rowFlags := rf, poison := po, lines := ls }
  | .control k => s.modWarp k (s.readControl pages g.off)
  | _ => s

/-- The logged accesses of a deterministic grid name the new places (R163). -/
def State.moveLog (s : State) (runs : List (Nat × Nat × Nat)) : State :=
  { s with detLog := s.detLog.map fun d =>
      match runs.find? fun r => decide (r.1 ≤ d.addr ∧ d.addr < r.1 + r.2.2) with
      | some r => { d with addr := r.2.1 + (d.addr - r.1) }
      | none => d }

/-- The pending publishes of an image are performed in saved order, each as one event (R165, R321). -/
def State.performPublish (s : State) (id : Nat) : State :=
  match amGet s.copies id with
  | none => s
  | some cp =>
    match cp.region with
    | some j =>
      (match (amGet s.ctxs cp.ctx).bind fun c => c.shadows[j]? with
       | some r => s.publishRegion id cp j r
       | none => s)
    | none => match amGet s.teams cp.team with | some t => s.publishBays id cp t | none => s

/-- A waiting WAITC reads its counter again (R258). -/
def State.rewait (s : State) (k e : Nat) : State :=
  match (amGet s.warps k).map fun w => w.strand e with
  | none => s
  | some st =>
    if st.state ≠ .countWait then s
    else
      match s.engineAt k st.waitAddr false with
      | .ok a => (s.modStrand k e fun st => { st with waitPhys := a }).rewatch k e
      | .bad cls code o =>
        s.takeTrap k e { cls := cls, code := code, lanes := maskOf ((lanesOf st.mask).take 1), parcel := st.parcel,
                         detail := if cls = 8 then detail8 0 5 o ((lowLane st.mask).getD 0) else (lowLane st.mask).getD 0,
                         addr := if cls = 8 then ptrOff st.waitAddr else st.waitAddr } st.pc

/-- A held reply takes effect (R345); one whose own strand has gone on is forgotten. -/
def State.heldReply (s : State) (id : Nat) : State :=
  match amGet s.replies id with
  | none => s
  | some r =>
    let s1 := s.applyReply r
    if r.stage = 3 then { s1 with replies := amErase s1.replies id } else s1

/-- The teams of an image take their places and everything saved is written back. -/
def State.writeBack (s : State) (c : Ctx) (im : Saved) (ps : List Place) (pages : List Nat) : State :=
  let teams := im.newTeams ps
  let warps := im.newWarps ps s.horSys s.clock
  let pubs := im.publishes.map fun q => (q.1, im.newCopy ps q.2)
  let segs := s.saveSegs teams warps pubs c.records
  let runs := movedRuns (s.saveSegs im.teams im.warps im.publishes c.records) segs
  let teams1 : AMap Team := teams.foldl (fun (m : AMap Team) t => amSet m t.1 t.2) s.teams
  let warps1 : AMap Warp := warps.foldl (fun (m : AMap Warp) w => amSet m w.1 w.2) s.warps
  let copies1 : AMap Copy := pubs.foldl (fun (m : AMap Copy) q => amSet m q.1 q.2) s.copies
  let s1 : State := { s with teams := teams1, warps := warps1, copies := copies1 }
  let s2 := pubs.foldl (fun s q => s.modCu q.2.cu fun c => { c with copies := c.copies ++ [q.1] }) s1
  (segs.foldl (fun s g => s.readSeg im pages g) s2).moveLog runs

/-- The grants of a restored team: its blocks, but for those that stay in the spill pool, and its bays. -/
def Saved.grantsOf (im : Saved) (p : Place) : List (Nat × Nat × Nat) :=
  let ks := match amGet im.teams p.tn with | some t => t.warps | none => []
  ((p.blocks.zip ks).filterMap fun b => (amGet im.warps b.2).bind fun w =>
    if w.spilled.isSome then none else some (b.1, w.blockBytes, p.tn)) ++ p.bays.map fun o => (o, 4096, p.tn)

/-- The grants of restored teams, for which the L1s make room (R26); warps that were spilled wait for their refill (R371). -/
def State.grantPlaces (s : State) (im : Saved) (ps : List Place) : State :=
  ps.foldl (fun s p =>
    let out := (((amGet im.teams p.tn).map Team.warps).getD []).filter fun k => ((amGet im.warps k).bind Warp.spilled).isSome
    let s1 := (s.modCu p.cu fun c => { c with
      grants := (c.grants.filter fun g => decide (g.2.2 ≠ p.tn)) ++ im.grantsOf p
      spillList := c.spillList ++ out }).fitL1 p.cu
    if out = [] then s1 else s1.after 0 prioResult (.reggrowRetry p.cu)) s

/-- The resources of new places: what was kept for the RESTORE is free, and every bay reads 0 (R87, R113). -/
def State.takePlaces (s : State) (ctx : Nat) (ps : List Place) : State :=
  ps.foldl (fun s p => p.bays.foldl (fun s o => s.zero (bankAddr p.cu o) 4096) s) (s.unkeep (restoreKey ctx))

/-- Drops the overlay banks of a context, which are not saved (R288). -/
def State.dropBanks (s : State) (ctx : Nat) : State :=
  (s.cus.filter fun c => c.2.banks.any fun b => decide (b.ctx = ctx)).foldl (fun s c =>
    (s.modCu c.1 fun c => { c with banks := c.banks.filter fun b => decide (b.ctx ≠ ctx) }).retryLoads c.1) s

/-- The watchdogs of the waiting strands of a warp count from now (R373). -/
def State.watchWarp (s : State) (k : Nat) : State :=
  match amGet s.warps k with
  | none => s
  | some w => (w.liveEntries.filter fun e => decide ((w.strand e).state ≠ .ready ∧ (w.strand e).state ≠ .frozen)).foldl (fun s e =>
      s.watchFrom (w.strand e).uid s.clock) s

/-- Steps 1 to 4 of a restore (R321) at chosen places. -/
def State.restoreAt (s : State) (ctx : Nat) (c : Ctx) (im : Saved) (ps : List Place) (pages : List Nat) : State :=
  let s0 := (if c.state = .halted then s else s.takePlaces ctx ps).dropBanks ctx
  let s1 := (s0.grantPlaces im ps).writeBack c im ps pages
  let c1 := { c with state := .running, saved := none, restoring := false, reservedSlots := [], ringFailed := false, ringFull := false,
                     takenQ := [], posting := none, heldReplies := [], stopCode := 0, mig := false, aborted := false }
  let s2 := { s1 with ctxs := amSet s1.ctxs ctx c1 }.dropTranslations 1 ctx 0
  let s3 := (im.publishes.map Prod.fst).foldl State.performPublish s2
  let s4 := c.heldReplies.foldl State.heldReply (s3.postHeld ctx (c.records.length + 1))
  let ks := s4.ctxWarpKeys ctx
  let s5 := ks.foldl (fun s k => (List.range 8).foldl (fun s e => s.rewait k e) (s.watchWarp k)) (s4.nameAperture c.func ctx)
  ((((ks.foldl State.wantOverlays s5).settle).tickDeal 1).startPost ctx).report ctx 0

/-- A restore whose checks have passed goes on when its teams can be placed. -/
def State.tryRestore (s : State) (ctx : Nat) (c : Ctx) (im : Saved) (ps : Option (List Place)) : State :=
  let bytes := segsEnd (s.saveSegs im.teams im.warps im.publishes c.records)
  match ps, s.savePages ctx c.save bytes false with
  | some ps, some pages => s.restoreAt ctx c im ps pages
  | _, _ => { s with ctxs := amSet s.ctxs ctx { c with restoring := true } }

/-! ### Images of another part (R319, R321) -/

/-- Every number of an image is below this one. -/
def Saved.bound (im : Saved) : Nat :=
  let most (l : List Nat) : Nat := l.foldl max 0
  most [most (im.grids.flatMap fun g => g.1 :: g.2.parent.toList), most (im.teams.flatMap fun t => [t.1, t.2.grid]),
    most (im.warps.flatMap fun w => w.2.team :: (w.2.table.flatMap fun st => st.uid :: st.kin ++ st.vc.map Prod.fst) ++
      (w.2.overflow.flatMap fun q => q.uid :: q.kin ++ q.vc.map Prod.fst) ++ w.2.kpend.map Prod.snd),
    most (im.publishes.flatMap fun q => [q.1, q.2.uid, q.2.team] ++ q.2.kin ++ q.2.vc.map Prod.fst)] + 1

/-- An image of another part as one of a context of this part: its numbers are n higher, so that none is taken yet. -/
def Saved.adopt (im : Saved) (ctx n : Nat) : Saved :=
  let vc (m : AMap Nat) : AMap Nat := m.map fun p => (p.1 + n, p.2)
  { im with
    foreign := true
    grids := im.grids.map fun g => (g.1 + n, { g.2 with ctx := ctx, parent := g.2.parent.map (· + n) })
    teams := im.teams.map fun t => (t.1 + n, { t.2 with grid := t.2.grid + n, copies := t.2.copies.map (· + n) })
    warps := im.warps.map fun w => (w.1, { w.2 with
      team := w.2.team + n
      table := w.2.table.map fun st => if st.live then { st with uid := st.uid + n, kin := st.kin.map (· + n), vc := vc st.vc } else st
      overflow := w.2.overflow.map fun q => { q with uid := q.uid + n, kin := q.kin.map (· + n), vc := vc q.vc }
      kpend := w.2.kpend.map fun q => (q.1, q.2 + n) })
    publishes := im.publishes.map fun q => (q.1 + n, { q.2 with
      ctx := ctx, uid := q.2.uid + n, team := q.2.team + n, kin := q.2.kin.map (· + n), vc := vc q.2.vc }) }

/-- The image that a save area holds: that of this part's context, or another part's; none when it cannot be read.

DESIGN CHOICE (log entry 46, unsafe): what another part's save area holds is a free value, Config.foreignImage. -/
def State.imageIn (s : State) (ctx : Nat) (c : Ctx) : Option Saved :=
  match c.saved with
  | some im => some im
  | none =>
    match s.savePages ctx c.save 4096 false with
    | some [p] => if (s.poisonIn p 4096).isEmpty then (Config.foreignImage (s.bytes p 4096)).map fun im => im.adopt ctx s.nextId else none
    | _ => none

/-- A context as its image brings it: its regions' selectors as they were saved (R312), and from another part's image its counter, seed and held
trap records, and POSTED as its ring holds it. -/
def State.adoptCtx (s : State) (ctx : Nat) (c0 : Ctx) (im : Saved) : Ctx :=
  let c : Ctx := { c0 with shadows := (c0.shadows.zipIdx).map fun r => { r.1 with second := im.selectors.getD r.2 false } }
  if im.foreign then
    let posted := s.ringPosted ctx c.trapq
    { c with state := .preempted, saved := some im, nextNumber := im.nextNumber, seed := im.seed, records := im.records, posted := posted,
             nextSeq := posted + im.records.length }
  else c

/-- The grids and numbers of another part's image are this part's. -/
def State.adoptGrids (s : State) (im : Saved) : State :=
  if im.foreign then
    { s with grids := im.grids.foldl (fun (m : AMap Grid) g => amSet m g.1 g.2) s.grids, nextId := s.nextId + im.bound }
  else s

/-- RESTORE and CONTINUE behind the check of the context's state (R377). -/
def State.restoreCommand (s : State) (ctx addr : Nat) (c : Ctx) (same : Bool) : State :=
  match if same then s.heldRecord c else s.loadRecord ctx addr c with
  | .error k => s.report ctx k
  | .ok c1 =>
    let s1 : State := { s with ctxs := amSet s.ctxs ctx c1 }
    match s1.imageIn ctx c1 with
    | none => s.report ctx 22
    | some im =>
      let c2 := s1.adoptCtx ctx c1 im
      let s2 := ({ s with ctxs := amSet s.ctxs ctx c2 } : State).adoptGrids im
      let bytes := segsEnd (s2.saveSegs im.teams im.warps im.publishes c2.records)
      match s2.savePages ctx c2.save bytes false with
      | none => s.report ctx 22
      | some pages =>
        if (saveRuns pages bytes).any fun r => !(s.poisonIn r.1 r.2).isEmpty then s.report ctx 22
        else if im.foreign && !im.mig then s.report ctx 19
        else if !s.everFits im then s.report ctx 20
        else
          let c3 := match s2.ringHeader ctx c2.trapq with
            | some h => if ringOk h && !same then { c2 with log2n := ringSize h, taken := ringTaken h } else c2
            | none => c2
          s2.tryRestore ctx c3 im (if same then some im.samePlaces else s2.placeAll ctx im im.teams.length im.teams [])

/-- Context command that places teams, restores state, performs pending publishes and starts issue. (R321) A context that is not live here
comes from another part. -/
def execRestore (ctx addr : Nat) (s : State) : Out :=
  .next <|
    match amGet s.ctxs ctx with
    | some c => if c.state = .preempted ∧ c.saved.isSome ∧ !c.restoring ∧ s.firmwareOk then s.restoreCommand ctx addr c false else s.report ctx 21
    | none => if ctx < 64 ∧ s.firmwareOk then s.restoreCommand ctx addr {} false else s.report ctx 21

/-- Context command that restores a halted context onto its reserved CUs. (R321) -/
def execContinueCtx (ctx : Nat) (s : State) : Out :=
  .next <|
    match amGet s.ctxs ctx with
    | some c => if c.state = .halted ∧ c.saved.isSome ∧ s.firmwareOk then s.restoreCommand ctx c.recAt c true else s.report ctx 21
    | none => s.report ctx 21

/-- Restores that wait for room are tried again (R377). -/
def State.restoreTick (s : State) : State :=
  s.ctxs.foldl (fun s c =>
    match amGet s.ctxs c.1 with
    | some x =>
      match x.saved with
      | some im => if x.restoring then s.tryRestore c.1 x im (s.placeAll c.1 im im.teams.length im.teams []) else s
      | none => s
    | none => s) s

end Sys2Proof.Machine
end

