-- ==== Sys2Proof/Machine/Management.lean ====
section
/-! DEFINITION. The management processor (R24, R115, R117, R122, R314, R315, R324-R326, R363, R373, R379): attestation, limits and caps,
firmware, package reset, the joining of dies, and period boundaries. -/

namespace Sys2Proof.Machine

/-! ### The mailbox (R122, R324, R325, R373) -/

/-- Kinds of mailbox replies: 0 a command is refused, 1 an attestation report, 2 a setting is taken, 3 firmware is accepted, 4 firmware
failed verification.

DESIGN CHOICE (log entry 62, safe): format of mailbox replies. -/
def State.mail (s : State) (kind : Nat) (data : List Byte) : State := s.say (.mailbox kind data)

/-- FLIGHTS of the attestation report: two bits a site. -/
def State.flights (s : State) : Nat :=
  (List.range 8).foldl (fun n i => n + (if (amGetD s.dies i {}).status = 2 then Config.flight i else 0) * 4 ^ i) 0

/-- Bits 767 to 0 of the attestation report (R325). -/
def State.reportHead (s : State) (nonce : List Byte) : Nat :=
  Config.stepping % 256 * 2 ^ 8 + s.flights * 2 ^ 16 + s.contract.toNat * 2 ^ 32 + Config.damamVersion % 2 ^ 32 * 2 ^ 64 +
    s.firmwareVer % 2 ^ 32 * 2 ^ 96 + (Config.sm3 Config.identityKey).toNat * 2 ^ 256 + ofBytes (nonce.take 32) * 2 ^ 512

/-- The attestation report: 96 bytes and their signature. -/
def State.attestation (s : State) (nonce : List Byte) : List Byte :=
  let head := toBytes 96 (s.reportHead nonce)
  head ++ toBytes 64 (Config.sm2Sign (Config.sm3 head)).toNat

/-- A BAR0 request with a nonce returns a signed attestation report. (R325) -/
def execAttestationRequest (nonce : List (BitVec 8)) (s : State) : Out :=
  .next (if s.firmwareOk ∧ nonce.length = 32 then s.mail 1 (s.attestation nonce) else s.mail 0 [])

/-- The host sets the watchdog limit, which takes effect at the next period boundary. (R373) -/
def execWatchdogLimitSet (limit : Nat) (s : State) : Out :=
  .next (if s.firmwareOk ∧ 2 ^ 24 ≤ limit ∧ limit ≤ 2 ^ 40 then { s with watchNext := some limit }.mail 2 [] else s.mail 0 [])

/-- The clock under a power cap in MHz (R24, R122): 2.7 GHz under the full cap, else lowered in steps of 100 MHz to no less than 1.2 GHz. -/
def capClock (watts : Nat) : Nat := if watts = 3400 then 2700 else max 1200 (2700 - 100 * Config.capSteps watts)

/-- The management processor sets the power cap at the host's request. (R122) -/
def execPowerCapSet (watts : Nat) (s : State) : Out :=
  .next (if s.firmwareOk ∧ 1200 ≤ watts ∧ watts ≤ 3400 ∧ watts % 50 = 0 then
    { s with powerCap := watts, capMhz := capClock watts }.mail 2 [] else s.mail 0 [])

/-- The boot ROM accepts and verifies a replacement firmware image through the mailbox. (R324) -/
def execFirmwareReplacement (version : Nat) (image : List (BitVec 8)) (s : State) : Out :=
  .next (if Config.firmwareVerifies image then { s with firmwareNext := some (version, image) }.mail 3 [] else s.mail 4 [])

/-- A die at 105 °C makes the clock drop one step per period until every die is below 100 °C. (R326) -/
def execThermalThrottle (site temp : Nat) (s : State) : Out :=
  .next
    (let d := amGetD s.dies site {}
     let hot := s.throttled || decide (105 ≤ temp)
     { s with dies := amSet s.dies site { d with temp := temp }, throttled := hot })

/-! ### Joining (R314, R315, R379) -/

/-- The value of a contract item: the lowest of the highest values offered. -/
def lowestHigh (l : List (Nat × Nat)) : Nat := (l.map Prod.snd).foldl min 255

/-- The contract of a boot: Finrin revision, arithmetic level, coherence version, trap-record version (R315, R325). -/
def contractOf (l : List JoinOffer) : Word :=
  BitVec.ofNat 32 (lowestHigh (l.map JoinOffer.finrin) * 2 ^ 24 + lowestHigh (l.map JoinOffer.arith) * 2 ^ 16 +
    lowestHigh (l.map JoinOffer.coherence) * 2 ^ 8 + lowestHigh (l.map JoinOffer.trapVer))

def inRange (r : Nat × Nat) (v : Nat) : Bool := decide (r.1 ≤ v ∧ v ≤ r.2)

/-- Why a join fails at a step: the REASON of R379, or 0. -/
def joinReason (contract : Word) (step : Nat) (o : JoinOffer) : Nat :=
  let c := contract.toNat
  if step = 1 then (if o.trained then 0 else 1)
  else if step = 2 then (if !o.damamOk then 6 else if !o.identityOk then 7 else if !o.selfTestOk then 8 else 0)
  else if step = 3 then
    (if !inRange o.finrin (c / 2 ^ 24) then 2 else if !inRange o.arith (c / 2 ^ 16 % 256) then 3
     else if !inRange o.coherence (c / 2 ^ 8 % 256) then 4 else if !inRange o.trapVer (c % 256) then 5 else 0)
  else 0

/-- The clocks of a step of a join (R314, after the join of program 22).

DEDUCED (log entry 51, unsafe): clocks of the steps of a join. -/
def joinClocks (step : Nat) : Nat :=
  if step = 1 then 16200 else if step = 2 then 300 else if step = 3 then 1 else if step = 4 then 300 else if step = 5 then 800 else 0

/-- The translations in the hub's cache of the overlays that are resident for live contexts (R314 step 5). -/
def State.residentTranslations (s : State) : List (Nat × Nat × Nat × Nat) :=
  let keys := s.cus.flatMap fun c => c.2.banks.filterMap fun b =>
    if (amGet s.ctxs b.ctx).isNone then none
    else match s.directory 8 b.ctx b.dir b.ovl (s.supOf b.ctx) with
      | .ok len addr => (match s.transNow 8 b.ctx addr false (s.supOf b.ctx) true with | .ok pa => some (pa, len) | .bad _ _ _ => none)
      | _ => none
  s.damam.filter fun t => keys.contains (t.1, t.2.1)

/-- What a completed step of a join does: step 4 sets the timestamps of the die's lines to the package horizon; step 5 loads translations on
Flight 2; step 6 puts the die into the pool. -/
def State.joinStep (s : State) (site step : Nat) : State :=
  let d := amGetD s.dies site {}
  if step = 4 then
    let lines := s.lines.map fun (l : Nat × Line) => if homeOf (l.1 * 64) = site then (l.1, { l.2 with wts := s.horSys, rts := s.horSys }) else l
    { s with dies := amSet s.dies site { d with floor := s.horSys }, lines := lines }
  else if step = 5 ∧ Config.flight site = 2 then
    { s with dies := amSet s.dies site { d with translations := s.residentTranslations } }
  else if step = 6 then
    { s with dies := amSet s.dies site { d with status := 2, reason := 0, step := 0, stage := 0, pooled := true } }.tickDeal 1
  else s

/-- A step of a join fails: the die stays parked, and the join is retried up to three times (R379). -/
def State.joinFails (s : State) (site step reason : Nat) (o : JoinOffer) : State :=
  let d := amGetD s.dies site {}
  let s1 := { s with dies := amSet s.dies site { d with status := 0, reason := reason, step := step, stage := 0 } }
  if d.tries < 4 then s1.after 1 prioLate (.dieJoin site o) else s1

/-- A parked die begins to join, unless its last try has failed: it then stays parked until the package is reset (R379). -/
def State.beginJoin (s : State) (site : Nat) (offer : JoinOffer) : State :=
  let d := amGetD s.dies site {}
  if 4 ≤ d.tries then s
  else
    { s with dies := amSet s.dies site { d with status := 1, reason := 0, step := 0, stage := 1, tries := d.tries + 1 } }.after
      (joinClocks 1) prioResult (.dieJoin site offer)

/-- Whether a die that has joined, or is contained, may join again as one that was parked (R314): it holds no team, and every page homed on it
that holds anything has been re-homed. -/
def State.mayRejoin (s : State) (site : Nat) : Bool :=
  (s.teams.all fun t => decide (cuSite t.2.cu ≠ site)) &&
    s.mem.all fun e => onChip e.1 || decide (homeOf e.1 ≠ site) || s.rehomed.contains (e.1 / 4096)

/-- A die as it is parked: nothing of its CUs and caches is left, and no page is homed on it.

DEDUCED (log entry 51, unsafe): what a die loses when it is parked. -/
def State.resetDie (s : State) (site : Nat) : State :=
  let d := amGetD s.dies site {}
  let mine (o : Option Nat) : Bool := o.any fun c => decide (cuSite c = site)
  { s with
    cus := s.cus.filter fun c => decide (cuSite c.1 ≠ site)
    lines := s.lines.map fun (l : Nat × Line) =>
      if homeOf (l.1 * 64) = site then (l.1, { l.2 with inL2 := false, owner := none, view := none })
      else if mine l.2.owner then (l.1, { l.2 with owner := none }) else l
    behind := s.behind.filter fun b => decide (homeOf (b.1 * 64) ≠ site)
    rehomed := s.rehomed.filter fun p => decide (homeOf (p * 4096) ≠ site)
    l1 := s.l1.filter fun c => decide (cuSite c.1 ≠ site)
    tlbSlot := s.tlbSlot.filter fun c => decide (cuSite (c.1 / 4) ≠ site)
    tlbDie := amErase s.tlbDie site
    dies := amSet s.dies site { temp := d.temp } }

/-- What has waited for a home to take part in mo is served (R314). -/
def State.freeHome (s : State) (site : Nat) : State :=
  (s.lines.filter fun l => decide (homeOf (l.1 * 64) = site) && decide (l.2.queue ≠ [])).foldl (fun s l => s.freeLine l.1) s

/-- A compute die trains, offers ranges, is checked, synchronises clocks and enters the pool. (R314) -/
def execDieJoin (site : Nat) (offer : JoinOffer) (s : State) : Out :=
  .next <|
    let d := amGetD s.dies site {}
    if !s.firmwareOk ∨ 8 ≤ site then s
    else if d.status = 2 ∨ d.status = 3 then if s.mayRejoin site then (s.resetDie site).beginJoin site offer else s
    else if d.status = 0 then s.beginJoin site offer
    else
      let why := joinReason s.contract d.stage offer
      if why ≠ 0 then s.joinFails site d.stage why offer
      else
        let s1 := s.joinStep site d.stage
        if d.stage = 6 then s1
        else
          let d1 := amGetD s1.dies site {}
          let s2 := { s1 with dies := amSet s1.dies site { d1 with stage := d.stage + 1 } }.after (joinClocks (d.stage + 1)) prioResult
            (.dieJoin site offer)
          if d.stage = 4 then s2.freeHome site else s2

/-! ### Package reset (R280, R314, R315, R324, R348) -/

/-- The firmware image that the boot ROM finds at a reset: the replacement it has accepted, else the one that is there, as shipped at first
(R324). -/
def State.bootImage (s : State) : List Byte :=
  match s.firmwareNext with | some f => f.2 | none => s.firmwareImage.getD Config.shippedFirmware

/-- Reset: the boot ROM verifies firmware and the dies join under the contract. (R324) -/
def execPackageReset (s : State) : Out :=
  .next <|
    let v := match s.firmwareNext with | some f => f.1 | none => s.firmwareVer
    let ok := Config.firmwareVerifies s.bootImage
    let offers : List JoinOffer := List.replicate 8 {}
    let s1 : State := { firmwareOk := ok, firmwareImage := match s.firmwareNext with | some f => some f.2 | none => s.firmwareImage,
                        firmwareVer := v, contract := if ok then contractOf offers else 0, delays := s.delays, upsets := s.upsets }
    if ok then
      ((List.range 8).foldl (fun (s : State) i => s.after 0 prioResult (.dieJoin i {})) s1).after 13107 prioLate .patrolScrub
    else s1.mail 4 []

/-! ### Period boundaries (R115, R117, R122, R326, R363, R373) -/

/-- What is charged to a period as it begins of the flits or copy units that its budget let wait: as many as the share of a period allows
(R117). -/
def carried (held : AMap Nat) (limit : Nat → Nat) : AMap Nat := held.map fun h => (h.1, min h.2 (linkShare (limit (h.1 / 8))))

/-- What still waits behind those. -/
def stillHeld (held : AMap Nat) (limit : Nat → Nat) : AMap Nat :=
  held.filterMap fun h => if h.2 ≤ linkShare (limit (h.1 / 8)) then none else some (h.1, h.2 - linkShare (limit (h.1 / 8)))

/-- A limit of the budget of a context. -/
def State.limitOf (s : State) (f : Ctx → Nat) (ctx : Nat) : Nat := ((amGet s.ctxs ctx).map f).getD 0

/-- Counts a corrected error. -/
def State.correct (s : State) (unit site cu : Nat) : State :=
  { s with corrected := amSet s.corrected (unitKey unit site cu) (amGetD s.corrected (unitKey unit site cu) 0 + 1) }

/-- The corrected errors of each unit are logged once a period (R363); replays of links have a kind of their own.

DEDUCED (log entry 87, unsafe): a unit of error records is one structure of one site and CU, or one link. -/
def State.logCorrected (s : State) : State :=
  s.corrected.foldl (fun s c => s.logErr
    { unit := c.1 / 2 ^ 16, site := c.1 / 2 ^ 8 % 256, cu := c.1 % 256, kind := if c.1 / 2 ^ 16 = 6 then 5 else 1 }) s

/-! ### Heartbeats and unanswered requests (R359) -/

/-- The dies' heartbeats: one that a die leaves unanswered for 2^20 clocks makes it dead. -/
def State.heartbeat (s : State) : State :=
  s.dies.foldl (fun s d =>
    if !d.2.mute ∨ d.2.status ≠ 2 then { s with dies := amSet s.dies d.1 { d.2 with silentFrom := none } }
    else
      match d.2.silentFrom with
      | none => { s with dies := amSet s.dies d.1 { d.2 with silentFrom := some s.clock } }
      | some t => if t + 2 ^ 20 ≤ s.clock then s.after 0 prioLate (.agentDead d.1 none) else s) s

/-- Whether a request to or of a CU stands unanswered. -/
def State.standing (s : State) (cu : Nat) (c : Cu) : Bool :=
  c.mute && ((s.reqs.any fun r => decide (r.2.cu = cu) || (onChip r.2.addr && decide (chipCu r.2.addr = cu))) ||
    (s.teams.any fun t => decide (t.2.cu = cu)) || s.lines.any fun l => l.2.recovering)

/-- Counts how long an agent of a CU, its copy engine or the CU itself, leaves a request unanswered: after 2^20 clocks it is dead. -/
def State.countSilence (s : State) (cu : Nat) (engine standing : Bool) : State :=
  let count (t : Option Nat) : State := s.modCu cu fun x => if engine then { x with engineFrom := t } else { x with silentFrom := t }
  match standing, if engine then (s.cu cu).engineFrom else (s.cu cu).silentFrom with
  | false, none => s
  | false, some _ => count none
  | true, none => count (some s.clock)
  | true, some t => if t + 2 ^ 20 ≤ s.clock then s.after 0 prioLate (.agentDead (cuSite cu) (some (if engine then .engine (cuNum cu) else .cu (cuNum cu)))) else s

/-- A CU or copy engine that leaves a request unanswered for 2^20 clocks is dead.

DEDUCED (log entry 88, unsafe): whose requests stay unanswered. -/
def State.checkAnswers (s : State) : State :=
  s.cus.foldl (fun s c =>
    if c.2.dead then s
    else (s.countSilence c.1 false (s.standing c.1 c.2)).countSilence c.1 true (c.2.engineMute && decide (c.2.copies ≠ []))) s

/-- A new watchdog limit takes effect on every count (R373). -/
def State.applyWatchdog (s : State) : State :=
  match s.watchNext with
  | none => s
  | some limit =>
    let s1 : State := { s with watchLimit := limit, watchNext := none }
    s1.warps.foldl (fun s w =>
      w.2.liveEntries.foldl (fun s e =>
        let st := w.2.strand e
        if st.state = .barrier ∨ st.state = .countWait ∨ st.state = .statusWait ∨ st.state = .atJoin then
          s.after (st.waitSince + limit - s.clock) prioLate (.watchdogExpiry st.uid)
        else s) s) s1

/-- Whether a die is still too hot (R326). -/
def State.tooHot (s : State) : Bool :=
  (s.dies.any fun d => decide (105 ≤ d.2.temp)) || (s.throttled && s.dies.any fun d => decide (100 ≤ d.2.temp))

/-- The package clock of the next period (R24, R122, R326): one step lower while the dies are too hot; once every die is below 100 °C the lowering
ends and the clock the power cap gives holds again.

DESIGN CHOICE (log entry 52, unsafe): how fast the clock rises again is open. -/
def State.nextClock (s : State) : State :=
  if s.tooHot then { s with mhz := max 1200 (min s.mhz s.capMhz - 100), throttled := true }
  else { s with mhz := s.capMhz, throttled := false }

/-- At each 4,096-clock boundary budgets reset and deferred work resumes. (R115) -/
def execBudgetPeriod (s : State) : Out :=
  .next <|
    let s1 := (((s.nextClock.applyWatchdog).logCorrected).heartbeat).checkAnswers
    let link := s1.limitOf Ctx.linkLimit
    let copy := s1.limitOf Ctx.copyLimit
    let s2 : State := { s1 with
      atomUsed := [], mxsUsed := [], deferred := []
      linkUsed := carried s1.linkHeld link, linkHeld := stillHeld s1.linkHeld link
      copyUsed := carried s1.copyHeld copy, copyHeld := stillHeld s1.copyHeld copy }
    s1.deferred.foldl (fun (s : State) d => s.after 0 prioWrite d.2) s2

end Sys2Proof.Machine
end

