-- ==== Sys2Proof/Machine/Failures.lean ====
section
/-! DEFINITION. When links, directory entries and agents fail (R348, R356-R360): replay, retraining, loss and restoring of links, dead agents
and containment, pages that are re-homed, the patrol scrubber, and directory recovery. -/

namespace Sys2Proof.Machine

/-! ### Dead agents and containment (R359, R360) -/

/-- The CUs that die with an agent: one CU, or all of a die. -/
def deadCus (site : Nat) (cu : Option Nat) : List Nat :=
  match cu with
  | some c => [cuKey site c]
  | none => (List.range (Config.cus site)).map fun c => cuKey site c

/-- Whether a line is at a home other than the dead agent. -/
def otherHome (site : Nat) (cu : Option Nat) (l : Nat) : Bool := cu.isSome || decide (homeOf (l * 64) ≠ site)

/-- Step 1 of R360: the agent is marked, its CUs leave placement. -/
def State.markDead (s : State) (site : Nat) (cu : Option Nat) : State :=
  let s1 := (deadCus site cu).foldl (fun s c =>
    s.modCu c fun x => { x with dead := true, mute := false, engineMute := false, silentFrom := none, engineFrom := none }) s
  if cu.isSome then s1
  else
    let d := amGetD s1.dies site {}
    { s1 with dies := amSet s1.dies site { d with status := 3, stage := 0, pooled := false, mute := false, silentFrom := none } }

/-- The words of a line that a dead agent owned are poisoned at their home, each in a record of its own (R360, R363). -/
def State.poisonLine (s : State) (l o : Nat) : State :=
  (List.range 8).foldl (fun s i => s.logErr { paddr := l * 64 + 8 * i, unit := originUnit 7, site := homeOf (l * 64), kind := 2 })
    ((s.giveUp o l).poisonRange (l * 64) 64 7)

/-- Step 3 of R360: the words of other homes that the agent held are poisoned. -/
def State.poisonOwned (s : State) (site : Nat) (cu : Option Nat) : State :=
  let cs := deadCus site cu
  let held := s.lines.filterMap fun l => match l.2.owner with
    | some o => if otherHome site cu l.1 && cs.contains o then some (l.1, o) else none
    | none => none
  let s1 := held.foldl (fun s l => s.poisonLine l.1 l.2) s
  { s1 with l1 := s1.l1.filter fun c => !cs.contains c.1 }

/-- Step 4 of R360: the contexts with a team on the agent lose those teams and are contained. -/
def State.loseAgent (s : State) (site : Nat) (cu : Option Nat) : State :=
  let cs := deadCus site cu
  let lost := s.teams.filter fun t => cs.contains t.2.cu
  let hit := (s.ctxs.map Prod.fst).filter fun c => lost.any fun t => (s.ctxTeams c).any fun u => decide (u.1 = t.1)
  hit.foldl (fun s c => s.containCtx c) ((s.loseTeams lost).freeTeams lost)

/-- A dead agent is contained.

DEDUCED (log entry 55, unsafe): after the containment of a die. -/
def State.containAgent (s : State) (site : Nat) (cu : Option Nat) : State :=
  (((s.markDead site cu).poisonOwned site cu).loseAgent site cu).logErr
    { unit := if cu.isSome then 5 else 6, site := site, cu := cu.getD 0, kind := 8 }

/-- A dead copy engine is contained: its CU leaves placement, and its copies end with CODE 6.

DEDUCED (log entry 55, unsafe): after the containment of a die. -/
def State.containEngine (s : State) (site c : Nat) : State :=
  let s1 := s.modCu (cuKey site c) fun x => { x with engineDead := true, engineMute := false, engineFrom := none }
  (s1.loseEngine (cuKey site c)).logErr { unit := 5, site := site, cu := c, kind := 8 }

/-- A dead die, CU or engine is contained and affected contexts are halted. (R360) -/
def execAgentDead (site : Nat) (part : Option DieAgent) (s : State) : Out :=
  .next <|
    let alive (c : Nat) : Bool := decide (c < Config.cus site) && !(s.cu (cuKey site c)).dead
    if 8 ≤ site then s
    else
      match part with
      | some (.engine c) => if alive c && !(s.cu (cuKey site c)).engineDead then (s.containEngine site c).settle else s
      | some (.cu c) => if alive c then (s.containAgent site (some c)).settle else s
      | none => if (amGetD s.dies site {}).status ≠ 3 then (s.containAgent site none).settle else s

/-- The management processor re-homes or unmaps the pages of a contained die, ending their contained state (R360), or of a joined die that is to
be parked. (R314) -/
def execPageRehome (line site : Nat) (s : State) : Out :=
  .next <|
    let page := line / 64
    if homeOf (line * 64) = site ∧ (s.contained (line * 64) ∨ (amGetD s.dies site {}).status = 2) ∧ !onChip (line * 64) then
      { s with rehomed := s.rehomed ++ [page] }
    else s

/-! ### Links (R357, R358) -/

/-- The place an error record gives a link: spokes and ring links with their site, peer ports with the hub. -/
def linkErr (link kind : Nat) : ErrRec := { unit := 6, site := if link < 16 then link % 8 else 8, cu := link, kind := kind }

/-- The flit of a direction that a CRC error hits: the first of those on their way, a link and a replay request away at most, else the last one
sent.

DESIGN CHOICE (log entry 54, unsafe): which flit a CRC error hits. -/
def Lane.failing (x : Lane) (now : Nat) : BitVec 12 :=
  match x.kept.find? fun f => decide (now ≤ f.2 + 120) with
  | some f => f.1
  | none => x.next - 1

/-- A flit fails: the sender resends it and every later one, in order. -/
def Lane.replay (x : Lane) (now : Nat) : Lane :=
  let q := x.failing now
  { x with
    fails := if x.fails ≠ 0 ∧ x.failSeq = q then x.fails + 1 else 1
    failSeq := q
    kept := (x.kept.takeWhile fun f => decide (f.1 ≠ q)) ++ (x.kept.dropWhile fun f => decide (f.1 ≠ q)).map fun f => (f.1, now) }

/-- A direction of a link. -/
def Link.lane (x : Link) (out : Bool) : Lane := if out then x.out else x.back

/-- Puts a direction into a link. -/
def Link.withLane (x : Link) (out : Bool) (y : Lane) : Link := if out then { x with out := y } else { x with back := y }

/-- A link without failures in a row. -/
def Link.clean (x : Link) : Link := { x with out := { x.out with fails := 0 }, back := { x.back with fails := 0 } }

/-- A CRC error makes the receiver request replay from the failed sequence number, in one direction of the link. (R357) -/
def execFlitReplay (way : LinkWay) (s : State) : Out :=
  .next <|
    let link := way.link
    let x := amGetD s.links link {}
    if x.state ≠ 0 then s
    else
      let y := (x.lane way.out).replay s.clock
      let x1 := x.withLane way.out { y with fails := if y.fails = 8 then 0 else y.fails }
      let s1 := { s with links := amSet s.links link x1 }.correct 6 (linkErr link 5).site link
      if y.fails = 8 then s1.after 0 prioLate (.linkRetrain link) else s1

/-- A flit failing eight times makes the link retrain. (R357) -/
def execLinkRetrain (link : Nat) (s : State) : Out :=
  .next <|
    let x := amGetD s.links link {}
    if x.state = 2 then s
    else if x.state = 1 then
      if s.clock < x.trained then s else { s with links := amSet s.links link { x.clean with state := 0 } }
    else
      let recent := (x.retrains.filter fun t => decide (s.clock < t + 2 ^ 31)) ++ [s.clock]
      let d := min 20000 (Config.retrainClocks link)
      let s1 : State := { s with
        links := amSet s.links link { x.clean with state := 1, retrains := recent, trained := s.clock + d } }
      let s2 := s1.logErr (linkErr link 6)
      if 3 ≤ recent.length then s2.after 0 prioLate (.linkLost link) else s2.after d prioLate (.linkRetrain link)

/-- Whether a die has no link left (R358). -/
def State.cutOff (s : State) (site : Nat) : Bool :=
  !s.linkUp (8 + site) && !s.linkUp site && !s.linkUp ((site + 7) % 8)

/-- The two ends of a Ubaro link: a ring link's sites, or a site and the hub. -/
def linkEnds (link : Nat) : Nat × Nat := if link < 8 then (link, (link + 1) % 8) else (link - 8, 8)

/-- Flits sent again over the links of the way from one end of a lost link to the other. -/
def State.resendWay (s : State) (link a b n : Nat) : State :=
  ((s.way a b).filter fun l => decide (l.1 ≠ link)).foldl (fun s l =>
    { s with links := amSet s.links l.1 ((List.range n).foldl (fun x _ => x.sent l.2 s.clock) (amGetD s.links l.1 {})) }) s

/-- The flits in a lost link's replay buffers are sent again on the new routes, each direction's on its own (R358). -/
def State.resend (s : State) (link : Nat) : State :=
  let x := amGetD s.links link {}
  let a := (linkEnds link).1
  let b := (linkEnds link).2
  let s1 := { s with links := amSet s.links link { x with out := { x.out with kept := [] }, back := { x.back with kept := [] } } }
  (s1.resendWay link a b x.out.kept.length).resendWay link b a x.back.kept.length

/-- A lost link is routed around and its replay buffer resent on the new route. (R358) -/
def execLinkLost (link : Nat) (s : State) : Out :=
  .next <|
    let x := amGetD s.links link {}
    if x.state = 2 then s
    else
      let s1 := { s with links := amSet s.links link { x.clean with state := 2 } }.logErr (linkErr link 7)
      if 16 ≤ link then
        (s1.descs.filter fun d => decide (d.2.port = some (link - 16))).foldl (fun s d => s.endDesc d.1 false) s1
      else
        let gone := (List.range 8).filter fun a => s1.cutOff a && decide ((amGetD s1.dies a {}).status ≠ 3)
        (gone.foldl (fun s a => s.containAgent a none) (s1.resend link)).settle

/-- The management processor restores a lost Ubaro link or peer port, and routing returns to the fixed routes of R20. (R358) -/
def execLinkRestore (link : Nat) (s : State) : Out :=
  .next (if (amGetD s.links link {}).state = 2 then { s with links := amSet s.links link {} } else s)

/-! ### The patrol scrubber (R348) -/

/-- The DRAM line after one, over the dies in turn. -/
def nextScrub (l : Nat) : Nat :=
  let a := (l + 1) * 64
  if inDram a then l + 1
  else if a / 2 ^ 36 < 7 then (a / 2 ^ 36 + 1) * 2 ^ 30
  else 0

/-- The scrubber reads and corrects a DRAM line without making an event. (R348)

DESIGN CHOICE (log entry 53, safe): rate of the patrol scrubber. -/
def execPatrolScrub (s : State) : Out :=
  .next ({ s with scrubAt := nextScrub s.scrubAt }.after 13107 prioLate .patrolScrub)

/-! ### Directory recovery (R356) -/

/-- The clocks until every die has answered a probe from a home: the farthest there and back. -/
def State.probeClocks (s : State) (site : Nat) : Nat :=
  (List.range 8).foldl (fun n d => max n (fullL2 (s.hops site d))) 0

/-- Whether a CU answers no probe. -/
def State.silent (s : State) : Bool := s.cus.any fun c => c.2.mute && !c.2.dead

/-- The entry of a line is rebuilt with no copies, its timestamps at the largest its slice has given, and its queue is served. -/
def State.rebuildEntry (s : State) (l : Nat) : State :=
  let x := s.line l
  let floor := (amGetD s.dies (homeOf (l * 64)) {}).floor
  let given := amGetD s.tmax (homeOf (l * 64) * 64 + sliceOf (l * 64)) 0
  let t := max (max given floor) (if x.owner.isSome then x.wts else 0)
  let s0 := match x.owner with | some o => s.giveUp o l | none => s
  let s1 := s0.setLine l { s0.line l with wts := t, rts := t, recovering := false }
  let s2 : State := { s1 with l1 := s1.l1.map fun (c : Nat × AMap L1Line) => (c.1, amErase c.2 l) }
  s2.freeLine l

/-- Whether the answers to the probes of a line are still to come. -/
def State.probing (s : State) (l : Nat) : Bool :=
  s.agenda.any fun a => decide (a.ev = .directoryRecovery l ∨ a.ev = .probeTimeout l)

/-- An uncorrectable directory entry is rebuilt by probing every CU's L1. (R356) -/
def execDirectoryRecovery (line : Nat) (s : State) : Out :=
  .next <|
    let x := s.line line
    let home := homeOf (line * 64)
    if onChip (line * 64) ∨ s.probing line then s
    else if x.recovering then
      (s.rebuildEntry line).logErr { paddr := line * 64, unit := 2, site := home, kind := 3 }
    else
      let s1 := s.setLine line { x with recovering := true }
      if s.silent then s1.after 65536 prioLate (.probeTimeout line)
      else s1.after (s.probeClocks home) prioLate (.directoryRecovery line)

/-- A CU not answering a probe within 65,536 clocks makes the line poisoned. (R356) -/
def execProbeTimeout (line : Nat) (s : State) : Out :=
  .next <|
    if (s.line line).recovering ∧ !s.probing line then
      ((s.poisonRange (line * 64) 64 3).rebuildEntry line).logErr { paddr := line * 64, unit := 2, site := homeOf (line * 64), kind := 4 }
    else s

/-! ### Errors that structures find in themselves (R347), an input of the part -/

/-- A word is found in error where it lies: its origin (R349). -/
def State.wordOrigin (s : State) (a : Nat) : Nat :=
  if onChip a then (if 2 ^ 21 ≤ chipOff a then 5 else 4) else if (s.line (lineOf a)).inL2 then 1 else 0

/-- An uncorrectable error in a word: a clean line of L2 is dropped, to be filled again from DRAM; any other word is poisoned. -/
def State.upsetWord (s : State) (a : Nat) : State :=
  let l := lineOf a
  let dirty := (amGet s.behind l).isSome || (s.line l).view.any fun v => v.2
  if !onChip a && (s.line l).inL2 && !dirty then s.evictLine l
  else
    let o := s.wordOrigin a
    let s1 := if onChip a then s.poisonRange a 1 o else s.poisonRange (a / 8 * 8) 8 o
    s1.logErr
      { paddr := a, unit := originUnit o, site := homeOf a, cu := if onChip a then cuNum (chipCu a) else 0, kind := 2 }

/-- An uncorrectable error in an L1 line of a CU: a clean line is dropped; the home word of an owned one is poisoned. -/
def State.upsetL1 (s : State) (cu a : Nat) : State :=
  match s.l1Copy cu (lineOf a) with
  | none => s
  | some c =>
    if c.owned then (s.poisonRange a 1 2).logErr { paddr := a, unit := 3, site := cuSite cu, cu := cuNum cu, kind := 2 }
    else s.dropL1 cu (lineOf a)

/-- A register or predicate word of a warp is poisoned with origin 4. -/
def State.upsetControl (s : State) (k : Nat) (f : Warp → Warp) : State :=
  if (amGet s.warps k).isSome then (s.modWarp k f).logErr { unit := 3, site := cuSite (warpCu k), cu := cuNum (warpCu k), kind := 2 } else s

/-- What an error does (R347). -/
def State.upset (s : State) (u : Upset) : State :=
  match u with
  | .corrected unit site cu => s.correct unit site cu
  | .word a => s.upsetWord a
  | .l1 cu a => s.upsetL1 cu a
  | .control cu => s.after 0 prioLate (.agentDead (cuSite cu) (some (.cu (cuNum cu))))
  | .kreg k n => s.upsetControl k fun w => { w with kPoison := amSet w.kPoison n 4 }
  | .pred k f p => s.upsetControl k fun w => w.modFibre f fun fb => { fb with predPoison := amSet fb.predPoison p 4 }
  | .latch k e j => s.modStrand k e fun st => { st with latches := st.latches.modify j fun l => { l with valid := false } }
  | .tlb ctx va => s.dropTranslations 0 ctx va
  | .bank cu j => (s.modCu cu fun c => { c with banks := c.banks.eraseIdx j }).retryLoads cu

/-- The errors found since the last clock take their effects. -/
def State.applyUpsets (s : State) : State := s.upsets.foldl State.upset { s with upsets := [] }

end Sys2Proof.Machine
end

