-- ==== Sys2Proof/Machine/Dispatch.lean ====
section
/-! DEFINITION. One arm per constructor of Instr, each one direct call of that instruction's or step's meaning. -/

namespace Sys2Proof.Machine

def exec (i : Instr) (s : State) : Host.Outcome State Fault Refusal :=
  match i with
  | .mov g n a d => Sys2Proof.Machine.execMov g n a d s
  | .iadd g n b a d => Sys2Proof.Machine.execIadd g n b a d s
  | .isub g n b a d => Sys2Proof.Machine.execIsub g n b a d s
  | .imul g n b a d => Sys2Proof.Machine.execImul g n b a d s
  | .imulh g n b a d t => Sys2Proof.Machine.execImulh g n b a d t s
  | .imin g n b a d t => Sys2Proof.Machine.execImin g n b a d t s
  | .imax g n b a d t => Sys2Proof.Machine.execImax g n b a d t s
  | .andV g n b a d => Sys2Proof.Machine.execAndV g n b a d s
  | .orV g n b a d => Sys2Proof.Machine.execOrV g n b a d s
  | .xorV g n b a d => Sys2Proof.Machine.execXorV g n b a d s
  | .shl g n b a d => Sys2Proof.Machine.execShl g n b a d s
  | .shr g n b a d => Sys2Proof.Machine.execShr g n b a d s
  | .sar g n b a d => Sys2Proof.Machine.execSar g n b a d s
  | .imad g n b a d => Sys2Proof.Machine.execImad g n b a d s
  | .idivS32 g n b a d => Sys2Proof.Machine.execIdivS32 g n b a d s
  | .idivN32 g n b a d => Sys2Proof.Machine.execIdivN32 g n b a d s
  | .iremS32 g n b a d => Sys2Proof.Machine.execIremS32 g n b a d s
  | .iremN32 g n b a d => Sys2Proof.Machine.execIremN32 g n b a d s
  | .iaddS64 g n b a d => Sys2Proof.Machine.execIaddS64 g n b a d s
  | .isubS64 g n b a d => Sys2Proof.Machine.execIsubS64 g n b a d s
  | .imulS64 g n b a d => Sys2Proof.Machine.execImulS64 g n b a d s
  | .shlS64 g n b a d => Sys2Proof.Machine.execShlS64 g n b a d s
  | .shrS64 g n b a d => Sys2Proof.Machine.execShrS64 g n b a d s
  | .sarS64 g n b a d => Sys2Proof.Machine.execSarS64 g n b a d s
  | .fadd g n b a d m => Sys2Proof.Machine.execFadd g n b a d m s
  | .fsub g n b a d m => Sys2Proof.Machine.execFsub g n b a d m s
  | .fmul g n b a d m => Sys2Proof.Machine.execFmul g n b a d m s
  | .ffma g n b a d m => Sys2Proof.Machine.execFfma g n b a d m s
  | .fdiv g n b a d m => Sys2Proof.Machine.execFdiv g n b a d m s
  | .fmin g n b a d => Sys2Proof.Machine.execFmin g n b a d s
  | .fmax g n b a d => Sys2Proof.Machine.execFmax g n b a d s
  | .faddBf16x2 g n b a d => Sys2Proof.Machine.execFaddBf16x2 g n b a d s
  | .fsubBf16x2 g n b a d => Sys2Proof.Machine.execFsubBf16x2 g n b a d s
  | .fmulBf16x2 g n b a d => Sys2Proof.Machine.execFmulBf16x2 g n b a d s
  | .ffmaBf16x2 g n b a d => Sys2Proof.Machine.execFfmaBf16x2 g n b a d s
  | .fminBf16x2 g n b a d => Sys2Proof.Machine.execFminBf16x2 g n b a d s
  | .fmaxBf16x2 g n b a d => Sys2Proof.Machine.execFmaxBf16x2 g n b a d s
  | .shfl g n b a d => Sys2Proof.Machine.execShfl g n b a d s
  | .shflUp g n b a d => Sys2Proof.Machine.execShflUp g n b a d s
  | .shflDn g n b a d => Sys2Proof.Machine.execShflDn g n b a d s
  | .shflXor g n b a d => Sys2Proof.Machine.execShflXor g n b a d s
  | .movImmediate g im d => Sys2Proof.Machine.execMovImmediate g im d s
  | .iaddImmediate g im a d => Sys2Proof.Machine.execIaddImmediate g im a d s
  | .isubImmediate g im a d => Sys2Proof.Machine.execIsubImmediate g im a d s
  | .imulImmediate g im a d => Sys2Proof.Machine.execImulImmediate g im a d s
  | .iminImmediate g im a d t => Sys2Proof.Machine.execIminImmediate g im a d t s
  | .imaxImmediate g im a d t => Sys2Proof.Machine.execImaxImmediate g im a d t s
  | .andImmediate g im a d => Sys2Proof.Machine.execAndImmediate g im a d s
  | .orImmediate g im a d => Sys2Proof.Machine.execOrImmediate g im a d s
  | .xorImmediate g im a d => Sys2Proof.Machine.execXorImmediate g im a d s
  | .shlImmediate g im a d => Sys2Proof.Machine.execShlImmediate g im a d s
  | .shrImmediate g im a d => Sys2Proof.Machine.execShrImmediate g im a d s
  | .sarImmediate g im a d => Sys2Proof.Machine.execSarImmediate g im a d s
  | .iaddS64Immediate g im a d => Sys2Proof.Machine.execIaddS64Immediate g im a d s
  | .faddImmediate g im a d => Sys2Proof.Machine.execFaddImmediate g im a d s
  | .fmulImmediate g im a d => Sys2Proof.Machine.execFmulImmediate g im a d s
  | .fminImmediate g im a d => Sys2Proof.Machine.execFminImmediate g im a d s
  | .fmaxImmediate g im a d => Sys2Proof.Machine.execFmaxImmediate g im a d s
  | .rng g im a d => Sys2Proof.Machine.execRng g im a d s
  | .movCompact g c d => Sys2Proof.Machine.execMovCompact g c d s
  | .iaddCompact g c d => Sys2Proof.Machine.execIaddCompact g c d s
  | .isubCompact g c d => Sys2Proof.Machine.execIsubCompact g c d s
  | .imulCompact g c d => Sys2Proof.Machine.execImulCompact g c d s
  | .iminCompact g c d => Sys2Proof.Machine.execIminCompact g c d s
  | .imaxCompact g c d => Sys2Proof.Machine.execImaxCompact g c d s
  | .andCompact g c d => Sys2Proof.Machine.execAndCompact g c d s
  | .orCompact g c d => Sys2Proof.Machine.execOrCompact g c d s
  | .xorCompact g c d => Sys2Proof.Machine.execXorCompact g c d s
  | .shlCompact g c d => Sys2Proof.Machine.execShlCompact g c d s
  | .shrCompact g c d => Sys2Proof.Machine.execShrCompact g c d s
  | .faddCompact g c d => Sys2Proof.Machine.execFaddCompact g c d s
  | .fsubCompact g c d => Sys2Proof.Machine.execFsubCompact g c d s
  | .fmulCompact g c d => Sys2Proof.Machine.execFmulCompact g c d s
  | .fminCompact g c d => Sys2Proof.Machine.execFminCompact g c d s
  | .fmaxCompact g c d => Sys2Proof.Machine.execFmaxCompact g c d s
  | .icmp g f b a p t => Sys2Proof.Machine.execIcmp g f b a p t s
  | .fcmp g f b a p => Sys2Proof.Machine.execFcmp g f b a p s
  | .plop g f b a p => Sys2Proof.Machine.execPlop g f b a p s
  | .cvt g m c a d t => Sys2Proof.Machine.execCvt g m c a d t s
  | .ndec g n a d => Sys2Proof.Machine.execNdec g n a d s
  | .nenc g a d => Sys2Proof.Machine.execNenc g a d s
  | .fsqrt g m a d => Sys2Proof.Machine.execFsqrt g m a d s
  | .rcp g a d => Sys2Proof.Machine.execRcp g a d s
  | .rsq g a d => Sys2Proof.Machine.execRsq g a d s
  | .exp2 g a d => Sys2Proof.Machine.execExp2 g a d s
  | .log2 g a d => Sys2Proof.Machine.execLog2 g a d s
  | .sin g a d => Sys2Proof.Machine.execSin g a d s
  | .cos g a d => Sys2Proof.Machine.execCos g a d s
  | .popc g a d => Sys2Proof.Machine.execPopc g a d s
  | .clz g a d => Sys2Proof.Machine.execClz g a d s
  | .brev g a d => Sys2Proof.Machine.execBrev g a d s
  | .vote g f p d => Sys2Proof.Machine.execVote g f p d s
  | .redux g f m a d => Sys2Proof.Machine.execRedux g f m a d s
  | .p2v g p d => Sys2Proof.Machine.execP2v g p d s
  | .fabs g a d => Sys2Proof.Machine.execFabs g a d s
  | .fneg g a d => Sys2Proof.Machine.execFneg g a d s
  | .ld g o p d t q => Sys2Proof.Machine.execLd g o p d t q s
  | .st8 g o p d q => Sys2Proof.Machine.execSt8 g o p d q s
  | .st16 g o p d q => Sys2Proof.Machine.execSt16 g o p d q s
  | .st32 g o p d q => Sys2Proof.Machine.execSt32 g o p d q s
  | .st64 g o p d q => Sys2Proof.Machine.execSt64 g o p d q s
  | .ldAcq g c q p d t => Sys2Proof.Machine.execLdAcq g c q p d t s
  | .stRel8 g c q p d => Sys2Proof.Machine.execStRel8 g c q p d s
  | .stRel16 g c q p d => Sys2Proof.Machine.execStRel16 g c q p d s
  | .stRel32 g c q p d => Sys2Proof.Machine.execStRel32 g c q p d s
  | .stRel64 g c q p d => Sys2Proof.Machine.execStRel64 g c q p d s
  | .pf g o p => Sys2Proof.Machine.execPf g o p s
  | .pfL2 g o p => Sys2Proof.Machine.execPfL2 g o p s
  | .atomAdd g w b p d => Sys2Proof.Machine.execAtomAdd g w b p d s
  | .atomMinS g w b p d => Sys2Proof.Machine.execAtomMinS g w b p d s
  | .atomMinN g w b p d => Sys2Proof.Machine.execAtomMinN g w b p d s
  | .atomMaxS g w b p d => Sys2Proof.Machine.execAtomMaxS g w b p d s
  | .atomMaxN g w b p d => Sys2Proof.Machine.execAtomMaxN g w b p d s
  | .atomAnd g w b p d => Sys2Proof.Machine.execAtomAnd g w b p d s
  | .atomOr g w b p d => Sys2Proof.Machine.execAtomOr g w b p d s
  | .atomXor g w b p d => Sys2Proof.Machine.execAtomXor g w b p d s
  | .atomXchg g w b p d => Sys2Proof.Machine.execAtomXchg g w b p d s
  | .atomCas g w b p d => Sys2Proof.Machine.execAtomCas g w b p d s
  | .atomFmin g w b p d => Sys2Proof.Machine.execAtomFmin g w b p d s
  | .atomFmax g w b p d => Sys2Proof.Machine.execAtomFmax g w b p d s
  | .red g w b p o => Sys2Proof.Machine.execRed g w b p o s
  | .kuRegisterOp g a d u => Sys2Proof.Machine.execKuRegisterOp g a d u s
  | .kuImmediateOp g im a d u => Sys2Proof.Machine.execKuImmediateOp g im a d u s
  | .krdl g n a d => Sys2Proof.Machine.execKrdl g n a d s
  | .kld g im a d => Sys2Proof.Machine.execKld g im a d s
  | .kst g im a d => Sys2Proof.Machine.execKst g im a d s
  | .bra g o => Sys2Proof.Machine.execBra g o s
  | .call g o l => Sys2Proof.Machine.execCall g o l s
  | .fcall g o l => Sys2Proof.Machine.execFcall g o l s
  | .jmpi g r => Sys2Proof.Machine.execJmpi g r s
  | .calli g l a => Sys2Proof.Machine.execCalli g l a s
  | .ret g r => Sys2Proof.Machine.execRet g r s
  | .brt g o p => Sys2Proof.Machine.execBrt g o p s
  | .brf g o p => Sys2Proof.Machine.execBrf g o p s
  | .mmaBf16 g c b a d k => Sys2Proof.Machine.execMmaBf16 g c b a d k s
  | .mmaInteger g c b a d t k => Sys2Proof.Machine.execMmaInteger g c b a d t k s
  | .mmag g c b a d k => Sys2Proof.Machine.execMmag g c b a d k s
  | .mmab g c b a d k => Sys2Proof.Machine.execMmab g c b a d k s
  | .mmaAb g c b a d k => Sys2Proof.Machine.execMmaAb g c b a d k s
  | .amov g a d => Sys2Proof.Machine.execAmov g a d s
  | .azero g d => Sys2Proof.Machine.execAzero g d s
  | .ard g b a d => Sys2Proof.Machine.execArd g b a d s
  | .awr g b a d => Sys2Proof.Machine.execAwr g b a d s
  | .ardFx64 g b a d => Sys2Proof.Machine.execArdFx64 g b a d s
  | .awrFx64 g b a d => Sys2Proof.Machine.execAwrFx64 g b a d s
  | .cpy g k l c => Sys2Proof.Machine.execCpy g k l c s
  | .cpyl g k c d => Sys2Proof.Machine.execCpyl g k c d s
  | .ovload g k n => Sys2Proof.Machine.execOvload g k n s
  | .nop g => Sys2Proof.Machine.execNop g s
  | .exit g => Sys2Proof.Machine.execExit g s
  | .join g => Sys2Proof.Machine.execJoin g s
  | .fbar g => Sys2Proof.Machine.execFbar g s
  | .bar g n => Sys2Proof.Machine.execBar g n s
  | .gbar g => Sys2Proof.Machine.execGbar g s
  | .waitc g k p => Sys2Proof.Machine.execWaitc g k p s
  | .yieldc g o k => Sys2Proof.Machine.execYieldc g o k s
  | .reggrow g => Sys2Proof.Machine.execReggrow g s
  | .regshrink g => Sys2Proof.Machine.execRegshrink g s
  | .launch g k p => Sys2Proof.Machine.execLaunch g k p s
  | .trap g c => Sys2Proof.Machine.execTrap g c s
  | .bkpt g c => Sys2Proof.Machine.execBkpt g c s
  | .srd g c d => Sys2Proof.Machine.execSrd g c d s
  | .swr g c a => Sys2Proof.Machine.execSwr g c a s
  | .fence g c => Sys2Proof.Machine.execFence g c s
  | .mcas g k p => Sys2Proof.Machine.execMcas g k p s
  | .redFaddc g a p => Sys2Proof.Machine.execRedFaddc g a p s
  | .xinv g k p => Sys2Proof.Machine.execXinv g k p s
  | .fwwr g p w => Sys2Proof.Machine.execFwwr g p w s
  | .fwrd g p w => Sys2Proof.Machine.execFwrd g p w s
  | .lwbi g k p => Sys2Proof.Machine.execLwbi g k p s
  | .resume g p => Sys2Proof.Machine.execResume g p s
  | .redirect g p => Sys2Proof.Machine.execRedirect g p s
  | .kill g p => Sys2Proof.Machine.execKill g p s
  | .issueSelect slot => Sys2Proof.Machine.execIssueSelect slot s
  | .starvationIssue slot => Sys2Proof.Machine.execStarvationIssue slot s
  | .pipelineResult warp id => Sys2Proof.Machine.execPipelineResult warp id s
  | .loadDataReturn id => Sys2Proof.Machine.execLoadDataReturn id s
  | .homeSliceRequest id => Sys2Proof.Machine.execHomeSliceRequest id s
  | .storeAck id => Sys2Proof.Machine.execStoreAck id s
  | .horizonFold ctx ts => Sys2Proof.Machine.execHorizonFold ctx ts s
  | .l1LeaseExpiry cu line fill => Sys2Proof.Machine.execL1LeaseExpiry cu line fill s
  | .pageWalk id => Sys2Proof.Machine.execPageWalk id s
  | .fenceComplete uid => Sys2Proof.Machine.execFenceComplete uid s
  | .fenceRollback uid => Sys2Proof.Machine.execFenceRollback uid s
  | .barrierRelease id => Sys2Proof.Machine.execBarrierRelease id s
  | .waitcReread uid => Sys2Proof.Machine.execWaitcReread uid s
  | .statusWordWrite warp k op v => Sys2Proof.Machine.execStatusWordWrite warp k op v s
  | .strandRetire uid => Sys2Proof.Machine.execStrandRetire uid s
  | .teamFinish team => Sys2Proof.Machine.execTeamFinish team s
  | .gridRetire grid => Sys2Proof.Machine.execGridRetire grid s
  | .launchAccept id => Sys2Proof.Machine.execLaunchAccept id s
  | .seedArrival ctx v => Sys2Proof.Machine.execSeedArrival ctx v s
  | .dependenceCounterReread grid => Sys2Proof.Machine.execDependenceCounterReread grid s
  | .dealingStep => Sys2Proof.Machine.execDealingStep s
  | .launchReservation grid => Sys2Proof.Machine.execLaunchReservation grid s
  | .teamStart team => Sys2Proof.Machine.execTeamStart team s
  | .budgetPeriod => Sys2Proof.Machine.execBudgetPeriod s
  | .thermalThrottle site temp => Sys2Proof.Machine.execThermalThrottle site temp s
  | .overlayRequest id => Sys2Proof.Machine.execOverlayRequest id s
  | .overlayLoadComplete id => Sys2Proof.Machine.execOverlayLoadComplete id s
  | .copyUnitMove cu => Sys2Proof.Machine.execCopyUnitMove cu s
  | .copyPublish id => Sys2Proof.Machine.execCopyPublish id s
  | .gatherRowArrival uid => Sys2Proof.Machine.execGatherRowArrival uid s
  | .matrixEngineStart cu => Sys2Proof.Machine.execMatrixEngineStart cu s
  | .mmabEpisodeStart group rank => Sys2Proof.Machine.execMmabEpisodeStart group rank s
  | .matrixEngineFinish cu => Sys2Proof.Machine.execMatrixEngineFinish cu s
  | .mcasLockGrant id => Sys2Proof.Machine.execMcasLockGrant id s
  | .mcasEvent id => Sys2Proof.Machine.execMcasEvent id s
  | .mcasRelease id => Sys2Proof.Machine.execMcasRelease id s
  | .reggrowComplete warp => Sys2Proof.Machine.execReggrowComplete warp s
  | .reggrowRetry cu => Sys2Proof.Machine.execReggrowRetry cu s
  | .regshrinkComplete warp => Sys2Proof.Machine.execRegshrinkComplete warp s
  | .registerDeadlock cu => Sys2Proof.Machine.execRegisterDeadlock cu s
  | .warpSpill warp => Sys2Proof.Machine.execWarpSpill warp s
  | .warpRefill warp => Sys2Proof.Machine.execWarpRefill warp s
  | .compaction cu => Sys2Proof.Machine.execCompaction cu s
  | .watchdogExpiry uid => Sys2Proof.Machine.execWatchdogExpiry uid s
  | .trapRecordPost ctx => Sys2Proof.Machine.execTrapRecordPost ctx s
  | .takenReread ctx => Sys2Proof.Machine.execTakenReread ctx s
  | .replyTakeEffect id => Sys2Proof.Machine.execReplyTakeEffect id s
  | .viewLineFill line => Sys2Proof.Machine.execViewLineFill line s
  | .viewLineWriteback line => Sys2Proof.Machine.execViewLineWriteback line s
  | .hostPostedWrite t data => Sys2Proof.Machine.execHostPostedWrite t data s
  | .pieceBid id => Sys2Proof.Machine.execPieceBid id s
  | .pieceTimestamp => Sys2Proof.Machine.execPieceTimestamp s
  | .pieceCommit id => Sys2Proof.Machine.execPieceCommit id s
  | .pieceRouteAck id => Sys2Proof.Machine.execPieceRouteAck id s
  | .hostRead t n => Sys2Proof.Machine.execHostRead t n s
  | .peerPortWrite port addr data => Sys2Proof.Machine.execPeerPortWrite port addr data s
  | .hubCopyDescriptor d => Sys2Proof.Machine.execHubCopyDescriptor d s
  | .hubCopyComplete id => Sys2Proof.Machine.execHubCopyComplete id s
  | .hostLinkDown => Sys2Proof.Machine.execHostLinkDown s
  | .attestationRequest nonce => Sys2Proof.Machine.execAttestationRequest nonce s
  | .watchdogLimitSet limit => Sys2Proof.Machine.execWatchdogLimitSet limit s
  | .powerCapSet watts => Sys2Proof.Machine.execPowerCapSet watts s
  | .firmwareReplacement version image => Sys2Proof.Machine.execFirmwareReplacement version image s
  | .packageReset => Sys2Proof.Machine.execPackageReset s
  | .dieJoin site offer => Sys2Proof.Machine.execDieJoin site offer s
  | .start ctx addr => Sys2Proof.Machine.execStart ctx addr s
  | .preempt ctx mig => Sys2Proof.Machine.execPreempt ctx mig s
  | .restore ctx addr => Sys2Proof.Machine.execRestore ctx addr s
  | .halt ctx mig => Sys2Proof.Machine.execHalt ctx mig s
  | .continueCtx ctx => Sys2Proof.Machine.execContinueCtx ctx s
  | .contextKill ctx => Sys2Proof.Machine.execContextKill ctx s
  | .saveComplete ctx => Sys2Proof.Machine.execSaveComplete ctx s
  | .migrationAbort ctx => Sys2Proof.Machine.execMigrationAbort ctx s
  | .stopTimeout ctx => Sys2Proof.Machine.execStopTimeout ctx s
  | .flitReplay way => Sys2Proof.Machine.execFlitReplay way s
  | .linkRetrain link => Sys2Proof.Machine.execLinkRetrain link s
  | .linkLost link => Sys2Proof.Machine.execLinkLost link s
  | .agentDead site part => Sys2Proof.Machine.execAgentDead site part s
  | .patrolScrub => Sys2Proof.Machine.execPatrolScrub s
  | .directoryRecovery line => Sys2Proof.Machine.execDirectoryRecovery line s
  | .probeTimeout line => Sys2Proof.Machine.execProbeTimeout line s
  | .linkRestore link => Sys2Proof.Machine.execLinkRestore link s
  | .hostLinkUp => Sys2Proof.Machine.execHostLinkUp s
  | .ideRekey stream => Sys2Proof.Machine.execIdeRekey stream s
  | .overlayBankHoldExpiry cu => Sys2Proof.Machine.execOverlayBankHoldExpiry cu s
  | .supervisorOperationComplete uid => Sys2Proof.Machine.execSupervisorOperationComplete uid s
  | .pageRehome line site => Sys2Proof.Machine.execPageRehome line site s
  | .atsInvalidation addr => Sys2Proof.Machine.execAtsInvalidation addr s

end Sys2Proof.Machine
end

