-- ==== Sys2Proof/Machine/Step.lean ====
section
/-! DEFINITION. One step of the package: the group of the strand chosen to issue, else the next scheduled step that is due, else an issue
slot's choice, else the next clock. -/

namespace Sys2Proof.Machine

/-- What stands around the effect of a group that a strand issues. -/
def afterExec (s : State) (k e : Nat) (i : Instr) (o : Out) : Out :=
  match o with
  | .next s' =>
    .next { (s.afterIssue s' k e (((amGet s.warps k).map fun w => (w.strand e).pc).getD 0) i) with cur := none }
  | .fault f => .fault f
  | .refused r => .refused r

/-- The step of a strand that has been chosen: its group runs, or traps where it does not decode (R181, R182). -/
def stepGroup (s : State) (k e : Nat) : Out :=
  match s.group k e with
  | .ok i _ => afterExec s k e i (exec i s)
  | .trap code off parcel => .next (s.decodeFault k e code off parcel)

/-- The issue slots that hold warps, ascending. -/
def State.busySlots (s : State) : List Nat :=
  s.warps.foldl (fun (l : List Nat) w => if l.contains (warpIssue w.1) then l else l ++ [warpIssue w.1]) []

/-- The next clock (R115, R118): errors found take their effects (R347), what waits for a condition is looked at, every issue slot with a warp
chooses, and at a multiple of the period the budgets are renewed first. -/
def State.nextClockTick (s : State) : State :=
  let s1 : State := { s with clock := s.clock + 1, tried := [] }
  let s2 := s1.applyUpsets.stopTick.restoreTick
  let s3 : State := { s2 with toServe := s2.busySlots }
  if s3.clock % Config.period = 0 then s3.after 0 prioBoundary .budgetPeriod else s3

/-- The step of a clock with nothing due: the next issue slot chooses (R118, R374), or the clock advances. -/
def stepSlot (s : State) : Out :=
  match s.toServe with
  | slot :: t =>
    let s1 : State := { s with toServe := t }
    if ((s1.updateHolders slot).starved slot) = [] then exec (.issueSelect slot) s1 else exec (.starvationIssue slot) s1
  | [] => .next s.nextClockTick

/-- One step of the package.

DESIGN CHOICE (log entry 66, unsafe): one interleaving of the agents for given inputs. -/
def step (s : State) : Out :=
  match s.cur with
  | some c => stepGroup s c.warp c.entry
  | none =>
    match s.agenda with
    | a :: t => if a.due ≤ s.clock then exec a.ev { s with agenda := t } else stepSlot s
    | [] => stepSlot s

/-! ### Placing one instruction -/

/-- The halfwords of an instruction at a PC of an overlay bank of a CU, in an overlay of full length. -/
def State.placeCode (s : State) (cu ctx dir : Nat) (pc : BitVec 23) (hs : List (BitVec 16)) : State :=
  let old := ((s.bank cu ctx dir (pcOvl pc)).map Bank.code).getD []
  let b : Bank := { ctx := ctx, dir := dir, ovl := pcOvl pc, len := 32768, code := spWrite old (pcOff pc) hs }
  s.modCu cu fun c => { c with banks := b :: c.banks.filter fun x => !decide (x.ctx = ctx ∧ x.dir = dir ∧ x.ovl = pcOvl pc) }

/-- A team of one warp with one strand at PC 0 on CU 0 of site 0, in a context of number 0: what a fetch needs where there is no strand. -/
def State.withStrand (s : State) : State :=
  let st : Strand := { uid := 1, state := .ready, mask := BitVec.allOnes 32 }
  let w : Warp := { team := 0, table := st :: List.replicate 7 {}, holder := some 0 }
  { s with
    ctxs := amSet s.ctxs 0 {}
    grids := amSet s.grids 0 { ctx := 0 }
    teams := amSet s.teams 0 { grid := 0, index := 0, group := 0, rank := 0, cu := 0, warps := [0], bays := [], spares := [], started := true }
    warps := amSet s.warps 0 w
    cus := amSet s.cus 0 { (s.cu 0) with grants := [(0, 4096, 0)] }
    nextId := max s.nextId 2
    cur := some { warp := 0, entry := 0 } }

/-- The state with an instruction stored where the next step fetches.

DESIGN CHOICE (log entry 5, safe): a program is loaded from outside by the host and START, and withFetchWord stands for the load. -/
def State.withFetchWord (s : State) (nbits w : Nat) : State :=
  let put (s : State) (k e : Nat) : Option State :=
    match amGet s.warps k, s.gridOf k with
    | some x, some (_, g) =>
      some ((s.placeCode (warpCu k) g.ctx g.lr.code (x.strand e).pc (wordHalfs nbits w)).modStrand k e fun st => { st with ranPast := false })
    | _, _ => none
  match s.cur.bind fun c => put s c.warp c.entry with
  | some t => t
  | none => (put s.withStrand 0 0).getD s.withStrand

end Sys2Proof.Machine
end

