-- ==== Sys2Proof/Safety.lean ====
section
/-! DEFINITION. What counts as a safe run: the canonical form of memory and steps that do not stop; and the words in which the statements
speak of a group that issues: when it goes on to its own effect, and what it leaves. -/

namespace Sys2Proof

/-- The memory of a state is in its canonical form. -/
def MemOk (s : Machine.State) : Prop := Machine.Memory.wf s.mem = true

/-- A step neither faults nor is refused. -/
def Runs (s : Machine.State) : Prop := ∃ t, Machine.step s = .next t

/-- A run of n steps that never stops and keeps the memory canonical. -/
def SafeRun (s : Machine.State) : Nat → Prop
  | 0 => MemOk s
  | n + 1 => MemOk s ∧ ∃ t, Machine.step s = .next t ∧ SafeRun t n

namespace Machine

/-! ### Groups that issue -/

/-- A group is at issue with an active lane and passes the checks of classes 1 to 4 (R332, R333). -/
structure AtIssue (i : Instr) (s : State) (x : Iss) : Prop where
  group : issOf i s = some x
  lanes : x.mask ≠ 0
  checks : x.check s = none

/-- A group at issue that reads no poison either (R351), so that it has its effect. -/
structure Passes (i : Instr) (s : State) (x : Iss) : Prop extends AtIssue i s x where
  clean : x.poisonCheck s = none

/-- The strand of a group past it, with these latches: in a fence window it counts the group (R182, R218). -/
def Iss.past (x : Iss) (l : List Latch) : Strand :=
  { x.st with pc := x.next, latches := l, fence := x.st.fence.map fun fw => { fw with issued := fw.issued + 1 } }

/-- The strand of a group past it, with its latches as they were. -/
def Iss.on (x : Iss) : Strand := x.past x.st.latches

/-- A latch that one push leaves (R92): valid, f in the active lanes and 0 in the others, readable from a clock on. -/
def Pushed (x : Iss) (f : Nat → Word) (ready : Nat) (l : Latch) : Prop :=
  l.valid = true ∧ l.ready = ready ∧ l.load = none ∧
    ∀ i < 32, spGet l.data i = if x.mask.getLsbD i then f i else 0

/-- The bytes of the active lanes of the register that v names, unless it is no register. -/
def Iss.laneByte (x : Iss) (v a : Nat) : Prop :=
  ∃ r i, v < 120 ∧ x.w.reg x.st.fibre v = .ok r ∧ i < 32 ∧ x.mask.getLsbD i = true ∧
    regAddr x.k x.w r + 4 * i ≤ a ∧ a < regAddr x.k x.w r + 4 * i + 4

/-- A register holds f in the active lanes and what it held in the others (R184); a code that names no register is discarded. -/
def Iss.Wrote (x : Iss) (s t : State) (v : Nat) (f : Nat → Word) : Prop :=
  ∀ r, v < 120 → x.w.reg x.st.fibre v = .ok r → ∀ i < 32,
    t.word (regAddr x.k x.w r + 4 * i) = if x.mask.getLsbD i then f i else s.word (regAddr x.k x.w r + 4 * i)

/-- What the issue of a group changes outside memory: its strand becomes st, the scoreboard gets p for lat clocks (R118, R121), and the
next step is chosen anew; every other field of the state is as before, but for the bytes, their poison and what could be undone. -/
def Iss.Issued (x : Iss) (s t : State) (st : Strand) (lat : Nat) (p : Pipe) : Prop :=
  ∃ m q u, t = { s with
    mem := m, poison := q, undo := u
    warps := amSet s.warps x.k { x.w with table := x.w.table.set x.e st, pipe := amSet x.w.pipe s.nextId p }
    agenda := insAgenda s.agenda { due := s.clock + lat, prio := prioResult, ev := .pipelineResult x.k s.nextId }
    nextId := s.nextId + 1, cur := none }

/-- What a 32-bit lane instruction leaves (R92, R184, R187): D holds f unless the N bit suppresses the write; one latch is pushed; the
result is readable after lat clocks, from the latch after lb; the flags are raised with it; every other byte is as before. -/
structure LaneResult (x : Iss) (s t : State) (d : Nat) (n : Bool) (lat lb : Nat) (flags : Flags) (f : Nat → Word) : Prop where
  dst : n = false → x.Wrote s t d f
  bytes : ∀ a, ¬ (n = false ∧ x.laneByte d a) → t.byte a = s.byte a
  issued : ∃ l p, Pushed x f (s.clock + lb) l ∧ p.flags = flags ∧ p.fibre = x.st.fibre ∧ p.uid = x.st.uid ∧
    p.res = (if n = true ∨ 120 ≤ d then [] else x.resOf d) ∧ x.Issued s t (x.past (l :: x.st.latches.take 3)) lat p

/-- What a 64-bit lane instruction leaves (R90, R92): the low word in D and the high word in its odd neighbour, two latches with the low
word newest. -/
structure LaneResult64 (x : Iss) (s t : State) (d : Nat) (n : Bool) (lat lb : Nat) (flags : Flags) (f : Nat → DWord) : Prop where
  lo : n = false → x.Wrote s t d fun i => (f i).setWidth 32
  hi : n = false → d < 120 → x.Wrote s t (d + 1) fun i => (f i >>> 32).setWidth 32
  bytes : ∀ a, ¬ (n = false ∧ d < 120 ∧ (x.laneByte d a ∨ x.laneByte (d + 1) a)) → t.byte a = s.byte a
  issued : ∃ l h p, Pushed x (fun i => (f i).setWidth 32) (s.clock + lb) l ∧ Pushed x (fun i => (f i >>> 32).setWidth 32) (s.clock + lb) h ∧
    p.flags = flags ∧ p.fibre = x.st.fibre ∧ p.uid = x.st.uid ∧ x.Issued s t (x.past (l :: h :: x.st.latches.take 2)) lat p

/-- What an instruction that writes a predicate leaves (R197): the active lanes of p take f, the others and every other predicate, flag,
register and byte are as before, and nothing is pushed. -/
def PredResult (x : Iss) (s t : State) (p : Nat) (f : Nat → Bool) : Prop :=
  ∃ v z u q, t = { s with
      undo := u
      warps := amSet s.warps x.k { x.w with
        fibres := x.w.fibres.set x.st.fibre { x.w.fibre x.st.fibre with preds := v, predPoison := z }
        table := x.w.table.set x.e x.on
        pipe := amSet x.w.pipe s.nextId q }
      agenda := insAgenda s.agenda { due := s.clock + 2, prio := prioResult, ev := .pipelineResult x.k s.nextId }
      nextId := s.nextId + 1, cur := none } ∧ q.flags = 0 ∧
    (∀ b, b ≠ p → spGet v b = x.w.pred x.st.fibre b) ∧
    ∀ i < 32, (spGet v p).getLsbD i = if x.mask.getLsbD i then f i else (x.w.pred x.st.fibre p).getLsbD i

/-- What a uniform instruction leaves (R203): k register d takes v once for the warp; every other k register, predicate, flag, register
and byte is as before, and nothing is pushed. -/
def KResult (x : Iss) (s t : State) (d lat : Nat) (v : Word) : Prop :=
  ∃ u q, t = { s with
      undo := u
      warps := amSet s.warps x.k { x.w with
        k := spSet x.w.k d v, kPoison := amErase x.w.kPoison d
        table := x.w.table.set x.e x.on
        pipe := amSet x.w.pipe s.nextId q }
      agenda := insAgenda s.agenda { due := s.clock + lat, prio := prioResult, ev := .pipelineResult x.k s.nextId }
      nextId := s.nextId + 1, cur := none } ∧ q.flags = 0

/-- A strand moved to a PC and nothing else of the state but the strand's fence count (R182). -/
def MovedTo (x : Iss) (s t : State) (pc : BitVec 23) : Prop :=
  t = { s with warps := amSet s.warps x.k { x.w with table := x.w.table.set x.e { x.on with pc := pc } }, cur := none }

end Machine

end Sys2Proof
end

