-- ==== Sys2Proof/Certificates/Slice0/Obligations.lean ====
section
/-! DEFINITION. The statements for the provers, in the words of Safety; their own vocabulary stands in the namespace Stated. -/

namespace Sys2Proof.Stated

open Sys2Proof.Machine

/-- The instruction completes: exec answers a next state, and that state is as P says. -/
def Gives (i : Instr) (s : State) (P : State → Prop) : Prop := ∃ t, exec i s = .next t ∧ P t

/-- A 32-bit parcel as its two halfwords in stream order (R165). -/
def parcelHalves (w : Nat) : List (BitVec 16) := [BitVec.ofNat 16 w, BitVec.ofNat 16 (w / 65536)]

/-- A parked path but for the mark that its next group lies past the end of its overlay (R182). -/
def unmarked (p : Parked) : Parked := { p with ranPast := false }

/-- Words that the spec writes out with the instructions they stand for, of every class. -/
def writtenWords : List (List (BitVec 16) × Instr) :=
  [ (parcelHalves 0x05082AD1, .ffma {} 0 5 4 10 1),
    ([0x1232, 0x4562] ++ parcelHalves 0x780C1813, .iaddImmediate { imm := [0x123, 0x456] } 0x78 6 6),
    ([0x0126, 0x028A, 0x000E] ++ parcelHalves 0x7E082491, .imax { pred := some (2, true), ksel := some 40, sw := some false } 0 126 4 9 1),
    ([0xF070], .fsubCompact {} 30 1),
    (parcelHalves 0x20A10807, .icmp {} 2 5 4 2 0),
    (parcelHalves 0x80404C57, .plop {} 8 2 1 3),
    (parcelHalves 0x180A1227, .cvt {} 1 8 5 4 2),
    ([0x007A] ++ parcelHalves 0x020A12C7, .ndec { ksel := some 7 } 2 5 4),
    ([0x0042] ++ parcelHalves 0xB0141519, .kuImmediateOp { imm := [4] } 44 5 5 1),
    (parcelHalves 0x03101115, .ld {} 3 8 4 4 1),
    (parcelHalves 0x02181A65, .st64 {} 2 12 6 2),
    ([0x0262] ++ parcelHalves 0x94102BD5, .atomCas { imm := [0x26] } 1 20 8 10),
    (parcelHalves 0x0211F345, .red {} 0 2 8 4),
    (parcelHalves 0xFFFF823B, .brf {} 0x3FFFE0 3),
    ([0x0032] ++ parcelHalves 0x0020502B, .fcall { imm := [3] } 16 20),
    (parcelHalves 0x00C0187F, .yieldc {} 48 6),
    (parcelHalves 0x9628103D, .mmaBf16 {} 1 22 20 4 3),
    ([0x014A] ++ parcelHalves 0x0724429D, .cpyl { ksel := some 20 } 7 18 16),
    ([0x0006] ++ parcelHalves 0x0008310F, .mcas { pred := some (0, false) } 4 12),
    (parcelHalves 0x001A18DF, .srd {} 13 6),
    (parcelHalves 0x0010099F, .fwwr {} 8 2) ]

end Sys2Proof.Stated

open Sys2Proof Sys2Proof.Machine Sys2Proof.Stated

/-- Words of every class that the spec writes out (R183 and the worked encodings of the instruction chapters) decode to the instructions they
stand for, with the group's length. -/
def Obligations.DecodedWords : Prop := ∀ w ∈ writtenWords, decode w.1 = .ok w.2 w.1.length

/-- Every well-formed encoded instruction, with every operand at every value its fields admit, is read back from its own words, whatever
follows them. -/
def Obligations.EncodeDecode : Prop :=
  ∀ (i : Instr) (rest : List (BitVec 16)), i.encoded = true → i.wf = true → decode (encode i ++ rest) = .ok i i.len

/-- What decodes is an encoded, well-formed instruction, its length is that of the group, and its words are the ones read: no two words
stand for one instruction and no bit is dropped. -/
def Obligations.DecodeEncode : Prop :=
  ∀ (hs : List (BitVec 16)) (i : Instr) (n : Nat), decode hs = .ok i n →
    i.encoded = true ∧ i.wf = true ∧ n = i.len ∧ encode i = hs.take n

/-- When the halfwords at the PC of the chosen strand decode to an instruction, a step is exec of it on the state as it stands, followed by
what issue leaves around it: the strand's notes of its issue, and the end of its turn. A fault or refusal of exec is the step's. -/
def Obligations.StepRunsDecoded : Prop :=
  ∀ (s : State) (c : Cur) (i : Instr) (n : Nat), s.cur = some c → s.group c.warp c.entry = .ok i n →
    step s = afterExec s c.warp c.entry i (exec i s)

/-- What stands around the effect of a group changes only the marks of its issue on its strand, its warp slot and its overlay bank, the holder of
the slot, the rows gathered for its strand (R305), and the fetch of an overlay not resident (R118-R120, R236): every byte and its poison, every
line, access, load, team, grid and context, the clock, every k register, predicate, flag, window map and register block, and every strand's mask,
PC, parent and logical clock stand as the effect left them; a path that now stands past the end of its overlay is marked so (R182). -/
def Obligations.AroundIssueFrame : Prop :=
  ∀ (s s' : State) (k e : Nat) (pc : BitVec 23) (i : Instr),
    let t := s.afterIssue s' k e pc i
    t.clock = s'.clock ∧ t.mem = s'.mem ∧ t.poison = s'.poison ∧ t.rowFlags = s'.rowFlags ∧ t.lines = s'.lines ∧ t.l1 = s'.l1 ∧
      t.reqs = s'.reqs ∧ t.loads = s'.loads ∧ t.mcas = s'.mcas ∧ t.copies = s'.copies ∧ t.launches = s'.launches ∧ t.teams = s'.teams ∧
      t.grids = s'.grids ∧ t.ctxs = s'.ctxs ∧ t.horLoc = s'.horLoc ∧ t.horGal = s'.horGal ∧ t.horDev = s'.horDev ∧ t.horSys = s'.horSys ∧
      ∀ q, (amGet t.warps q).map (fun w => (w.team, w.k, w.block, w.blockBytes, w.winmap, w.fibres, w.overflow.map unmarked, w.pipe)) =
          (amGet s'.warps q).map (fun w => (w.team, w.k, w.block, w.blockBytes, w.winmap, w.fibres, w.overflow.map unmarked, w.pipe)) ∧
        ∀ a, (amGet t.warps q).map (fun w => ((w.strand a).state, (w.strand a).mask, (w.strand a).pc, (w.strand a).parent, (w.strand a).c)) =
          (amGet s'.warps q).map (fun w => ((w.strand a).state, (w.strand a).mask, (w.strand a).pc, (w.strand a).parent, (w.strand a).c))

/-- Where the halfwords at the PC of the chosen strand, outside a fence window, do not decode, a step freezes the strand at its PC with its
mask kept, sends a class-1 record with the code, the failing parcel and its offset, and changes no byte of memory (R181, R330, R333). -/
def Obligations.StepTakesDecodeTrap : Prop :=
  ∀ (s : State) (c : Cur) (w : Warp) (cx : Ctx) (code off parcel : Nat),
    s.cur = some c → amGet s.warps c.warp = some w → c.entry < w.table.length → (w.strand c.entry).fence = none →
    amGet s.ctxs (s.ctxOf c.warp) = some cx → s.group c.warp c.entry = .trap code off parcel →
    ∃ t v cy, step s = .next t ∧ t.cur = none ∧ (∀ a, t.byte a = s.byte a) ∧
      amGet t.warps c.warp = some v ∧ (v.strand c.entry).state = .frozen ∧ (v.strand c.entry).pc = (w.strand c.entry).pc ∧
      (v.strand c.entry).mask = (w.strand c.entry).mask ∧ v.k = w.k ∧ v.fibres = w.fibres ∧
      amGet t.ctxs (s.ctxOf c.warp) = some cy ∧
      cy.inflight = cx.inflight ++ [(s.clock + (s.toHub (s.ctxOf c.warp) (cuSite (warpCu c.warp)) (s.favouredWarp c.warp)).2, strandAgent c.warp c.entry, (w.strand c.entry).uid,
        s.recordOf c.warp c.entry { cls := 1, code := code, detail := off, parcel := parcel })]

/-- Every step keeps the memory in its canonical form: addresses strictly rising, and no byte listed that an unlisted address reads as. -/
def Obligations.MemoryKeptByStep : Prop := ∀ s t : State, MemOk s → step s = .next t → MemOk t

/-- Right after reset the clock is 0, nothing but the reset step is due and no context, team or die is in service; where the boot ROM
verifies the firmware that is there, the reset step makes the shipped contract and sends every die its join, and where it does not, no die
joins and the mailbox says so (R280, R314, R315, R324). The power cap, the clock rate and the watchdog limit are the
model's choice where the spec gives no reset value (log entry 2), and so are memory with nothing listed (log entry 1), the ranges that the dies
offer at reset (log entry 51) and the kind of the mailbox message (log entry 62). -/
def Obligations.ResetState : Prop :=
  State.reset.clock = 0 ∧ State.reset.mem = [] ∧ MemOk State.reset ∧ State.reset.cur = none ∧ State.reset.ctxs = [] ∧
    State.reset.warps = [] ∧ State.reset.teams = [] ∧ State.reset.dies = [] ∧
    State.reset.agenda = [{ due := 0, prio := 0, ev := .packageReset }] ∧
    ∃ t, step State.reset = .next t ∧ t.clock = 0 ∧ MemOk t ∧ t.powerCap = 3400 ∧ t.mhz = 2700 ∧ t.watchLimit = 4294967296 ∧
      (Config.firmwareVerifies Config.shippedFirmware = true → t.firmwareOk = true ∧ t.contract = 0x10010101 ∧ t.msgs = [] ∧
        ∀ site, site < 8 → { due := 0, prio := prioResult, ev := .dieJoin site {} } ∈ t.agenda) ∧
      (Config.firmwareVerifies Config.shippedFirmware = false → t.firmwareOk = false ∧ t.msgs = [.mailbox 4 []] ∧
        ∀ a ∈ t.agenda, ∀ site o, a.ev ≠ .dieJoin site o)

namespace Sys2Proof.Stated

/-- The relative target of an instruction, if it has one. -/
def relTarget : Instr → Option Int
  | .bra _ o => some o.toInt
  | .brt _ o _ => some o.toInt
  | .brf _ o _ => some o.toInt
  | .yieldc _ o _ => some o.toInt
  | _ => none

/-- A relative target outside the overlay (R238, R250). -/
def outside (i : Instr) (x : Iss) : Prop := ∃ o, relTarget i = some o ∧ (x.relative o < 0 ∨ 32767 < x.relative o)

end Sys2Proof.Stated

/-- Every encoded instruction takes the traps of the shared checks in the order of R332: the failures of its prefixes and of its relative
target by their codes (class 1) whatever the mask, then with an active lane the supervisor mark and a space-15 pointer outside a supervisor
context (class 2), a register or tile that does not resolve (class 3), and a stale latch (class 4). -/
def Obligations.FaultsByClass : Prop :=
  ∀ (i : Instr) (s : State) (x : Iss), i.encoded = true → issOf i s = some x →
    (∀ c off, prefixFailure x.info x.g = some (c, off) → exec i s = .next (x.decodeTrap s c off)) ∧
    (prefixFailure x.info x.g = none →
      (outside i x → exec i s = .next (x.decodeTrap s 8 (x.len - 2))) ∧
      (¬ outside i x → x.mask ≠ 0 →
        let sup := x.info.sup = true ∧ x.ctx.sup = false
        (sup → exec i s = .next (x.trap s { cls := 2, code := 1, lanes := maskOf x.readLanes })) ∧
        (¬ sup →
          (∀ l ea, x.priv15 s = some (l, ea) → exec i s = .next (x.trap s { cls := 2, code := 2, addr := ea, lanes := maskOf l })) ∧
          (x.priv15 s = none →
            (∀ c n, x.regFault = some (c, n) →
              exec i s = .next (x.trap s { cls := 3, code := c, detail := n, lanes := maskOf x.readLanes })) ∧
            (x.regFault = none → x.staleLatches ≠ 0 →
              exec i s = .next (x.trap s { cls := 4, code := 1, detail := x.staleLatches, lanes := maskOf x.readLanes }))))))

/-- A trap freezes the strand with its PC at the group and posts its record, a flit over the spoke that reaches the hub 60 clocks a hop later and
what holds it up (R21, R116); its mask,
PARENT, logical clock and latches stand as they were; no register, predicate, k register, flag, split token or byte changes, and no access is
made: rows that an MMAG of the strand had gathered are discarded (R340), and where there are none everything else stands as it was. In a
fence window the trap is held and the strand waits (R330). -/
def Obligations.TrapFreezes : Prop :=
  ∀ (i : Instr) (s : State) (x : Iss) (t : TrapInfo), issOf i s = some x →
    amGet (x.trap s t).gathers x.st.uid = none ∧
    (amGet s.gathers x.st.uid = none → ¬ x.st.uid ∈ (s.cu (warpCu x.k)).gather →
    (x.st.fence = none →
      let sent := s.toHub x.cn x.site (s.favoured x.team)
      x.trap s t = { sent.1 with
        warps := amSet s.warps x.k { x.w.leave x.e s.clock with table := x.w.table.set x.e { x.st with
          state := .frozen, hold := .none, seq := none, trapPosted := false, succ := x.next, trapClass := t.cls, waitk := 0,
          ovlWait := none, waitSince := s.clock, atHome := false } }
        ctxs := amSet s.ctxs x.cn { x.ctx with inflight := x.ctx.inflight ++
          [(s.clock + sent.2, strandAgent x.k x.e, x.st.uid, s.recordOf x.k x.e { t with parcel := x.parcel })] }
        agenda := insAgenda s.agenda
          { due := s.clock + sent.2, prio := prioResult, ev := .trapRecordPost x.cn }
        cur := none }) ∧
    (∀ fw, x.st.fence = some fw →
      x.trap s t = { s with
        warps := amSet s.warps x.k { x.w with table := x.w.table.set x.e { x.st with
          fence := some { fw with trap := some (t.cls, x.next, s.recordOf x.k x.e { t with parcel := x.parcel }) }, hold := .busy x.st.uid,
          atHome := false } }
        cur := none }))

/-- The record of a trap of a group holds, bit for bit, the version under the contract, SEQ 0 until the hub numbers it, the context, grid,
team, warp, fibre, entry and PC of its strand, NEWPC 0, the class, code and mask, and the lanes, address, detail and parcel of the trap, with
every reserved bit 0 (R335). -/
def Obligations.TrapRecordFields : Prop :=
  ∀ (i : Instr) (s : State) (x : Iss) (t : TrapInfo), issOf i s = some x →
    let r := s.recordOf x.k x.e t
    bitsOf r 0 8 = s.contract.toNat % 256 ∧ bitsOf r 8 56 = 0 ∧ bitsOf r 64 32 = 0 ∧ bitsOf r 96 11 = 0 ∧ bitsOf r 107 6 = x.cn % 64 ∧
      bitsOf r 113 24 = x.grid.number % 2 ^ 24 ∧ bitsOf r 137 40 = x.team.index % 2 ^ 40 ∧ bitsOf r 177 4 = x.w.number % 16 ∧
      bitsOf r 181 2 = x.st.fibre % 4 ∧ bitsOf r 183 3 = x.e % 8 ∧ bitsOf r 186 23 = x.st.pc.toNat ∧ bitsOf r 209 23 = 0 ∧
      bitsOf r 232 8 = t.cls % 256 ∧ bitsOf r 240 16 = t.code % 65536 ∧ bitsOf r 256 32 = x.st.mask.toNat ∧
      bitsOf r 288 32 = t.lanes.toNat ∧ bitsOf r 320 64 = t.addr % 2 ^ 64 ∧ bitsOf r 384 32 = t.detail % 2 ^ 32 ∧
      bitsOf r 416 32 = t.parcel % 2 ^ 32 ∧ r < 2 ^ 448

/-- A group passes every shared check when its prefixes suit it, it has an active lane, it is not a supervisor instruction outside a
supervisor context and names no space-15 pointer there, every register it names lies in a granted window inside the warp's block, every tile
it names is one of the team's, every latch it reads is valid, and no register, k register, predicate or tile row it reads is poisoned
(R332, R338, R351, R352). -/
def Obligations.GroupPasses : Prop :=
  ∀ (i : Instr) (s : State) (x : Iss), issOf i s = some x → prefixFailure x.info x.g = none → x.mask ≠ 0 →
    (x.info.sup = true → x.ctx.sup = true) →
    (∀ p d, x.info.ptr = some (p, d) → x.ctx.sup = true ∨ ∀ l ∈ lanesOf x.mask, ptrSpace (x.src64 s p l).toNat ≠ 15) →
    (∀ v ∈ regsOf x.info.allSrcs ++ dstRegs x.info, ∃ r, x.w.reg x.st.fibre v = .ok r) →
    (∀ l, x.info.lane1 = some l → ∃ r, x.w.reg x.st.fibre l.1 = .ok r) →
    (∀ a ∈ x.info.tsrcs ++ x.info.tdst, a < 4 * x.team.warps.length) →
    (∀ j ∈ latchesOf x.info.allSrcs, (x.st.latches.getD j {}).valid = true) →
    (∀ v l, v ∈ regsOf x.info.srcs ++ regsOf x.info.firstSrcs ∨ x.info.lane1.map Prod.fst = some v → x.regPoison s v l = none) →
    (∀ k ∈ kRead x.info x.g, amGet x.w.kPoison k = none) →
    (∀ p ∈ pRead x.info x.g, amGet (x.w.fibre x.st.fibre).predPoison p = none) →
    (∀ a ∈ x.info.tsrcs, ∀ l ∈ lanesOf x.mask, s.poisonIn (x.team.tileAddr a + 128 * l) 128 = []) →
    Passes i s x

namespace Sys2Proof.Stated

/-- Every group of i that passes completes with a 32-bit result in D (R184): readable after lat clocks, from the latch after lb. -/
def Lane (i : Instr) (d : Nat) (n : BitVec 1) (lat lb : Nat) (f : Iss → State → Nat → Word) : Prop :=
  ∀ s x, Passes i s x → Gives i s fun t => LaneResult x s t d (decide (n = 1)) lat lb 0 (f x s)

/-- The same with the flags that the active lanes raise (R129): the result word and the flags of each lane. -/
def LaneF (i : Instr) (d : Nat) (n : BitVec 1) (lat lb : Nat) (f : Iss → State → Nat → Nat × Flags) : Prop :=
  ∀ s x, Passes i s x → Gives i s fun t =>
    LaneResult x s t d (decide (n = 1)) lat lb (orFlags x.mask fun l => (f x s l).2) fun l => BitVec.ofNat 32 (f x s l).1

/-- Every group of i that passes completes with a 64-bit result in the pair D (R90, R92). -/
def LaneW (i : Instr) (d : Nat) (n : BitVec 1) (f : Iss → State → Nat → DWord) : Prop :=
  ∀ s x, Passes i s x → Gives i s fun t => LaneResult64 x s t d (decide (n = 1)) 4 2 0 (f x s)

/-- A result of one source. -/
def Of1 (i : Instr) (a d : BitVec 7) (n : BitVec 1) (f : Word → Word) : Prop :=
  Lane i d.toNat n 4 2 fun x s l => f (x.src s a.toNat l)

/-- A result of two sources. -/
def Of2 (i : Instr) (a b d : BitVec 7) (n : BitVec 1) (lat lb : Nat) (f : Word → Word → Word) : Prop :=
  Lane i d.toNat n lat lb fun x s l => f (x.src s a.toNat l) (x.src s b.toNat l)

/-- A result of one source and the immediate X of the VI form. -/
def OfI (i : Instr) (a d : BitVec 7) (m : BitVec 8) (f : Word → Word → Word) : Prop :=
  Lane i d.toNat 0 4 2 fun x s l => f (x.src s a.toNat l) (viImm x.g m)

/-- A compact operation on D and the source of code c (R167). -/
def OfC (i : Instr) (c d : BitVec 5) (f : Word → Word → Word) : Prop :=
  Lane i d.toNat 0 4 2 fun x s l => f (x.src s d.toNat l) (x.src s (compactCode c) l)

/-- The results of R189 on 32-bit values. -/
def addR (a b : Word) : Word := BitVec.ofNat 32 (a.toNat + b.toNat)
def subR (a b : Word) : Word := BitVec.ofInt 32 ((a.toNat : Int) - b.toNat)
def mulR (a b : Word) : Word := BitVec.ofNat 32 (a.toNat * b.toNat)
def mulhS (a b : Word) : Word := BitVec.ofInt 32 ((a.toInt * b.toInt) / 2 ^ 32)
def mulhN (a b : Word) : Word := BitVec.ofNat 32 (a.toNat * b.toNat / 2 ^ 32)
def minS (a b : Word) : Word := if a.toInt ≤ b.toInt then a else b
def minN (a b : Word) : Word := if a.toNat ≤ b.toNat then a else b
def maxS (a b : Word) : Word := if a.toInt ≤ b.toInt then b else a
def maxN (a b : Word) : Word := if a.toNat ≤ b.toNat then b else a
def shlR (a n : Word) : Word := if 32 ≤ n.toNat then 0 else BitVec.ofNat 32 (a.toNat * 2 ^ n.toNat)
def shrR (a n : Word) : Word := if 32 ≤ n.toNat then 0 else BitVec.ofNat 32 (a.toNat / 2 ^ n.toNat)
def sarR (a n : Word) : Word :=
  if 32 ≤ n.toNat then (if a.getLsbD 31 then BitVec.allOnes 32 else 0) else BitVec.ofInt 32 (a.toInt / 2 ^ n.toNat)
def onesR (a : Word) : Word := BitVec.ofNat 32 ((List.range 32).countP fun i => a.getLsbD i)
def zerosR (a : Word) : Word := BitVec.ofNat 32 ((List.range 32).findIdx fun i => a.getLsbD (31 - i))

/-- Quotient and remainder of R190 from the operands read as integers, with the two defined corners. -/
def quotient (signed : Bool) (a b : Word) : Word :=
  if b = 0 then BitVec.ofNat 32 (2 ^ 32 - 1)
  else if signed then
    (if a.toInt = -(2 ^ 31) ∧ b.toInt = -1 then BitVec.ofInt 32 (-(2 ^ 31)) else BitVec.ofInt 32 (a.toInt.tdiv b.toInt))
  else BitVec.ofNat 32 (a.toNat / b.toNat)
def remainder (signed : Bool) (a b : Word) : Word :=
  if b = 0 then a
  else if signed then
    (if a.toInt = -(2 ^ 31) ∧ b.toInt = -1 then 0 else BitVec.ofInt 32 (a.toInt - a.toInt.tdiv b.toInt * b.toInt))
  else BitVec.ofNat 32 (a.toNat - a.toNat / b.toNat * b.toNat)

end Sys2Proof.Stated

/-- What the operand codes read in a lane (R169, R170): the window's register, a latch, 0, the lane index, the prefix operand; and the
immediate X of VI and KU with zero, one and two IMM prefixes (the IMM rule). -/
def Obligations.OperandCodes : Prop :=
  (∀ (x : Iss) (s : State) (c l : Nat), l < 32 →
    (∀ r, c < 120 → x.w.reg x.st.fibre c = .ok r → x.src s c l = s.word (regAddr x.k x.w r + 4 * l)) ∧
    (120 ≤ c → c < 124 → x.src s c l = spGet ((x.st.latches.getD (c - 120) {}).data) l) ∧
    x.src s 124 l = 0 ∧ x.src s 125 l = BitVec.ofNat 32 l ∧ x.src64 s 124 l = 0 ∧ x.src64 s 125 l = BitVec.ofNat 64 l ∧
    (c < 124 → x.src64 s c l = BitVec.ofNat 64 ((x.src s c l).toNat + 2 ^ 32 * (x.src s (c + 1) l).toNat)) ∧
    (∀ k, x.g.ksel = some k → x.src s 126 l = spGet x.w.k k.toNat ∧
      (k.toNat < 255 → x.src64 s 126 l = BitVec.ofNat 64 ((spGet x.w.k k.toNat).toNat + 2 ^ 32 * (spGet x.w.k (k.toNat + 1)).toNat))) ∧
    (∀ p, x.g.ksel = none → x.g.imm = [p] → x.src s 126 l = BitVec.ofInt 32 p.toInt ∧ x.src64 s 126 l = BitVec.ofInt 64 p.toInt) ∧
    (∀ p q, x.g.ksel = none → x.g.imm = [p, q] → x.src s 126 l = BitVec.ofInt 32 (p ++ q).toInt ∧
      x.src64 s 126 l = BitVec.ofInt 64 (p ++ q).toInt)) ∧
  (∀ (g : Pfx) (m : BitVec 8) (u : BitVec 6) (p q : BitVec 12),
    (g.imm = [] → viImm g m = BitVec.ofInt 32 m.toInt ∧ kuImm g u = BitVec.ofInt 32 u.toInt) ∧
    (g.imm = [p] → viImm g m = BitVec.ofInt 32 (p ++ m).toInt ∧ kuImm g u = BitVec.ofInt 32 (p ++ u).toInt) ∧
    (g.imm = [p, q] → viImm g m = p ++ q ++ m ∧ kuImm g u = BitVec.ofInt 32 (p ++ q ++ u).toInt))

/-- The integer and logic forms give the results of R189 in every active lane: D takes the result unless N is 1, one latch takes it with 0
in the inactive lanes, no flag is raised, and no other register, lane or byte changes. -/
def Obligations.IntegerResults : Prop :=
  ∀ (g : Pfx) (n : BitVec 1) (a b d : BitVec 7),
    Of1 (.mov g n a d) a d n id ∧
    Of2 (.iadd g n b a d) a b d n 4 2 addR ∧ Of2 (.isub g n b a d) a b d n 4 2 subR ∧ Of2 (.imul g n b a d) a b d n 4 2 mulR ∧
    Of2 (.imulh g n b a d 0) a b d n 4 2 mulhS ∧ Of2 (.imulh g n b a d 1) a b d n 4 2 mulhN ∧
    Of2 (.imin g n b a d 0) a b d n 4 2 minS ∧ Of2 (.imin g n b a d 1) a b d n 4 2 minN ∧
    Of2 (.imax g n b a d 0) a b d n 4 2 maxS ∧ Of2 (.imax g n b a d 1) a b d n 4 2 maxN ∧
    Of2 (.andV g n b a d) a b d n 4 2 (fun u v => u &&& v) ∧ Of2 (.orV g n b a d) a b d n 4 2 (fun u v => u ||| v) ∧
    Of2 (.xorV g n b a d) a b d n 4 2 (fun u v => u ^^^ v) ∧
    Of2 (.shl g n b a d) a b d n 4 2 shlR ∧ Of2 (.shr g n b a d) a b d n 4 2 shrR ∧ Of2 (.sar g n b a d) a b d n 4 2 sarR ∧
    Lane (.imad g n b a d) d.toNat n 4 2 (fun x s l =>
      BitVec.ofNat 32 ((x.src s a.toNat l).toNat * (x.src s b.toNat l).toNat + (x.src s d.toNat l).toNat)) ∧
    Of1 (.popc g a d) a d 0 onesR ∧ Of1 (.clz g a d) a d 0 zerosR ∧ Of1 (.brev g a d) a d 0 BitVec.reverse

/-- IDIV and IREM in both types give the quotient and remainder of R190, 16 clocks later, with the defined results for a zero divisor and
for -2^31 by -1. -/
def Obligations.DivisionResults : Prop :=
  ∀ (g : Pfx) (n : BitVec 1) (a b d : BitVec 7),
    Of2 (.idivS32 g n b a d) a b d n 16 16 (quotient true) ∧ Of2 (.idivN32 g n b a d) a b d n 16 16 (quotient false) ∧
    Of2 (.iremS32 g n b a d) a b d n 16 16 (remainder true) ∧ Of2 (.iremN32 g n b a d) a b d n 16 16 (remainder false)

/-- The 64-bit integer forms, on pairs with w = 64 and a 32-bit shift count (R189), for every pair the field admits. -/
def Obligations.WideResults : Prop :=
  ∀ (g : Pfx) (n : BitVec 1) (a b d : BitVec 7) (m : BitVec 8), dst64Ok d = true →
    LaneW (.iaddS64 g n b a d) d.toNat n (fun x s l => BitVec.ofNat 64 ((x.src64 s a.toNat l).toNat + (x.src64 s b.toNat l).toNat)) ∧
    LaneW (.isubS64 g n b a d) d.toNat n (fun x s l => BitVec.ofInt 64 (((x.src64 s a.toNat l).toNat : Int) - (x.src64 s b.toNat l).toNat)) ∧
    LaneW (.imulS64 g n b a d) d.toNat n (fun x s l => BitVec.ofNat 64 ((x.src64 s a.toNat l).toNat * (x.src64 s b.toNat l).toNat)) ∧
    LaneW (.shlS64 g n b a d) d.toNat n (fun x s l =>
      if 64 ≤ (x.src s b.toNat l).toNat then 0 else BitVec.ofNat 64 ((x.src64 s a.toNat l).toNat * 2 ^ (x.src s b.toNat l).toNat)) ∧
    LaneW (.shrS64 g n b a d) d.toNat n (fun x s l =>
      if 64 ≤ (x.src s b.toNat l).toNat then 0 else BitVec.ofNat 64 ((x.src64 s a.toNat l).toNat / 2 ^ (x.src s b.toNat l).toNat)) ∧
    LaneW (.sarS64 g n b a d) d.toNat n (fun x s l =>
      if 64 ≤ (x.src s b.toNat l).toNat then (if (x.src64 s a.toNat l).getLsbD 63 then BitVec.allOnes 64 else 0)
      else BitVec.ofInt 64 ((x.src64 s a.toNat l).toInt / 2 ^ (x.src s b.toNat l).toNat)) ∧
    LaneW (.iaddS64Immediate g m a d) d.toNat 0 (fun x s l => BitVec.ofInt 64 ((x.src64 s a.toNat l).toInt + (viImm x.g m).toInt))

/-- The VI forms apply the operation of R189 to A and the immediate X, and RNG gives the random word of R151 from the seed the launch
latched, the immediate and A. -/
def Sys2Proof.Stated.ImmediateResults : Prop :=
  ∀ (g : Pfx) (m : BitVec 8) (a d : BitVec 7),
    Lane (.movImmediate g m d) d.toNat 0 4 2 (fun x _ _ => viImm x.g m) ∧
    OfI (.iaddImmediate g m a d) a d m addR ∧ OfI (.isubImmediate g m a d) a d m subR ∧ OfI (.imulImmediate g m a d) a d m mulR ∧
    OfI (.iminImmediate g m a d 0) a d m minS ∧ OfI (.iminImmediate g m a d 1) a d m minN ∧
    OfI (.imaxImmediate g m a d 0) a d m maxS ∧ OfI (.imaxImmediate g m a d 1) a d m maxN ∧
    OfI (.andImmediate g m a d) a d m (fun u v => u &&& v) ∧ OfI (.orImmediate g m a d) a d m (fun u v => u ||| v) ∧
    OfI (.xorImmediate g m a d) a d m (fun u v => u ^^^ v) ∧ OfI (.shlImmediate g m a d) a d m shlR ∧
    OfI (.shrImmediate g m a d) a d m shrR ∧ OfI (.sarImmediate g m a d) a d m sarR ∧
    Lane (.rng g m a d) d.toNat 0 4 2 (fun x s l => riser x.grid.seed (viImm x.g m) (x.src s a.toNat l))

/-- The compact integer forms apply the operation of R189 to D and the source that S names, the constant 1 being the integer 1 (R41, R167),
and write D. -/
def Sys2Proof.Stated.CompactResults : Prop :=
  ∀ (g : Pfx) (c d : BitVec 5),
    Lane (.movCompact g c d) d.toNat 0 4 2 (fun x s l => x.src s (compactCode c) l) ∧
    OfC (.iaddCompact g c d) c d addR ∧ OfC (.isubCompact g c d) c d subR ∧ OfC (.imulCompact g c d) c d mulR ∧
    OfC (.iminCompact g c d) c d minS ∧ OfC (.imaxCompact g c d) c d maxS ∧ OfC (.andCompact g c d) c d (fun u v => u &&& v) ∧
    OfC (.orCompact g c d) c d (fun u v => u ||| v) ∧ OfC (.xorCompact g c d) c d (fun u v => u ^^^ v) ∧
    OfC (.shlCompact g c d) c d shlR ∧ OfC (.shrCompact g c d) c d shrR ∧
    ∀ (x : Iss) (s : State) (l : Nat), (∀ j : BitVec 5, j.toNat < 24 → x.src s (compactCode j) l = x.src s j.toNat l) ∧
      (∀ j : BitVec 5, 24 ≤ j.toNat → j.toNat < 28 → x.src s (compactCode j) l = x.src s (96 + j.toNat) l) ∧
      x.src s (compactCode 28) l = x.src s 126 l ∧ x.src s (compactCode 29) l = BitVec.ofNat 32 l ∧
      x.src s (compactCode 30) l = 1 ∧ x.src s (compactCode 31) l = 0

/-- The immediate and compact forms write the results of their base instructions (R184, R185, R186). -/
def Obligations.ImmediateForms : Prop := ImmediateResults ∧ CompactResults

namespace Sys2Proof.Stated

/-- A float result of one source, by its pattern. -/
def FOf1 (i : Instr) (a d : BitVec 7) (lat lb : Nat) (f : Nat → Nat × Flags) : Prop :=
  LaneF i d.toNat 0 lat lb fun x s l => f (x.src s a.toNat l).toNat

/-- A float result of two sources. -/
def FOf2 (i : Instr) (a b d : BitVec 7) (n : BitVec 1) (lat lb : Nat) (f : Nat → Nat → Nat × Flags) : Prop :=
  LaneF i d.toNat n lat lb fun x s l => f (x.src s a.toNat l).toNat (x.src s b.toNat l).toNat

/-- A fused multiply-add, D its addend. -/
def FOf3 (i : Instr) (a b d : BitVec 7) (n : BitVec 1) (f : Nat → Nat → Nat → Nat × Flags) : Prop :=
  LaneF i d.toNat n 4 2 fun x s l => f (x.src s a.toNat l).toNat (x.src s b.toNat l).toNat (x.src s d.toNat l).toNat

/-- A float result of one source and an immediate pattern. -/
def FOfI (i : Instr) (a d : BitVec 7) (m : BitVec 8) (f : Nat → Nat → Nat × Flags) : Prop :=
  LaneF i d.toNat 0 4 2 fun x s l => f (x.src s a.toNat l).toNat (viImm x.g m).toNat

/-- A compact float result: the constant 1 is the float 1.0 (R41). -/
def FOfC (i : Instr) (c d : BitVec 5) (f : Nat → Nat → Nat × Flags) : Prop :=
  LaneF i d.toNat 0 4 2 fun x s l => f (x.src s d.toNat l).toNat (if c = 30 then 0x3F800000 else (x.src s (compactCode c) l).toNat)

/-- The rounding modes by code (R127). -/
def roundings : List (BitVec 2 × Mode) := [(0, .rne), (1, .rz), (2, .ru), (3, .rd)]

/-- A selection of R131 by the keys of R130 at width w: the lesser or greater pattern, and no flag. -/
def lesser (w : Nat) (a b : Nat) : Nat × Flags := (if totalLess w b a then b else a, 0)
def greater (w : Nat) (a b : Nat) : Nat × Flags := (if totalLess w a b then b else a, 0)

/-- Both BF16 halves on their own, the flags ORed (R192). -/
def onHalves (f : Nat → Nat → Nat × Flags) (a b : Nat) : Nat × Flags :=
  ((f (a % 2 ^ 16) (b % 2 ^ 16)).1 + 2 ^ 16 * (f (a / 2 ^ 16) (b / 2 ^ 16)).1,
   (f (a % 2 ^ 16) (b % 2 ^ 16)).2 ||| (f (a / 2 ^ 16) (b / 2 ^ 16)).2)

end Sys2Proof.Stated

/-- The binary32 forms round in the mode their field names (R191); the VI and compact forms round to nearest even; FDIV and FSQRT take 16
clocks; each raises the flags of its active lanes with its result (R129). -/
def Sys2Proof.Stated.FloatResults : Prop :=
  ∀ (g : Pfx) (n : BitVec 1) (a b d : BitVec 7) (m : BitVec 8) (c e : BitVec 5),
    (∀ r ∈ roundings,
      FOf2 (.fadd g n b a d r.1) a b d n 4 2 (fAdd fmt32 r.2) ∧ FOf2 (.fsub g n b a d r.1) a b d n 4 2 (fSub fmt32 r.2) ∧
      FOf2 (.fmul g n b a d r.1) a b d n 4 2 (fMul fmt32 r.2) ∧ FOf3 (.ffma g n b a d r.1) a b d n (fFma fmt32 r.2) ∧
      FOf2 (.fdiv g n b a d r.1) a b d n 16 16 (fDiv fmt32 r.2) ∧ FOf1 (.fsqrt g r.1 a d) a d 16 16 (fSqrt fmt32 r.2)) ∧
    FOfI (.faddImmediate g m a d) a d m (fAdd fmt32 .rne) ∧ FOfI (.fmulImmediate g m a d) a d m (fMul fmt32 .rne) ∧
    FOfC (.faddCompact g c e) c e (fAdd fmt32 .rne) ∧ FOfC (.fsubCompact g c e) c e (fSub fmt32 .rne) ∧
    FOfC (.fmulCompact g c e) c e (fMul fmt32 .rne)

/-- The selections FMIN and FMAX return one operand's bits by the total order and raise no flag; FABS clears and FNEG inverts bit 31
(R131, R191). -/
def Sys2Proof.Stated.FloatSelections : Prop :=
  ∀ (g : Pfx) (n : BitVec 1) (a b d : BitVec 7) (m : BitVec 8) (c e : BitVec 5),
    FOf2 (.fmin g n b a d) a b d n 4 2 (lesser 32) ∧ FOf2 (.fmax g n b a d) a b d n 4 2 (greater 32) ∧
    FOfI (.fminImmediate g m a d) a d m (lesser 32) ∧ FOfI (.fmaxImmediate g m a d) a d m (greater 32) ∧
    FOfC (.fminCompact g c e) c e (lesser 32) ∧ FOfC (.fmaxCompact g c e) c e (greater 32) ∧
    Lane (.fabs g a d) d.toNat 0 4 2 (fun x s l => x.src s a.toNat l &&& 0x7FFFFFFF) ∧
    Lane (.fneg g a d) d.toNat 0 4 2 (fun x s l => x.src s a.toNat l ^^^ 0x80000000)

/-- Float arithmetic and selection write the rounded results with their flags. -/
def Obligations.FloatForms : Prop := FloatResults ∧ FloatSelections

/-- The packed BF16 forms compute both halves on their own with round to nearest even (R192), and the elementary forms give their result
after 16 clocks (R133, R187), the correctly rounded value where the model determines it (log entry 7). -/
def Sys2Proof.Stated.PackedAndElementaryResults : Prop :=
  ∀ (g : Pfx) (n : BitVec 1) (a b d : BitVec 7),
    FOf2 (.faddBf16x2 g n b a d) a b d n 4 2 (onHalves (fAdd fmtBf .rne)) ∧
    FOf2 (.fsubBf16x2 g n b a d) a b d n 4 2 (onHalves (fSub fmtBf .rne)) ∧
    FOf2 (.fmulBf16x2 g n b a d) a b d n 4 2 (onHalves (fMul fmtBf .rne)) ∧
    FOf3 (.ffmaBf16x2 g n b a d) a b d n (fun u v w =>
      ((fFma fmtBf .rne (u % 2 ^ 16) (v % 2 ^ 16) (w % 2 ^ 16)).1 + 2 ^ 16 * (fFma fmtBf .rne (u / 2 ^ 16) (v / 2 ^ 16) (w / 2 ^ 16)).1,
       (fFma fmtBf .rne (u % 2 ^ 16) (v % 2 ^ 16) (w % 2 ^ 16)).2 ||| (fFma fmtBf .rne (u / 2 ^ 16) (v / 2 ^ 16) (w / 2 ^ 16)).2)) ∧
    FOf2 (.fminBf16x2 g n b a d) a b d n 4 2 (onHalves (lesser 16)) ∧ FOf2 (.fmaxBf16x2 g n b a d) a b d n 4 2 (onHalves (greater 16)) ∧
    FOf1 (.rcp g a d) a d 16 16 fRcp ∧ FOf1 (.rsq g a d) a d 16 16 fRsq ∧ FOf1 (.exp2 g a d) a d 16 16 fExp2 ∧
    FOf1 (.log2 g a d) a d 16 16 fLog2 ∧ FOf1 (.sin g a d) a d 16 16 fSin ∧ FOf1 (.cos g a d) a d 16 16 fCos

/-- CVT gives the conversion of R135 from the source type to the destination type, on a pair where the type is 64-bit (R193, R194); NDEC and
NENC decode and encode under a valid format word of their k register (R195, R196), and an invalid one traps (class 7, code 1). -/
def Sys2Proof.Stated.ConversionResults : Prop :=
  ∀ (g : Pfx) (a d : BitVec 7),
    (∀ (r : BitVec 2 × Mode) (st dt : BitVec 4), r ∈ roundings → (wideType dt.toNat = true → dst64Ok d = true) →
      ∀ s x, Passes (.cvt g r.1 st a d dt) s x → Gives (.cvt g r.1 st a d dt) s fun t =>
        let v := fun l => convert dt.toNat st.toNat r.2 (if wideType st.toNat then (x.src64 s a.toNat l).toNat else (x.src s a.toNat l).toNat)
        if wideType dt.toNat then LaneResult64 x s t d.toNat false 4 2 (orFlags x.mask fun l => (v l).2) (fun l => BitVec.ofNat 64 (v l).1)
        else LaneResult x s t d.toNat false 4 2 (orFlags x.mask fun l => (v l).2) fun l => BitVec.ofNat 32 (v l).1) ∧
    (∀ (n : BitVec 2) s x, Passes (.ndec g n a d) s x → fmtValid x.formatWord = true →
      Gives (.ndec g n a d) s fun t => LaneResult x s t d.toNat false 4 2 0 fun l =>
        BitVec.ofNat 32 (decodeNarrow ((x.src s a.toNat l).toNat / 2 ^ (8 * n.toNat) % 256) x.formatWord)) ∧
    (∀ s x, Passes (.nenc g a d) s x → fmtValid x.formatWord = true →
      Gives (.nenc g a d) s fun t => LaneResult x s t d.toNat false 4 2
        (orFlags x.mask fun l => (encodeNarrow (unpack fmt32 (x.src s a.toNat l).toNat) x.formatWord).2)
        fun l => BitVec.ofNat 32 (encodeNarrow (unpack fmt32 (x.src s a.toNat l).toNat) x.formatWord).1) ∧
    (∀ (n : BitVec 2) s x, AtIssue (.ndec g n a d) s x → fmtValid x.formatWord = false →
      exec (.ndec g n a d) s = .next (x.trap s { cls := 7, code := 1, detail := (lowLane x.mask).getD 0, lanes := x.mask })) ∧
    (∀ s x, AtIssue (.nenc g a d) s x → fmtValid x.formatWord = false →
      exec (.nenc g a d) s = .next (x.trap s { cls := 7, code := 1, detail := (lowLane x.mask).getD 0, lanes := x.mask }))

/-- Packed halves, elementary functions and conversions write their results. -/
def Obligations.ConversionForms : Prop := PackedAndElementaryResults ∧ ConversionResults

namespace Sys2Proof.Stated

/-- The comparisons by code (R173, R197). -/
def compares : List (BitVec 4 × (Int → Int → Bool)) :=
  [(0, fun a b => decide (a = b)), (1, fun a b => decide (a ≠ b)), (2, fun a b => decide (a < b)), (3, fun a b => decide (a ≤ b)),
   (4, fun a b => decide (a > b)), (5, fun a b => decide (a ≥ b))]

/-- The value of a predicate of the fibre in a lane. -/
def holds (x : Iss) (p : BitVec 4) (l : Nat) : Bool := (x.w.pred x.st.fibre p.toNat).getLsbD l

end Sys2Proof.Stated

/-- ICMP compares in its type and FCMP by the total order and bit equality (R130, R197): the active lanes of the predicate take the answer
2 clocks later, the others and everything else keep their value, and nothing is pushed. -/
def Obligations.CompareResults : Prop :=
  ∀ (g : Pfx) (a b : BitVec 7) (p : BitVec 4) (c : BitVec 4 × (Int → Int → Bool)), c ∈ compares →
    (∀ s x, Passes (.icmp g c.1 b a p 0) s x → Gives (.icmp g c.1 b a p 0) s fun t =>
      PredResult x s t p.toNat fun l => c.2 (x.src s a.toNat l).toInt (x.src s b.toNat l).toInt) ∧
    (∀ s x, Passes (.icmp g c.1 b a p 1) s x → Gives (.icmp g c.1 b a p 1) s fun t =>
      PredResult x s t p.toNat fun l => c.2 (x.src s a.toNat l).toNat (x.src s b.toNat l).toNat) ∧
    (∀ s x, Passes (.icmp g c.1 b a p 2) s x → Gives (.icmp g c.1 b a p 2) s fun t =>
      PredResult x s t p.toNat fun l => c.2 (x.src64 s a.toNat l).toInt (x.src64 s b.toNat l).toInt) ∧
    (∀ s x, Passes (.icmp g c.1 b a p 3) s x → Gives (.icmp g c.1 b a p 3) s fun t =>
      PredResult x s t p.toNat fun l => c.2 (x.src64 s a.toNat l).toNat (x.src64 s b.toNat l).toNat) ∧
    (∀ s x, Passes (.fcmp g c.1 b a p) s x → Gives (.fcmp g c.1 b a p) s fun t =>
      PredResult x s t p.toNat fun l => c.2 (totalKey 32 (x.src s a.toNat l).toNat) (totalKey 32 (x.src s b.toNat l).toNat))

/-- PLOP is VX 0x05 with its fields as R198 places them, and gives pd the bit 2 × pa + pb of its truth table in every active lane; the
sources are read first, so that the three predicates may be the same. -/
def Obligations.PlopResult : Prop :=
  (∀ f b a p : BitVec 4, (Instr.plop {} f b a p).wf = true →
    decode (parcelHalves (7 + 5 * 2 ^ 4 + p.toNat * 2 ^ 10 + a.toNat * 2 ^ 14 + b.toNat * 2 ^ 21 + f.toNat * 2 ^ 28)) = .ok (.plop {} f b a p) 2) ∧
  ∀ (g : Pfx) (f b a p : BitVec 4) (s : State) (x : Iss), Passes (.plop g f b a p) s x →
    Gives (.plop g f b a p) s fun t => PredResult x s t p.toNat fun l => f.getLsbD (2 * (holds x a l).toNat + (holds x b l).toNat)

/-- P2V is VX 0x3A with A = 124, AUX = pa and FN = 0; an AUX of 12 to 15 traps at decode; it writes 1 in each active lane where pa holds and
0 where it does not (R199). -/
def Obligations.P2vResult : Prop :=
  (∀ (p : BitVec 4) (d : BitVec 7), dstOk d = true →
    let w := parcelHalves (7 + 0x3A * 2 ^ 4 + d.toNat * 2 ^ 10 + 124 * 2 ^ 17 + p.toNat * 2 ^ 24)
    (p.toNat < 12 → decode w = .ok (.p2v {} p d) 2) ∧ (12 ≤ p.toNat → ∃ parcel, decode w = .trap 2 0 parcel)) ∧
  ∀ (g : Pfx) (p : BitVec 4) (d : BitVec 7), Lane (.p2v g p d) d.toNat 0 4 2 fun x _ l => if holds x p l then 1 else 0

/-- The SHFL family gives each active lane A of the lane that B picks, where that lane exists and is active, and its own A elsewhere, from
values read before any lane writes (R200). -/
def Sys2Proof.Stated.ShuffleResults : Prop :=
  ∀ (g : Pfx) (n : BitVec 1) (a b d : BitVec 7),
    let picked (x : Iss) (s : State) (l : Nat) (j : Int) : Word :=
      if 0 ≤ j ∧ j ≤ 31 ∧ x.mask.getLsbD j.toNat = true then x.src s a.toNat j.toNat else x.src s a.toNat l
    Lane (.shfl g n b a d) d.toNat n 6 6 (fun x s l => picked x s l (((x.src s b.toNat l).toNat % 32 : Nat) : Int)) ∧
    Lane (.shflUp g n b a d) d.toNat n 6 6 (fun x s l => picked x s l ((l : Int) - (x.src s b.toNat l).toNat)) ∧
    Lane (.shflDn g n b a d) d.toNat n 6 6 (fun x s l => picked x s l ((l : Int) + (x.src s b.toNat l).toNat)) ∧
    Lane (.shflXor g n b a d) d.toNat n 6 6 (fun x s l => picked x s l ((l ^^^ (x.src s b.toNat l).toNat % 32 : Nat) : Int))

/-- VOTE gives every active lane the mask m of active lanes in which the predicate holds (BALLOT), 1 where m is not empty (ANY), or 1 where
m is the active mask (ALL), else 0 (R201). -/
def Sys2Proof.Stated.VoteResults : Prop :=
  ∀ (g : Pfx) (p : BitVec 4) (d : BitVec 7),
    let m (x : Iss) : Word := x.mask &&& x.w.pred x.st.fibre p.toNat
    Lane (.vote g 0 p d) d.toNat 0 6 6 (fun x _ _ => m x) ∧
    Lane (.vote g 1 p d) d.toNat 0 6 6 (fun x _ _ => if m x ≠ 0 then 1 else 0) ∧
    Lane (.vote g 2 p d) d.toNat 0 6 6 (fun x _ _ => if m x = x.mask then 1 else 0)

namespace Sys2Proof.Stated

/-- The tree of R150 over lanes lo to lo + 2^n - 1: the combination of its halves where both are present, the one that is present, or
nothing; with the flags of its nodes. -/
def tree (c : Word → Word → Word × Flags) (v : Nat → Option Word) : Nat → Nat → Option Word × Flags
  | 0, lo => (v lo, 0)
  | n + 1, lo =>
    match tree c v n lo, tree c v n (lo + 2 ^ n) with
    | (some a, f), (some b, h) => (some (c a b).1, (c a b).2 ||| f ||| h)
    | (some a, f), (none, h) => (some a, f ||| h)
    | (none, f), (r, h) => (r, f ||| h)

/-- The operations of REDUX by FN (R202); FADD, of code 8, rounds by its mode. -/
def reductions : List (BitVec 4 × (Word → Word → Word × Flags)) :=
  [(0, fun a b => (addR a b, 0)), (1, fun a b => (minS a b, 0)), (2, fun a b => (minN a b, 0)), (3, fun a b => (maxS a b, 0)),
   (4, fun a b => (maxN a b, 0)), (5, fun a b => (a &&& b, 0)), (6, fun a b => (a ||| b, 0)), (7, fun a b => (a ^^^ b, 0)),
   (9, fun a b => (BitVec.ofNat 32 (lesser 32 a.toNat b.toNat).1, 0)), (10, fun a b => (BitVec.ofNat 32 (greater 32 a.toNat b.toNat).1, 0))]

/-- REDUX with a combination writes the root of the tree to every active lane and raises the flags of its nodes. -/
def ReduxGives (i : Instr) (a d : BitVec 7) (c : Word → Word → Word × Flags) : Prop :=
  ∀ s x, Passes i s x → Gives i s fun t => ∃ v fl,
    tree c (fun l => if x.mask.getLsbD l then some (x.src s a.toNat l) else none) 5 0 = (some v, fl) ∧
      LaneResult x s t d.toNat false 12 12 fl fun _ => v

/-- The KU operations by code (R204), with the effects of R189. -/
def uniforms : List (BitVec 4 × (Word → Word → Word)) :=
  [(0, fun _ b => b), (1, addR), (2, subR), (3, mulR), (4, fun a b => a &&& b), (5, fun a b => a ||| b), (6, fun a b => a ^^^ b),
   (7, shlR), (8, shrR), (9, sarR), (10, minS), (11, minN), (12, maxS), (13, maxN)]

end Sys2Proof.Stated

/-- REDUX combines the active lanes' values in the fixed pairwise tree of R150 and gives every active lane the root; FADD rounds at every
node in its mode and raises the flags of every node (R202). -/
def Sys2Proof.Stated.ReduxResults : Prop :=
  ∀ (g : Pfx) (a d : BitVec 7),
    (∀ r ∈ reductions, ReduxGives (.redux g r.1 0 a d) a d r.2) ∧
    ∀ r ∈ roundings, ReduxGives (.redux g 8 r.1 a d) a d fun u v =>
      (BitVec.ofNat 32 (fAdd fmt32 r.2 u.toNat v.toNat).1, (fAdd fmt32 r.2 u.toNat v.toNat).2)

/-- The instructions that read other lanes give what the lanes named hold. -/
def Obligations.CrossLaneForms : Prop := ShuffleResults ∧ VoteResults ∧ ReduxResults

/-- The uniform operations write their k register once for the warp, from k registers read at issue (R203, R204), and KRDL copies one lane
of a vector register, active or not (R205); no other register, predicate, flag or byte changes. -/
def Obligations.UniformResults : Prop :=
  ∀ (g : Pfx) (k d : BitVec 8) (m : BitVec 6) (n : BitVec 5) (a : BitVec 7),
    (∀ u ∈ uniforms,
      (∀ s x, Passes (.kuRegisterOp g k d u.1) s x → Gives (.kuRegisterOp g k d u.1) s fun t =>
        KResult x s t d.toNat 2 (u.2 (spGet x.w.k d.toNat) (spGet x.w.k k.toNat))) ∧
      (∀ s x, Passes (.kuImmediateOp g m k d u.1) s x → Gives (.kuImmediateOp g m k d u.1) s fun t =>
        KResult x s t d.toNat 2 (u.2 (spGet x.w.k k.toNat) (kuImm x.g m)))) ∧
    ∀ s x r, Passes (.krdl g n a d) s x → x.w.reg x.st.fibre a.toNat = .ok r → Gives (.krdl g n a d) s fun t =>
      KResult x s t d.toNat 4 (s.word (regAddr x.k x.w r + 4 * n.toNat))

/-- An instruction whose guard leaves no lane reads nothing, takes no execution fault and makes no access: one without a vector destination
only moves the PC past the group; one with a destination changes no byte and makes no access either (R333). -/
def Obligations.EmptyMask : Prop :=
  ∀ (i : Instr) (s : State) (x : Iss), i.encoded = true → issOf i s = some x → prefixFailure x.info x.g = none → ¬ outside i x →
    x.st.mask ≠ 0 → x.mask = 0 →
    (x.info.dst = none → Gives i s fun t => MovedTo x s t x.next) ∧
    Gives i s fun t => (∀ a, t.byte a = s.byte a) ∧ t.reqs = s.reqs ∧ t.loads = s.loads ∧ t.ctxs = s.ctxs

namespace Sys2Proof.Stated

/-- An access that a request carries to its home: an event of the memory order, or a release to the strand's own registers or tiles; the
others are done at issue (R154, R215). -/
def sends (rel : Bool) (a : LaneAcc) : Bool := match a.at0 with | .mem _ _ _ own => !own || rel | _ => false

/-- Nothing holds an access group back at issue: every lane reaches bytes (no fault, no translation miss, no warp in operation), no pending
write or matrix operand covers what it touches (R102, R267), no tile element it loads is poisoned (R352), no home that a space-5 load reads is
contained (R360), and in a deterministic grid its request has come to the homes and nothing it touches conflicts (R163; that a conflict is
judged there is log entry 41). -/
def Clear (x : Iss) (s : State) (l : List LaneAcc) (n : Nat) (write commut : Bool) : Prop :=
  (∀ a ∈ l, (∃ p va sp own, a.at0 = .mem p va sp own) ∨ (∃ o, a.at0 = .param o) ∨ ∃ v o, a.at0 = .code v o) ∧
  x.ownWait s l write = false ∧ (write = true → s.operandWait x.cu l n = false) ∧ (write = false → Iss.spacePoison s l n = []) ∧
  (∀ a ∈ l, ∀ v o, a.at0 = .code v o → ∀ va ∈ x.codeReads s v o, s.lost x.site x.cn va = false) ∧
  (x.grid.det = true → ∀ a ∈ l, ∀ p va sp, a.at0 = .mem p va sp false →
    x.st.atHome = true ∧ s.detConflict x.cn x.fibreId x.st p n write commut = none)

/-- The request of a lane's access on its way to its home: its place, bytes and action, its agent and clock, the load it reports to, the
scope it acquires and whether it waits as a release for the acknowledgements of what came before identity first (R211, R215). -/
def SentAs (x : Iss) (s t : State) (first id : Nat) (a : LaneAcc) (n : Nat) (act : Act) (ld acq : Option Nat) (rel : Bool) : Prop :=
  ∃ p va sp own r, a.at0 = .mem p va sp own ∧ amGet t.reqs id = some r ∧ r.addr = p ∧ r.bytes = n ∧ r.act = act ∧ r.lane = a.lane ∧
    r.ctx = x.cn ∧ r.cu = x.cu ∧ r.warp = x.k ∧ r.uid = x.st.uid ∧ r.kin = x.st.kin ∧ r.c = x.st.c ∧ r.load = ld ∧ r.acq = acq ∧
    r.own = own ∧ r.done = false ∧ r.arrived = false ∧ (r.rel.isSome = true ↔ rel = true ∧ s.unacked x.st first = true) ∧
    (r.rel = none → ∃ e ∈ t.agenda, e.ev = .homeSliceRequest id)

/-- What the issue of accesses leaves alone: the clock, every line, lease copy, horizon, context, grid, team and copy, every earlier request,
every other warp, and of its own warp the k registers, predicates, flags, window map and block; its strand keeps its mask, PARENT and state
and moves past the group. -/
def IssueFrame (x : Iss) (s t : State) : Prop :=
  t.clock = s.clock ∧ t.lines = s.lines ∧ t.l1 = s.l1 ∧ t.horLoc = s.horLoc ∧ t.horGal = s.horGal ∧ t.horDev = s.horDev ∧
    t.horSys = s.horSys ∧ t.ctxs = s.ctxs ∧ t.grids = s.grids ∧ t.teams = s.teams ∧ t.copies = s.copies ∧ t.rowFlags = s.rowFlags ∧
    t.cur = none ∧ (∀ id, id < s.nextId → amGet t.reqs id = amGet s.reqs id) ∧ (∀ k, k ≠ x.k → amGet t.warps k = amGet s.warps k) ∧
    ∃ v, amGet t.warps x.k = some v ∧ v.k = x.w.k ∧ v.fibres = x.w.fibres ∧ v.winmap = x.w.winmap ∧ v.block = x.w.block ∧
      v.blockBytes = x.w.blockBytes ∧ (∀ e, e ≠ x.e → v.strand e = x.w.strand e) ∧ (v.strand x.e).pc = x.next ∧
      (v.strand x.e).mask = x.st.mask ∧ (v.strand x.e).parent = x.st.parent ∧ (v.strand x.e).state = x.st.state

/-- What a group of loads or atomics leaves at issue: no byte changes; its load, of the next identity, names the destination, counts the
lanes still out and holds the values of those done at issue; the lanes' requests follow it in lane order; its latches wait for it (R92,
R211, R212). -/
def LoadIssued (x : Iss) (s t : State) (l : List LaneAcc) (n : Nat) (act : Nat → Act) (d : Nat) (wide signed : Bool) (acq : Option Nat)
    (rel : Bool) : Prop :=
  (∀ a, t.byte a = s.byte a) ∧ t.poison = s.poison ∧ IssueFrame x s t ∧
  (∃ ld, amGet t.loads s.nextId = some ld ∧ ld.warp = x.k ∧ ld.uid = x.st.uid ∧ ld.fibre = x.st.fibre ∧ ld.bytes = n ∧ ld.signed = signed ∧
    ld.kreg = none ∧ ld.left = (l.filter (sends rel)).length ∧
    (∀ r, d < 120 → x.w.reg x.st.fibre d = .ok r → ld.regs = some (r, wide)) ∧ (120 ≤ d → ld.regs = none) ∧
    ∀ a ∈ l, sends rel a = false → ∃ v, amGet ld.vals a.lane = some v) ∧
  (∀ j a, (l.filter (sends rel))[j]? = some a → SentAs x s t (s.nextId + 1) (s.nextId + 1 + j) a n (act a.lane) (some s.nextId) acq rel) ∧
  ∃ v, amGet t.warps x.k = some v ∧ ∃ q r, (v.strand x.e).latches = (if wide then q :: r :: x.st.latches.take 2 else q :: x.st.latches.take 3) ∧
    q.valid = true ∧ q.load = some (s.nextId, false) ∧ (wide = true → r.valid = true ∧ r.load = some (s.nextId, true))

/-- What a group of stores leaves at issue: those to the strand's own registers and tiles are done, in lane order, and every other byte is
as before; the others are requests in lane order, of the next identities (R102, R211, R214). -/
def StoreIssued (x : Iss) (s t : State) (l : List LaneAcc) (n : Nat) (act : Nat → Act) (rel : Bool) : Prop :=
  (∀ b, (∀ a ∈ l, ∀ p va sp, a.at0 = .mem p va sp true → rel = false → ¬ (p ≤ b ∧ b < p + n)) → t.byte b = s.byte b) ∧
  (∀ l1 a l2 p va sp bs, l = l1 ++ a :: l2 → rel = false → a.at0 = .mem p va sp true → act a.lane = .write bs → bs.length = n →
    (∀ c ∈ l2, ∀ q vb sq, c.at0 = .mem q vb sq true → q + n ≤ p ∨ p + n ≤ q) → onChip p = true → t.bytes p n = bs) ∧
  IssueFrame x s t ∧ t.loads = s.loads ∧
  (∀ j a, (l.filter (sends rel))[j]? = some a → SentAs x s t s.nextId (s.nextId + j) a n (act a.lane) none none rel) ∧
  ∃ v, amGet t.warps x.k = some v ∧ (v.strand x.e).latches = x.st.latches

/-- A load of a type (R212): its bytes, whether it extends its sign, whether it fills a pair. -/
def loadTypes : List (BitVec 3 × Nat × Bool × Bool) :=
  [(0, 1, true, false), (1, 1, false, false), (2, 2, true, false), (3, 2, false, false), (4, 4, false, false), (5, 8, false, true)]

/-- A store form completes: the lanes' addresses are the pair plus the displacement, the data the low bytes of the source (R214). -/
def StoreGives (i : Instr) (p d n : Nat) (disp : Int) (rel : Bool) : Prop :=
  ∀ s x, Passes i s x →
    let l := x.accesses s [0, 1, 2, 3, 15] n true p disp
    Clear x s l n true false → Gives i s fun t =>
      StoreIssued x s t l n (fun j => .write (toBytes n (if n = 8 then (x.src64 s d j).toNat else (x.src s d j).toNat))) rel

/-- An atomic completes: one read-modify-write a lane on 4 or 8 bytes, with the operands of its operation and the order its modifier names
(R176, R220, R221). -/
def AtomGives (i : Instr) (op : Nat) (w : BitVec 1) (b p d : BitVec 7) : Prop :=
  ∀ s x, Passes i s x →
    let n := if w = 1 then 8 else 4
    let l := x.accesses s [0, 1] n true p.toNat 0
    let m := (Pfx.modifier x.g)
    let v (c j : Nat) : Nat := if w = 1 then (x.src64 s c j).toNat else (x.src s c j).toNat
    Clear x s l n true (decide (op ≤ 7 ∨ 10 ≤ op)) → Gives i s fun t =>
      LoadIssued x s t l n (fun j => .atom op (v b.toNat j) (v b.toNat j) (if op = 9 then v (b.toNat + if w = 1 then 2 else 1) j else 0))
        d.toNat (decide (w = 1)) false m.1 m.2.1

end Sys2Proof.Stated

/-- LD in every type and its acquire forms: each active lane reads its bytes at the pair's pointer plus OFS8 times the size (0 for the acquire
forms) through spaces 0 to 5 and 15; nothing of memory changes at issue, and the results come with LOAD_DATA_RETURN (R208, R212, R215). -/
def Sys2Proof.Stated.LoadsIssue : Prop :=
  ∀ (g : Pfx) (o : BitVec 8) (p d : BitVec 7) (q sc : BitVec 2) (y : BitVec 3 × Nat × Bool × Bool), y ∈ loadTypes →
    (∀ s x, Passes (.ld g o p d y.1 q) s x →
      let l := x.accesses s [0, 1, 2, 3, 4, 5, 15] y.2.1 false p.toNat (o.toInt * y.2.1)
      Clear x s l y.2.1 false false → Gives (.ld g o p d y.1 q) s fun t =>
        LoadIssued x s t l y.2.1 (fun _ => .read) d.toNat y.2.2.2 y.2.2.1 none false) ∧
    (∀ s x, Passes (.ldAcq g sc q p d y.1) s x →
      let l := x.accesses s [0, 1, 2, 3, 4, 5, 15] y.2.1 false p.toNat 0
      Clear x s l y.2.1 false false → Gives (.ldAcq g sc q p d y.1) s fun t =>
        LoadIssued x s t l y.2.1 (fun _ => .read) d.toNat y.2.2.2 y.2.2.1 (some sc.toNat) false)

/-- PF and PF.L2 never fault and make no event: they move on at once with no byte, load, register or latch changed, and whatever request they
add is a prefetch of no agent; a lane whose translation is cached sends one for its address (R216). -/
def Sys2Proof.Stated.PrefetchesIssue : Prop :=
  ∀ (g : Pfx) (o : BitVec 8) (p : BitVec 7) (i : Instr × Bool), i = (.pf g o p, false) ∨ i = (.pfL2 g o p, true) →
    ∀ s x, Passes i.1 s x → Gives i.1 s fun t =>
      (∀ a, t.byte a = s.byte a) ∧ t.poison = s.poison ∧ t.loads = s.loads ∧ t.detLog = s.detLog ∧ IssueFrame x s t ∧
      (∃ v, amGet t.warps x.k = some v ∧ (v.strand x.e).latches = x.st.latches ∧ (v.strand x.e).c = x.st.c ∧ v.pipe = x.w.pipe) ∧
      (∀ id r, s.nextId ≤ id → amGet s.reqs id = none → amGet t.reqs id = some r → r.act = .prefetch i.2 ∧ r.uid = 0 ∧ r.load = none) ∧
      ∀ l ∈ lanesOf x.mask, ∀ pa va sp own, s.reach x [0] 1 1 false (ptrAdd (x.src64 s p.toNat l).toNat (o.toInt * 64)) = .mem pa va sp own →
        ∃ id r, s.nextId ≤ id ∧ amGet t.reqs id = some r ∧ r.addr = pa ∧ r.lane = l ∧ r.act = .prefetch i.2

/-- Loads and prefetches issue. -/
def Obligations.LoadsAndPrefetchesIssue : Prop := LoadsIssue ∧ PrefetchesIssue

/-- ST and its release forms in every size: each active lane stores the low bytes of its source (a pair for 8 bytes) at the pair's pointer
plus OFS8 times the size (0 for the release forms); a release waits for every earlier acknowledgement. RED.FADDC sends one compensated sum a
lane to spaces 0 and 1, and pushes nothing but, where a lane meets poison, an invalid latch (R208, R214, R215, R224, R354; that the poison is
judged at issue is log entry 83). -/
def Obligations.StoresIssue : Prop :=
  ∀ (g : Pfx) (o : BitVec 8) (p d : BitVec 7) (q sc : BitVec 2),
    StoreGives (.st8 g o p d q) p.toNat d.toNat 1 (o.toInt * 1) false ∧ StoreGives (.st16 g o p d q) p.toNat d.toNat 2 (o.toInt * 2) false ∧
    StoreGives (.st32 g o p d q) p.toNat d.toNat 4 (o.toInt * 4) false ∧ StoreGives (.st64 g o p d q) p.toNat d.toNat 8 (o.toInt * 8) false ∧
    StoreGives (.stRel8 g sc q p d) p.toNat d.toNat 1 0 true ∧ StoreGives (.stRel16 g sc q p d) p.toNat d.toNat 2 0 true ∧
    StoreGives (.stRel32 g sc q p d) p.toNat d.toNat 4 0 true ∧ StoreGives (.stRel64 g sc q p d) p.toNat d.toNat 8 0 true ∧
    ∀ s x, Passes (.redFaddc g d p) s x →
      let l := x.accesses s [0, 1] 8 true p.toNat 0
      Clear x s l 8 true false →
        (s.meetsPoison l 8 = false →
          Gives (.redFaddc g d p) s fun t => StoreIssued x s t l 8 (fun j => .faddc (x.src s d.toNat j)) false) ∧
        (s.meetsPoison l 8 = true → Gives (.redFaddc g d p) s fun t =>
          (∀ a, t.byte a = s.byte a) ∧ IssueFrame x s t ∧
          (∀ j a, l[j]? = some a → SentAs x s t s.nextId (s.nextId + j) a 8 (.faddc (x.src s d.toNat a.lane)) none none false) ∧
          ∃ v q, amGet t.warps x.k = some v ∧ (v.strand x.e).latches = q :: x.st.latches.take 3 ∧ q.valid = false)

/-- Every ATOM sends one read-modify-write of its operation a lane, whose old value returns to D; RED is the same with the old value in the
latch only; CAS takes its expected value from B and its new value from the register (pair) behind it (R175, R219, R220, R223). -/
def Obligations.AtomicsIssue : Prop :=
  ∀ (g : Pfx) (w : BitVec 1) (b p d : BitVec 7),
    AtomGives (.atomAdd g w b p d) 0 w b p d ∧ AtomGives (.atomMinS g w b p d) 1 w b p d ∧ AtomGives (.atomMinN g w b p d) 2 w b p d ∧
    AtomGives (.atomMaxS g w b p d) 3 w b p d ∧ AtomGives (.atomMaxN g w b p d) 4 w b p d ∧ AtomGives (.atomAnd g w b p d) 5 w b p d ∧
    AtomGives (.atomOr g w b p d) 6 w b p d ∧ AtomGives (.atomXor g w b p d) 7 w b p d ∧ AtomGives (.atomXchg g w b p d) 8 w b p d ∧
    AtomGives (.atomCas g w b p d) 9 w b p d ∧ AtomGives (.atomFmin g w b p d) 10 w b p d ∧ AtomGives (.atomFmax g w b p d) 11 w b p d ∧
    ∀ o : BitVec 4, 4 ≤ o.toNat → AtomGives (.red g w b p o) (o.toNat - 4) w b p 124

/-- KLD and KST make one access for the warp at the tagged pointer in the even k pair plus 4 times IMM6 (R206): KLD's value goes to its k
register, which it holds on the scoreboard; KST stores its k register as it is at issue. -/
def Obligations.UniformAccesses : Prop :=
  ∀ (g : Pfx) (m : BitVec 6) (a d : BitVec 8),
    let at0 (x : Iss) (s : State) (spaces : List Nat) (write : Bool) : List LaneAcc :=
      let ea := ptrAdd ((spGet x.w.k a.toNat).toNat + (spGet x.w.k ((a.toNat + 1) % 256)).toNat * 2 ^ 32) (4 * m.toNat)
      [{ lane := (lanesOf x.mask).headD 0, ea := ea, at0 := s.reach x spaces 4 4 write ea }]
    (∀ s x, Passes (.kld g m a d) s x → Clear x s (at0 x s [0, 1, 2, 3, 4, 5, 15] false) 4 false false → Gives (.kld g m a d) s fun t =>
      (∀ b, t.byte b = s.byte b) ∧ IssueFrame x s t ∧
      (∃ ld, amGet t.loads s.nextId = some ld ∧ ld.kreg = some d.toNat ∧ ld.regs = none ∧ ld.bytes = 4 ∧ ld.warp = x.k) ∧
      (∀ y, (at0 x s [0, 1, 2, 3, 4, 5, 15] false) = [y] → sends false y = true →
        SentAs x s t (s.nextId + 1) (s.nextId + 1) y 4 .read (some s.nextId) none false) ∧
      ∃ v e, amGet t.warps x.k = some v ∧ amGet v.pipe s.nextId = some e ∧ e.res = [.kreg d.toNat] ∧ (v.strand x.e).latches = x.st.latches) ∧
    (∀ s x, Passes (.kst g m a d) s x → Clear x s (at0 x s [0, 1, 2, 3, 15] true) 4 true false → Gives (.kst g m a d) s fun t =>
      StoreIssued x s t (at0 x s [0, 1, 2, 3, 15] true) 4 (fun _ => .write (toBytes 4 (spGet x.w.k d.toNat).toNat)) false)

namespace Sys2Proof.Stated

/-- The event completes: it has its own effect, the state u, and then whatever u lets go on goes on (R168, R230, R245, R247). -/
def Then (i : Instr) (s : State) (P : State → Prop) : Prop := ∃ u, exec i s = .next u.settle ∧ P u

/-- A line that no view of a format window holds, covers or reads (R141, R142), and whose coming into its home L2 makes no view line give way:
its bytes read as memory has them. -/
structure Plain (s : State) (l : Nat) : Prop where
  view : (s.line l).view = none
  outside : ∀ a, lineOf a = l → s.viewHere a = none
  store : ∀ a w o, s.viewHere a = some (w, o) → lineOf (w.store + o / 2) ≠ l ∨ onChip (l * 64) = true
  room : (s.line l).inL2 = true ∨ onChip (l * 64) = true ∨ ∀ p ∈ s.lines, p.2.view = none

/-- An access that its home serves at once: it arrives there as an event of mo with nothing earlier of its agent to perform, its horizon
taken, its line free and plain, its home live and answering, no block operation on what it reaches nor a queued matrix operand that it is to
overwrite, its budget open; and its CU's L1 has no line of its own to give up for it, but where no view is at hand. -/
structure Served (s : State) (id : Nat) (r : Req) : Prop where
  req : amGet s.reqs id = some r
  fresh : r.done = false
  left : r.rel = none
  horizon : r.acq = none ∨ r.horizon ≠ none
  event : r.own = false
  home : r.place ≠ .l1
  first : ∀ q ∈ s.reqs, q.1 < id → q.2.done = false → r.follows q.2 = false
  free : s.lineFree (lineOf r.addr) = true
  live : s.contained r.addr = false
  answers : s.unanswered r.addr = false
  idle : s.heldBack id r = false
  plain : Plain s (lineOf r.addr)
  keeps : (s.windows = [] ∧ ∀ p ∈ s.lines, p.2.view = none) ∨ ∀ p ∈ s.lines, p.2.owner = some r.cu → p.1 = lineOf r.addr
  inside : r.addr % 64 + r.bytes ≤ 64
  budget : r.charged = true → admits (amGetD s.atomUsed (r.ctx * 8 + homeOf r.addr) 0)
    (((amGet s.ctxs r.ctx).map Ctx.atomLimit).getD 0) 1 (s.favouredReq r) = true

/-- The clock of an access's agent, moved to its horizon when it acquires (R155, R215). -/
def clockAt (r : Req) : Nat := max r.c (r.horizon.getD 0)

/-- What performing at a timestamp leaves with the access and its agent: it has performed there, the clocks of its agent's strands are raised to it,
an access without a load is acknowledged after its way back, and one that wrote over the hub route is folded when its acknowledgement passes the
hub, 105 clocks before over one hop (R381); the horizons, contexts, copies and grids are as before. -/
structure PerformedAt (s u : State) (id : Nat) (r : Req) (ts : Nat) (wrote : Bool) : Prop where
  done : ∃ q, amGet u.reqs id = some q ∧ q.done = true ∧ q.ts = ts ∧ q.addr = r.addr ∧ q.hub = r.hub ∧
    (r.load = none → { due := s.clock + q.back, prio := prioResult, ev := .storeAck id } ∈ u.agenda) ∧
    (wrote = true → r.ackHub = true → { due := s.clock + (q.back - s.hubPass (cuSite r.cu)), prio := prioResult, ev := .horizonFold r.ctx ts } ∈ u.agenda)
  clock : ∀ w, amGet s.warps r.warp = some w → ∃ v, amGet u.warps r.warp = some v ∧ v.k = w.k ∧ v.fibres = w.fibres ∧
    ∀ e, e < w.table.length →
      (v.strand e).c = (if (w.strand e).mine r.uid then max (w.strand e).c ts else (w.strand e).c) ∧ (v.strand e).pc = (w.strand e).pc ∧
        (v.strand e).mask = (w.strand e).mask
  frame : u.clock = s.clock ∧ u.horLoc = s.horLoc ∧ u.horGal = s.horGal ∧ u.horDev = s.horDev ∧ u.horSys = s.horSys ∧ u.windows = s.windows

/-- The answer of an access in the load it reports to: one lane fewer is out, and its lane holds v. -/
def Answered (s u : State) (r : Req) (v : Load → DWord) : Prop :=
  ∀ i ld, r.load = some i → amGet s.loads i = some ld →
    ∃ q, amGet u.loads i = some q ∧ q.left = ld.left - 1 ∧ amGet q.vals r.lane = some (v ld)

/-- new(old, b) of each atomic at a width, CAS with its expected and new value (R220). -/
def atomics (w : Nat) : List (Nat × (BitVec w → BitVec w → BitVec w → BitVec w → BitVec w)) :=
  [(0, fun o b _ _ => o + b), (1, fun o b _ _ => if b.toInt < o.toInt then b else o), (2, fun o b _ _ => if b.toNat < o.toNat then b else o),
   (3, fun o b _ _ => if o.toInt < b.toInt then b else o), (4, fun o b _ _ => if o.toNat < b.toNat then b else o),
   (5, fun o b _ _ => o &&& b), (6, fun o b _ _ => o ||| b), (7, fun o b _ _ => o ^^^ b), (8, fun _ b _ _ => b),
   (9, fun o _ e n => if o = e then n else o)] ++
  (if w = 32 then [(10, fun o b _ _ => BitVec.ofNat w (lesser 32 o.toNat b.toNat).1), (11, fun o b _ _ => BitVec.ofNat w (greater 32 o.toNat b.toNat).1)]
   else [])

end Sys2Proof.Stated

/-- A home serves an access in the timestamp order of R155: a read takes max(c + 1, wts) and extends the lease; a write or read-modify-write
takes max(c + 1, rts + 1), which becomes wts and rts. A read changes no byte and answers with the bytes, extended by its type; a write stores
its bytes and no other; an atomic stores new(old, b) of R220 and answers with old (R219, R224); a read-modify-write that meets poison is a
read at its timestamp, changes no byte and posts an error record (R354), whose unit code by the origin is the model's choice (log entry 72). -/
def Obligations.HomeRequests : Prop :=
  ∀ (s : State) (id : Nat) (r : Req), Served s id r →
    let l := lineOf r.addr
    let rd := max (clockAt r + 1) (s.line l).wts
    let wr := max (clockAt r + 1) ((s.line l).rts + 1)
    let stored (u : State) (bs : List Byte) : Prop :=
      (u.line l).wts = wr ∧ (u.line l).rts = wr ∧ u.bytes r.addr r.bytes = bs ∧
        (∀ a, ¬ (r.addr ≤ a ∧ a < r.addr + r.bytes) → u.byte a = s.byte a) ∧ PerformedAt s u id r wr true
    (r.act = .read → Then (.homeSliceRequest id) s fun u =>
      (u.line l).wts = (s.line l).wts ∧ (u.line l).rts = max (s.line l).rts (rd + s.lease r.ctx) ∧ (∀ a, u.byte a = s.byte a) ∧
        u.poison = s.poison ∧ PerformedAt s u id r rd false ∧
        (s.poisonIn r.addr r.bytes = [] → r.bytes ∈ [1, 2, 4, 8] → Answered s u r fun ld =>
          if ld.signed ∧ r.bytes ≠ 8 then (BitVec.ofInt 32 (sext (8 * r.bytes) (s.num r.addr r.bytes))).setWidth 64
          else BitVec.ofNat 64 (s.num r.addr r.bytes))) ∧
    (∀ bs, r.act = .write bs → bs.length = r.bytes → s.watchers r.addr r.bytes = [] →
      Then (.homeSliceRequest id) s fun u => stored u bs) ∧
    (s.poisonIn r.addr r.bytes = [] → s.watchers r.addr r.bytes = [] →
      (∀ op b e n f, r.act = .atom op b e n → (op, f) ∈ atomics (8 * r.bytes) → r.bytes ∈ [4, 8] →
        b < 2 ^ (8 * r.bytes) → e < 2 ^ (8 * r.bytes) → n < 2 ^ (8 * r.bytes) →
        Then (.homeSliceRequest id) s fun u =>
          stored u (toBytes r.bytes (f (BitVec.ofNat _ (s.num r.addr r.bytes)) (BitVec.ofNat _ b) (BitVec.ofNat _ e) (BitVec.ofNat _ n)).toNat) ∧
            Answered s u r fun _ => BitVec.ofNat 64 (s.num r.addr r.bytes)) ∧
      (∀ a, r.act = .faddc a → r.bytes = 8 → Then (.homeSliceRequest id) s fun u =>
        let p := faddcNew (s.num r.addr 8 % 2 ^ 32) (s.num r.addr 8 / 2 ^ 32) a.toNat
        stored u (toBytes 8 (p.1 + p.2 * 2 ^ 32)))) ∧
    (s.poisonIn r.addr r.bytes ≠ [] → (∃ op b e n, r.act = .atom op b e n) ∨ (∃ a, r.act = .faddc a) →
      Then (.homeSliceRequest id) s fun u =>
        (u.line l).wts = (s.line l).wts ∧ (u.line l).rts = max (s.line l).rts wr ∧ (∀ a, u.byte a = s.byte a) ∧ u.poison = s.poison ∧
          PerformedAt s u id r wr false ∧
          ∃ o, ((s.poisonIn r.addr r.bytes).head?).map Prod.snd = some o ∧
            let cu := if onChip r.addr then cuNum (chipCu r.addr) else 0
            u.errLog = s.errLog ++ [{ paddr := r.addr, clock := s.clock, ctx := r.ctx, unit := originUnit o, site := homeOf r.addr, cu := cu,
                                      kind := 2, corr := amGetD s.corrected (unitKey (originUnit o) (homeOf r.addr) cu) 0 }])

/-- An acknowledgement ends its access and, but for a read's (log entry 22), folds its timestamp into the horizons of the writer's CU and gallery,
and where the hub has not folded it, into those of the context and the package; HORIZON_FOLD is that fold at the hub (R160, R381). A lease copy is
dropped Lease clocks after the fill it is of, and no later one (R155). A page walk that finds its leaf caches it for the issue slots and the
engines' dies that wait, writes nothing, and lets each strand that waits for no other walk issue again (R105); its walker takes the next walk that
waits for one (R18), in the order of their misses (log entry 93). -/
def Sys2Proof.Stated.AccessAnswers : Prop :=
  (∀ (s : State) (id : Nat) (r : Req), amGet s.reqs id = some r →
    exec (.storeAck id) s = .next (State.settle { s with
      reqs := amErase s.reqs id
      horLoc := if r.own = true ∨ r.act = .read then s.horLoc else raise s.horLoc r.cu r.ts
      horGal := if r.own = true ∨ r.act = .read then s.horGal else raise s.horGal (cuGallery r.cu) r.ts
      horDev := if r.own = true ∨ r.act = .read ∨ r.ackHub = true then s.horDev else raise s.horDev r.ctx r.ts
      horSys := if r.own = true ∨ r.act = .read ∨ r.ackHub = true then s.horSys else max s.horSys r.ts })) ∧
  (∀ (s : State) (ctx ts : Nat),
    exec (.horizonFold ctx ts) s = .next { s with horDev := raise s.horDev ctx ts, horSys := max s.horSys ts }) ∧
  (∀ (s : State) (cu line fill : Nat) (cp : L1Line), amGet (amGetD s.l1 cu []) line = some cp →
    exec (.l1LeaseExpiry cu line fill) s = .next (if cp.filled = fill ∧ cp.owned = false then
      { s with l1 := amSet s.l1 cu (amErase (amGetD s.l1 cu []) line) } else s)) ∧
  ∀ (s : State) (id : Nat) (w : Walk) (t : Tlb), amGet s.walks id = some w → (s.walk w.ctx w.va).1 = .leaf t →
    Gives (.pageWalk id) s fun u =>
      let left := amErase s.walks id
      (∀ i, (amGet u.walks i).map (fun q => (q.ctx, q.va, q.site, q.slots, q.uids)) =
        (amGet left i).map fun q => (q.ctx, q.va, q.site, q.slots, q.uids)) ∧
        ((∀ q ∈ left, q.2.running = true) → u.walks = left ∧ u.agenda = s.agenda) ∧
        (∀ i q, left.find? (fun q => !q.2.running) = some (i, q) → (left.filter fun q => q.2.running).length < 64 →
          ∃ a ∈ u.agenda, a.ev = .pageWalk i) ∧
        (∀ a, u.byte a = s.byte a) ∧ u.reqs = s.reqs ∧ u.ctxs = s.ctxs ∧
        (∀ k ∈ w.slots, ∃ c, amGet u.tlbSlot k = some c ∧ t ∈ c) ∧ (∀ d ∈ w.sites, ∃ c, amGet u.tlbDie d = some c ∧ t ∈ c) ∧
        ∀ n ∈ w.uids, ∀ k e p, s.findUid n = some (k, e) → amGet s.warps k = some p → (p.strand e).state = .ready →
          (∀ q ∈ left, n ∉ q.2.uids) → ∃ v, amGet u.warps k = some v ∧ (v.strand e).hold = .none ∧ (v.strand e).pc = (p.strand e).pc

/-- LOAD_DATA_RETURN writes the lanes' values to the destination registers, the low word to the register and the high word to its neighbour,
or a KLD's word to its k register, and to the latches that wait for it, with 0 in the lanes that loaded nothing; it clears the scoreboard
entry and ends the load with its accesses, and changes no other byte (R92, R121, R206, R212). -/
def Sys2Proof.Stated.LoadDataReturn : Prop :=
  ∀ (s : State) (id : Nat) (ld : Load) (w : Warp), amGet s.loads id = some ld → amGet s.warps ld.warp = some w → w.spilled = none →
    ld.waitc = none → ld.poison = [] → (ld.vals.map Prod.fst).Nodup → (∀ v ∈ ld.vals, v.1 < 32) →
    Then (.loadDataReturn id) s fun u =>
      let at0 (r l : Nat) : Nat := regAddr ld.warp w r + 4 * l
      u.loads = amErase s.loads id ∧ (∀ q ∈ u.reqs, q.2.load ≠ some id) ∧ (∀ q ∈ s.reqs, q.2.load ≠ some id → q ∈ u.reqs) ∧
        (∀ r wide, ld.regs = some (r, wide) → ∀ l v, amGet ld.vals l = some v →
          u.word (at0 r l) = v.setWidth 32 ∧ (wide = true → u.word (at0 (r + 1) l) = (v >>> 32).setWidth 32)) ∧
        (∀ a, (∀ r wide, ld.regs = some (r, wide) → ∀ v ∈ ld.vals, ¬ (at0 r v.1 ≤ a ∧ a < at0 r v.1 + 4) ∧
          (wide = true → ¬ (at0 (r + 1) v.1 ≤ a ∧ a < at0 (r + 1) v.1 + 4))) → u.byte a = s.byte a) ∧
        ∃ x, amGet u.warps ld.warp = some x ∧ x.pipe = amErase w.pipe ld.pipe ∧ x.fibres = w.fibres ∧
          (∀ n, ld.kreg ≠ some n → spGet x.k n = spGet w.k n) ∧
          (∀ n l v t, ld.kreg = some n → ld.vals = (l, v) :: t → spGet x.k n = v.setWidth 32) ∧
          ∀ (e j : Nat) (l : Latch) (hi : Bool), (w.strand e).latches[j]? = some l → l.load = some (id, hi) → ∃ m : Latch, (x.strand e).latches[j]? = some m ∧
            m.load = none ∧ m.valid = l.valid ∧ m.ready = s.clock ∧
            ∀ i, i < 32 → spGet m.data i = match amGet ld.vals i with | some v => (if hi then v >>> 32 else v).setWidth 32 | none => 0

/-- Accesses are answered, and load data returns. That a read folds nothing into a horizon is log entry 22, the order of walks log entry 93. -/
def Obligations.AccessReturns : Prop := AccessAnswers ∧ LoadDataReturn

namespace Sys2Proof.Stated

/-- The lowest active lane, and its address through a pair. -/
def low (x : Iss) : Nat := (lanesOf x.mask).headD 0
def pointer (x : Iss) (s : State) (p : BitVec 7) : Nat := (x.src64 s p.toNat (low x)).toNat

/-- Where a strand of an identity stands: its warp slot, its entry and its warp. -/
def Stands (s : State) (uid k e : Nat) (w : Warp) : Prop :=
  s.findUid uid = some (k, e) ∧ amGet s.warps k = some w ∧ e < w.table.length

/-- No byte differs. -/
def SameBytes (s u : State) : Prop := ∀ a, u.byte a = s.byte a

/-- The horizon of a scope (R160). -/
def horizonOf (s : State) (ctx cu scope : Nat) : Nat :=
  match scope with
  | 0 => amGetD s.horLoc cu 0
  | 1 => amGetD s.horGal (cuGallery cu) 0
  | 2 => amGetD s.horDev ctx 0
  | _ => s.horSys

/-- An MCAS with every line locked and nothing to fail on: its words live and clean, its lines plain, its grid not deterministic. -/
structure Locked (s : State) (id k e : Nat) (m : Mcas) (w : Warp) : Prop where
  op : amGet s.mcas id = some m
  strand : Stands s m.uid k e w
  lines : ∀ l ∈ m.lines, Plain s l
  words : ∀ d ∈ m.words, s.contained d.1 = false ∧ s.poisonIn d.1 d.2.1 = []
  free : ∀ g, s.gridOf k = some g → g.2.det = false

/-- The timestamp of an MCAS event: max(c + 1, rts + 1 of every line). -/
def mcasTime (s : State) (m : Mcas) (st : Strand) : Nat := m.lines.foldl (fun t l => max t ((s.line l).rts + 1)) (st.c + 1)

/-- The words of an MCAS, by number, whose bytes are not the expected ones. -/
def mismatches (s : State) (m : Mcas) : List Nat :=
  (List.range m.words.length).filter fun j => match m.words[j]? with | some d => decide (s.num d.1 d.2.1 ≠ d.2.2.1) | none => false

end Sys2Proof.Stated

/-- MCAS holds its strand at issue with its lowest active lane's block pointer and a status write pending to ks, and touches no byte; each
grant sends the request for the next line in order, the last one the event; the event takes max(c + 1, rts + 1 of every line), with success
when every word holds its expected bytes: then the lines take it as wts and rts and the status word is DONE; else the lines' leases are
extended to it and the status word has CODE 1 and the mask of the words that differ. The release of a line writes the new words of a
success and unlocks it (R162, R225, R228, R229, R302). -/
def Obligations.McasSteps : Prop :=
  (∀ (g : Pfx) (k : BitVec 8) (p : BitVec 7) (s : State) (x : Iss) (a va sp : Nat) (own : Bool), Passes (.mcas g k p) s x →
    s.reach x [0, 1] 8 8 true (pointer x s p) = .mem a va sp own →
    ∃ q d, exec (.mcas g k p) s = .next (State.settle { s with
      tlbSlot := q, tlbDie := d
      mcas := amSet s.mcas s.nextId { ctx := x.cn, cu := x.cu, warp := x.k, uid := x.st.uid, ks := k.toNat,
                                      ptr := BitVec.ofNat 64 (pointer x s p), lane := low x, parcel := x.parcel }
      warps := amSet s.warps x.k { x.w with
        table := x.w.table.set x.e { x.st with hold := .busy s.nextId, succ := x.next }
        kpend := x.w.kpend ++ [(k.toNat, s.nextId)], kops := amSet x.w.kops s.nextId x.st.uid }
      nextId := s.nextId + 1, cur := none })) ∧
  (∀ (s : State) (id k e : Nat) (m : Mcas) (w : Warp), amGet s.mcas id = some m → Stands s m.uid k e w → m.stage = 2 →
    m.granted < m.lines.length → Gives (.mcasLockGrant id) s fun u =>
      u.mcas = amSet s.mcas id { m with granted := m.granted + 1 } ∧ u.mem = s.mem ∧ u.lines = s.lines ∧ u.warps = s.warps ∧
        (m.granted + 1 = m.lines.length → { due := s.clock, prio := prioResult, ev := .mcasEvent id } ∈ u.agenda) ∧
        (m.granted + 1 < m.lines.length → ∃ a ∈ u.agenda, a.ev = .homeSliceRequest id)) ∧
  (∀ (s : State) (id k e : Nat) (m : Mcas) (w : Warp), Locked s id k e m w →
    let ts := mcasTime s m (w.strand e)
    let won := decide (mismatches s m = [])
    Then (.mcasEvent id) s fun u =>
      SameBytes s u ∧ (∃ q, amGet u.mcas id = some q ∧ q.stage = 3 ∧ q.success = won) ∧
      (∀ l ∈ m.lines, (u.line l).rts = (if won then ts else max (s.line l).rts ts) ∧ (u.line l).wts = (if won then ts else (s.line l).wts)) ∧
      (won = true → u.horDev = raise s.horDev m.ctx ts ∧ u.horSys = max s.horSys ts) ∧
      (∃ v, amGet u.warps k = some v ∧ (v.strand e).c = ts ∧ (v.strand e).pc = (w.strand e).succ ∧ (v.strand e).hold = .none ∧ v.k = w.k) ∧
      (∃ d, { due := s.clock + d, prio := prioResult, ev := .statusWordWrite k m.ks id (if won then 0x80000000 else
        BitVec.ofNat 32 (0x81000000 + (mismatches s m).foldl (fun n j => n + 2 ^ j) 0)) } ∈ u.agenda) ∧
      ∀ l ∈ m.lines, ∃ d, { due := s.clock + d, prio := prioWrite, ev := .mcasRelease id } ∈ u.agenda) ∧
  ∀ (s : State) (id l d : Nat) (m : Mcas), amGet s.mcas id = some m → m.due = [(l, d)] → d ≤ s.clock → (s.line l).lock = some id →
    (s.line l).queue = [] → Plain s l → (∀ w ∈ m.words, w.1 % 64 + w.2.1 ≤ 64 ∧ s.watchers w.1 w.2.1 = []) →
    m.words.Pairwise (fun a b => a.1 + a.2.1 ≤ b.1 ∨ b.1 + b.2.1 ≤ a.1) →
    Then (.mcasRelease id) s fun u =>
      (u.line l).lock = none ∧ (u.line l).wts = (s.line l).wts ∧
        (∀ w ∈ m.words, lineOf w.1 = l → m.success = true → u.bytes w.1 w.2.1 = toBytes w.2.1 w.2.2.2) ∧
        ∀ a, (∀ w ∈ m.words, lineOf w.1 = l → m.success = true → ¬ (w.1 ≤ a ∧ a < w.1 + w.2.1)) → u.byte a = s.byte a

/-- FENCE holds its strand for the acknowledgements of its earlier events (step 1); the first FENCE_COMPLETE of step 2 takes the scope's
horizon and comes back after the way down again, 105 clocks over one hop and what holds it up; the second moves c to it, past the reads of the
window, and raises the window's flags and takes its held trap, once no other agent holds a line of those reads (R327), unless a write met a
speculative read at or below the new clock: then the strand rolls back to the group after the fence with invalid latches and every byte and k
register it overwrote restored, poison too (R161, R162, R217, R218). -/
def Obligations.FenceSteps : Prop :=
  (∀ (g : Pfx) (sc : BitVec 2) (s : State) (x : Iss), Passes (.fence g sc) s x →
    exec (.fence g sc) s = .next (State.settle { s with
      warps := amSet s.warps x.k { x.w with
        table := x.w.table.set x.e { x.st with fenceStep1 := some sc.toNat, hold := .busy x.st.uid, succ := x.next } }
      cur := none })) ∧
  ∀ (s : State) (uid k e : Nat) (w : Warp) (fw : FenceWindow), Stands s uid k e w → (w.strand e).fence = some fw →
    let back := if fw.scope = 1 then (s, 0) else s.sendFlits (s.ctxOf k) 8 (cuSite (warpCu k)) 1 true true 0
    (fw.horizon = none → exec (.fenceComplete uid) s = .next { back.1 with
      warps := amSet s.warps k { w with table := w.table.set e { w.strand e with
        fence := some { fw with horizon := some (horizonOf s (s.ctxOf k) (warpCu k) fw.scope) } } }
      agenda := insAgenda s.agenda { due := s.clock + (if fw.scope = 1 then 30 else s.hubPass (cuSite (warpCu k)) + back.2), prio := prioResult, ev := .fenceComplete uid } }) ∧
    (∀ h, fw.horizon = some h →
      let c := max (w.strand e).c h
      ((∃ t ∈ fw.met, t ≤ c) → Gives (.fenceComplete uid) s fun u =>
        { due := s.clock, prio := prioResult, ev := .fenceRollback uid } ∈ u.agenda ∧ u.mem = s.mem ∧
          ∃ v, amGet u.warps k = some v ∧ (v.strand e).c = c ∧ (v.strand e).fence = some fw) ∧
      ((∀ t ∈ fw.met, c < t) → (∃ r ∈ fw.reads, s.lineHeld (lineOf r.1) = true) →
        exec (.fenceComplete uid) s = .next (s.after 1 prioResult (.fenceComplete uid))) ∧
      ((∀ t ∈ fw.met, c < t) → (∀ r ∈ fw.reads, s.lineHeld (lineOf r.1) = false) → (w.strand e).fibre < w.fibres.length → Then (.fenceComplete uid) s fun u =>
        SameBytes s u ∧ ∃ v, amGet u.warps k = some v ∧ v.k = w.k ∧ (v.strand e).fence = none ∧
          (v.strand e).c = c + fw.reads.length ∧ (v.strand e).pc = (w.strand e).pc ∧
          (v.fibre (w.strand e).fibre).fstat = (w.fibre (w.strand e).fibre).fstat ||| fw.flags ∧
          (fw.trap = none → (v.strand e).state = (w.strand e).state ∧ u.ctxs = s.ctxs) ∧
          ∀ cls next num cx, fw.trap = some (cls, next, num) → amGet s.ctxs (s.ctxOf k) = some cx →
            (v.strand e).state = .frozen ∧ (v.strand e).trapClass = cls ∧ (v.strand e).succ = next ∧
              ∃ cy, amGet u.ctxs (s.ctxOf k) = some cy ∧ cy.inflight = cx.inflight ++
                [(s.clock + (s.toHub (s.ctxOf k) (cuSite (warpCu k)) (s.favouredWarp k)).2, strandAgent k e, (w.strand e).uid, num)])) ∧
    Then (.fenceRollback uid) s fun u =>
      (∀ q ∈ u.reqs, ¬ (q.2.uid = uid ∧ fw.firstOp ≤ q.1)) ∧ (∀ q ∈ u.loads, ¬ (q.2.uid = uid ∧ fw.firstOp ≤ q.1)) ∧
        (∃ v, amGet u.warps k = some v ∧ (v.strand e).fence = none ∧ (v.strand e).pc = fw.pc ∧ (v.strand e).hold = .none ∧
          (v.strand e).c = (w.strand e).c ∧ ∀ l ∈ (v.strand e).latches, l.valid = false) ∧
        (∀ n old pois, s.undo = [(uid, .kreg k n old pois)] → ∃ v, amGet u.warps k = some v ∧ spGet v.k n = old ∧ amGet v.kPoison n = pois) ∧
        ∀ a old, s.undo = [(uid, .bytes a old [])] → onChip a = true →
          u.bytes a old.length = old ∧ ∀ b, ¬ (a ≤ b ∧ b < a + old.length) → u.byte b = s.byte b

namespace Sys2Proof.Stated

/-- The target of a relative offset, counted from the instruction parcel, in the instruction's own overlay (R238). -/
def relPc (x : Iss) (o : Int) : BitVec 23 := BitVec.ofInt 23 ((x.st.pc.toNat : Int) + (x.len - 2 : Nat) + o)

/-- The absolute parcel offset of a label in an overlay. -/
def portable (ovl off : Nat) : BitVec 23 := BitVec.ofNat 23 (ovl * 2 ^ 15 + off)

/-- The group only moves the PC of its strand, with the mark of one that may have run past its overlay's end (R182), and a strand that then
needs an overlay that is not resident requests it (R70, R236). -/
def Transfers (i : Instr) (s : State) (x : Iss) (pc : BitVec 23) : Prop :=
  ∃ t m, MovedTo { x with st := { x.st with ranPast := m } } s t pc ∧ exec i s = .next (t.wantOverlays x.k)

/-- The group splits its strand into children (R71), or traps where no split token is free (R364). -/
def Splits (i : Instr) (s : State) (x : Iss) (kids : List (Word × BitVec 23)) : Prop :=
  ((∃ t, 1 ≤ t ∧ t ≤ 15 ∧ amGet (x.w.fibre x.st.fibre).tokens t = none) →
    ∃ m, exec i s = .next ((x.split s (fun st => { st with ranPast := m }) kids).wantOverlays x.k)) ∧
  ((∀ t, 1 ≤ t → t ≤ 15 → amGet (x.w.fibre x.st.fibre).tokens t ≠ none) →
    exec i s = .next (x.trap s { cls := 12, code := 1, detail := 15, lanes := x.mask }))

/-- The group writes the link of its successor to a register in the active lanes and moves to a PC (R239). -/
def Links (i : Instr) (s : State) (x : Iss) (l : BitVec 7) (pc : BitVec 23) : Prop :=
  ∃ t, LaneResult x s t l.toNat false 4 2 0 (fun _ => x.next.setWidth 32) ∧
    exec i s = .next ((t.modStrand x.k x.e fun st => { st with pc := pc }).wantOverlays x.k)

/-- Every register write of a strand has landed, the status writes of its operations among them (R245). -/
def landed (w : Warp) (st : Strand) : Prop :=
  (∀ p ∈ w.pipe, p.2.res = [] ∨ st.mine p.2.uid = false) ∧ ∀ q ∈ w.kpend, ∀ u, amGet w.kops q.2 = some u → st.mine u = false

/-- The PC that a lane of an indirect transfer names, and whether it is a portable PC of an overlay that is resident. -/
def named (x : Iss) (s : State) (r : BitVec 7) (l : Nat) : BitVec 23 := (x.src s r.toNat l).setWidth 23
def nameable (x : Iss) (s : State) (r : BitVec 7) (l : Nat) : Prop :=
  (x.src s r.toNat l).toNat < 2 ^ 23 ∧ (s.bank x.cu x.cn x.grid.lr.code (pcOvl (named x s r l))).isSome = true

end Sys2Proof.Stated

/-- BRA goes to its label; BRT and BRF send the active lanes that take the branch to it and the others to the successor: one PC when the lanes
agree on it, as they do where the label is the successor, else a split, fall-through child first (R70, R71, R238). -/
def Sys2Proof.Stated.Branches : Prop :=
  (∀ (g : Pfx) (o : BitVec 22) (s : State) (x : Iss), Passes (.bra g o) s x → ¬ outside (.bra g o) x →
    Transfers (.bra g o) s x (relPc x o.toInt)) ∧
  ∀ (g : Pfx) (o : BitVec 22) (p : BitVec 4) (i : Instr × (Word → Word)), i = (.brt g o p, fun v => v) ∨ i = (.brf g o p, fun v => ~~~ v) →
    ∀ (s : State) (x : Iss), Passes i.1 s x → ¬ outside i.1 x →
      let taken := x.mask &&& i.2 (x.w.pred x.st.fibre p.toNat)
      (taken = 0 → Transfers i.1 s x x.next) ∧ (taken = x.mask → Transfers i.1 s x (relPc x o.toInt)) ∧
        (relPc x o.toInt = x.next → Transfers i.1 s x x.next) ∧
        (relPc x o.toInt ≠ x.next → taken ≠ 0 → taken ≠ x.mask → Splits i.1 s x [(x.mask &&& ~~~ taken, x.next), (taken, relPc x o.toInt)])

/-- CALL and FCALL write the portable PC of their successor to the link register in every active lane, push it, and go to the label: CALL in
its own overlay, FCALL in the one its IMM prefix names, which traps (class 7, code 5) where the kernel does not hold it (R239, R240). -/
def Sys2Proof.Stated.Calls : Prop :=
  ∀ (g : Pfx) (o : BitVec 15) (l : BitVec 7) (s : State) (x : Iss),
    (Passes (.call g o l) s x → Links (.call g o l) s x l (portable (pcOvl x.st.pc) o.toNat)) ∧
    (∀ p, Passes (.fcall g o l) s x → g.imm = [p] →
      ((s.bank x.cu x.cn x.grid.lr.code p.toNat).isSome = true → Links (.fcall g o l) s x l (portable p.toNat o.toNat)) ∧
      (s.bank x.cu x.cn x.grid.lr.code p.toNat = none → s.directory x.site x.cn x.grid.lr.code p.toNat x.ctx.sup = .absent →
        exec (.fcall g o l) s = .next (x.trap s { cls := 7, code := 5, detail := low x, lanes := x.mask })))

/-- Direct transfers of control, with and without a link. -/
def Obligations.BranchesAndCalls : Prop := Branches ∧ Calls

/-- JMPI and RET go to the portable PC that each lane names, with a split by distinct targets in the order of their lowest lanes; CALLI does
the same for its first four targets and writes their lanes' link, and a remainder executes it again. Lanes that name no portable PC trap
together (class 7, code 4), and an overlay that is not resident holds the group at issue for its directory (R72, R241, R242). -/
def Obligations.IndirectTransfers : Prop :=
  ∀ (g : Pfx) (r l : BitVec 7) (s : State) (x : Iss),
    let lanes := lanesOf x.mask
    let named : Nat → BitVec 23 := named x s r
    let kids := ((lanes.map named).eraseDups).map fun pc => (maskOf (lanes.filter fun a => decide (named a = pc)), pc)
    let bad := lanes.filter fun a => decide (2 ^ 23 ≤ (x.src s r.toNat a).toNat)
    (∀ i, i = .jmpi g r ∨ i = .ret g r → Passes i s x → (∀ a ∈ lanes, nameable x s r a) →
      (∀ pc, (∀ a ∈ lanes, named a = pc) → Transfers i s x pc) ∧ (1 < kids.length → Splits i s x kids)) ∧
    (Passes (.calli g l r) s x → (∀ a ∈ lanes, nameable x s r a) →
      (∀ pc, (∀ a ∈ lanes, named a = pc) → Links (.calli g l r) s x l pc) ∧
      (1 < kids.length → (∃ t, 1 ≤ t ∧ t ≤ 15 ∧ amGet (x.w.fibre x.st.fibre).tokens t = none) →
        let m := (kids.take 4).foldl (fun m c => m ||| c.1) 0
        ∃ t, LaneResult { x with mask := m } s t l.toNat false 4 2 0 (fun _ => x.next.setWidth 32) ∧
          exec (.calli g l r) s = .next ((x.split t (fun st => st.push m (fun _ => x.next.setWidth 32) (s.clock + 2) none)
            (kids.take 4 ++ if 4 < kids.length then [(x.mask &&& ~~~ m, x.st.pc)] else [])).wantOverlays x.k))) ∧
    ∀ i, i = .jmpi g r ∨ i = .ret g r ∨ i = .calli g l r → Passes i s x →
      (bad ≠ [] → (∀ a ∈ lanes, a ∉ bad → nameable x s r a) →
        exec i s = .next (x.trap s { cls := 7, code := 4, detail := bad.headD 0, lanes := maskOf bad })) ∧
      (∀ a ∈ lanes, (x.src s r.toNat a).toNat < 2 ^ 23 → (s.bank x.cu x.cn x.grid.lr.code (pcOvl (named a))).isNone = true →
        (∀ q ∈ x.st.walked, q.1 < 2 ^ 60) → Gives i s fun u =>
          SameBytes s u ∧ ∃ v n o, amGet u.warps x.k = some v ∧ (v.strand x.e).pc = x.st.pc ∧ (v.strand x.e).hold = .stall n ∧
            (v.strand x.e).mask = x.st.mask ∧ (n, o) ∈ u.ovls ∧ o.ctx = x.cn ∧ o.cu = x.cu ∧ o.dir = x.grid.lr.code)

/-- A split takes the lowest free token, whose record names the strand's old token; every child inherits the latches and the clock; the first
keeps the entry, the holding of the warp slot and may issue in the next clock; a second takes the lowest free entry while the fibre holds
fewer than 4 strands, else it is parked behind the paths already parked; it counts as having issued at the team's start, as a path that
resumes from an overflow record does (R71, R76, R297). -/
def Obligations.SplitChildren : Prop :=
  (∀ (p : Parked) (start : Nat), (p.resume start).lastIssue = start ∧ (p.resume start).mask = p.mask ∧ (p.resume start).pc = p.pc ∧
    ∀ l ∈ (p.resume start).latches, l.valid = false) ∧
  ∀ (i : Instr) (s : State) (x : Iss) (push : Strand → Strand) (t : Nat) (m n : Word) (pc qc : BitVec 23), issOf i s = some x →
    x.w.table.length = 8 → x.st.fibre < x.w.fibres.length → (push x.st).state = x.st.state → (push x.st).fibre = x.st.fibre →
    1 ≤ t → t ≤ 15 → amGet (x.w.fibre x.st.fibre).tokens t = none → (∀ j, 1 ≤ j → j < t → amGet (x.w.fibre x.st.fibre).tokens j ≠ none) →
    ∃ v, amGet (x.split s push [(m, pc), (n, qc)]).warps x.k = some v ∧ v.holder = x.w.holder ∧ v.k = x.w.k ∧
      amGet (v.fibre x.st.fibre).tokens t = some x.st.parent ∧ (∀ j, j ≠ t → amGet (v.fibre x.st.fibre).tokens j = amGet (x.w.fibre x.st.fibre).tokens j) ∧
      (let a := v.strand x.e
       a.mask = m ∧ a.pc = pc ∧ a.parent = t ∧ a.latches = (push x.st).latches ∧ a.c = (push x.st).c ∧ a.state = x.st.state ∧
         a.hold = .none ∧ a.issuableAt = (push x.st).issuableAt ∧ a.fibre = x.st.fibre) ∧
      (∀ e, e < 8 → (x.w.strand e).live = false → (∀ j, j < e → (x.w.strand j).live = true) → (x.w.entriesOf x.st.fibre).length < 4 →
        let b := v.strand e
        b.mask = n ∧ b.pc = qc ∧ b.parent = t ∧ b.latches = (push x.st).latches ∧ b.c = (push x.st).c ∧ b.state = x.st.state ∧
          b.lastIssue = x.team.startAt ∧ b.fibre = x.st.fibre ∧ v.overflow = x.w.overflow ∧ ∀ j, j ≠ e → j ≠ x.e → v.strand j = x.w.strand j) ∧
      ((∀ e, e < 8 → (x.w.strand e).live = true) ∨ 4 ≤ (x.w.entriesOf x.st.fibre).length →
        (∀ j, j ≠ x.e → v.strand j = x.w.strand j) ∧ ∃ p, v.overflow = x.w.overflow ++ [p] ∧ p.mask = n ∧ p.pc = qc ∧ p.parent = t ∧
          p.c = (push x.st).c ∧ p.fibre = x.st.fibre)

/-- EXIT takes its lanes out of the strand, which goes on with the others at the successor, and retires with an empty mask once its register writes
and status writes have landed: its entry is then free. JOIN with PARENT 0 only moves the PC; else the strand waits in state 5 with invalid latches
while a sibling is elsewhere; the last of two siblings at one JOIN fuses with the other at once, in the lower entry, with the larger clock, and the
fused strand continues at the JOIN's successor with the parent of its token, which is free again (R74, R75, R244, R245). -/
def Obligations.ExitAndJoin : Prop :=
  (∀ (g : Pfx) (s : State) (x : Iss), Passes (.exit g) s x →
    let m := x.st.mask &&& ~~~ x.mask
    (m ≠ 0 → exec (.exit g) s = .next (State.settle { s with
      warps := amSet s.warps x.k { x.w with table := x.w.table.set x.e { x.on with mask := m } }, cur := none })) ∧
    (m = 0 → Then (.exit g) s fun u => SameBytes s u ∧ ∃ v, amGet u.warps x.k = some v ∧ (v.strand x.e).mask = 0 ∧
      (v.strand x.e).pc = x.next ∧ (landed x.w x.st →
        { due := s.clock, prio := prioResult, ev := .strandRetire x.st.uid } ∈ u.agenda))) ∧
  (∀ (s : State) (uid k e : Nat) (w : Warp), Stands s uid k e w → (w.strand e).mask = 0 →
    landed w (w.strand e) → w.overflow = [] →
    (∀ a ∈ w.liveEntries, (w.strand a).fibre = (w.strand e).fibre → (w.strand a).state ≠ .atJoin) →
    Then (.strandRetire uid) s fun u => SameBytes s u ∧ ∃ v, amGet u.warps k = some v ∧ v.strand e = {} ∧ v.k = w.k ∧
      v.fibres = w.fibres ∧ ∀ a, a ≠ e → v.strand a = w.strand a) ∧
  ∀ (g : Pfx) (s : State) (x : Iss), Passes (.join g) s x →
    (x.st.parent = 0 → Gives (.join g) s fun t => MovedTo x s t x.next) ∧
    (∀ a, x.st.parent ≠ 0 → x.w.overflow = [] → a ∈ x.w.liveEntries → a ≠ x.e → (x.w.strand a).fibre = x.st.fibre →
      (x.w.strand a).parent = x.st.parent → (∀ b ∈ x.w.liveEntries, b ≠ x.e → (x.w.strand b).fibre = x.st.fibre → (x.w.strand b).state ≠ .atJoin) →
      Then (.join g) s fun u => SameBytes s u ∧ ∃ v, amGet u.warps x.k = some v ∧ v.k = x.w.k ∧ v.fibres = x.w.fibres ∧
        (v.strand x.e).state = .atJoin ∧ (v.strand x.e).pc = x.st.pc ∧ (v.strand x.e).succ = x.next ∧ (v.strand x.e).mask = x.st.mask ∧
        (∀ l ∈ (v.strand x.e).latches, l.valid = false) ∧ ∀ b, b ≠ x.e → v.strand b = x.w.strand b) ∧
    ∀ a up, x.st.parent ≠ 0 → x.w.overflow = [] → a ∈ x.w.liveEntries → a ≠ x.e → x.st.fibre < x.w.fibres.length →
      (∀ b ∈ x.w.liveEntries, (x.w.strand b).fibre = x.st.fibre → b = a ∨ b = x.e) → (x.w.strand a).fibre = x.st.fibre →
      (x.w.strand a).state = .atJoin → (x.w.strand a).pc = x.st.pc → (x.w.strand a).parent = x.st.parent → (x.w.strand a).succ = x.next →
      amGet (x.w.fibre x.st.fibre).tokens x.st.parent = some up →
      Then (.join g) s fun u => SameBytes s u ∧ ∃ v, amGet u.warps x.k = some v ∧ v.k = x.w.k ∧
        amGet (v.fibre x.st.fibre).tokens x.st.parent = none ∧ v.strand (max a x.e) = {} ∧
        let f := v.strand (min a x.e)
        f.mask = x.st.mask ||| (x.w.strand a).mask ∧ f.pc = x.next ∧ f.parent = up ∧ f.state = .ready ∧ f.c = max x.st.c (x.w.strand a).c ∧
          f.issuableAt = s.clock + 1 ∧ ∀ l ∈ f.latches, l.valid = false

namespace Sys2Proof.Stated

/-- The latency of a barrier's release (R246): FBAR 1 clock, BAR n 4, GBAR 60. -/
def barriers (g : Pfx) : List (Instr × Nat × Nat) :=
  [(.fbar g, 17, 1), (.gbar g, 16, 60)] ++ (List.range 16).map fun n => (.bar g (BitVec.ofNat 4 n), n, 4)

/-- A strand that waits at a barrier of a number. -/
def waitsAt (st : Strand) (bar : Nat) : Prop := st.state = .barrier ∧ st.waitBar = bar

/-- Whether a status word is DONE. -/
def done (v : Word) : Prop := v.getLsbD 31 = true

/-- The special registers by number, but for the clock (R57, R280). -/
def specials (x : Iss) : List (BitVec 8 × (Nat → Word)) :=
  let n (v : Nat) (_ : Nat) : Word := BitVec.ofNat 32 v
  [(0, fun l => BitVec.ofNat 32 l), (1, n x.w.number), (2, n x.st.fibre), (3, n (x.team.index % x.grid.lr.gridx)),
   (4, n (x.team.index / x.grid.lr.gridx % x.grid.lr.gridy)), (5, n (x.team.index / (x.grid.lr.gridx * x.grid.lr.gridy))),
   (6, n x.grid.lr.gridx), (7, n x.grid.lr.gridy), (8, n x.grid.lr.gridz), (9, n x.team.rank), (10, n x.site),
   (11, n (if x.site % 2 = 0 then 1 else 2)), (12, n x.grid.depth), (14, fun _ => x.grid.seed),
   (15, fun _ => ((x.w.fibre x.st.fibre).fstat ||| match x.st.fence with | some f => f.flags | none => 0).setWidth 32)]

end Sys2Proof.Stated

/-- A strand that issues a barrier enters state 2 with its PC there and invalid latches; with every other participant waiting at it and every
earlier event acknowledged its release is set, the latency of R246 later. At the release every strand that waits there takes the largest
clock and becomes ready at the barrier's successor, issuable in the next clock (R80, R246, R247). -/
def Sys2Proof.Stated.BarrierSteps : Prop :=
  (∀ (g : Pfx) (b : Instr × Nat × Nat) (s : State) (x : Iss), b ∈ barriers g → Passes b.1 s x →
    amGet x.team.episodes (if b.2.1 = 17 then 32 + x.w.number else b.2.1) = none →
    Gives b.1 s fun u => SameBytes s u ∧
      (∃ v, amGet u.warps x.k = some v ∧ v.k = x.w.k ∧ v.fibres = x.w.fibres ∧ waitsAt (v.strand x.e) b.2.1 ∧ (v.strand x.e).pc = x.st.pc ∧
        (v.strand x.e).succ = x.next ∧ (v.strand x.e).mask = x.st.mask ∧ (v.strand x.e).parent = x.st.parent ∧
        (∀ l ∈ (v.strand x.e).latches, l.valid = false) ∧ ∀ e, e ≠ x.e → v.strand e = x.w.strand e) ∧
      (x.k ∈ s.barWarps x.k b.2.1 → s.unacked x.st s.nextId = false →
        (∀ k ∈ s.barWarps x.k b.2.1, ∀ w, amGet s.warps k = some w → w.overflow = [] ∧ ∀ e ∈ w.liveEntries, (k, e) ≠ (x.k, x.e) →
          waitsAt (w.strand e) b.2.1 ∧ s.unacked (w.strand e) s.nextId = false) →
        { due := s.clock + b.2.2, prio := prioResult, ev := .barrierRelease s.nextId } ∈ u.agenda ∧
          ∃ ep, amGet u.episodes s.nextId = some ep ∧ ep.kind = b.2.1 ∧ x.st.uid ∈ ep.uids)) ∧
  ∀ (s : State) (id : Nat) (ep : Episode), amGet s.episodes id = some ep →
    Then (.barrierRelease id) s fun u => SameBytes s u ∧ u.episodes = amErase s.episodes id ∧ u.reqs = s.reqs ∧
      ∀ n ∈ ep.uids, ∀ k e w, Stands s n k e w → waitsAt (w.strand e) ep.kind → ∃ v, amGet u.warps k = some v ∧ v.k = w.k ∧
        (v.strand e).state = .ready ∧ (v.strand e).pc = (w.strand e).succ ∧ (v.strand e).issuableAt = s.clock + 1 ∧
        (v.strand e).mask = (w.strand e).mask ∧ (v.strand e).parent = (w.strand e).parent ∧ (∀ l ∈ (v.strand e).latches, l.valid = false) ∧
        (w.strand e).c ≤ (v.strand e).c ∧ ∃ a ∈ ep.uids, ∃ k' e' w', Stands s a k' e' w' ∧ waitsAt (w'.strand e') ep.kind ∧
          (v.strand e).c = (w'.strand e').c

/-- WAITC reads its counter once as an acquire, of scope `.sys` in space 0 and `.gal` in space 1, and holds its strand at issue; its first
read lets the strand go on, latches kept, when the counter has reached the value, else the strand waits in state 3 with invalid latches;
after a write that satisfies it the strand becomes ready at the successor. YIELDC goes on at its label at once where ks is DONE with no status
write pending, else waits there in state 4; a status word lands in its k register and ends the waits for it when it is DONE, in the next clock, and
what waited for that write goes on (R78, R79, R245, R249, R250). -/
def Sys2Proof.Stated.WaitSteps : Prop :=
  (∀ (g : Pfx) (k : BitVec 8) (p : BitVec 7) (s : State) (x : Iss) (a va sp : Nat), Passes (.waitc g k p) s x →
    s.reach x [0, 1] 8 8 false (pointer x s p) = .mem a va sp false → Gives (.waitc g k p) s fun u =>
      SameBytes s u ∧
      SentAs x s u (s.nextId + 1) (s.nextId + 1) { lane := low x, ea := pointer x s p, at0 := .mem a va sp false } 8 .read (some s.nextId)
        (some (if ptrSpace (pointer x s p) = 0 then 3 else 1)) false ∧
      (∃ ld, amGet u.loads s.nextId = some ld ∧ ld.waitc = some k ∧ ld.regs = none ∧ ld.kreg = none ∧ ld.uid = x.st.uid) ∧
      ∃ v, amGet u.warps x.k = some v ∧ (v.strand x.e).hold = .busy s.nextId ∧ (v.strand x.e).pc = x.st.pc ∧ (v.strand x.e).succ = x.next ∧
        (v.strand x.e).latches = x.st.latches ∧ (v.strand x.e).waitPhys = a ∧
        (v.strand x.e).waitVal = (spGet x.w.k k.toNat).toNat + (spGet x.w.k ((k.toNat + 1) % 256)).toNat * 2 ^ 32) ∧
  (∀ (s : State) (id uid k e l : Nat) (ld : Load) (w : Warp) (n : DWord) (q : BitVec 8), amGet s.loads id = some ld → ld.waitc = some q → ld.uid = uid →
    ld.warp = k → w.spilled = none → ld.poison = [] → ld.vals = [(l, n)] → Stands s uid k e w →
    ((w.strand e).waitVal ≤ n.toNat → Then (.loadDataReturn id) s fun u => SameBytes s u ∧ ∃ v, amGet u.warps k = some v ∧
      (v.strand e).hold = .none ∧ (v.strand e).pc = (w.strand e).succ ∧ (v.strand e).latches = (w.strand e).latches) ∧
    (n.toNat < (w.strand e).waitVal → s.num (w.strand e).waitPhys 8 < (w.strand e).waitVal → Then (.loadDataReturn id) s fun u =>
      SameBytes s u ∧ ∃ v, amGet u.warps k = some v ∧ (v.strand e).state = .countWait ∧ (v.strand e).waitk = q ∧ (v.strand e).hold = .none ∧
        (v.strand e).pc = (w.strand e).pc ∧ ∀ l ∈ (v.strand e).latches, l.valid = false)) ∧
  (∀ (s : State) (uid k e : Nat) (w : Warp), Stands s uid k e w → (w.strand e).state = .countWait → (w.strand e).waitTs ≠ none →
    Gives (.waitcReread uid) s fun u => u.mem = s.mem ∧ u.agenda = s.agenda ∧ ∃ v, amGet u.warps k = some v ∧ (v.strand e).state = .ready ∧
      (v.strand e).pc = (w.strand e).succ ∧ (v.strand e).hold = .none ∧ (v.strand e).mask = (w.strand e).mask) ∧
  (∀ (g : Pfx) (o : BitVec 14) (k : BitVec 8) (s : State) (x : Iss), Passes (.yieldc g o k) s x → ¬ outside (.yieldc g o k) x →
    let pend := x.w.kpend.any fun q => decide (q.1 = k.toNat)
    (done (spGet x.w.k k.toNat) → pend = false → ∃ t, exec (.yieldc g o k) s = .next (t.wantOverlays x.k) ∧ SameBytes s t ∧
      ∃ v, amGet t.warps x.k = some v ∧ (v.strand x.e).pc = relPc x o.toInt ∧ (v.strand x.e).state = x.st.state ∧
        ∀ l ∈ (v.strand x.e).latches, l.valid = false) ∧
    (¬ done (spGet x.w.k k.toNat) ∨ pend = true → Gives (.yieldc g o k) s fun u => SameBytes s u ∧
      ∃ v, amGet u.warps x.k = some v ∧ v.k = x.w.k ∧ (v.strand x.e).pc = relPc x o.toInt ∧ (v.strand x.e).state = .statusWait ∧
        (v.strand x.e).waitk = k ∧ ∀ l ∈ (v.strand x.e).latches, l.valid = false)) ∧
  ∀ (s : State) (k n op : Nat) (v : Word) (w : Warp), amGet s.warps k = some w →
    ((n, op) ∉ w.kpend → exec (.statusWordWrite k n op v) s = .next s) ∧
    ((n, op) ∈ w.kpend → (∀ m, amGet s.mcas op = some m → m.racing = [] ∧ ∀ q ∈ s.reqs, q.1 ∈ m.exps → q.2.done = true) →
      Then (.statusWordWrite k n op v) s fun u => u.mem = s.mem ∧ u.reqs = s.reqs ∧ ∃ y, amGet u.warps k = some y ∧
        spGet y.k n = v ∧ (∀ m, m ≠ n → spGet y.k m = spGet w.k m) ∧ (n, op) ∉ y.kpend ∧ y.fibres = w.fibres ∧
        ∀ e, let st := w.strand e
          if v.getLsbD 31 = true ∧ st.state = .statusWait ∧ st.waitk.toNat = n then
            (y.strand e).state = .ready ∧ (y.strand e).pc = st.succ ∧ (y.strand e).issuableAt = s.clock + 1 ∧
              ∀ l ∈ (y.strand e).latches, l.valid = false
          else y.strand e = st)

/-- Strands wait at barriers, for counters, status words, latches and clocks, and go on. -/
def Obligations.WaitingSteps : Prop := BarrierSteps ∧ WaitSteps

/-- NOP has no effect beyond the PC, with an active lane or none; the word 0x0000_000F is NOP, and NOP takes a guard and a yield. A step of
`~~NOP` is a pure yield: its strand, which held the warp slot, is past it with its latches invalid, and no byte, k register, predicate, flag or
other strand's place changes (R257). -/
def Obligations.NopResult : Prop :=
  decode (parcelHalves 0x0000000F) = .ok (.nop {}) 2 ∧ decode ([0x0016] ++ parcelHalves 0x0000000F) = .ok (.nop { pred := some (1, false) }) 3 ∧
    decode ([0x001E] ++ parcelHalves 0x0000000F) = .ok (.nop { sw := some true }) 3 ∧
    (∀ (g : Pfx) (s : State) (x : Iss), Passes (.nop g) s x ∨ (issOf (.nop g) s = some x ∧ prefixFailure x.info x.g = none ∧ x.mask = 0) →
      Gives (.nop g) s fun t => MovedTo x s t x.next) ∧
    ∀ (g : Pfx) (n : Nat) (s : State) (x : Iss) (c : Cur), s.cur = some c → s.group c.warp c.entry = .ok (.nop g) n → Passes (.nop g) s x →
      g.sw = some true → x.w.holder = some c.entry → x.w.vacated = false → ∃ t v, step s = .next t ∧ t.mem = s.mem ∧ t.reqs = s.reqs ∧
        amGet t.warps c.warp = some v ∧ v.k = x.w.k ∧ v.fibres = x.w.fibres ∧ (v.strand c.entry).pc = x.next ∧
        (v.strand c.entry).mask = x.st.mask ∧ (∀ l ∈ (v.strand c.entry).latches, l.valid = false) ∧
        ∀ e, e ≠ c.entry → (v.strand e).pc = (x.w.strand e).pc ∧ (v.strand e).latches = (x.w.strand e).latches

/-- TRAP and BKPT freeze their strand with a record of class 10 or 11, their code, and the reduced mask as its lanes (R256); a RESUME of
either continues at the successor, of any other class at the group again (R345). -/
def Sys2Proof.Stated.SoftwareTraps : Prop :=
  (∀ (g : Pfx) (c : BitVec 16) (s : State) (x : Iss),
    (Passes (.trap g c) s x → exec (.trap g c) s = .next (x.trap s { cls := 10, code := c.toNat, lanes := x.mask })) ∧
    (Passes (.bkpt g c) s x → exec (.bkpt g c) s = .next (x.trap s { cls := 11, code := c.toNat, lanes := x.mask }))) ∧
  ∀ st : Strand, st.resumed.state = .ready ∧ st.resumed.mask = st.mask ∧ st.resumed.latches = st.latches ∧ st.resumed.parent = st.parent ∧
    st.resumed.pc = if st.trapClass = 10 ∨ st.trapClass = 11 then st.succ else st.pc

/-- SRD gives every active lane its special register 4 clocks after issue, sr.clock as a pair; SWR of sr.seed sends the lowest lane's value to the
hub, a flit over the spoke (R21), where it is the context's seed from its arrival, 60 clocks a hop later and what holds it up; SWR of sr.fstat
clears the flags that are 1 in the value, and neither pushes or changes a byte (R280, R281). -/
def Sys2Proof.Stated.SpecialRegisters : Prop :=
  (∀ (g : Pfx) (d : BitVec 7) (s : State) (x : Iss) (r : BitVec 8 × (Nat → Word)), r ∈ specials x → Passes (.srd g r.1 d) s x →
    Gives (.srd g r.1 d) s fun t => LaneResult x s t d.toNat false 4 4 0 r.2) ∧
  (∀ (g : Pfx) (d : BitVec 7) (s : State) (x : Iss), dst64Ok d = true → Passes (.srd g 13 d) s x →
    Gives (.srd g 13 d) s fun t => LaneResult64 x s t d.toNat false 4 4 0 fun _ => BitVec.ofNat 64 s.clock) ∧
  (∀ (g : Pfx) (a : BitVec 7) (s : State) (x : Iss), Passes (.swr g 14 a) s x →
    let sent := s.toHub x.cn x.site (s.favoured x.team)
    exec (.swr g 14 a) s = .next { sent.1 with
      warps := amSet s.warps x.k { x.w with table := x.w.table.set x.e x.on }
      agenda := insAgenda s.agenda { due := s.clock + sent.2, prio := prioLate, ev := .seedArrival x.cn (x.src s a.toNat (low x)) }
      cur := none }) ∧
  (∀ (g : Pfx) (a : BitVec 7) (s : State) (x : Iss), Passes (.swr g 15 a) s x →
    let f := x.w.fibre x.st.fibre
    exec (.swr g 15 a) s = .next { s with
      warps := amSet s.warps x.k { x.w with
        table := x.w.table.set x.e x.on
        fibres := x.w.fibres.set x.st.fibre { f with fstat := f.fstat &&& ~~~ ((x.src s a.toNat (low x)).setWidth 6) } }
      cur := none }) ∧
  ∀ (s : State) (ctx : Nat) (v : Word) (c : Ctx), amGet s.ctxs ctx = some c →
    exec (.seedArrival ctx v) s = .next { s with ctxs := amSet s.ctxs ctx { c with seed := v } }

/-- Software traps and special-register reads. -/
def Obligations.SystemReads : Prop := SoftwareTraps ∧ SpecialRegisters

namespace Sys2Proof.Stated

/-- No format window is programmed and no line of a home holds a view of one, so that every byte is the stored one (R143). -/
def Unviewed (s : State) : Prop := MemOk s ∧ s.windows = [] ∧ ∀ p ∈ s.lines, p.2.view = none

/-- n bytes at a now stand at b, and nothing else differs but what their old place lost. -/
def Moved (s u : State) (a b n : Nat) : Prop :=
  (∀ i, i < n → u.byte (b + i) = s.byte (a + i)) ∧ ∀ c, ¬ (a ≤ c ∧ c < a + n) → ¬ (b ≤ c ∧ c < b + n) → u.byte c = s.byte c

/-- The ranges of n bytes at a and at b have no byte in common. -/
def Apart (a b n : Nat) : Prop := a + n ≤ b ∨ b + n ≤ a

/-- What an operation on a warp's block leaves alone in the warp: its k registers, fibres and flags, window map and paths. -/
def BlockKept (w v : Warp) : Prop :=
  v.team = w.team ∧ v.number = w.number ∧ v.k = w.k ∧ v.fibres = w.fibres ∧ v.winmap = w.winmap ∧ v.overflow = w.overflow ∧ v.pipe = w.pipe

/-- The strand that asked for a block operation goes on at its successor. -/
def GoesOn (w v : Warp) (e : Nat) : Prop :=
  (v.strand e).hold = .none ∧ (v.strand e).pc = (w.strand e).succ ∧ (v.strand e).state = (w.strand e).state ∧
    (v.strand e).mask = (w.strand e).mask ∧ (v.strand e).latches = (w.strand e).latches

end Sys2Proof.Stated

/-- REGGROW and REGSHRINK hold their warp and touch no byte; at the largest block, and at the smallest, they trap instead (class 7, codes 7
and 8, the lowest active lane). A grow that completes has doubled the block: its bytes are those of the old block, its upper half is 0, its
strand goes on. A shrink that completes has halved it and zeroed the upper half (R251, R252, R253). -/
def Sys2Proof.Stated.BlockResizes : Prop :=
  (∀ (i : Instr) (s : State) (x : Iss) (c : Instr × BlockOp × Nat × Nat), Passes i s x →
    c = (.reggrow x.g, .grow x.e, 131072, 7) ∨ c = (.regshrink x.g, .shrink x.e, 4096, 8) → i = c.1 →
    (x.w.blockBytes = c.2.2.1 → exec i s = .next (x.trap s { cls := 7, code := c.2.2.2, detail := low x, lanes := x.mask })) ∧
    (x.w.blockBytes ≠ c.2.2.1 → exec i s = .next (State.settle { s with
      warps := amSet s.warps x.k { x.w with
        table := x.w.table.set x.e { x.st with hold := .busy x.st.uid, succ := x.next }
        op := some c.2.1 }
      cur := none }))) ∧
  ∀ (s : State) (k e : Nat) (w : Warp), amGet s.warps k = some w → e < w.table.length → MemOk s →
    let at0 (o : Nat) : Nat := bankAddr (warpCu k) o
    let b := w.blockBytes
    (∀ dst, w.op = some (.growTo e dst) → dst = w.block ∨ Apart w.block dst b → Gives (.reggrowComplete k) s fun u =>
      (∀ i, i < b → u.byte (at0 dst + i) = s.byte (at0 w.block + i) ∧ u.byte (at0 (dst + b) + i) = 0) ∧
      (∀ a, ¬ (at0 w.block ≤ a ∧ a < at0 w.block + b) → ¬ (at0 dst ≤ a ∧ a < at0 dst + 2 * b) → u.byte a = s.byte a) ∧
      ∃ v, amGet u.warps k = some v ∧ v.block = dst ∧ v.blockBytes = 2 * b ∧ v.op = none ∧ BlockKept w v ∧ GoesOn w v e) ∧
    (w.op = some (.shrinkRun e) → Gives (.regshrinkComplete k) s fun u =>
      (∀ i, i < b / 2 → u.byte (at0 (w.block + b / 2) + i) = 0) ∧
      (∀ a, ¬ (at0 (w.block + b / 2) ≤ a ∧ a < at0 (w.block + b / 2) + b / 2) → u.byte a = s.byte a) ∧
      ∃ v, amGet u.warps k = some v ∧ v.block = w.block ∧ v.blockBytes = b / 2 ∧ v.op = none ∧ BlockKept w v ∧ GoesOn w v e ∧
        ∀ a, a ≠ e → v.strand a = w.strand a)

/-- A blocked grow is tried again: in place in 64 clocks where its buddy is free, else by a move to the lowest free block of twice the size,
else it stays blocked. Register deadlock that has stood for 64 clocks favours the blocked warp of the lowest team and spills another team's
warp into the pool, one 512-byte piece a clock. A spill moves the warp's block into the pool and frees it; a refill moves it back. What the
L1 gives up for a granted block changes no byte where no view is at hand (R26, R252, R369, R370, R371). -/
def Sys2Proof.Stated.DeadlockSpills : Prop :=
  (∀ (s : State) (cu k e since : Nat) (w : Warp), (s.cu cu).favoured = none ∨ (s.cu cu).favoured = some k → (s.cu cu).blocked = [k] →
    (s.cu cu).spillList = [] → warpCu k = cu → amGet s.warps k = some w → w.op = some (.growBlocked e since) → s.stopBegun k = false →
    s.blockMove k = none → Unviewed s →
    let buddy := buddyOf w.block w.blockBytes
    Gives (.reggrowRetry cu) s fun u => u.mem = s.mem ∧ ∃ v, amGet u.warps k = some v ∧ BlockKept w v ∧ v.block = w.block ∧
      (freeAt (s.cu cu).grants (topOf cu) buddy w.blockBytes = true → v.op = some (.growTo e (min buddy w.block)) ∧
        (u.cu cu).favoured = none ∧ k ∉ (u.cu cu).blocked ∧ { due := s.clock + 64, prio := prioResult, ev := .reggrowComplete k } ∈ u.agenda) ∧
      (freeAt (s.cu cu).grants (topOf cu) buddy w.blockBytes = false →
        (∀ o g, allocBlock (s.cu cu).grants (topOf cu) (2 * w.blockBytes) w.team = some (o, g) → v.op = some (.growTo e o) ∧
          (u.cu cu).grants = g ∧ (u.cu cu).favoured = none ∧
            { due := s.clock + (64 + w.blockBytes / 512), prio := prioResult, ev := .reggrowComplete k } ∈ u.agenda) ∧
        (allocBlock (s.cu cu).grants (topOf cu) (2 * w.blockBytes) w.team = none → v.op = some (.growBlocked e s.clock) ∧
          k ∈ (u.cu cu).blocked))) ∧
  (∀ (s : State) (cu : Nat), (s.cu cu).blocked ≠ [] → (s.cu cu).favoured = none → s.deadlocked cu = true →
    ((s.cu cu).deadlockAt = none → Gives (.registerDeadlock cu) s fun u => u.warps = s.warps ∧ u.mem = s.mem ∧
      (u.cu cu).deadlockAt = some s.clock ∧ { due := s.clock + 1, prio := prioLate, ev := .registerDeadlock cu } ∈ u.agenda) ∧
    ∀ t k q l w a rest, (s.cu cu).deadlockAt = some t → t + 64 ≤ s.clock → s.blockedOrder cu = k :: l → s.spillOrder cu k = q :: rest →
      amGet s.warps q = some w → (w.op = none ∨ ∃ f since, w.op = some (.growBlocked f since)) → s.poolPlace (cuSite cu) w.blockBytes = some a →
      s.blockMove q = none → Gives (.registerDeadlock cu) s fun u =>
        u.mem = s.mem ∧ (u.cu cu).favoured = some k ∧ q ∉ (u.cu cu).blocked ∧ amGet u.spillUsed a = some w.blockBytes ∧
          { due := s.clock + w.blockBytes / 512, prio := prioResult, ev := .warpSpill q } ∈ u.agenda ∧
          ∃ v, amGet u.warps q = some v ∧ v.op = some (.spilling a) ∧ v.spilled = w.spilled ∧ BlockKept w v) ∧
  ∀ (s : State) (k a : Nat) (w : Warp), amGet s.warps k = some w → (s.cu (warpCu k)).favoured = none → Unviewed s →
    (w.op = some (.spilling a) → Apart (bankAddr (warpCu k) w.block) a w.blockBytes → Gives (.warpSpill k) s fun u =>
      Moved s u (bankAddr (warpCu k) w.block) a w.blockBytes ∧ k ∈ (u.cu (warpCu k)).spillList ∧
        (∀ g ∈ (u.cu (warpCu k)).grants, g.1 ≠ w.block) ∧ ∃ v, amGet u.warps k = some v ∧ v.spilled = some a ∧ v.op = none ∧ BlockKept w v) ∧
    ∀ o, w.op = some (.refilling o) → w.spilled = some a → Apart a (bankAddr (warpCu k) o) w.blockBytes → (s.cu (warpCu k)).spillList = [k] →
      Gives (.warpRefill k) s fun u => Moved s u a (bankAddr (warpCu k) o) w.blockBytes ∧ (u.cu (warpCu k)).spillList = [] ∧
        amGet u.spillUsed a = none ∧ ∃ v, amGet u.warps k = some v ∧ v.block = o ∧ v.spilled = none ∧ v.op = none ∧ BlockKept w v

/-- A compaction with nothing to make room for ends. Its move, when it completes, has moved a block's bytes to the lower place, which its warp
then has, and frees the old one; a warp held by a blocked REGGROW stays so; while its launch does not fit, the lowest granted block that fits
below itself is moved next (R372). -/
def Sys2Proof.Stated.CompactionSteps : Prop :=
  (∀ (s : State) (cu : Nat), (s.cu cu).moving = none → (s.cu cu).compacting = none → Gives (.compaction cu) s fun u =>
    u.mem = s.mem ∧ u.warps = s.warps ∧ u.teams = s.teams ∧ (u.cu cu).compacting = none ∧ (u.cu cu).grants = (s.cu cu).grants) ∧
  (∀ (s : State) (cu a n b : Nat), (s.cu cu).moving = some (a, n, b) → (s.cu cu).compacting = none → Unviewed s →
    Apart (bankAddr cu a) (bankAddr cu b) n → Gives (.compaction cu) s fun u =>
      Moved s u (bankAddr cu a) (bankAddr cu b) n ∧ (u.cu cu).moving = none ∧ (∀ g ∈ (u.cu cu).grants, g.1 ≠ a) ∧
        ∀ k w, amGet s.warps k = some w → warpCu k = cu → w.spilled = none → ∃ v, amGet u.warps k = some v ∧ BlockKept w v ∧
          v.block = (if w.block = a then b else w.block) ∧ v.op = (if w.block = a then (match w.op with | some (.moving _) => none | o => o) else w.op)) ∧
  ∀ (s : State) (cu gn a n b t : Nat) (g : Grid), (s.cu cu).moving = none → (s.cu cu).compacting = some gn → amGet s.grids gn = some g →
    s.fitsCu g.lr gn cu = false → (∀ w ∈ s.warps, warpCu w.1 = cu → w.2.op = none) →
    nextMove (s.cu cu).grants (fun _ => true) = some (a, n, b, t) → Unviewed s →
    Gives (.compaction cu) s fun u => u.mem = s.mem ∧ (u.cu cu).moving = some (a, n, b) ∧
      { due := s.clock + n / 512, prio := prioResult, ev := .compaction cu } ∈ u.agenda ∧
      ∀ k w, amGet s.warps k = some w → warpCu k = cu → w.block = a → w.spilled = none → ∃ v, amGet u.warps k = some v ∧ v.op = some (.moving b)

/-- Register blocks are resized, moved, spilled and refilled. -/
def Obligations.BlockMoves : Prop := BlockResizes ∧ CompactionSteps ∧ DeadlockSpills

namespace Sys2Proof.Stated

/-- The lines that the hub reads of n bytes at a virtual address are free and plain. -/
def HubReads (s : State) (ctx va n : Nat) : Prop := ∀ a ∈ s.hubChunks ctx va n, s.lineFree (lineOf a) = true ∧ Plain s (lineOf a)

end Sys2Proof.Stated

/-- LAUNCH sends its lowest active lane's record address to the hub with its agent, clock and depth, and makes a status write to ks pending;
it touches no byte. The hub takes it in arrival order, reads the record, then the window-map image, and accepts it, as the context's next
grid with the context's seed, one level below its parent, held where it has a counter, or refuses it with its code; either way the status
word reaches ks 60 clocks a hop later and what holds it up (R21, R108, R109, R152, R254, R255, R366). -/
def Sys2Proof.Stated.LaunchSteps : Prop :=
  (∀ (g : Pfx) (k : BitVec 8) (p : BitVec 7) (s : State) (x : Iss) (a va sp : Nat) (own : Bool), Passes (.launch g k p) s x →
    s.reach x [0] 128 128 false (pointer x s p) = .mem a va sp own → s.poisonIn a 128 = [] → Then (.launch g k p) s fun u =>
      SameBytes s u ∧ u.reqs = s.reqs ∧ u.grids = s.grids ∧
      (∃ l, u.launches = amSet s.launches s.nextId l ∧ l.ctx = x.cn ∧ l.grid = some x.gn ∧ l.warp = x.k ∧ l.uid = x.st.uid ∧ l.ks = k.toNat ∧
        l.addr = ptrOff (pointer x s p) ∧ l.depth = x.grid.depth + 1 ∧ l.det = x.grid.det ∧ l.wNum = x.w.number ∧ l.c = x.st.c ∧
        l.pc = x.st.pc ∧ l.lane = low x ∧ l.stage = 0) ∧
      ∃ v, amGet u.warps x.k = some v ∧ v.k = x.w.k ∧ v.fibres = x.w.fibres ∧ v.kpend = x.w.kpend ++ [(k.toNat, s.nextId)] ∧
        (v.strand x.e).pc = x.next ∧ (v.strand x.e).mask = x.st.mask ∧ (v.strand x.e).latches = x.st.latches ∧ (v.strand x.e).c = x.st.c ∧
        ∀ e, e ≠ x.e → v.strand e = x.w.strand e) ∧
  ∀ (s : State) (id : Nat) (l : Launch), amGet s.launches id = some l →
    (l.stage = 1 → Gives (.launchAccept id) s fun u => u.mem = s.mem ∧ u.warps = s.warps ∧ u.grids = s.grids ∧ u.ctxs = s.ctxs ∧
      (∃ n, s.nextId ≤ n ∧ n < u.nextId ∧ u.launches = amSet s.launches id { l with stage := 2, order := n }) ∧
      { due := s.clock + (s.hubAsk l.ctx l.addr).2, prio := prioRead + hubAgent 3, ev := .launchAccept id } ∈ u.agenda) ∧
    (l.stage = 2 → HubReads s l.ctx l.addr 128 → s.hubFault l.ctx l.addr 128 = none → Gives (.launchAccept id) s fun u => u.mem = s.mem ∧ u.warps = s.warps ∧ u.grids = s.grids ∧
      amGet u.launches id = some { l with stage := 3, recBytes := (s.hubRead l.ctx l.addr 128).getD [] } ∧
        ∃ d, { due := s.clock + d, prio := prioRead + hubAgent 3, ev := .launchAccept id } ∈ u.agenda) ∧
    (l.stage = 3 → (∀ q ∈ s.launches, q.2.ctx = l.ctx → 2 ≤ q.2.stage → l.order ≤ q.2.order) → ∀ (c : Ctx), amGet s.ctxs l.ctx = some c →
      let r := launchRec (ofBytes l.recBytes)
      let img := s.hubRead l.ctx r.winmapAt 64
      let code := s.launchCode l (ofBytes l.recBytes) (s.hubFault l.ctx r.winmapAt 64).isNone
      HubReads s l.ctx r.winmapAt 64 → (∀ f, s.hubFault l.ctx r.winmapAt 64 = some f → f.2.2 ≠ 7) → Gives (.launchAccept id) s fun u => u.mem = s.mem ∧ u.launches = amErase s.launches id ∧
        (∃ d, 60 * s.hubHops (cuSite (warpCu l.warp)) ≤ d ∧
          (code ≠ 0 ∨ r.waitc = 0 → d = (s.fromHub l.ctx (cuSite (warpCu l.warp))).2) ∧
          { due := s.clock + d, prio := prioResult, ev := .statusWordWrite l.warp l.ks id
              (launchStatus code (if code = 0 then c.nextNumber else 0)) } ∈ u.agenda) ∧
        (code ≠ 0 → u.grids = s.grids ∧ u.ctxs = s.ctxs) ∧
        (code = 0 → amGet u.ctxs l.ctx = some { c with nextNumber := c.nextNumber + 1 } ∧
          (∀ p q, l.grid = some p → p ≠ s.nextId → amGet s.grids p = some q → amGet u.grids p = some { q with children := q.children + 1 }) ∧
          ∃ g, amGet u.grids s.nextId = some g ∧ g.ctx = l.ctx ∧ g.number = c.nextNumber ∧ g.parent = l.grid ∧ g.depth = l.depth ∧ g.lr = r ∧
            g.det = (l.det || r.det) ∧ g.winmap = runOf 0 (img.getD []) ∧ g.seed = c.seed ∧ g.c = l.c ∧ g.nextTeam = 0 ∧ g.finished = [] ∧
            g.held = decide (r.waitc ≠ 0)))

/-- A reread of a held launch's counter is a read event of the sequencer, above the timestamp of a write that has caused it: it releases the launch,
which is dealt from a clock after the value has come back, when the counter has reached its value, and leaves it held else. A launch that has failed
to fit for a whole budget period becomes reserved (R111, R113). -/
def Sys2Proof.Stated.LaunchWaits : Prop :=
  (∀ (s : State) (gn a : Nat) (g : Grid), amGet s.grids gn = some g → g.held = true →
    s.transNow 8 g.ctx g.lr.waitc false (s.supOf g.ctx) false = .ok a → s.lineFree (lineOf a) = true → s.poisonIn a 8 = [] →
    s.contained a = false → Plain s (lineOf a) →
    let above := if g.waitPhys = 0 then 0 else (s.line (lineOf a)).wts
    let ts := max (max (max (max g.c s.horSys) (amGetD s.hubC 3 0)) above + 1) (s.line (lineOf a)).wts
    Gives (.dependenceCounterReread gn) s fun u => SameBytes s u ∧ (u.line (lineOf a)).wts = (s.line (lineOf a)).wts ∧
      (u.line (lineOf a)).rts = max (s.line (lineOf a)).rts (ts + s.lease g.ctx) ∧ amGetD u.hubC 3 0 = max (amGetD s.hubC 3 0) ts ∧
      ∃ q, amGet u.grids gn = some q ∧ q.lr = g.lr ∧ q.number = g.number ∧ q.nextTeam = g.nextTeam ∧ q.waitPhys = a ∧
        (g.lr.waitn ≤ s.num a 8 → q.held = false ∧ q.acquireTs = ts ∧ q.dealFrom = s.clock + (s.hubLatency a - halfL2 (s.hubHops (homeOf a)) +
            (s.hubAnswer g.ctx a).2) + 1 ∧
          ∃ d ∈ u.agenda, d.ev = .dealingStep) ∧
        (s.num a 8 < g.lr.waitn → q.held = true ∧ q.acquireTs = g.acquireTs)) ∧
  ∀ (s : State) (gn t : Nat) (g : Grid), amGet s.grids gn = some g → g.failSince = some t →
    exec (.launchReservation gn) s = .next (if t + 4096 ≤ s.clock ∧ g.reserved = false then
      { s with grids := amSet s.grids gn { g with reserved := true } } else s)

/-- A launch is issued, accepted, held and reserved. -/
def Obligations.LaunchPath : Prop := LaunchSteps ∧ LaunchWaits

namespace Sys2Proof.Stated

/-- What a deal of a team with an index leaves: the team's place, and its warps as they will start, 64 clocks later, with every byte of
their blocks, bays and tiles 0 (R59, R65, R87, R95, R96, R114, R380). -/
def Dealt (s u : State) (gn cu t rank c0 : Nat) (g : Grid) (slots blocks bays : List Nat) : Prop :=
  (∃ m, amGet u.teams s.nextId = some m ∧ m.grid = gn ∧ m.index = t ∧ m.group = t / 2 ^ g.lr.group ∧ m.rank = rank ∧ m.cu = cu ∧
    m.warps = slots.map (warpKey cu ·) ∧ m.bays = bays.take g.lr.bays ∧ m.spares = bays.drop g.lr.bays ∧ m.startAt = s.clock + 64 ∧
    m.started = false ∧ m.c0 = c0) ∧
  { due := s.clock + 64, prio := prioResult, ev := .teamStart s.nextId } ∈ u.agenda ∧
  (∀ j slot, slots[j]? = some slot → ∃ w, amGet u.warps (warpKey cu slot) = some w ∧ w.team = s.nextId ∧ w.number = j ∧
    w.block = blocks.getD j 0 ∧ w.blockBytes = g.lr.blockBytes ∧ w.winmap = g.winmap ∧ w.k = [] ∧ w.fibres = List.replicate g.lr.fibres {} ∧
    ∀ f, f < 8 → (f < g.lr.fibres → (w.strand f).state = .ready ∧ (w.strand f).fibre = f ∧ (w.strand f).parent = 0 ∧
        (w.strand f).mask = BitVec.allOnes 32 ∧ (w.strand f).pc = s.fibrePc g.ctx g.lr f ∧ (w.strand f).c = c0 ∧
        (w.strand f).issuableAt = s.clock + 64 ∧ ∀ l ∈ (w.strand f).latches, l.valid = false) ∧
      (g.lr.fibres ≤ f → (w.strand f).state = .free)) ∧
  (∀ a, (∃ o ∈ blocks, bankAddr cu o ≤ a ∧ a < bankAddr cu o + g.lr.blockBytes) ∨ (∃ o ∈ bays, bankAddr cu o ≤ a ∧ a < bankAddr cu o + 4096) ∨
      (∃ j ∈ slots, accAddr cu (j * 16384) ≤ a ∧ a < accAddr cu (j * 16384) + 16384) → u.byte a = 0) ∧
  ∀ a, (∀ o ∈ blocks, ¬ (bankAddr cu o ≤ a ∧ a < bankAddr cu o + g.lr.blockBytes)) → (∀ o ∈ bays, ¬ (bankAddr cu o ≤ a ∧ a < bankAddr cu o + 4096)) →
    (∀ j ∈ slots, ¬ (accAddr cu (j * 16384) ≤ a ∧ a < accAddr cu (j * 16384) + 16384)) → u.byte a = s.byte a

end Sys2Proof.Stated

/-- Where one context runs and its first launch, in order, fits, a dealing step deals the next unit of it, each of its teams with its slots,
block and bays taken and zeroed, and its warps with every register and predicate 0 and every fibre at its entry (for fibres 1 to 3 as the
loader's table has it, log entry 6); the team starts 64 clocks later. A team that is done gives back what it held and is counted in its grid; a
grid whose teams and children are done retires and adds 1 to its DONE counter, where it has one, as a release of the sequencer whose timestamp
is above the .dev horizon and its clock (log entry 42), and leaves its parent one child fewer (R59, R60, R87, R95, R112, R113, R114, R380). -/
def Obligations.DealingSteps : Prop :=
  (∀ (s : State) (gn cu t rank c0 : Nat) (g : Grid) (slots blocks bays : List Nat) (gr : List (Nat × Nat × Nat)), amGet s.grids gn = some g →
    slotsFor g.lr.warps (s.usedSlots gn cu) = some slots → fitBank g.lr (topOf cu) s.nextId (s.grantsFor gn cu) = some (blocks, bays, gr) →
    g.lr.fibres ≤ 4 → Dealt s (s.placeTeam gn cu t rank c0) gn cu t rank c0 g slots blocks bays) ∧
  (∀ (s : State) (cn gn : Nat) (c : Ctx) (g : Grid) (cus : List Nat) (rest : List (Nat × Grid)), s.ctxs = [(cn, c)] → c.state = .running →
    sortBy (fun q : Nat × Grid => q.2.order) (s.grids.filter fun q => decide (q.2.ctx = cn ∧ q.2.dealFrom ≤ s.clock) && q.2.undealt) = (gn, g) :: rest →
    amGet s.grids gn = some g → s.placeFor gn g = some cus → s.dealDue s.clock = false → Gives .dealingStep s fun u =>
      let d := (List.range cus.length).foldl (fun s' r => s'.placeTeam gn (cus.getD r 0) (g.nextTeam + r) r (max (max g.c g.acquireTs) s.horSys)) s
      u.mem = d.mem ∧ u.teams = d.teams ∧ u.warps = d.warps ∧ (amGet u.grids gn).map Grid.nextTeam = some (g.nextTeam + cus.length)) ∧
  (∀ (s : State) (tn : Nat) (t : Team), amGet s.teams tn = some t → t.started = false → Gives (.teamStart tn) s fun u =>
    u.mem = s.mem ∧ u.teams = amSet s.teams tn { t with started := true } ∧ u.grids = s.grids ∧
      ∀ k w, amGet s.warps k = some w → ∃ v, amGet u.warps k = some v ∧ v.k = w.k ∧ v.fibres = w.fibres ∧ ∀ e,
        (v.strand e).pc = (w.strand e).pc ∧ (v.strand e).mask = (w.strand e).mask ∧ (v.strand e).state = (w.strand e).state ∧
          (v.strand e).c = (w.strand e).c) ∧
  (∀ (s : State) (tn : Nat) (t : Team) (g : Grid), amGet s.teams tn = some t → s.teamDone t = true → amGet s.grids t.grid = some g →
    Then (.teamFinish tn) s fun u => SameBytes s u ∧ u.teams = amErase s.teams tn ∧ (∀ k ∈ t.warps, amGet u.warps k = none) ∧
      (∀ k, k ∉ t.warps → amGet u.warps k = amGet s.warps k) ∧ (∀ r ∈ (u.cu t.cu).grants, r.2.2 ≠ tn) ∧
      ∃ q, amGet u.grids t.grid = some q ∧ t.index ∈ q.finished ∧ (∀ i ∈ g.finished, i ∈ q.finished) ∧ q.nextTeam = g.nextTeam ∧
        (q.finished.length = g.lr.total → { due := s.clock, prio := prioResult, ev := .gridRetire t.grid } ∈ u.agenda)) ∧
  ∀ (s : State) (gn : Nat) (g : Grid), amGet s.grids gn = some g →
    (g.retired = false → g.finished.length = g.lr.total → g.children = 0 → Gives (.gridRetire gn) s fun u => u.mem = s.mem ∧
      (∀ p q, g.parent = some p → p ≠ gn → amGet s.grids p = some q → (amGet u.grids p).map Grid.children = some (q.children - 1) ∧
        { due := s.clock, prio := prioResult, ev := .gridRetire p } ∈ u.agenda) ∧
      (g.lr.done = 0 → amGet u.grids gn = none) ∧
      (g.lr.done ≠ 0 → (amGet u.grids gn).map Grid.retired = some true ∧ ∃ d ∈ u.agenda, d.ev = .gridRetire gn ∧
        d.due = s.clock + (s.hubSend g.ctx g.lr.done).2)) ∧
    ∀ a, g.retired = true → (∀ sup, s.transNow 8 g.ctx g.lr.done true sup false = .ok a) → s.lineFree (lineOf a) = true → s.contained a = false →
      s.poisonIn a 8 = [] → Plain s (lineOf a) → a % 64 + 8 ≤ 64 → s.watchers a 8 = [] →
      let ts := max (max (amGetD s.horDev g.ctx 0) (amGetD s.hubC 3 0) + 1) ((s.line (lineOf a)).rts + 1)
      Then (.gridRetire gn) s fun u => amGet u.grids gn = none ∧ u.bytes a 8 = toBytes 8 ((s.num a 8 + 1) % 2 ^ 64) ∧
        (∀ b, ¬ (a ≤ b ∧ b < a + 8) → u.byte b = s.byte b) ∧ (u.line (lineOf a)).wts = ts ∧ (u.line (lineOf a)).rts = ts ∧
        { due := s.clock + (halfL2 (s.hubHops (homeOf a)) + (s.hubAnswer g.ctx a).2), prio := prioResult, ev := .horizonFold g.ctx ts } ∈ u.agenda

namespace Sys2Proof.Stated

/-- A matrix operand of n bytes at a scratchpad pointer lies whole in the bays of a rank of the group, on a 64-byte boundary (R261). -/
structure Operand (x : Iss) (s : State) (p n : Nat) : Prop where
  space : ptrSpace p = 1
  rank : (s.rankTeam x.gn x.team.group (ptrRank p)).isSome = true ∧ ptrRank p < x.grid.groupSize x.team.group
  aligned : ptrOff p % 64 = 0
  inside : ptrOff p < 4096 * x.grid.lr.bays ∧ ptrOff p + n ≤ 4096 * x.grid.lr.bays

/-- Nothing holds a matrix instruction of K terms back at issue: fewer than four wait in the CU, no accumulator move to its tiles is pending,
and the context's budget of the CU admits it (R116, R266). -/
def EngineOpen (x : Iss) (s : State) (k : Nat) (tiles : List Nat) : Prop :=
  (s.cu x.cu).queue.length < 4 ∧ (∀ t ∈ tiles, ∀ b ∈ (s.cu x.cu).tileBusy, t ∉ b.2) ∧
    admits (amGetD s.mxsUsed (x.cn * 512 + x.cu) 0) (16 * x.ctx.mxsLimit) (engineClocks x.site k) (s.favoured x.team) = true

/-- A matrix instruction at issue reads no poisoned source, nor a tile element that the operations ahead of it leave poisoned (R352; that this
is judged at issue is log entry 98). -/
structure Chains (i : Instr) (s : State) (x : Iss) : Prop extends AtIssue i s x where
  sources : x.sourceTrap s = none
  tiles : ∀ t ∈ x.info.tsrcs, ∀ l ∈ lanesOf x.mask, s.chainPoison x.cu (x.team.tileIx t) l = none

/-- The instruction is queued behind those of its CU, may start 20 clocks later, 60 with an operand on another CU, and its flags are pending;
its strand moves on, but for a broadcast, which holds it at issue. No byte and no accessed line changes (R262, R264, R266). -/
def Queued (x : Iss) (s u : State) (m : MatOp) (ptrs : List Nat) : Prop :=
  (∀ a, u.byte a = s.byte a) ∧ u.lines = s.lines ∧ u.reqs = s.reqs ∧
  (∃ q, (u.cu x.cu).queue = (s.cu x.cu).queue ++ [q] ∧ q.id = s.nextId ∧ q.warp = x.k ∧ q.uid = x.st.uid ∧ q.fibre = x.st.fibre ∧
    q.team = x.tn ∧ q.form = m.form ∧ q.k = m.k ∧ q.acc = m.acc ∧ q.rows = x.mask ∧ q.tile = m.tile ∧ q.aAddr = m.aAddr ∧
    q.aRank = m.aRank ∧ q.bAddr = m.bAddr ∧ q.bRank = m.bRank ∧ q.aBytes = m.aBytes ∧ q.c = x.st.c ∧
    q.notBefore = s.clock + (if ∃ p ∈ ptrs, x.rankCu s p ≠ x.cu then 60 else 20) ∧
    q.chunks.map Prod.fst = m.chunks.map Prod.fst) ∧
  (∃ a ∈ u.agenda, a.ev = .matrixEngineStart x.cu ∧ s.clock + 20 ≤ a.due) ∧
  ∃ v p, amGet u.warps x.k = some v ∧ amGet v.pipe s.nextId = some p ∧ p.res = [] ∧ p.mayFlag = true ∧ v.k = x.w.k ∧ v.fibres = x.w.fibres ∧
    (v.strand x.e).latches = x.st.latches ∧ (v.strand x.e).mask = x.st.mask ∧
    (m.form = .broadcast → (v.strand x.e).hold = .busy s.nextId ∧ (v.strand x.e).pc = x.st.pc ∧ (v.strand x.e).succ = x.next) ∧
    (m.form ≠ .broadcast → (v.strand x.e).hold = x.st.hold ∧ (v.strand x.e).pc = x.next)

/-- A matrix form with two scratchpad operands of n bytes an element completes. -/
def PairQueued (i : Instr) (form : Iss → MatForm) (k n : Nat) (acc : BitVec 1) (d a b : BitVec 7) : Prop :=
  ∀ s x, Chains i s x → Operand x s (pointer x s a) (32 * n * k) → Operand x s (pointer x s b) (32 * n * k) →
    let m : MatOp := { matOp (form x) k (decide (acc = 1)) (x.team.tileIx d.toNat) with
      aAddr := ptrOff (pointer x s a), aRank := ptrRank (pointer x s a), bAddr := ptrOff (pointer x s b), bRank := ptrRank (pointer x s b) }
    EngineOpen x s k (MatOp.tiles m) → Gives i s fun u => Queued x s u m [pointer x s a, pointer x s b]

/-- The signedness of A and B in the type of an integer form (R260). -/
def intForms : List (BitVec 4 × Bool × Bool) := [(1, false, false), (2, false, true), (3, true, false), (4, true, true)]

end Sys2Proof.Stated

/-- Every matrix form is queued with the rows of its active lanes, the tile of D, K = 32 times 1 to 4, and its operands' ranks and offsets from
the lowest active lane's pointers: BF16, 8-bit integer in every signedness, B broadcast (in a group of one team a plain form; that its strand is
held at issue until its episode starts is log entry 29), A from tiles, and A gathered: MMAG reads its descriptor once, waits at issue behind the
gathers before it until its rows have come, then is queued, and its unit is free (R260, R261, R263, R264, R265, R266, R305). -/
def Sys2Proof.Stated.MatrixIssue : Prop :=
  ∀ (g : Pfx) (c : BitVec 1) (b a d : BitVec 7) (k : BitVec 2),
    let kk := 32 * (k.toNat + 1)
    PairQueued (.mmaBf16 g c b a d k) (fun _ => .bf16) kk 2 c d a b ∧
    (∀ t, t ∈ intForms → PairQueued (.mmaInteger g c b a d t.1 k) (fun _ => .int t.2.1 t.2.2) kk 1 c d a b) ∧
    PairQueued (.mmab g c b a d k) (fun x => if x.grid.groupSize x.team.group = 1 then .bf16 else .broadcast) kk 2 c d a b ∧
    (∀ s x, Chains (.mmaAb g c b a d k) s x → Operand x s (pointer x s b) (64 * kk) →
      let src := (List.range (k.toNat + 1)).map fun j => x.team.tileIx (a.toNat + j)
      let m : MatOp := { matOp .fromTiles kk (decide (c = 1)) (x.team.tileIx d.toNat) with
        bAddr := ptrOff (pointer x s b), bRank := ptrRank (pointer x s b), chunks := src.map fun t => (t, 0, 0, 0) }
      EngineOpen x s kk (m.tile :: src) → Gives (.mmaAb g c b a d k) s fun u => Queued x s u m [pointer x s b]) ∧
    ∀ s x, Chains (.mmag g c b a d k) s x →
      (∀ m, amGet s.gathers x.st.uid = some m → m.fetched = true → m.form = .gather → (∀ q ∈ m.chunks, q.2.2.1 < 2 ^ 64) →
        EngineOpen x s m.k [m.tile] → Gives (.mmag g c b a d k) s fun u =>
          Queued x s u { m with chunks := [] } [m.ptrB.toNat] ∧ amGet u.gathers x.st.uid = none ∧ x.st.uid ∉ (u.cu x.cu).gather) ∧
      let desc := x.descriptor
      (amGet s.gathers x.st.uid = none → Operand x s (pointer x s b) (64 * kk) →
        ptrSpace desc.1 ≤ 1 → ptrOff desc.1 % 64 = 0 → desc.2.1 % 64 = 0 →
        (c = 1 → ∀ b ∈ (s.cu x.cu).tileBusy, x.team.tileIx d.toNat ∉ b.2) →
        (∀ ch ∈ x.gatherChunks s a.toNat kk, ∃ pa va sp own, s.reach x [0, 1] 64 64 false ch.2.2.1 = .mem pa va sp own) →
        Gives (.mmag g c b a d k) s fun u => (∀ a, u.byte a = s.byte a) ∧ u.lines = s.lines ∧
          (∃ m, amGet u.gathers x.st.uid = some m ∧ m.form = .gather ∧ m.k = kk ∧ m.rows = x.mask ∧ m.fetched = false ∧
            m.ptrB.toNat = pointer x s b ∧ m.chunks.map (fun q => (q.1, q.2.1)) = (x.gatherChunks s a.toNat kk).map fun q => (q.1, q.2.1)) ∧
          (u.cu x.cu).gather.getLast? = some x.st.uid ∧
          ((s.cu x.cu).gather = [] → (u.cu x.cu).gather = [x.st.uid] ∧
            ∃ e ∈ u.agenda, e.ev = .gatherRowArrival x.st.uid ∧ s.clock + 20 ≤ e.due) ∧
          ∃ v, amGet u.warps x.k = some v ∧ (v.strand x.e).hold = .stall x.st.uid ∧ (v.strand x.e).pc = x.st.pc ∧ (v.strand x.e).mask = x.st.mask)

namespace Sys2Proof.Stated

/-- The lines of these addresses hold no view. -/
def PlainAt (s : State) (l : List Nat) : Prop := ∀ a ∈ l, Plain s (lineOf a)

/-- An operation, or a warp, but for the logical clocks of its strands. -/
def untimed (m : MatOp) : MatOp := { m with c := 0 }
def clockless (w : Warp) : Warp :=
  { w with table := w.table.map fun st => { st with c := 0 }, overflow := w.overflow.map fun p => { p with c := 0 } }

/-- The word of an element of a tile of a CU (R95). -/
def element (s : State) (cu tile i c : Nat) : Word := s.word (accAddr cu (4096 * tile + 128 * i + 4 * c))

/-- The address of a byte within an element that lane-rows of a mask write. -/
def inRows (cu : Nat) (tiles : List Nat) (rows : Word) (a : Nat) : Prop :=
  ∃ t ∈ tiles, ∃ i, i < 32 ∧ rows.getLsbD i = true ∧ accAddr cu (4096 * t + 128 * i) ≤ a ∧ a < accAddr cu (4096 * t + 128 * i) + 128

/-- The old element of the integer forms: the pair of tiles as a signed 64-bit number (R148). -/
def oldPair (s : State) (cu tile i c : Nat) : Int :=
  BitVec.toInt (BitVec.ofNat 64 ((element s cu tile i c).toNat + (element s cu (tile + 1) i c).toNat * 2 ^ 32))

/-- The exact sum of an element of an integer form, from the bytes of A (K a row) and of B (32 a row). -/
def intSum (m : MatOp) (ua ub : Bool) (old : Int) (i c : Nat) : Int :=
  let e (u : Bool) (b : Byte) : Int := if u then (b.toNat : Int) else b.toInt
  (if m.acc then old else 0) + ((List.range m.k).map fun r => e ua (m.aBytes.getD (m.k * i + r) 0) * e ub (m.bBytes.getD (32 * r + c) 0)).sum

/-- A number held to the range of a signed 64-bit one (R148). -/
def clamp64 (v : Int) : Int := if v < -(2 ^ 63) then -(2 ^ 63) else if 2 ^ 63 ≤ v then 2 ^ 63 - 1 else v

/-- The halfword of an element of A (row-major, K a row) or of B (32 a row). -/
def halfAt (l : List Byte) (j : Nat) : Nat := (l.getD (2 * j) 0).toNat + 256 * (l.getD (2 * j + 1) 0).toNat

/-- The element of a BF16 form: the exact sum of R146 rounded once, from row i of A, column c of B and the old element. -/
def bfElement (s : State) (cu : Nat) (m : MatOp) (i c : Nat) : Nat × Flags :=
  matElem ((List.range m.k).map fun r => unpack fmtBf (halfAt m.aBytes (m.k * i + r)))
    ((List.range m.k).map fun r => unpack fmtBf (halfAt m.bBytes (32 * r + c)))
    (if m.acc then some (element s cu m.tile i c).toNat else none)

end Sys2Proof.Stated

/-- The rows of the gather that its CU serves come in one group: each 64-byte chunk as it stands in memory, rows at or past the limit as 0, and
the strand may issue again; while it holds its warp slot its unit serves no other. An idle engine starts the oldest of its queue, reads its
operands as they stand, as events of the strand, and is busy for K/4 clocks on Flight 1, K/8 on Flight 2, for the integer forms too (log entry
77). A broadcast starts on every engine of its group together where all agree, and lets their strands go on, which were held at issue until
then (log entry 29); where they do not, each strand traps (class 7, code 6) (R263, R264, R266, R267, R290, R305, R340). -/
def Sys2Proof.Stated.MatrixStarts : Prop :=
  (∀ (s : State) (uid k e : Nat) (w : Warp) (m : MatOp), amGet s.gathers uid = some m → Stands s uid k e w →
    m.fetched = false → (∀ q ∈ m.chunks, q.2.2.1 < 2 ^ 64) →
    (s.cu (warpCu k)).gather.head? = some uid → (s.cu (warpCu k)).gatherTill ≤ s.clock → s.earlierPending s.nextId uid m.kin = false → PlainAt s (m.chunks.map fun c => c.2.2.1) →
    (∀ c ∈ m.chunks, s.lineFree (lineOf c.2.2.1) = true ∧ s.contained c.2.2.1 = false ∧ s.poisonIn c.2.2.1 64 = [] ∧ c.2.2.1 % 64 = 0) →
    Gives (.gatherRowArrival uid) s fun u => SameBytes s u ∧
      (∃ v, amGet u.warps k = some v ∧ (v.strand e).hold = .none ∧ (v.strand e).pc = (w.strand e).pc ∧ (v.strand e).latches = (w.strand e).latches) ∧
      (w.holder = some e → (u.cu (warpCu k)).gather = (s.cu (warpCu k)).gather) ∧ ∃ q, amGet u.gathers uid = some q ∧ q.fetched = true ∧ q.rows = m.rows ∧ q.tile = m.tile ∧
        q.aBytes.length = 2048 * (m.k / 32) ∧
        ∀ i j b, i < 32 → j < m.k / 32 → b < 64 → q.aBytes.getD ((i * (m.k / 32) + j) * 64 + b) 0 =
          match m.chunks.find? fun c => decide (c.1 = i ∧ c.2.1 = j) with | some c => s.byte (c.2.2.1 + b) | none => 0) ∧
  (∀ (s : State) (cu : Nat) (m : MatOp) (rest : List MatOp), (s.cu cu).running = none → (s.cu cu).queue = m :: rest → m.notBefore ≤ s.clock →
    m.form ≠ .broadcast → s.earlierPending m.id m.uid m.kin = false →
    (∀ a ∈ (s.operands m).1 ++ (s.operands m).2, s.lineFree (lineOf a) = true ∧ s.contained a = false) →
    Then (.matrixEngineStart cu) s fun u => u.mem = s.mem ∧ (∀ k, (amGet u.warps k).map clockless = (amGet s.warps k).map clockless) ∧
      (u.cu cu).queue.map untimed = rest.map untimed ∧
      let busy := if cuSite cu % 2 = 0 then m.k / 4 else m.k / 8
      { due := s.clock + busy, prio := prioWrite + s.agentOf m.uid, ev := .matrixEngineFinish cu } ∈ u.agenda ∧
      ∃ q, (u.cu cu).running = some q ∧ q.id = m.id ∧ q.until_ = s.clock + busy ∧ q.rows = m.rows ∧ q.acc = m.acc ∧ q.tile = m.tile ∧ q.k = m.k ∧
        q.form = m.form ∧
        ((m.form = .bf16 ∨ m.form = .gather ∨ m.form = .fromTiles) →
          q.bBytes = (s.operandAt m.team m.bRank m.bAddr (64 * m.k)).flatMap fun a => s.bytes a 64) ∧
        (m.form = .gather → q.aBytes = m.aBytes) ∧
        (∀ ua ub, m.form = .int ua ub →
          q.aBytes = ((s.operandAt m.team m.aRank m.aAddr (32 * m.k)).flatMap fun a => s.bytes a 64) ∧
          q.bBytes = (s.operandAt m.team m.bRank m.bAddr (32 * m.k)).flatMap fun a => s.bytes a 64) ∧
        (m.form = .bf16 → q.aBytes = (s.operandAt m.team m.aRank m.aAddr (64 * m.k)).flatMap fun a => s.bytes a 64) ∧
        (m.form = .fromTiles → q.aBytes = (List.range 32).flatMap fun i => (m.chunks.map Prod.fst).flatMap fun t => (List.range 32).flatMap fun c =>
          toBytes 2 (drainBf (s.num (accAddr cu (4096 * t + 128 * i + 4 * c)) 4)))) ∧
  ∀ (s : State) (gn group rank cu : Nat) (m : MatOp) (rest : List (Nat × MatOp)), group < 2 ^ 40 →
    s.episodeHeads gn group rank = some ((cu, m) :: rest) → (((cu, m) :: rest).map Prod.fst).Nodup →
    (((cu, m) :: rest).map fun r => r.2.uid).Nodup →
    (∀ r ∈ (cu, m) :: rest, ∀ a ∈ (s.operands r.2).1 ++ (s.operands r.2).2, s.contained a = false) →
    ((∀ r ∈ rest, r.2.k = m.k ∧ r.2.ptrB = m.ptrB) → Then (.mmabEpisodeStart (groupArg gn group) rank) s fun u => u.mem = s.mem ∧
      ∀ r ∈ (cu, m) :: rest, (∃ q, (u.cu r.1).running = some q ∧ q.id = r.2.id) ∧
        (u.cu r.1).queue.map untimed = ((s.cu r.1).queue.drop 1).map untimed ∧
        (∃ a ∈ u.agenda, a.ev = .matrixEngineFinish r.1) ∧ ∀ k e w, Stands s r.2.uid k e w → ∃ v, amGet u.warps k = some v ∧
          (v.strand e).hold = .none ∧ (v.strand e).pc = (w.strand e).succ ∧ (v.strand e).latches = (w.strand e).latches) ∧
    ((∃ r ∈ rest, ¬ (r.2.k = m.k ∧ r.2.ptrB = m.ptrB)) → Then (.mmabEpisodeStart (groupArg gn group) rank) s fun u => u.mem = s.mem ∧
      ∀ r ∈ (cu, m) :: rest, (∀ q ∈ (u.cu r.1).queue, q.id ≠ r.2.id) ∧ ∀ k e w, Stands s r.2.uid k e w → (w.strand e).fence = none →
        ∃ v, amGet u.warps k = some v ∧ (v.strand e).state = .frozen ∧ (v.strand e).trapClass = 7 ∧ (v.strand e).pc = (w.strand e).pc)

/-- An engine that finishes writes the rows of its active lanes and no other byte: for the BF16 forms the exact sums of R146 rounded once, with
their flags; for the integer forms the exact sums held to 64 bits in the pair of tiles, the row flag set where any sum of the row left the
range, or stood set and the form accumulates, and cleared else. The next of its queue may start at once (R146, R148, R149, R262). -/
def Sys2Proof.Stated.MatrixFinish : Prop :=
  ∀ (s : State) (cu : Nat) (m : MatOp), (s.cu cu).running = some m → m.until_ = s.clock →
    (m.form ≠ .int false false → m.form ≠ .int false true → m.form ≠ .int true false → m.form ≠ .int true true →
      m.aBytes.length = 64 * m.k → m.bBytes.length = 64 * m.k → Then (.matrixEngineFinish cu) s fun u =>
        (u.cu cu).running = none ∧ ((s.cu cu).queue ≠ [] → ∃ a ∈ u.agenda, a.due = s.clock ∧ a.ev = .matrixEngineStart cu) ∧
        (∀ i c, i < 32 → c < 32 → m.rows.getLsbD i = true → element u cu m.tile i c = BitVec.ofNat 32 (bfElement s cu m i c).1) ∧
        (∀ a, ¬ inRows cu [m.tile] m.rows a → u.byte a = s.byte a) ∧
        ∀ w, amGet s.warps m.warp = some w → (∀ e ∈ w.liveEntries, (w.strand e).fence = none) → m.fibre < w.fibres.length →
          ∃ v, amGet u.warps m.warp = some v ∧ amGet v.pipe m.id = none ∧ (v.fibre m.fibre).fstat = (w.fibre m.fibre).fstat |||
            ((lanesOf m.rows).flatMap fun i => (List.range 32).map fun c => (bfElement s cu m i c).2).foldl (fun f g => f ||| g) 0) ∧
    ∀ ua ub, m.form = .int ua ub → m.aBytes.length = 32 * m.k → m.bBytes.length = 32 * m.k → m.tile % 2 = 0 →
      let sum (i c : Nat) : Int := intSum m ua ub (oldPair s cu m.tile i c) i c
      Then (.matrixEngineFinish cu) s fun u => (u.cu cu).running = none ∧
        (∀ i c, i < 32 → c < 32 → m.rows.getLsbD i = true →
          element u cu m.tile i c = (BitVec.ofInt 64 (clamp64 (sum i c))).setWidth 32 ∧
          element u cu (m.tile + 1) i c = (BitVec.ofInt 64 (clamp64 (sum i c)) >>> 32).setWidth 32) ∧
        (∀ a, ¬ inRows cu [m.tile, m.tile + 1] m.rows a → u.byte a = s.byte a) ∧
        ∀ i, i < 32 → (spGet u.rowFlags (accAddr cu (4096 * m.tile))).getLsbD i =
          if m.rows.getLsbD i then
            decide (m.acc = true) && ((spGet s.rowFlags (accAddr cu (4096 * m.tile))).getLsbD i ||
              (List.range 32).any fun c => decide (sum i c ≠ clamp64 (sum i c)))
          else (spGet s.rowFlags (accAddr cu (4096 * m.tile))).getLsbD i

/-- The matrix engine starts and finishes its operations. That a broadcast holds its strand until its episode starts is log entry 29, the clocks of
the integer forms log entry 77. -/
def Obligations.MatrixEngine : Prop := MatrixStarts ∧ MatrixFinish

namespace Sys2Proof.Stated

/-- What an accumulator move that writes tiles leaves beside the bytes: the rows' flags cleared, its tiles readable 4 clocks later, its strand
past it with its latches (R268). -/
def TileMoved (x : Iss) (s u : State) (dst : List Nat) : Prop :=
  let key := pairKey x.cu (dst.headD 0)
  spGet u.rowFlags key = spGet s.rowFlags key &&& ~~~ x.mask ∧ (∀ k, k ≠ key → spGet u.rowFlags k = spGet s.rowFlags k) ∧
    amGet (u.cu x.cu).tileBusy s.nextId = some dst ∧
    { due := s.clock + 4, prio := prioResult, ev := .pipelineResult x.k s.nextId } ∈ u.agenda ∧
    ∃ v, amGet u.warps x.k = some v ∧ v.k = x.w.k ∧ v.fibres = x.w.fibres ∧ v.strand x.e = x.on ∧ ∀ e, e ≠ x.e → v.strand e = x.w.strand e

/-- The element of lane i's row in a column named by a register, modulo 32. -/
def column (x : Iss) (s : State) (b : BitVec 7) (i : Nat) : Nat := (x.src s b.toNat i).toNat % 32

/-- A move stores, for each active lane, a word in the lane's row of a tile, at the lane's column, and nothing else. -/
def OneElement (x : Iss) (s u : State) (b : BitVec 7) (tiles : List (Nat × (Nat → Word))) : Prop :=
  (∀ t ∈ tiles, ∀ i c, i < 32 → c < 32 → element u x.cu t.1 i c =
    if x.mask.getLsbD i = true ∧ c = column x s b i then t.2 i else element s x.cu t.1 i c) ∧
  ∀ a, ¬ inRows x.cu (tiles.map Prod.fst) x.mask a → u.byte a = s.byte a

end Sys2Proof.Stated

/-- AMOV copies, and AZERO zeroes, the rows of the active lanes of a tile; AWR writes one element a lane from a register, AWR.fx64 one of a pair
of tiles from a register pair; ARD reads one element a lane, ARD.fx64 one of a pair of tiles, with AS where a row's flag is set; none touches
another byte, and the writers clear the rows' flags (R268). -/
def Sys2Proof.Stated.TileMoves : Prop :=
  ∀ (g : Pfx) (b a d : BitVec 7),
    (∀ s x, Passes (.amov g a d) s x → x.moveWait s [x.team.tileIx a.toNat] [x.team.tileIx d.toNat] = false → Gives (.amov g a d) s fun u =>
      TileMoved x s u [x.team.tileIx d.toNat] ∧ (∀ y, ¬ inRows x.cu [x.team.tileIx d.toNat] x.mask y → u.byte y = s.byte y) ∧
      ∀ i c, i < 32 → c < 32 → x.mask.getLsbD i = true → element u x.cu (x.team.tileIx d.toNat) i c = element s x.cu (x.team.tileIx a.toNat) i c) ∧
    (∀ s x, Passes (.azero g d) s x → x.moveWait s [] [x.team.tileIx d.toNat] = false → Gives (.azero g d) s fun u =>
      TileMoved x s u [x.team.tileIx d.toNat] ∧ (∀ y, ¬ inRows x.cu [x.team.tileIx d.toNat] x.mask y → u.byte y = s.byte y) ∧
      ∀ i c, i < 32 → c < 32 → x.mask.getLsbD i = true → element u x.cu (x.team.tileIx d.toNat) i c = 0) ∧
    (∀ s x, Passes (.awr g b a d) s x → x.moveWait s [] [x.team.tileIx d.toNat] = false → Gives (.awr g b a d) s fun u =>
      TileMoved x s u [x.team.tileIx d.toNat] ∧ OneElement x s u b [(x.team.tileIx d.toNat, fun i => x.src s a.toNat i)]) ∧
    (∀ s x, Passes (.awrFx64 g b a d) s x → x.moveWait s [] [x.team.tileIx d.toNat, x.team.tileIx d.toNat + 1] = false →
      Gives (.awrFx64 g b a d) s fun u => TileMoved x s u [x.team.tileIx d.toNat, x.team.tileIx d.toNat + 1] ∧
        OneElement x s u b [(x.team.tileIx d.toNat, fun i => (x.src64 s a.toNat i).setWidth 32),
          (x.team.tileIx d.toNat + 1, fun i => (x.src64 s a.toNat i >>> 32).setWidth 32)]) ∧
    (∀ s x, Passes (.ard g b a d) s x → x.moveWait s [x.team.tileIx a.toNat] [] = false → x.team.cu = x.cu → Gives (.ard g b a d) s fun u =>
      LaneResult x s u d.toNat false 8 8 0 fun i => element s x.cu (x.team.tileIx a.toNat) i (column x s b i)) ∧
    ∀ s x, Passes (.ardFx64 g b a d) s x → x.moveWait s [x.team.tileIx a.toNat, x.team.tileIx a.toNat + 1] [] = false → x.team.cu = x.cu →
      a.toNat % 2 = 0 → d.toNat % 2 = 0 →
      Gives (.ardFx64 g b a d) s fun u =>
        LaneResult64 x s u d.toNat false 8 8 (if spGet s.rowFlags (pairKey x.cu (x.team.tileIx a.toNat)) &&& x.mask ≠ 0 then fAS else 0) fun i =>
          let w (t : Nat) : Nat := (element s x.cu (x.team.tileIx a.toNat + t) i (column x s b i)).toNat
          BitVec.ofNat 64 (w 0 + w 1 * 2 ^ 32)

/-- The matrix and tile instructions issue. That a broadcast holds its strand at issue is log entry 29, when poison is judged log entry 98. -/
def Obligations.MatrixAndTilesIssue : Prop := MatrixIssue ∧ TileMoves

namespace Sys2Proof.Stated

/-- A copy is queued behind those of its CU: its k register takes 0 and a status write to it is pending; the strand moves on, and no byte
changes (R269). -/
def CopyQueued (x : Iss) (s u : State) (k : BitVec 8) (P : Copy → Prop) : Prop :=
  (∀ a, u.byte a = s.byte a) ∧ u.reqs = s.reqs ∧ (u.cu x.cu).copies = (s.cu x.cu).copies ++ [s.nextId] ∧
  (∃ cp, amGet u.copies s.nextId = some cp ∧ cp.ctx = x.cn ∧ cp.cu = x.cu ∧ cp.warp = x.k ∧ cp.uid = x.st.uid ∧ cp.team = x.tn ∧
    cp.ks = some k.toNat ∧ cp.moved = 0 ∧ cp.landed = [] ∧ cp.ended = false ∧ P cp) ∧
  ∃ v, amGet u.warps x.k = some v ∧ v.k = spSet x.w.k k.toNat 0 ∧ v.fibres = x.w.fibres ∧ v.kpend = x.w.kpend ++ [(k.toNat, s.nextId)] ∧
    (v.strand x.e).pc = x.next ∧ (v.strand x.e).mask = x.st.mask ∧ (v.strand x.e).latches = x.st.latches ∧ (v.strand x.e).c = x.st.c

/-- A space-1 pointer to 64 bytes of the team's own scratchpad, and one of a copy's destination or source, as R269 asks. -/
def OwnScratch (x : Iss) (p : Nat) : Prop :=
  ptrSpace p = 1 ∧ ptrRank p = x.team.rank ∧ ptrOff p + 64 ≤ 4096 * x.grid.lr.bays ∧ ptrOff p % 64 = 0
def CopyDst (x : Iss) (p : Nat) : Prop :=
  (ptrSpace p = 0 ∧ ptrRank p = 0 ∨ ptrSpace p = 1 ∧ ptrRank p = x.team.rank) ∧ ptrOff p % 64 = 0
def CopySource (x : Iss) (p : Nat) : Prop :=
  ((ptrSpace p = 0 ∨ ptrSpace p = 4) ∧ ptrRank p = 0 ∨ ptrSpace p = 1 ∧ ptrRank p < x.grid.groupSize x.team.group) ∧ ptrOff p % 64 = 0

/-- The byte of its landing bay that an offset of a scratchpad copy lands in (R97). -/
def landPlace (cp : Copy) (o : Nat) : Option Nat :=
  if cp.region.isSome then none
  else (cp.landing.find? fun b => decide (b.1 = (cp.dst + o) / 4096)).map fun b => bankAddr cp.cu (b.2 + (cp.dst + o) % 4096)

/-- The bank that a load leaves. -/
def loaded (o : OvlLoad) (img : Sparse 16) (now : Nat) : Bank :=
  { ctx := o.ctx, dir := o.dir, ovl := o.ovl, len := o.len, code := img, loadedAt := now, fetchedAt := now }

end Sys2Proof.Stated

/-- CPY queues a tensor copy with the record as the side port returns it (each byte the last one before its point, or one written after it),
the coordinates of lanes 0 to 4, and the CODE it will end with where the record is poisoned, invalid or has too few spare bays. CPYL queues a
linear copy of the bytes its count names, with CODE 9, 5 or 4 where the count, the extent or the spare bays are short, the first of them that
holds (log entry 32). OVLOAD of a resident
overlay is DONE 2 clocks later; else it joins the request for it (R164, R271, R273, R275, R277, R344). -/
def Sys2Proof.Stated.CopyIssue : Prop :=
  (∀ (g : Pfx) (k : BitVec 8) (l c : BitVec 7) (s : State) (x : Iss), Passes (.cpy g k l c) s x → OwnScratch x (pointer x s l) →
    (s.cu x.cu).copies.length < 16 → (∀ i, x.mask.getLsbD i = true → x.regPoison s c.toNat i = none) → Gives (.cpy g k l c) s fun u =>
      CopyQueued x s u k fun cp =>
        let y := layoutOf (ofBytes cp.recB)
        let clean := ∀ j a, j < 16 → x.team.spAddr x.grid.lr.bays (ptrOff (pointer x s l) + 4 * j) = some a → s.poisonIn a 4 = []
        cp.kind = .tensor ∧ cp.region = none ∧ cp.recB.length = 64 ∧
          (∀ i, i < 64 → cp.recB.getD i 0 ∈ sideOptions x.team.spLog x.st.sideAt (ptrOff (pointer x s l) + i)) ∧
          cp.dst = 4096 * y.bay ∧ cp.n = y.boxBytes ∧ cp.total = (y.boxBytes + 63) / 64 ∧
          (∀ d, d < 5 → cp.coords.getD d 0 = (x.src s c.toNat d).toInt) ∧ (¬ clean → cp.code = 6) ∧
          (clean → cp.code = if y.valid x.grid.lr.bays (decide (ptrRank y.base < x.grid.groupSize x.team.group)) = false then 1
            else if x.grid.lr.spare < (y.boxBytes + 4095) / 4096 then 4 else 0)) ∧
  (∀ (g : Pfx) (k : BitVec 8) (r d : BitVec 7) (s : State) (x : Iss), Passes (.cpyl g k r d) s x → CopyDst x (pointer x s d) →
    CopySource x (pointer x s r) → (s.cu x.cu).copies.length < 16 → Gives (.cpyl g k r d) s fun u =>
      CopyQueued x s u k fun cp =>
        let n := ((x.prefixOp false).setWidth 32).toNat
        let o := ptrOff (pointer x s d)
        cp.kind = .linear ∧ cp.src = pointer x s r ∧ cp.dst = o ∧ cp.n = n ∧ cp.total = n / 64 ∧
          (ptrSpace (pointer x s d) = 1 → cp.region = none ∧ cp.code = (if n % 64 ≠ 0 ∨ n < 64 ∨ 65536 < n then 9
            else if 4096 * x.grid.lr.bays < o + n then 5 else if x.grid.lr.spare < (o + n - 1) / 4096 - o / 4096 + 1 then 4 else 0)) ∧
          (ptrSpace (pointer x s d) = 0 → cp.region = x.ctx.regionOf o n ∧ cp.code = (if n % 64 ≠ 0 ∨ n < 64 ∨ 2 ^ 30 - 64 < n then 9
            else if x.ctx.regionOf o n = none then 5 else 0))) ∧
  ∀ (g : Pfx) (k n : BitVec 8) (s : State) (x : Iss), Passes (.ovload g k n) s x →
    ((s.bank x.cu x.cn x.grid.lr.code n.toNat).isSome = true → Gives (.ovload g k n) s fun u => (∀ a, u.byte a = s.byte a) ∧
      { due := s.clock + 2, prio := prioResult, ev := .statusWordWrite x.k k.toNat s.nextId 0x80000000 } ∈ u.agenda ∧
      ∃ v, amGet u.warps x.k = some v ∧ v.k = spSet x.w.k k.toNat 0 ∧ v.kpend = x.w.kpend ++ [(k.toNat, s.nextId)] ∧ v.strand x.e = x.on) ∧
    (s.bank x.cu x.cn x.grid.lr.code n.toNat = none → (s.cu x.cu).copies.length < 16 → Gives (.ovload g k n) s fun u =>
      CopyQueued x s u k (fun cp => cp.kind = .overlay) ∧ ∃ id o, amGet u.ovls id = some o ∧ s.nextId ∈ o.copies ∧
        ((∀ q ∈ s.ovls, ¬ (q.2.ctx = x.cn ∧ q.2.cu = x.cu ∧ q.2.dir = x.grid.lr.code ∧ q.2.ovl = n.toNat)) →
          o.ctx = x.cn ∧ o.cu = x.cu ∧ o.dir = x.grid.lr.code ∧ o.ovl = n.toNat ∧ o.stage = 0 ∧
            ∃ a ∈ u.agenda, a.ev = .overlayRequest id))

/-- The copy engine moves the last unit of the one copy of its CU, whose pages are translated and whose lines are free, by reading its source
bytes as they stand; they land in the copy's landing bays, and no other byte changes; the unit schedules the publish among the writes of its
clock, later by what its links held it back. A sole copy that cannot run ends with its CODE and the units moved (which of several CODEs it has
is log entry 32). A publish of a scratchpad copy gives every bay it touches its landing
bay, holding the copied bytes and, elsewhere, what the bay held, and frees the old one; one of a region flips its selector; each ends the copy
with DONE and its units (R97, R165, R269, R273, R274, R276, R344). -/
def Sys2Proof.Stated.CopyMoves : Prop :=
  (∀ (s : State) (cu id : Nat) (cp : Copy), (s.cu cu).copies = [id] → amGet s.copies id = some cp → cp.cu = cu → cp.started = true →
    cp.readyAt ≤ s.clock → cp.kind ≠ .overlay → (s.cu cu).engineMute = false → (s.cu cu).engineDead = false →
    (∀ k, cp.code ≠ 0 → cp.ks = some k → (∀ t, amGet s.teams cp.team = some t → t.copies = [id]) → Then (.copyUnitMove cu) s fun u =>
      SameBytes s u ∧ amGet u.copies id = none ∧ (u.cu cu).copies = [] ∧
        { due := s.clock, prio := prioResult, ev := .statusWordWrite cp.warp k id (copyStatus cp.code cp.moved) } ∈ u.agenda) ∧
    ∀ l, cp.code = 0 → cp.moved + 1 = cp.total → cp.landing ≠ [] ∨ cp.region.isSome = true → s.copyAdmits cp = true → s.unitMisses cp = [] → s.unitOf cp = .ok l →
      s.unitDst cp = 0 → (l.map Prod.fst).Nodup → (∀ p ∈ l, ∀ a, p.2 = .inl a → s.lineFree (lineOf a) = true ∧ Plain s (lineOf a)) →
      (cp.landing.map Prod.snd).Nodup → (∀ b ∈ cp.landing, b.2 % 4096 = 0) →
      Then (.copyUnitMove cu) s fun u =>
        (∀ a, (∀ p ∈ l, landPlace cp p.1 ≠ some a) → u.byte a = s.byte a) ∧
        (∀ p ∈ l, ∀ a, landPlace cp p.1 = some a → u.byte a = match p.2 with | .inl a => s.byte a | .inr b => b) ∧
        (∃ d, { due := s.clock + (s.publishClocks cp + d), prio := prioWrite + engineAgent 1 cu, ev := .copyPublish id } ∈ u.agenda ∧
          (cp.region = none → (∀ p ∈ l, ∀ a, p.2 = .inl a → homeOf (lineOf a * 64) = cuSite cu) → d = 0)) ∧
        ∃ q, amGet u.copies id = some q ∧ q.moved = cp.total ∧ q.landing = cp.landing ∧
          (∀ p ∈ l, spGet q.landed p.1 = match p.2 with | .inl a => s.byte a | .inr b => b) ∧
          ∀ o, o ∉ l.map Prod.fst → spGet q.landed o = spGet cp.landed o) ∧
  (∀ (s : State) (id k : Nat) (cp : Copy) (t : Team) (c : Ctx), amGet s.copies id = some cp → cp.region = none → cp.kind ≠ .overlay →
    cp.ks = some k → amGet s.teams cp.team = some t → t.copies = [id] → t.cu = cp.cu → amGet s.ctxs cp.ctx = some c → c.state = .running →
    t.bayMoving = false → (∀ l ∈ cp.publishLines t, s.lineFree l = true) → MemOk s →
    (t.bays ++ t.spares).Nodup → (∀ b ∈ t.bays ++ t.spares, b % 4096 = 0) → (cp.landing.map Prod.fst).Nodup → (cp.landing.map Prod.snd).Nodup →
    (∀ l ∈ cp.landing, l.1 < t.bays.length ∧ l.2 ∈ t.spares) →
    Then (.copyPublish id) s fun u => amGet u.copies id = none ∧
      { due := s.clock, prio := prioResult, ev := .statusWordWrite cp.warp k id (copyStatus 0 cp.total) } ∈ u.agenda ∧
      (∀ a, (∀ b ∈ t.bays ++ t.spares, ¬ (bankAddr cp.cu b ≤ a ∧ a < bankAddr cp.cu b + 4096)) → u.byte a = s.byte a) ∧
      ∃ q, amGet u.teams cp.team = some q ∧ q.copies = [] ∧ q.bays.length = t.bays.length ∧
        ∀ b o, b < t.bays.length → o < 4096 →
          (b ∉ cp.landing.map Prod.fst → q.bays.getD b 0 = t.bays.getD b 0) ∧ (∀ l ∈ cp.landing, l.1 = b → q.bays.getD b 0 = l.2) ∧
          u.byte (bankAddr cp.cu (q.bays.getD b 0) + o) =
            if b ∈ cp.landing.map Prod.fst ∧ cp.dst ≤ 4096 * b + o ∧ 4096 * b + o < cp.dst + cp.n then spGet cp.landed (4096 * b + o - cp.dst)
            else s.byte (bankAddr cp.cu (t.bays.getD b 0) + o)) ∧
  ∀ (s : State) (id k j : Nat) (cp : Copy) (c : Ctx) (r : Shadow), amGet s.copies id = some cp → cp.region = some j → cp.ks = some k →
    amGet s.ctxs cp.ctx = some c → c.state = .running → c.shadows[j]? = some r →
    (∀ p ∈ s.regionPages cp r, s.contained p.2.1 = false ∧ s.contained p.2.2 = false) →
    s.heldIn ((s.regionPages cp r).flatMap fun p => [p.2.1, p.2.2]) = [] →
    Then (.copyPublish id) s fun u => amGet u.copies id = none ∧
      { due := s.clock, prio := prioResult, ev := .statusWordWrite cp.warp k id (copyStatus 0 cp.total) } ∈ u.agenda ∧
      ∃ d, amGet u.ctxs cp.ctx = some d ∧ d.shadows = c.shadows.set j { r with second := !r.second }

/-- Copies issue, move, end and publish; of the moves, the last unit of a sole copy. The order of CODE 9, 5 and 4 is log entry 32. -/
def Obligations.CopyPath : Prop := CopyIssue ∧ CopyMoves

/-- A request whose directory entry is good takes a bank, where fewer than two are loaded or loading, and completes one clock for 64 parcels
after the first line; one whose entry is not ends its OVLOADs with a CODE and freezes the strands that wait to fetch. A load that completes
puts the code in a bank, ends its OVLOADs with DONE and the units, and lets the waiting strands fetch; 256 clocks later the bank may be
replaced, the one fetched from longer ago first (R277, R278, R279, R341, R344). -/
def Obligations.OverlaySteps : Prop :=
  (∀ (s : State) (id : Nat) (o : OvlLoad), amGet s.ovls id = some o →
    let dir := s.directory (cuSite o.cu) o.ctx o.dir o.ovl (s.supOf o.ctx)
    let code (a n : Nat) := s.overlayCodeAt (cuSite o.cu) o.ctx a n (s.supOf o.ctx)
    (∀ n a img, o.stage = 0 → dir = .ok n a → code a n = .ok img →
      (s.cu o.cu).banks.length + (s.ovls.filter fun q => decide (q.2.cu = o.cu ∧ q.2.stage = 2)).length < 2 → Gives (.overlayRequest id) s fun u =>
        u.mem = s.mem ∧ (u.cu o.cu).banks = (s.cu o.cu).banks ∧ amGet u.ovls id = some { o with stage := 2, len := n, addr := a } ∧
        ∃ d, { due := s.clock + (d + (n + 63) / 64), prio := prioResult, ev := .overlayLoadComplete id } ∈ u.agenda) ∧
    (o.stage = 0 → (∀ n a, dir ≠ .ok n a) → Then (.overlayRequest id) s fun u => u.mem = s.mem ∧ amGet u.ovls id = none ∧
      (∀ c cp k, o.copies = [c] → amGet s.copies c = some cp → cp.ks = some k →
        { due := s.clock, prio := prioResult, ev := .statusWordWrite cp.warp k c (copyStatus (overlayCode dir) 0) } ∈ u.agenda) ∧
      ∀ k e w, amGet s.warps k = some w → e < w.table.length → (w.strand e).ovlWait = some id → (w.strand e).state = .ready →
        (w.strand e).fence = none → ∃ v, amGet u.warps k = some v ∧ (v.strand e).state = .frozen ∧ (v.strand e).pc = (w.strand e).pc ∧
          (v.strand e).trapClass = match dir with | .fault c _ _ _ => c | _ => 7) ∧
    ∀ img pa, code o.addr o.len = .ok img → s.transNow (cuSite o.cu) o.ctx o.addr false (s.supOf o.ctx) true = .ok pa →
      Then (.overlayLoadComplete id) s fun u => u.mem = s.mem ∧ amGet u.ovls id = none ∧
        (u.cu o.cu).banks = (s.cu o.cu).banks ++ [loaded o img s.clock] ∧
        { due := s.clock + 256, prio := prioResult, ev := .overlayBankHoldExpiry o.cu } ∈ u.agenda ∧
        (∀ c cp k, o.copies = [c] → amGet s.copies c = some cp → cp.ks = some k →
          { due := s.clock, prio := prioResult, ev := .statusWordWrite cp.warp k c (copyStatus 0 ((2 * o.len + 63) / 64)) } ∈ u.agenda) ∧
        ∀ k e w, amGet s.warps k = some w → e < w.table.length → (w.strand e).ovlWait = some id → ∃ v, amGet u.warps k = some v ∧
          (v.strand e).ovlWait = none ∧ (v.strand e).pc = (w.strand e).pc ∧ (v.strand e).state = (w.strand e).state) ∧
  ∀ (s : State) (cu id : Nat) (o : OvlLoad) (a b : Bank) (img : Sparse 16), s.ovls = [(id, o)] → o.cu = cu → o.stage = 1 →
    s.overlayCodeAt (cuSite cu) o.ctx o.addr o.len (s.supOf o.ctx) = .ok img → (s.cu cu).banks = [a, b] → a ≠ b →
    (a.loadedAt + 256 ≤ s.clock → b.loadedAt + 256 ≤ s.clock → a.fetchedAt ≤ b.fetchedAt → Gives (.overlayBankHoldExpiry cu) s fun u =>
      u.mem = s.mem ∧ (u.cu cu).banks = [b] ∧ amGet u.ovls id = some { o with stage := 2 }) ∧
    (s.clock < a.loadedAt + 256 → s.clock < b.loadedAt + 256 → Gives (.overlayBankHoldExpiry cu) s fun u =>
      u.mem = s.mem ∧ (u.cu cu).banks = [a, b] ∧ amGet u.ovls id = some o)

namespace Sys2Proof.Stated

/-- The places of the 16-byte pieces that a supervisor pointer names (R282), all in reach. -/
def PiecesAt (x : Iss) (s : State) (p : BitVec 7) (n align : Nat) (write : Bool) (l : List Nat) : Prop :=
  (x.supPieces s p.toNat n align write).length = l.length ∧
    ∀ (j : Nat) (a : LaneAcc) (q : Nat), (x.supPieces s p.toNat n align write)[j]? = some a → l[j]? = some q → ∃ va sp own, a.at0 = .mem q va sp own

/-- An instruction that holds its strand at issue until the operation of a number ends: no byte changes, the strand keeps its PC, mask and latches. -/
def HeldFor (x : Iss) (s u : State) (id : Nat) : Prop :=
  (∀ a, u.byte a = s.byte a) ∧ u.windows = s.windows ∧ u.reqs = s.reqs ∧ ∃ v, amGet u.warps x.k = some v ∧ v.k = x.w.k ∧ v.fibres = x.w.fibres ∧
    (v.strand x.e).hold = .busy id ∧ (v.strand x.e).pc = x.st.pc ∧ (v.strand x.e).succ = x.next ∧ (v.strand x.e).mask = x.st.mask ∧
    (v.strand x.e).latches = x.st.latches ∧ ∀ e, e ≠ x.e → v.strand e = x.w.strand e

/-- A supervisor operation that can complete: nothing earlier of its agent is to perform, and the lines of its pieces are free and plain. -/
structure OpDue (s : State) (id : Nat) (o : SupOp) : Prop where
  op : amGet s.supOps id = some o
  first : s.earlierPending id o.uid o.kin = false
  free : ∀ a ∈ o.chunks, s.lineFree (lineOf a) = true
  plain : ∀ a ∈ o.chunks, Plain s (lineOf a)

/-- The strand of an operation goes on behind it from the next clock, with its latches (R282). -/
def Freed (s u : State) (uid : Nat) : Prop :=
  ∀ k e w, Stands s uid k e w → ∃ v, amGet u.warps k = some v ∧ (v.strand e).hold = .none ∧ (v.strand e).pc = (w.strand e).succ ∧
    (v.strand e).issuableAt = s.clock + 1 ∧ (v.strand e).latches = (w.strand e).latches ∧ (v.strand e).mask = (w.strand e).mask

/-- The strand of an operation traps at its group (R330). -/
def Refused (s u : State) (uid cls code : Nat) : Prop :=
  ∀ k e w cx, Stands s uid k e w → (w.strand e).fence = none → amGet s.ctxs (s.ctxOf k) = some cx → ∃ v cy n, amGet u.warps k = some v ∧
    (v.strand e).state = .frozen ∧ (v.strand e).pc = (w.strand e).pc ∧ (v.strand e).mask = (w.strand e).mask ∧
    amGet u.ctxs (s.ctxOf k) = some cy ∧ cy.inflight = cx.inflight ++ [(s.clock + (s.toHub (s.ctxOf k) (cuSite (warpCu k)) (s.favouredWarp k)).2, strandAgent k e, (w.strand e).uid, n)] ∧
    ((s.teamOf k).isSome = true → (s.gridOf k).isSome = true → bitsOf n 232 8 = cls % 256 ∧ bitsOf n 240 16 = code % 65536)

/-- Views that bringing in the lines of an engine's descriptor, and taking over the lines of a window, leave alone: every slice has room for 64
lines more, or L2 holds no view and every line with an owner (R22, R144). -/
def ViewsStay (s : State) : Prop :=
  (∀ h, h < 8 → s.lines.length + 64 ≤ Config.sliceBytes h / 64) ∨ ∀ p ∈ s.lines, p.2.view = none ∧ (p.2.inL2 = true ∨ p.2.owner = none)

/-- What an XINV descriptor names (R283): one page of a context, a context, or everything. -/
def descKind (d : Nat) : Nat := bitsOf d 80 2
def descBad (d : Nat) : Prop :=
  bitsOf d 82 46 ≠ 0 ∨ bitsOf d 57 7 ≠ 0 ∨ descKind d = 3 ∨ (descKind d ≠ 0 ∧ bitsOf d 0 57 ≠ 0)
def descNames (d : Nat) (t : Tlb) : Prop :=
  descKind d = 0 ∧ t.covers (bitsOf d 64 16) (bitsOf d 0 57) = true ∨ descKind d = 1 ∧ t.ctx = bitsOf d 64 16 ∨ descKind d = 2

end Sys2Proof.Stated

/-- XINV gives ks 0 and a pending status write, and its strand goes on; FWWR, FWRD and LWBI hold their strand at issue, as do RESUME, REDIRECT and
KILL, whose reply reaches the hub 60 clocks later over one hop, more where its spoke holds it up; each names its pointer's pieces and touches no
byte at issue (R282-R286, R383). -/
def Sys2Proof.Stated.SupervisorIssue : Prop :=
  ∀ (g : Pfx) (k : BitVec 8) (p : BitVec 7) (w : BitVec 4) (s : State) (x : Iss) (l : List Nat),
    (Passes (.xinv g k p) s x → PiecesAt x s p 16 16 false l → Gives (.xinv g k p) s fun u => (∀ a, u.byte a = s.byte a) ∧
      (∃ o, amGet u.supOps s.nextId = some o ∧ o.kind = .xinv ∧ o.chunks = l ∧ o.ks = some k.toNat ∧ o.warp = x.k ∧ o.uid = x.st.uid) ∧
      (∃ a ∈ u.agenda, a.ev = .supervisorOperationComplete s.nextId ∧ s.clock < a.due) ∧
      ∃ v, amGet u.warps x.k = some v ∧ v.k = spSet x.w.k k.toNat 0 ∧ v.kpend = x.w.kpend ++ [(k.toNat, s.nextId)] ∧ v.strand x.e = x.on) ∧
    (∀ i : Instr × SupKind × Nat × Nat × Bool × Nat,
      i = (.fwwr g p w, .fwwr, 32, 16, false, w.toNat) ∨ i = (.fwrd g p w, .fwrd, 32, 16, true, w.toNat) ∨
        i = (.lwbi g k p, .lwbi, 16, 64, false, (spGet x.w.k k.toNat).toNat) →
      Passes i.1 s x → PiecesAt x s p i.2.2.1 i.2.2.2.1 i.2.2.2.2.1 l → Gives i.1 s fun u => ∃ id, s.nextId ≤ id ∧ HeldFor x s u id ∧
        (∃ a ∈ u.agenda, a.ev = .supervisorOperationComplete id ∧ s.clock < a.due) ∧
        ∃ o, amGet u.supOps id = some o ∧ o.kind = i.2.1 ∧ o.chunks = l ∧ o.ks = none ∧ o.n = i.2.2.2.2.2 ∧ o.warp = x.k ∧
          o.uid = x.st.uid ∧ o.ptr = pointer x s p) ∧
    ∀ i : Instr × ReplyKind, i = (.resume g p, .resume) ∨ i = (.redirect g p, .redirect) ∨ i = (.kill g p, .kill) →
      Passes i.1 s x → PiecesAt x s p 64 16 false l → Gives i.1 s fun u => HeldFor x s u s.nextId ∧
        { due := s.clock + (s.toHub x.cn x.site (s.favoured x.team)).2, prio := prioResult, ev := .replyTakeEffect s.nextId } ∈ u.agenda ∧
        ∃ r, amGet u.replies s.nextId = some r ∧ r.kind = i.2 ∧ r.chunks = l ∧ r.stage = 0 ∧ r.warp = x.k ∧ r.uid = x.st.uid

/-- XINV completes with CODE 1 for an invalid descriptor, else with DONE and no cached translation it names. FWWR completes by setting the window of
its image on the image's die, what L2 or an owner holds of its view staying as view lines, or traps (class 7, code 10), with no read of its own,
where that image is not valid, a set bit of a reserved field included; FWRD stores the image of the window, and no other byte; LWBI leaves no L1
copy, no L2 copy and no owner of a line it names; each frees its strand in the next clock (R141, R142, R144, R282-R285). -/
def Sys2Proof.Stated.SupervisorCompletes : Prop :=
  ∀ (s : State) (id : Nat) (o : SupOp), OpDue s id o →
    let d := s.pieceNum o.chunks
    (∀ k, o.kind = .xinv → o.ks = some k →
      (descBad d → Gives (.supervisorOperationComplete id) s fun u => u.tlbSlot = s.tlbSlot ∧ u.tlbDie = s.tlbDie ∧ u.mem = s.mem ∧
        amGet u.supOps id = none ∧ { due := s.clock, prio := prioResult, ev := .statusWordWrite o.warp k id 0x81000000 } ∈ u.agenda) ∧
      (¬ descBad d → (∀ n ∈ o.walks, amGet s.walks n = none) → Gives (.supervisorOperationComplete id) s fun u => u.mem = s.mem ∧
        amGet u.supOps id = none ∧ { due := s.clock, prio := prioResult, ev := .statusWordWrite o.warp k id 0x80000000 } ∈ u.agenda ∧
        ∀ c ∈ u.tlbSlot ++ u.tlbDie, ∀ t ∈ c.2, ¬ descNames d t)) ∧
    (o.kind = .fwwr →
      let w := windowOf d
      let bad := bitsOf d 153 3 ≠ 0 ∨ bitsOf d 176 16 ≠ 0 ∨ w.scale % 4 ≠ 0 ∨ inDram w.view = false ∨ (w.en = true ∧ s.windowOk (w.view / 2 ^ 36) o.n w = false)
      (bad → Then (.supervisorOperationComplete id) s fun u => SameBytes s u ∧ u.windows = s.windows ∧ Refused s u o.uid 7 10) ∧
      (¬ bad → Then (.supervisorOperationComplete id) s fun u =>
        u.windows = amSet s.windows (w.view / 2 ^ 36 * 16 + o.n) w ∧ Freed s u o.uid ∧ (w.en = false → u.mem = s.mem) ∧
        let inView (a : Nat) : Prop := w.view ≤ lineOf a * 64 ∧ lineOf a * 64 < w.view + 4096 * w.size
        (ViewsStay s → ∀ a, ¬ inView a → spGet u.mem a = spGet s.mem a) ∧
        (ViewsStay s → (s.lines.map Prod.fst).Nodup → (∀ b ∈ o.chunks, (s.line (lineOf b)).inL2 = true ∨ onChip (lineOf b * 64) = true) →
          ∀ a y, w.en = true → inView a → Plain s (lineOf a) → amGet s.lines (lineOf a) = some y → y.inL2 = true ∨ y.owner.isSome = true →
            u.byte a = s.byte a))) ∧
    (∀ a b, o.kind = .fwrd → o.chunks = [a, b] →
      let view := bitsOf d 0 64
      (inDram view = false → Then (.supervisorOperationComplete id) s fun u => SameBytes s u ∧ Refused s u o.uid 7 10) ∧
      (inDram view = true → a % 64 + 16 ≤ 64 → b % 64 + 16 ≤ 64 → a + 16 ≤ b ∨ b + 16 ≤ a → s.watchers a 16 = [] → s.watchers b 16 = [] →
        Then (.supervisorOperationComplete id) s fun u =>
          u.bytes a 16 ++ u.bytes b 16 = toBytes 32 (amGetD s.windows (view / 2 ^ 36 * 16 + o.n) {}).image ∧
          (∀ c, ¬ (a ≤ c ∧ c < a + 16) → ¬ (b ≤ c ∧ c < b + 16) → u.byte c = s.byte c) ∧ Freed s u o.uid)) ∧
    (o.kind = .lwbi → Then (.supervisorOperationComplete id) s fun u => Freed s u o.uid ∧
      ∀ l ∈ s.rangeLines (cuSite (warpCu o.warp)) o.ctx o.ptr o.n,
        (∀ c ∈ u.l1, amGet c.2 l = none) ∧ ∀ y, amGet u.lines l = some y → y.inL2 = false ∧ y.owner = none ∧ y.view = none)

/-- The supervisor instructions issue and complete. -/
def Obligations.SupervisorPath : Prop := SupervisorIssue ∧ SupervisorCompletes

/-- A reply is checked at the hub: where its record is valid and names a frozen strand by CTX and SEQ it goes to that strand, else the replying
strand traps (class 7, code 9), or, where NEWPC names no overlay of the kernel, with code 4. 60 clocks later over one hop the named strand leaves
state 6, issuable in the next clock: RESUME at the group, or its successor for classes 10 and 11, with its latches; REDIRECT at NEWPC with invalid
latches; KILL with its lanes exited; mask and PARENT else unchanged. 240 clocks after its issue, over one hop each way with nothing to hold its
messages up, the reply frees its own strand (R345, R383). That a record with a reserved bit set, which R9 makes invalid, is answered with code 9 is
an inference (log entry 76), and so is the check of NEWPC against the kernel's directory (log entry 68). -/
def Obligations.ReplySteps : Prop :=
  ∀ (s : State) (id : Nat) (r : Reply), amGet s.replies id = some r →
    let d := s.pieceNum r.chunks
    (r.stage = 0 → s.earlierPending id r.uid r.kin = false → (∀ a ∈ r.chunks, s.lineFree (lineOf a) = true ∧ Plain s (lineOf a)) →
      (∀ k e w, recordReserved d = false → s.findFrozen (bitsOf d 107 6) (bitsOf d 64 32) = some (k, e) → amGet s.warps k = some w → e < w.table.length →
        (r.kind = .redirect → s.kernelHolds k (pcOvl (BitVec.ofNat 23 (bitsOf d 209 23))) = true) → Then (.replyTakeEffect id) s fun u =>
          u.mem = s.mem ∧ { due := s.clock + (s.fromHub (bitsOf d 107 6) (cuSite (warpCu k))).2, prio := prioResult, ev := .replyTakeEffect id } ∈ u.agenda ∧
          (∃ q, amGet u.replies id = some q ∧ q.stage = 1 ∧ q.kind = r.kind ∧ q.uid = r.uid ∧ q.target = (w.strand e).uid ∧
            q.tctx = bitsOf d 107 6 ∧ q.newpc = BitVec.ofNat 23 (bitsOf d 209 23)) ∧
          ∃ v, amGet u.warps k = some v ∧ (v.strand e).state = (w.strand e).state ∧ (v.strand e).trapPosted = false) ∧
      (recordReserved d = true ∨ (s.findFrozen (bitsOf d 107 6) (bitsOf d 64 32) = none ∧ s.findSaved (bitsOf d 107 6) (bitsOf d 64 32) = none) →
        Then (.replyTakeEffect id) s fun u => u.mem = s.mem ∧ amGet u.replies id = none ∧ Refused s u r.uid 7 9) ∧
      ∀ k e, recordReserved d = false → s.findFrozen (bitsOf d 107 6) (bitsOf d 64 32) = some (k, e) → r.kind = .redirect →
        s.kernelHolds k (pcOvl (BitVec.ofNat 23 (bitsOf d 209 23))) = false → Then (.replyTakeEffect id) s fun u =>
          u.mem = s.mem ∧ amGet u.replies id = none ∧ Refused s u r.uid 7 4) ∧
    (∀ k e w, r.stage = 1 → (amGet s.ctxs r.tctx).map Ctx.state = some .running → Stands s r.target k e w → (w.strand e).state = .frozen →
      Then (.replyTakeEffect id) s fun u => u.mem = s.mem ∧
        let f := s.toHub r.tctx (cuSite (warpCu k)) (s.favouredWarp k)
        { due := s.clock + (f.2 + (f.1.fromHub r.ctx (cuSite (warpCu r.warp))).2), prio := prioResult, ev := .replyTakeEffect id } ∈ u.agenda ∧
        ∃ v, amGet u.warps k = some v ∧
          let st := w.strand e
          let t := v.strand e
          t.state = .ready ∧ t.parent = st.parent ∧ t.fibre = st.fibre ∧
            (r.kind ≠ .kill → t.mask = st.mask ∧ t.issuableAt = s.clock + 1) ∧
            (r.kind = .resume → t.pc = (if st.trapClass = 10 ∨ st.trapClass = 11 then st.succ else st.pc) ∧ t.latches = st.latches) ∧
            (r.kind = .redirect → t.pc = r.newpc ∧ ∀ l ∈ t.latches, l.valid = false) ∧ (r.kind = .kill → t.mask = 0)) ∧
    (r.stage = 2 → (∀ c ∈ s.ctxs, id ∉ c.2.heldReplies) → Then (.replyTakeEffect id) s fun u =>
      u.mem = s.mem ∧ amGet u.replies id = none ∧ Freed s u r.uid)

namespace Sys2Proof.Stated

/-- The warp slot k issues its holder next, and nothing else of the state changes. -/
def Chosen (s u : State) (k : Nat) : Prop :=
  ∃ e, (amGet s.warps k).bind Warp.holder = some e ∧ u = { s with cur := some { warp := k, entry := e } }

/-- The launch of a warp slot asks for round robin (R107, R119). -/
def roundRobin (s : State) (k : Nat) : Bool := ((s.gridOf k).map fun g => g.2.lr.rr).getD false

end Sys2Proof.Stated

/-- In every state an issue slot first settles the holders of its warp slots, starts the gathers of the MMAGs that they come to, and chooses: among
the warp slots whose holder can issue, the one it issued from in the clock before, where it still can, else the one whose holder issued longest ago,
the lowest on a tie; with a round-robin launch, the next one in slot order after its last choice. A holder of a lowest unfinished team that has not
issued for 256 clocks goes ahead of that choice (R118, R120, R374). A warp slot without a holder takes none while none of its strands can issue,
else, but for round robin, one that can and issued longest ago; a slot none of whose holders comes to an MMAG starts no gather (R118, R119, R305).
-/
def Sys2Proof.Stated.IssueChoice : Prop :=
  (∀ (s0 : State) (slot : Nat),
    let s := (s0.updateHolders slot).startGathers slot
    (s.readySlots slot = [] → exec (.issueSelect slot) s0 = .next s) ∧
    (s.readySlots slot ≠ [] → Gives (.issueSelect slot) s0 fun u => ∃ k ∈ s.readySlots slot, Chosen s u k ∧
      ((∀ q ∈ s.slotWarps slot, roundRobin s q = false) →
        (∀ k0 t, amGet (s.cu (slot / 4)).lastSlot slot = some (k0, t) → k0 ∈ s.readySlots slot → t + 1 = s.clock → k = k0) ∧
        ((∀ k0 t, amGet (s.cu (slot / 4)).lastSlot slot = some (k0, t) → k0 ∈ s.readySlots slot → t + 1 ≠ s.clock) →
          ∀ q ∈ s.readySlots slot, s.holderIssue k < s.holderIssue q ∨ s.holderIssue k = s.holderIssue q ∧ k ≤ q)) ∧
      (∀ k0 t q, amGet (s.cu (slot / 4)).lastSlot slot = some (k0, t) → q ∈ s.slotWarps slot → roundRobin s q = true →
        ∀ r ∈ s.readySlots slot, (k % 8 + 15 - k0 % 8) % 8 ≤ (r % 8 + 15 - k0 % 8) % 8)) ∧
    (s.starved slot = [] → exec (.starvationIssue slot) s0 = exec (.issueSelect slot) s0) ∧
    (s.starved slot ≠ [] → Gives (.starvationIssue slot) s0 fun u => ∃ k ∈ s.starved slot, Chosen s u k ∧ s.holderIssue k + 256 < s.clock ∧
      ∀ q ∈ s.starved slot, k ≤ q)) ∧
  (∀ (s : State) (slot : Nat),
    (∀ k ∈ s.readySlots slot, ∀ e, (amGet s.warps k).bind Warp.holder = some e → ∀ g c b a d j n, s.group k e ≠ .ok (.mmag g c b a d j) n) →
    s.startGathers slot = s) ∧
  ∀ (s : State) (k : Nat) (w : Warp), amGet s.warps k = some w → w.holder = none →
    ((∀ a ∈ w.liveEntries, s.issuable k a = false) → s.updateHolder k = s) ∧
    (roundRobin s k = false → (∃ a ∈ w.liveEntries, s.issuable k a = true) → (∀ a ∈ w.liveEntries, a < 8 ∧ (w.strand a).fibre < 4) →
      ∃ a ∈ w.liveEntries, s.issuable k a = true ∧ s.updateHolder k = (s.modWarp k fun w => w.hold a) ∧
        ∀ b ∈ w.liveEntries, s.issuable k b = true → (w.strand a).lastIssue ≤ (w.strand b).lastIssue)

/-- A result's scoreboard entry is cleared with its flags ORed into its fibre's fstat, and its tiles are readable. At a multiple of 4,096 clocks
every budget begins anew, charged first with what the links and the copy engines still hold back, what was deferred is tried again and a new
watchdog limit holds. A strand that has stayed in a waiting state for the
limit is frozen there with class 12, code 4; one that has not is left alone (R115, R117, R118, R187, R373). -/
def Sys2Proof.Stated.ResultsAndPeriods : Prop :=
  (∀ (s : State) (k id : Nat) (w : Warp) (p : Pipe), amGet s.warps k = some w → amGet w.pipe id = some p → p.fibre < w.fibres.length →
    Then (.pipelineResult k id) s fun u => SameBytes s u ∧ amGet (u.cu (warpCu k)).tileBusy id = none ∧ ∃ v, amGet u.warps k = some v ∧
      v.pipe = amErase w.pipe id ∧ v.k = w.k ∧ (∀ f, (v.fibre f).preds = (w.fibre f).preds) ∧
      ((∀ e ∈ w.liveEntries, (w.strand e).uid = p.uid → (w.strand e).fence = none) →
        (v.fibre p.fibre).fstat = (w.fibre p.fibre).fstat ||| p.flags ∧ v.table = w.table)) ∧
  (∀ s : State, Gives .budgetPeriod s fun u => u.mem = s.mem ∧ u.warps = s.warps ∧ u.clock = s.clock ∧ u.atomUsed = [] ∧
    (∀ k, amGetD u.linkUsed k 0 = min (amGetD s.linkHeld k 0) (linkShare (s.limitOf Ctx.linkLimit (k / 8)))) ∧
    (∀ k, amGetD u.copyUsed k 0 = min (amGetD s.copyHeld k 0) (linkShare (s.limitOf Ctx.copyLimit (k / 8)))) ∧
    u.mxsUsed = [] ∧ u.deferred = [] ∧ (∀ d ∈ s.deferred, { due := s.clock, prio := prioWrite, ev := d.2 } ∈ u.agenda) ∧ u.watchNext = none ∧
    u.watchLimit = s.watchNext.getD s.watchLimit) ∧
  ∀ (s : State) (uid k e : Nat) (w : Warp), Stands s uid k e w →
    let st := w.strand e
    let waits := st.state = .barrier ∨ st.state = .countWait ∨ st.state = .statusWait ∨ st.state = .atJoin
    (¬ (waits ∧ s.watchLimit ≤ s.clock - st.waitSince) → exec (.watchdogExpiry uid) s = .next s) ∧
    (waits → s.watchLimit ≤ s.clock - st.waitSince → Then (.watchdogExpiry uid) s fun u => u.mem = s.mem ∧ Refused s u uid 12 4)

/-- Issue slots choose, results clear their marks, and budget periods begin. -/
def Obligations.IssueAndPeriods : Prop := IssueChoice ∧ ResultsAndPeriods

namespace Sys2Proof.Stated

/-- The hub can write n bytes of a context's ring at a virtual address: translated, live, free, clean and plain. -/
def RingAt (s : State) (ctx va n a : Nat) : Prop :=
  s.transNow 8 ctx va true (s.supOf ctx) false = .ok a ∧ s.contained a = false ∧ s.lineFree (lineOf a) = true ∧ s.poisonIn a n = [] ∧
    Plain s (lineOf a) ∧ a % 64 + n ≤ 64

/-- The clocks of a message from the hub to the home of a ring address, behind its translation: 150 over one hop where no walk is needed (R105,
R382). -/
def ringAsk (s : State) (ctx va : Nat) : Nat := (s.translate true 8 ctx va).2 + s.ringMsg ctx va

/-- The posting of a context goes on at a stage n clocks from now. -/
def PostsAt (s u : State) (ctx stage n : Nat) (d : Ctx) : Prop :=
  amGet u.ctxs ctx = some d ∧ d.posting = some (stage, s.clock + n) ∧ ∃ a ∈ u.agenda, a.due = s.clock + n ∧ a.ev = .trapRecordPost ctx

/-- Bytes of memory are these, and no other byte differs. -/
def OnlyBytes (s u : State) (a : Nat) (bs : List Byte) : Prop :=
  u.bytes a bs.length = bs ∧ ∀ b, ¬ (a ≤ b ∧ b < a + bs.length) → u.byte b = s.byte b

end Sys2Proof.Stated

/-- A record that has reached the hub takes the next SEQ of its context, which its strand then has. The hub writes the record to its place of the
ring, then, acknowledged, raises POSTED by 1 as a release, signals MSI-X on vector 1, or 2 for a breakpoint under DBG, and its strand can be replied
to; each message takes 150 clocks over one hop, behind the walk of a page that is not translated. The next record is begun only when the release of
the one before is acknowledged, which is an inference (log entry 43). With no room by TAKEN it reads TAKEN first, and after each write to TAKEN
while the ring is full; with room the posting goes on (R336, R382). -/
def Obligations.TrapPosting : Prop :=
  (∀ (s : State) (ctx t key uid num : Nat) (c : Ctx), amGet s.ctxs ctx = some c → c.inflight = [(t, key, uid, num)] → t ≤ s.clock →
    c.posting = none → c.records = [] → c.ringFull = false → c.ringFailed = false → c.state = .running → Gives (.trapRecordPost ctx) s fun u =>
      u.mem = s.mem ∧ ∃ d, d.inflight = [] ∧ d.nextSeq = c.nextSeq + 1 ∧ d.records = [(c.nextSeq, uid, num + c.nextSeq % 2 ^ 32 * 2 ^ 64)] ∧
        (if c.taken + 2 ^ c.log2n ≤ c.nextSeq then PostsAt s u ctx 5 (ringAsk s ctx (c.trapq + 16)) d else PostsAt s u ctx 1 (ringAsk s ctx (c.recordAt c.nextSeq)) d) ∧
        ∀ k e w, Stands s uid k e w → (w.strand e).state = .frozen → ∃ v, amGet u.warps k = some v ∧ (v.strand e).seq = some (c.nextSeq % 2 ^ 32) ∧
          (v.strand e).trapPosted = false ∧ (v.strand e).state = .frozen) ∧
  (∀ (s : State) (ctx stage due seq uid num : Nat) (rest : List (Nat × Nat × Nat)) (c : Ctx), amGet s.ctxs ctx = some c → c.inflight = [] →
    c.posting = some (stage, due) → due ≤ s.clock → c.records = (seq, uid, num) :: rest →
    (∀ a, stage = 1 → RingAt s ctx (c.trapq + 64 + 64 * (seq % 2 ^ c.log2n)) 64 a → Gives (.trapRecordPost ctx) s fun u =>
      OnlyBytes s u a (toBytes 64 num) ∧ ∃ d, PostsAt s u ctx 2 (s.ringMsg ctx (c.recordAt seq)) d ∧ d.records = c.records ∧ d.posted = c.posted) ∧
    (stage = 2 → Gives (.trapRecordPost ctx) s fun u => u.mem = s.mem ∧ u.horDev = raise s.horDev ctx (amGetD s.hubC 6 0) ∧
      u.horSys = max s.horSys (amGetD s.hubC 6 0) ∧ ∃ d, PostsAt s u ctx 3 (ringAsk s ctx (c.trapq + 8)) d) ∧
    (∀ a, stage = 3 → RingAt s ctx (c.trapq + 8) 8 a → Gives (.trapRecordPost ctx) s fun u =>
      OnlyBytes s u a (toBytes 8 (c.posted + 1)) ∧ u.msgs = s.msgs ++ [.msix c.func (if bitsOf num 232 8 = 11 ∧ c.dbg = true then 2 else 1)] ∧
      ∃ d, PostsAt s u ctx 4 (s.ringMsg ctx (c.trapq + 8)) d ∧ d.records = rest ∧ d.posted = c.posted + 1) ∧
    (stage = 4 → c.state = .running → c.ringFull = false → c.ringFailed = false → Gives (.trapRecordPost ctx) s fun u => u.mem = s.mem ∧
      u.horSys = max s.horSys (amGetD s.hubC 6 0) ∧ ∃ d, d.records = c.records ∧
        if c.taken + 2 ^ c.log2n ≤ seq then PostsAt s u ctx 5 (ringAsk s ctx (c.trapq + 16)) d else PostsAt s u ctx 1 (ringAsk s ctx (c.recordAt seq)) d) ∧
    ∀ a, stage = 5 → s.transNow 8 ctx (c.trapq + 16) false (s.supOf ctx) false = .ok a → s.contained a = false → s.lineFree (lineOf a) = true →
      s.poisonIn a 8 = [] → Plain s (lineOf a) → Gives (.trapRecordPost ctx) s fun u => SameBytes s u ∧
        { due := s.clock + s.hubMsg (homeOf a), prio := prioResult, ev := .takenReread ctx } ∈ u.agenda ∧ ∃ d, amGet u.ctxs ctx = some d ∧ d.posting = none ∧
          d.ringFull = true ∧ d.ringAt = a ∧ d.takenQ = c.takenQ ++ [s.num a 8]) ∧
  ∀ (s : State) (ctx v : Nat) (rest : List Nat) (c : Ctx), amGet s.ctxs ctx = some c → c.takenQ = v :: rest → c.posting = none →
    c.ringFailed = false → c.state = .running → ∀ r l, c.records = r :: l → Gives (.takenReread ctx) s fun u => u.mem = s.mem ∧ u.warps = s.warps ∧
      (v + 2 ^ c.log2n ≤ r.1 → c.ringFull = true → ∃ d, amGet u.ctxs ctx = some d ∧ d.taken = v ∧ d.takenQ = rest ∧ d.ringFull = true ∧ d.posting = none) ∧
      (r.1 < v + 2 ^ c.log2n → ∃ d, PostsAt s u ctx 1 (ringAsk s ctx (c.recordAt r.1)) d ∧ d.taken = v ∧ d.takenQ = rest ∧ d.ringFull = false)

namespace Sys2Proof.Stated

/-- An inbound TLP of n bytes, at most max, that arrives from the host: the link is up, it is intact, and its IDE stream is secure, one of its
function's 8 or, with 0, the link's (R307, R362). -/
def Arrives (s : State) (t : HostTlp) (n max : Nat) : Prop :=
  s.hostUp = true ∧ t.integrity = true ∧ (if t.stream = 0 then 0 else t.fn * 256 + t.stream) ∉ s.insecure ∧ t.port = none ∧ t.stream ≤ 8 ∧ n ≤ max

/-- One to the 1 TiB of BAR2, and the context that its function's aperture opens onto (R308). -/
def Opens (s : State) (t : HostTlp) (n c : Nat) : Prop := t.bar0 = false ∧ t.addr + n ≤ 2 ^ 40 ∧ s.aperture t.fn = some c

/-- A host address as ATS gives it (R307, R309): by the device's cache, else by the answer to its request. -/
def onHost (s : State) (a : Nat) : Nat := (amGet s.atsCache (a / 4096)).getD (Config.hostPage (a / 4096)) * 4096 + a % 4096

/-- The messages of a descriptor's end: its status byte in host memory and its MSI-X vector, behind the ATS requests it takes (R309). -/
def Ends (s u : State) (d : HubDesc) (ok : Bool) : Prop :=
  ∃ pre, u.msgs = s.msgs ++ pre ++ [.hostMem (onHost s d.desc) [Config.copyStatus ok], .msix d.fn (Config.copyVector % 2048)] ∧
    ∀ m ∈ pre, ∃ p, m = .ats p

/-- What a request of the ordering point does with the clocks that its translation takes (R105): with none it goes at once unless something of
its domain holds it back, else it is looked at again behind them. -/
def Leaves (s u : State) (id wait home prio : Nat) (gone : Bool) (free held : Prop) : Prop :=
  (wait = 0 → (free → gone = true ∧ { due := s.clock + s.hubMsg home, prio := prio + hubAgent 4, ev := .pieceBid id } ∈ u.agenda) ∧
    (held → gone = false)) ∧
  (wait ≠ 0 → gone = false ∧ { due := s.clock + wait, prio := prioResult, ev := .pieceBid id } ∈ u.agenda)

/-- One piece of an inbound write is admitted with the next sequence number; its bid leaves for its home, 150 clocks away over one hop, behind
the clocks of its translation and unless an earlier write of its domain has yet to be acknowledged. No byte changes (R105, R166, R327). -/
def Admitted (s u : State) (domain ctx a : Nat) (data : List Byte) (ep : Bool) (desc : Option Nat) (wait : Nat) : Prop :=
  SameBytes s u ∧ u.hubSeq = s.hubSeq + 1 ∧ ∃ id p, amGet u.pieces id = some p ∧ p.domain = domain ∧ p.write = s.hubSeq ∧ p.ctx = ctx ∧ p.addr = a ∧
    p.data = data ∧ p.seq = s.hubSeq ∧ p.ts = none ∧ p.ep = ep ∧ p.desc = desc ∧
    Leaves s u id wait (homeOf a) prioWrite p.released (∀ q ∈ s.pieces, q.2.domain = domain → s.hubSeq ≤ q.2.write)
      (∃ q ∈ s.pieces, q.2.domain = domain ∧ q.2.write < s.hubSeq)

/-- A read of the ordering point waits for its translation and for the earlier writes of its domain, then its request leaves for the home (R105,
R166). -/
def Asked (s u : State) (domain ctx a n : Nat) (desc : Option Nat) (wait : Nat) : Prop :=
  SameBytes s u ∧ ∃ id r, amGet u.hreads id = some r ∧ r.domain = domain ∧ r.ctx = ctx ∧ r.addr = a ∧ r.n = n ∧ r.after = s.hubSeq ∧ r.data = none ∧
    r.desc = desc ∧ Leaves s u id wait (homeOf a) prioRead r.sent (∀ q ∈ s.pieces, q.2.domain = domain → s.hubSeq ≤ q.2.seq)
      (∃ q ∈ s.pieces, q.2.domain = domain ∧ q.2.seq < s.hubSeq)

/-- The clocks that a translation of the hub still takes when it is asked for (R105). -/
def hubWalk (s : State) (ctx va : Nat) : Nat := (s.translate true 8 ctx va).2

/-- The identities in use are old ones. -/
def Fresh (s : State) : Prop := (∀ p ∈ s.pieces, p.1 < s.nextId) ∧ ∀ r ∈ s.hreads, r.1 < s.nextId

/-- Lines at a home that are free and plain, with nothing waiting. -/
def LinesFree (s : State) (l : List Nat) : Prop := ∀ n ∈ l, s.lineFree n = true ∧ Plain s n

/-- The lines of n bytes at a. -/
def touched (a n : Nat) : List Nat := (List.range ((a + n - 1) / 64 - a / 64 + 1)).map (a / 64 + ·)

end Sys2Proof.Stated

/-- An inbound write is cut at multiples of 256 into pieces, each admitted under its function's domain, or one of its own with Relaxed Ordering, or
the port's of one of the twelve peer ports; a read, of the host or, within a page, of a peer port, is sent to its home behind its domain's writes;
one of the host that does not translate is answered with an error. A read of BAR0 is answered with the die's join word where the model places it
(log entry 86). A copy descriptor makes its transfers' pieces or reads, or ends at once with an error where the link or the aperture is closed. That
PF 0's aperture context translates what a peer port brings is the model's choice (log entry 104) (R166, R307, R308, R309, R310, R327, R362, R379).
-/
def Sys2Proof.Stated.HostArrivals : Prop :=
  (∀ (va : Nat) (data : List Byte), (pieceRuns va data (data.length + 1)).flatMap Prod.snd = data ∧
    ∀ r ∈ pieceRuns va data (data.length + 1), r.2 ≠ [] ∧ r.1 % 256 + r.2.length ≤ 256) ∧
  (∀ (s : State) (t : HostTlp) (data : List Byte) (c a : Nat), Arrives s t data.length 512 → Opens s t data.length c →
    Fresh s → data ≠ [] → t.addr % 256 + data.length ≤ 256 →
    s.transNow 8 c t.addr true (decide (t.fn = 0)) false = .ok a → Gives (.hostPostedWrite t data) s fun u =>
      Admitted s u (if t.relaxed = true then 64 + 32 * s.hubSeq + t.fn else t.fn) c a data t.ep none (hubWalk s c t.addr)) ∧
  (∀ (s : State) (port addr c a : Nat) (data : List Byte), port < 12 → s.linkUp (16 + port) = true → s.aperture 0 = some c → Fresh s → data ≠ [] →
    addr % 256 + data.length ≤ 256 → s.transNow 8 c addr true true false = .ok a → Gives (.peerPortWrite port addr data) s fun u =>
      Admitted s u (32 + port) c a data false none (hubWalk s c addr)) ∧
  (∀ (s : State) (t : HostTlp) (n port c a : Nat), t.port = some port → port < 12 → s.linkUp (16 + port) = true → s.aperture 0 = some c →
    Fresh s → n ≠ 0 → t.addr % 4096 + n ≤ 4096 →
    s.transNow 8 c t.addr false true false = .ok a → Gives (.hostRead t n) s fun u => Asked s u (32 + port) c a n none (hubWalk s c t.addr)) ∧
  (∀ (s : State) (t : HostTlp) (site : Nat), Arrives s t 4 4096 → t.bar0 = true → t.fn < 32 → s.firmwareOk = true ∨ t.fn = 0 → site < 8 → t.addr = 4 * site →
    let d := amGetD s.dies site {}
    exec (.hostRead t 4) s = .next { s with msgs := s.msgs ++ [.completion t.fn true false
      (toBytes 4 (d.status % 4 + d.step % 16 * 2 ^ 4 + d.reason % 256 * 2 ^ 8 + d.tries % 256 * 2 ^ 16))] }) ∧
  (∀ (s : State) (t : HostTlp) (n c : Nat), Arrives s t n 4096 → Opens s t n c → t.addr % 4096 + n ≤ 4096 → Fresh s →
    (∀ a, s.transNow 8 c t.addr false (decide (t.fn = 0)) false = .ok a → Gives (.hostRead t n) s fun u => Asked s u t.fn c a n none (hubWalk s c t.addr)) ∧
    ((∀ a, s.transNow 8 c t.addr false (decide (t.fn = 0)) false ≠ .ok a) →
      exec (.hostRead t n) s = .next { s with msgs := s.msgs ++ [.completion t.fn false false []] })) ∧
  ∀ (s : State) (d : HubDesc), Fresh s →
    (s.hostUp = false ∨ s.aperture d.fn = none → Gives (.hubCopyDescriptor d) s fun u => u.mem = s.mem ∧ u.pieces = s.pieces ∧
      amGet u.descs s.nextId = none ∧ (s.hostUp = true → Ends s u d false)) ∧
    ∀ c a, s.hostUp = true → (∀ p, d.port = some p → p < 12 ∧ s.linkUp (16 + p) = true) → s.aperture d.fn = some c →
      (d.toDevice = true → d.data.length = d.n → d.n ≠ 0 → d.dev % 256 + d.n ≤ 256 → s.transNow 8 c d.dev true (decide (d.fn = 0)) false = .ok a →
        Gives (.hubCopyDescriptor d) s fun u => amGet u.descs s.nextId = some d ∧ Admitted s u d.fn c a d.data false (some s.nextId) (hubWalk s.bump c d.dev)) ∧
      (d.toDevice = false → d.n ≠ 0 → d.dev % 4096 + d.n ≤ 4096 → s.transNow 8 c d.dev false (decide (d.fn = 0)) false = .ok a →
        Gives (.hubCopyDescriptor d) s fun u => amGet u.descs s.nextId = some d ∧ Asked s u d.fn c a d.n (some s.nextId) (hubWalk s.bump c d.dev))

/-- A piece's bid locks its lines and brings the largest rts + 1 back; its timestamp is the larger of that and the last one plus 1; its commit
writes its bytes, and no other, at that timestamp and unlocks; its acknowledgement folds it into the horizons. A read brings its bytes back as
they stand. A descriptor with nothing to come reports its status. A link that goes down ends every descriptor; the link, a stream and a host
translation come back or go as told (R166, R307, R309, R327, R362). -/
def Sys2Proof.Stated.HostPasses : Prop :=
  (∀ (s : State) (id : Nat) (p : Piece), amGet s.pieces id = some p → p.data ≠ [] → p.data.length ≤ 256 →
    let ls := touched p.addr p.data.length
    (p.released = true → s.contained p.addr = false → LinesFree s ls → Gives (.pieceBid id) s fun u => SameBytes s u ∧
      (∀ l ∈ ls, (u.line l).lock = some id ∧ (u.line l).wts = (s.line l).wts ∧ (u.line l).rts = (s.line l).rts) ∧
      { due := s.clock + s.hubMsg (homeOf p.addr), prio := prioResult, ev := .pieceTimestamp } ∈ u.agenda ∧
      ∃ q, amGet u.pieces id = some q ∧ q.bidAt = s.clock + s.hubMsg (homeOf p.addr) ∧ q.bid = some (ls.foldl (fun m l => max m ((s.line l).rts + 1)) 0)) ∧
    (∀ b, s.pieces = [(id, p)] → p.ts = none → p.bid = some b → p.bidAt ≤ s.clock → exec .pieceTimestamp s = .next { s with
      hubH := max (s.hubH + 1) b
      pieces := [(id, { p with ts := some (max (s.hubH + 1) b) })]
      agenda := insAgenda s.agenda { due := s.clock + s.hubMsg (homeOf p.addr), prio := prioWrite + hubAgent 4, ev := .pieceCommit id } }) ∧
    (∀ t, p.ts = some t → s.contained p.addr = false → (∀ l ∈ ls, (s.line l).lock = some id ∧ (s.line l).queue = [] ∧ Plain s l) →
      s.watchers p.addr p.data.length = [] → Gives (.pieceCommit id) s fun u => OnlyBytes s u p.addr p.data ∧
        (∀ l ∈ ls, (u.line l).lock = none ∧ (u.line l).wts = t ∧ (u.line l).rts = t) ∧
        { due := s.clock + s.hubMsg (homeOf p.addr), prio := prioResult, ev := .pieceRouteAck id } ∈ u.agenda) ∧
    ∀ t, p.ts = some t → Gives (.pieceRouteAck id) s fun u => u.mem = s.mem ∧ u.horDev = raise s.horDev p.ctx t ∧ u.horSys = max s.horSys t ∧
      amGet u.pieces id = none) ∧
  (∀ (s : State) (id : Nat) (r : HRead), amGet s.pieces id = none → amGet s.hreads id = some r →
    (r.data = none → r.sent = true → r.n ≠ 0 → s.contained r.addr = false → LinesFree s (touched r.addr r.n) → s.poisonIn r.addr r.n = [] →
      (∀ i, i < r.n → s.poisonIn (r.addr + i) 1 = []) → Gives (.pieceBid id) s fun u => SameBytes s u ∧
        { due := s.clock + s.hubMsg (homeOf r.addr), prio := prioResult, ev := .pieceRouteAck id } ∈ u.agenda ∧
        amGet u.hreads id = some { r with data := some (s.bytes r.addr r.n), ep := false }) ∧
    ∀ bs, r.data = some bs → r.desc = none → exec (.pieceRouteAck id) s = .next { s with
      hreads := amErase s.hreads id, msgs := s.msgs ++ [.completion r.domain true r.ep bs] }) ∧
  (∀ (s : State) (id : Nat) (d : HubDesc), amGet s.descs id = some d → s.descBusy id = false → s.hostUp = true → Gives (.hubCopyComplete id) s fun u =>
    u.mem = s.mem ∧ amGet u.descs id = none ∧ Ends s u d true) ∧
  ∀ (s : State) (n : Nat),
    (Gives .hostLinkDown s fun u => u.mem = s.mem ∧ u.hostUp = false ∧ u.warps = s.warps ∧ (∀ d ∈ s.descs, amGet u.descs d.1 = none) ∧
      ∀ r ∈ u.hreads, 32 ≤ r.2.domain ∧ r.2.domain < 64) ∧
    exec .hostLinkUp s = .next { s with hostUp := true } ∧
    exec (.ideRekey n) s = .next { s with insecure := s.insecure.filter (· ≠ n) } ∧
    exec (.atsInvalidation n) s = .next { s with atsCache := amErase s.atsCache (n / 4096) }

/-- What the host and the peer ports send arrives and goes its way. What translates a peer port is log entry 104, how descriptors come log entry 86. -/
def Obligations.HostPath : Prop := HostArrivals ∧ HostPasses

namespace Sys2Proof.Stated

/-- The clocks of the steps of a join (R314, R379). -/
def stepClocks : List Nat := [16200, 300, 1, 300, 800, 0]

/-- A reply of the mailbox: kind 0 refuses a command (R324, R325). -/
def mailed (s : State) (kind : Nat) (data : List Byte) : State := { s with msgs := s.msgs ++ [.mailbox kind data] }

end Sys2Proof.Stated

/-- The management processor takes a watchdog limit from 2^24 to 2^40 clocks for the next period, a power cap from 1,200 to 3,400 W in steps of 50,
a verified firmware image for the next reset, and refuses others; its attestation report names the die map, the contract, the versions, the SM3 of
the identity key and the nonce. A die at 105 °C starts thermal throttling. A die's join goes step by step, each with its clocks, sets its lines'
timestamps to the package horizon and enters the pool; a step that fails parks the die with its reason, and after its fourth try it joins no more
before a package reset; a die that has joined joins anew only where nothing of its is in use (R122, R314, R315, R324, R325, R326, R373, R379). The
clocks of the steps and what a parked die loses are the model's reading (log entry 51), and that memory lists nothing after a package reset (log
entry 1) and the kinds of the replies (log entry 62) its choice. -/
def Obligations.ManagementSteps : Prop :=
  (∀ (s : State) (n : Nat),
    exec (.watchdogLimitSet n) s = .next (if s.firmwareOk = true ∧ 2 ^ 24 ≤ n ∧ n ≤ 2 ^ 40 then mailed { s with watchNext := some n } 2 []
      else mailed s 0 []) ∧
    exec (.powerCapSet n) s = .next (if s.firmwareOk = true ∧ 1200 ≤ n ∧ n ≤ 3400 ∧ n % 50 = 0 then
      mailed { s with powerCap := n, capMhz := capClock n } 2 [] else mailed s 0 []) ∧
    1200 ≤ capClock n ∧ capClock n ≤ 2700 ∧ capClock 3400 = 2700 ∧
    ∀ img, exec (.firmwareReplacement n img) s = .next (if Config.firmwareVerifies img = true then
      mailed { s with firmwareNext := some (n, img) } 3 [] else mailed s 4 [])) ∧
  (∀ (s : State) (site temp : Nat), exec (.thermalThrottle site temp) s = .next { s with
    dies := amSet s.dies site { amGetD s.dies site {} with temp := temp }
    throttled := s.throttled || decide (105 ≤ temp) }) ∧
  (∀ (s : State) (nonce : List Byte), s.firmwareOk = true → nonce.length = 32 → ∃ rep sig, exec (.attestationRequest nonce) s =
      .next (mailed s 1 (toBytes 96 rep ++ sig)) ∧ sig.length = 64 ∧ bitsOf rep 512 256 = ofBytes nonce ∧ bitsOf rep 32 32 = s.contract.toNat ∧
      bitsOf rep 256 256 = (Config.sm3 Config.identityKey).toNat ∧ bitsOf rep 8 8 = Config.stepping % 256 ∧ bitsOf rep 64 32 = Config.damamVersion % 2 ^ 32 ∧ bitsOf rep 96 32 = s.firmwareVer % 2 ^ 32 ∧
      ∀ i, i < 8 → bitsOf rep (16 + 2 * i) 2 = if (amGetD s.dies i {}).status = 2 then (if i % 2 = 0 then 1 else 2) else 0) ∧
  (∀ (s : State) (site : Nat) (o : JoinOffer), s.firmwareOk = true → site < 8 →
    let d := amGetD s.dies site {}
    let c := s.contract.toNat
    (d.status = 0 → 4 ≤ d.tries → exec (.dieJoin site o) s = .next s) ∧
    (d.status = 2 ∨ d.status = 3 → s.mayRejoin site = false → exec (.dieJoin site o) s = .next s) ∧
    (d.status = 2 ∨ d.status = 3 → s.mayRejoin site = true → Gives (.dieJoin site o) s fun u => u.mem = s.mem ∧
      (∀ c ∈ u.cus, cuSite c.1 ≠ site) ∧ (amGetD u.dies site {}).status = 1 ∧ (amGetD u.dies site {}).tries = 1 ∧
      { due := s.clock + 16200, prio := prioResult, ev := .dieJoin site o } ∈ u.agenda) ∧
    (d.status = 0 → d.tries < 4 → exec (.dieJoin site o) s = .next { s with
      dies := amSet s.dies site { d with status := 1, reason := 0, step := 0, stage := 1, tries := d.tries + 1 }
      agenda := insAgenda s.agenda { due := s.clock + 16200, prio := prioResult, ev := .dieJoin site o } }) ∧
    (d.status = 1 → 1 ≤ d.stage → d.stage ≤ 5 → joinReason s.contract d.stage o = 0 → Gives (.dieJoin site o) s fun u => u.mem = s.mem ∧
      u.contract = s.contract ∧ { due := s.clock + stepClocks.getD d.stage 0, prio := prioResult, ev := .dieJoin site o } ∈ u.agenda ∧
      (amGetD u.dies site {}).stage = d.stage + 1 ∧ (amGetD u.dies site {}).status = 1 ∧
      (d.stage = 4 → (amGetD u.dies site {}).floor = s.horSys ∧ ∀ l, homeOf (l * 64) = site → (u.line l).wts = s.horSys ∧ (u.line l).rts = s.horSys)) ∧
    (d.status = 1 → d.stage = 6 → Gives (.dieJoin site o) s fun u => u.mem = s.mem ∧ (amGetD u.dies site {}).status = 2 ∧
      (amGetD u.dies site {}).pooled = true ∧ (amGetD u.dies site {}).reason = 0) ∧
    (d.status = 1 → joinReason s.contract d.stage o ≠ 0 → Gives (.dieJoin site o) s fun u => u.mem = s.mem ∧ u.contract = s.contract ∧
      (amGetD u.dies site {}).status = 0 ∧ (amGetD u.dies site {}).pooled = d.pooled ∧ (amGetD u.dies site {}).step = d.stage ∧
      (amGetD u.dies site {}).reason = joinReason s.contract d.stage o) ∧
    joinReason s.contract 1 o = (if o.trained then 0 else 1) ∧
    (joinReason s.contract 3 o = 0 ↔ (o.finrin.1 ≤ c / 2 ^ 24 ∧ c / 2 ^ 24 ≤ o.finrin.2) ∧
      (o.arith.1 ≤ c / 2 ^ 16 % 256 ∧ c / 2 ^ 16 % 256 ≤ o.arith.2) ∧ (o.coherence.1 ≤ c / 2 ^ 8 % 256 ∧ c / 2 ^ 8 % 256 ≤ o.coherence.2) ∧
      (o.trapVer.1 ≤ c % 256 ∧ c % 256 ≤ o.trapVer.2))) ∧
  ∀ s : State, Gives .packageReset s fun u => u.clock = 0 ∧ u.mem = [] ∧ u.warps = [] ∧ u.ctxs = [] ∧ u.dies = [] ∧
    (∀ v img, s.firmwareNext = some (v, img) → s.bootImage = img ∧ u.firmwareVer = v ∧ u.firmwareImage = some img) ∧
    (Config.firmwareVerifies s.bootImage = true → u.firmwareOk = true ∧ u.contract = 0x10010101 ∧
      ∀ i, i < 8 → { due := 0, prio := prioResult, ev := .dieJoin i {} } ∈ u.agenda) ∧
    (Config.firmwareVerifies s.bootImage = false → u.firmwareOk = false ∧ u.agenda = [] ∧ u.msgs = [.mailbox 4 []])

namespace Sys2Proof.Stated

/-- The context port reports a code, and nothing else changes (R377). -/
def ported (s : State) (ctx code : Nat) : State := { s with msgs := s.msgs ++ [.port ctx code] }

/-- What a started context and its root grid are (R106, R107, R312, R313, R336). -/
def Began (s u : State) (ctx n log2n taken : Nat) (l : List Shadow) (r : LaunchRec) : Prop :=
  u.mem = s.mem ∧ u.warps = s.warps ∧ u.teams = s.teams ∧ u.msgs = s.msgs ++ [.port ctx 0] ∧
  (∃ d, amGet u.ctxs ctx = some d ∧ d.state = .running ∧ d.seed = BitVec.ofNat 32 (bitsOf n 544 32) ∧ d.rootl = bitsOf n 576 64 ∧
    d.ptroot = bitsOf n 640 64 ∧ d.save = bitsOf n 704 64 ∧ d.trapq = bitsOf n 768 64 ∧ d.lease = 1024 * 4 ^ bitsOf n 5 2 ∧
    d.place = bitsOf n 7 2 ∧ d.sup = decide (bitsOf n 9 1 = 1) ∧ d.dbg = decide (bitsOf n 10 1 = 1) ∧ d.func = bitsOf n 11 5 ∧
    d.shadows = l.map (fun q => { q with second := false }) ∧ d.log2n = log2n ∧ d.taken = taken ∧ d.posted = 0 ∧ d.nextSeq = 0 ∧
    d.nextNumber = 1) ∧
  (∀ c, c ≠ ctx → amGet u.ctxs c = amGet s.ctxs c) ∧
  (∃ g, amGet u.grids s.nextId = some g ∧ g.ctx = ctx ∧ g.number = 0 ∧ g.parent = none ∧ g.depth = 0 ∧ g.lr = r ∧ g.c = s.horSys ∧
    g.seed = BitVec.ofNat 32 (bitsOf n 544 32) ∧ g.nextTeam = 0 ∧ g.held = decide (r.waitc ≠ 0)) ∧
  ∃ a ∈ u.agenda, a.ev = (if r.waitc ≠ 0 then .dependenceCounterReread s.nextId else .dealingStep)

end Sys2Proof.Stated

/-- START checks, in this order, the context's number, that it is free, that its record reads and its fields are legal, its shadow table, the
revision and stepping it asks for, its ring header, that a die is joined, and its root launch; the first check that fails gives the code at the
port and changes nothing else. With all passed the context runs with the record's fields, and its root launch is accepted as grid 0 at depth 0
behind every acknowledged event (R106, R311, R312, R313, R321, R336, R377). Code 22 for a ROOTL that cannot be read and code 21 on unverified
firmware are log entry 46, the places and codes of the checks of the shadow table and of ADDR log entry 47, code 16 for a reserved bit of the
ring header log entry 76, and what a ROOTL that is not aligned does log entry 78: R377 does not give them. -/
def Obligations.ContextStarts : Prop :=
  ∀ (s : State) (ctx addr : Nat),
    (64 ≤ ctx → exec (.start ctx addr) s = .next (ported s ctx 24)) ∧
    (ctx < 64 → (amGet s.ctxs ctx ≠ none ∨ s.firmwareOk = false) → exec (.start ctx addr) s = .next (ported s ctx 21)) ∧
    (ctx < 64 → amGet s.ctxs ctx = none → s.firmwareOk = true →
      (s.ctxRecord addr = none → exec (.start ctx addr) s = .next (ported s ctx 22)) ∧
      ∀ n, s.ctxRecord addr = some n →
        (ctxRecordOk n addr = false → exec (.start ctx addr) s = .next (ported s ctx 16)) ∧
        (ctxRecordOk n addr = true →
          let c0 := Ctx.withRecord {} n addr
          let table := State.shadowTable { s with ctxs := amSet s.ctxs ctx c0 } ctx (bitsOf n 832 64) (bitsOf n 0 5)
          (∀ code, table = .error code → exec (.start ctx addr) s = .next (ported s ctx code)) ∧
          ∀ l, table = .ok l →
            (s.servesRevision (bitsOf n 24 8) = false → exec (.start ctx addr) s = .next (ported s ctx 17)) ∧
            (s.servesRevision (bitsOf n 24 8) = true → Config.stepping < bitsOf n 16 8 → exec (.start ctx addr) s = .next (ported s ctx 18)) ∧
            (s.servesRevision (bitsOf n 24 8) = true → bitsOf n 16 8 ≤ Config.stepping →
              let c1 : Ctx := { c0 with
                seed := BitVec.ofNat 32 (bitsOf n 544 32)
                shadows := l.map fun q => { q with second := false } }
              let s1 : State := { s with ctxs := amSet s.ctxs ctx c1 }
              (s1.ringHeader ctx c1.trapq = none → exec (.start ctx addr) s = .next (ported s ctx 22)) ∧
              ∀ h, s1.ringHeader ctx c1.trapq = some h →
                let log2n := bitsOf h 0 8
                let bad := log2n < 4 ∨ 12 < log2n ∨ bitsOf h 8 56 ≠ 0 ∨ bitsOf h 192 320 ≠ 0
                (bad → exec (.start ctx addr) s = .next (ported s ctx 16)) ∧
                (¬ bad →
                  ((∀ d ∈ s.dies, d.2.pooled = false) → exec (.start ctx addr) s = .next (ported s ctx 20)) ∧
                  ((∃ d ∈ s.dies, d.2.pooled = true) →
                    (s1.hubRead ctx c1.rootl 128 = none ∨ s1.hubFault ctx c1.rootl 128 ≠ none →
                      exec (.start ctx addr) s = .next (ported s ctx 22)) ∧
                    ∀ bs, s1.hubRead ctx c1.rootl 128 = some bs → s1.hubFault ctx c1.rootl 128 = none →
                      let r := launchRec (ofBytes bs)
                      let image := (s1.hubFault ctx r.winmapAt 64).isNone
                      let code := s1.launchCode { ctx := ctx, addr := c1.rootl, c := s.horSys } (ofBytes bs) image
                      (code ≠ 0 → exec (.start ctx addr) s = .next (ported s ctx code)) ∧
                      (code = 0 → HubReads s1 ctx c1.rootl 128 → HubReads s1 ctx r.winmapAt 64 → HubReads s1 ctx c1.trapq 64 → Gives (.start ctx addr) s fun u => Began s u ctx n log2n (bitsOf h 128 64) l r))))))

/-- PREEMPT and HALT let a running context stop, and report 21 of another; the stop has 2^24 clocks, and under MIG each strand 2,700 to reach its
migration point, after which the save is one without MIG. When all its issued work has completed and its save engines are done, its teams leave
their CUs, its segments stand in its save area in the order of R320, a poisoned word as its marker, with no byte changed outside them, and the port
reports 0, 32 after a migration abort, or 33 of a contained context. A stop that takes too long contains it. KILL discards the context with all it
has (R313, R318, R320, R349, R375, R376, R377). -/
def Obligations.ContextStops : Prop :=
  (∀ (s : State) (ctx : Nat) (mig : Bool) (c : Ctx), amGet s.ctxs ctx = some c → c.state = .running → s.firmwareOk = true →
    let asked (keep : Bool) : State :=
      let a := insAgenda s.agenda { due := s.clock + 2 ^ 24, prio := prioLate, ev := .stopTimeout ctx }
      { s with
        ctxs := amSet s.ctxs ctx { c with
          state := .stopping
          stopAt := some s.clock
          stopHalt := keep
          mig := mig
          aborted := false
          stopCode := 0
          stopBegun := false
          saving := false }
        agenda := if mig then insAgenda a { due := s.clock + 2700, prio := prioLate, ev := .migrationAbort ctx } else a }
    exec (.preempt ctx mig) s = .next (asked false) ∧ exec (.halt ctx mig) s = .next (asked true)) ∧
  (∀ (s : State) (ctx : Nat) (mig : Bool), ((amGet s.ctxs ctx).map Ctx.state ≠ some .running ∨ s.firmwareOk = false) →
    exec (.preempt ctx mig) s = .next (ported s ctx 21) ∧ exec (.halt ctx mig) s = .next (ported s ctx 21)) ∧
  (∀ (s : State) (ctx t : Nat) (c : Ctx), amGet s.ctxs ctx = some c → c.state = .stopping →
    exec (.migrationAbort ctx) s = .next (if c.mig = true ∧ c.stopAt.getD s.clock + 2700 ≤ s.clock ∧ s.issueHalted ctx = false then
      { s with ctxs := amSet s.ctxs ctx { c with mig := false, aborted := true } } else s) ∧
    (c.stopAt = some t → exec (.stopTimeout ctx) s = .next (if t + 2 ^ 24 ≤ s.clock then
      ported { s with ctxs := amSet s.ctxs ctx { c with state := .contained, stopAt := none, saving := false } } ctx 33 else s))) ∧
  (∀ (s : State) (ctx : Nat) (c : Ctx), amGet s.ctxs ctx = some c → c.state = .stopping → c.saving = true →
    (s.stopReady ctx c = false → (∀ l ∈ s.lines, l.2.lock ≠ some (saverKey ctx)) → exec (.saveComplete ctx) s = .next { s with ctxs := amSet s.ctxs ctx { c with saving := false } }) ∧
    ∀ pages, s.stopReady ctx c = true → s.savePages ctx c.save (segsEnd (s.ctxSegs ctx)) true = some pages →
      s.heldIn pages = [] → (∀ p ∈ pages, p % 4096 = 0) → pages.Nodup → Unviewed s → s.pendingPublishes ctx = [] →
      Gives (.saveComplete ctx) s fun u =>
        (∀ a, (∀ r ∈ saveRuns pages (segsEnd (s.ctxSegs ctx)), ¬ (r.1 ≤ a ∧ a < r.1 + r.2)) → u.byte a = s.byte a) ∧
        (∀ g ∈ s.ctxSegs ctx, ∀ a, g.src = .at0 a →
          ((∀ q ∈ s.poison, ¬ (a ≤ q.1 ∧ q.1 < a + g.len)) → ∀ i, i < g.len → u.byte (pageAt pages (g.off + i)) = s.byte (a + i)) ∧
          ((∀ q ∈ s.poison, q.1 % poisonUnit q.1 = 0) → (s.poison.map Prod.fst).Nodup → ∀ q ∈ s.poison, a ≤ q.1 → q.1 + 4 ≤ a + g.len →
            ∀ i, i < 4 → u.byte (pageAt pages (g.off + (q.1 - a) + i)) = (toBytes 4 (marker q.2).toNat).getD i 0)) ∧
        (∀ t ∈ s.ctxTeams ctx, amGet u.teams t.1 = none ∧ ∀ k ∈ t.2.warps, amGet u.warps k = none) ∧
        u.msgs = s.msgs ++ [.port ctx (if c.stopCode ≠ 0 then c.stopCode else if c.aborted = true then 32 else 0)] ∧
        ∃ d im, amGet u.ctxs ctx = some d ∧ d.saved = some im ∧ im.teams = s.saveOrder ctx ∧ d.stopAt = none ∧
          d.state = if c.stopCode = 33 then .contained else if c.stopHalt then .halted else .preempted) ∧
  ∀ (s : State) (ctx : Nat),
    (amGet s.ctxs ctx = none ∨ s.firmwareOk = false → exec (.contextKill ctx) s = .next (ported s ctx 21)) ∧
    (amGet s.ctxs ctx ≠ none → s.firmwareOk = true → Gives (.contextKill ctx) s fun u => amGet u.ctxs ctx = none ∧
      (∀ g ∈ u.grids, g.2.ctx ≠ ctx) ∧ (∀ q ∈ u.copies, q.2.ctx ≠ ctx) ∧ (∀ l ∈ u.launches, l.2.ctx ≠ ctx) ∧
      (∀ t ∈ s.ctxTeams ctx, amGet u.teams t.1 = none ∧ ∀ k ∈ t.2.warps, amGet u.warps k = none) ∧
      (∀ f ∈ u.fnCtx, f.2 ≠ ctx) ∧ ∃ m, u.msgs = m ++ [.port ctx 0])

namespace Sys2Proof.Stated

/-- A k register of a restored warp: the word of its place in the save area, but a poisoned one whose place still holds its marker keeps what was
saved (R322, R349). -/
def kBack (w : Warp) (word : Word) (j : Nat) : Word :=
  match amGet w.kPoison j with
  | some o => if word = marker o then spGet w.k j else word
  | none => word

/-- The restored teams of an image are at their places, each with its grid, index, group and rank, and each of its warps with its window map,
number and the k registers that its control segment in the save area holds, whose place there is the model's choice (log entry 45) (R26, R321,
R322). -/
def Placed (s u : State) (im : Saved) (ps : List Place) (pages : List Nat) : Prop :=
  ∀ p ∈ ps, ∀ t, amGet im.teams p.tn = some t → ∃ q, amGet u.teams p.tn = some q ∧ q.grid = t.grid ∧ q.index = t.index ∧ q.group = t.group ∧
    q.rank = t.rank ∧ q.cu = p.cu ∧ q.warps = p.slots.map (warpKey p.cu ·) ∧
    ∀ j w, j < t.warps.length → j < p.slots.length → amGet im.warps (t.warps.getD j 0) = some w →
      ∃ v, amGet u.warps (warpKey p.cu (p.slots.getD j 0)) = some v ∧ v.winmap = w.winmap ∧ v.number = w.number ∧ v.team = w.team ∧
        ∀ g ∈ s.saveSegs (im.newTeams ps) (im.newWarps ps s.horSys s.clock) [] [], g.src = .control (warpKey p.cu (p.slots.getD j 0)) →
          ∀ r, r < 256 → spGet v.k r = kBack w (s.word (pageAt pages (g.off + 4 * r))) r

/-- An image with nothing but teams: no publish or record is pending, no warp is spilled or has a block operation, and no fence is under way. -/
def Bare (c : Ctx) (im : Saved) : Prop :=
  im.publishes = [] ∧ c.records = [] ∧ c.heldReplies = [] ∧ ∀ w ∈ im.warps, w.2.spilled = none ∧ w.2.op = none ∧
    ∀ st ∈ w.2.table, st.fence = none ∧ st.fenceStep1 = none

/-- No place uses a slot of another, or one that a warp has. -/
def SlotsApart (s : State) (ps : List Place) : Prop :=
  (ps.map Place.tn).Nodup ∧ (ps.flatMap fun p => p.slots.map (warpKey p.cu ·)).Nodup ∧
    ∀ p ∈ ps, ∀ j ∈ p.slots, j < 32 ∧ amGet s.warps (warpKey p.cu j) = none

end Sys2Proof.Stated

/-- RESTORE applies to a preempted context, or one that is not live here, and CONTINUE to a halted one; of another they report 21. RESTORE checks
the context record as START does; CONTINUE goes on with the fields that were read last, of a record that can still be read (log entry 107). Both
report 22 of a save area that cannot be read or is poisoned, 19 of another part's image without MIG and 20 of an image that fits no joined die, and
then place the teams where they fit, or where they were; a RESTORE that finds no room waits. The context runs again and the port reports 0 (R319,
R321, R377). What another part's area holds is free (log entry 46). -/
def Obligations.ContextRestores : Prop :=
  (∀ (s : State) (ctx addr : Nat),
    ((∃ c, amGet s.ctxs ctx = some c ∧ (c.state ≠ .preempted ∨ c.saved = none ∨ c.restoring = true)) ∨ amGet s.ctxs ctx = none ∧ 64 ≤ ctx ∨
      s.firmwareOk = false → exec (.restore ctx addr) s = .next (ported s ctx 21)) ∧
    (amGet s.ctxs ctx = none → ctx < 64 → s.firmwareOk = true →
      (∀ code, s.loadRecord ctx addr {} = .error code → exec (.restore ctx addr) s = .next (ported s ctx code)) ∧
      ∀ c, s.loadRecord ctx addr {} = .ok c →
        let s1 : State := { s with ctxs := amSet s.ctxs ctx c }
        (s1.imageIn ctx c = none → exec (.restore ctx addr) s = .next (ported s ctx 22)) ∧
        ∀ im pages, s1.imageIn ctx c = some im → im.foreign = true → im.mig = false →
          let c2 := s1.adoptCtx ctx c im
          let s2 := { s with ctxs := amSet s.ctxs ctx c2 }.adoptGrids im
          let n := segsEnd (s2.saveSegs im.teams im.warps im.publishes c2.records)
          s2.savePages ctx c2.save n false = some pages → (∀ r ∈ saveRuns pages n, s.poisonIn r.1 r.2 = []) →
            exec (.restore ctx addr) s = .next (ported s ctx 19)) ∧
    ((∀ c im, amGet s.ctxs ctx = some c → c.saved = some im → c.state ≠ .halted) ∨ s.firmwareOk = false →
      exec (.continueCtx ctx) s = .next (ported s ctx 21))) ∧
  ∀ (s : State) (ctx addr : Nat) (c : Ctx) (im : Saved) (i : Instr), amGet s.ctxs ctx = some c → c.saved = some im → im.foreign = false →
    s.firmwareOk = true →
    ∀ got : Except Nat Ctx, (i = .restore ctx addr ∧ c.state = .preempted ∧ c.restoring = false ∧ got = s.loadRecord ctx addr c ∨
      i = .continueCtx ctx ∧ c.state = .halted ∧ got = s.heldRecord c) →
    (∀ code, got = .error code → exec i s = .next (ported s ctx code)) ∧
    ∀ c0, got = .ok c0 →
      let c1 := State.adoptCtx { s with ctxs := amSet s.ctxs ctx c0 } ctx c0 im
      let s1 : State := { s with ctxs := amSet s.ctxs ctx c1 }
      let bytes := segsEnd (s1.saveSegs im.teams im.warps im.publishes c1.records)
      (s1.savePages ctx c1.save bytes false = none → exec i s = .next (ported s ctx 22)) ∧
      ∀ pages, s1.savePages ctx c1.save bytes false = some pages →
        ((∃ r ∈ saveRuns pages bytes, s.poisonIn r.1 r.2 ≠ []) → exec i s = .next (ported s ctx 22)) ∧
        ((∀ r ∈ saveRuns pages bytes, s.poisonIn r.1 r.2 = []) →
          (s.everFits im = false → exec i s = .next (ported s ctx 20)) ∧
          (s.everFits im = true →
            (c.state = .preempted → s1.placeAll ctx im im.teams.length im.teams [] = none → Gives i s fun u => u.mem = s.mem ∧ u.teams = s.teams ∧
              u.warps = s.warps ∧ u.msgs = s.msgs ∧ ∃ d, amGet u.ctxs ctx = some d ∧ d.restoring = true ∧ d.saved = c1.saved ∧ d.state = c1.state) ∧
            ∀ ps, (c.state = .preempted ∧ s1.placeAll ctx im im.teams.length im.teams [] = some ps ∨ c.state = .halted ∧ ps = im.samePlaces) →
              Bare c1 im → SlotsApart s ps → Unviewed s → (∀ p ∈ pages, onChip (p + 4095) = false) → Gives i s fun u => Placed s1 u im ps pages ∧ u.msgs = s.msgs ++ [.port ctx 0] ∧
                ∃ d, amGet u.ctxs ctx = some d ∧ d.state = .running ∧ d.saved = none ∧ d.restoring = false))

/-- A line comes into its home L2 once: a line of a narrow view as the BF16 values of its codes, clean, poisoned where its codes are. A dirty view
line is written back as the codes of its elements, and stays, clean; no other byte of the store changes; a line whose window is gone is written back
as its 64 bytes (R143, R144, R350). A slice that is full gives up one other line (R16, R22); which one is open (log entry 60). -/
def Obligations.ViewLines : Prop :=
  ∀ (s : State) (l : Nat), MemOk s →
    (onChip (l * 64) = true ∨ (s.line l).inL2 = true → exec (.viewLineFill l) s = .next s) ∧
    (onChip (l * 64) = false → (s.line l).inL2 = false → Gives (.viewLineFill l) s fun u => (u.line l).inL2 = true ∧
      ∃ v, ∀ q, q ≠ l → q ≠ v → amGet u.lines q = amGet s.lines q) ∧
    (onChip (l * 64) = false → (s.line l).inL2 = false → s.lines.length < Config.sliceBytes (homeOf (l * 64)) / 64 →
      (s.viewOf (l * 64) = none → exec (.viewLineFill l) s = .next { s with lines := amSet s.lines l { s.line l with inL2 := true } }) ∧
      ∀ w o, s.viewOf (l * 64) = some (w, o) → onChip (w.store + o / 2 + 31) = false → Gives (.viewLineFill l) s fun u => u.mem = s.mem ∧ (u.line l).inL2 = true ∧
        (u.line l).wts = (s.line l).wts ∧ (u.line l).rts = (s.line l).rts ∧ (∃ d, (u.line l).view = some (d, false)) ∧
        (∀ j, j < 32 → u.bytes (l * 64 + 2 * j) 2 = toBytes 2 (decodeNarrow (spGet s.mem (w.store + o / 2 + j)).toNat w.fmt)) ∧
        ∀ i, i < 8 → (∀ j, j < 32 → lineOf (w.store + o / 2 + j) ≠ l) → s.poisonAt (w.store + o / 2 + 4 * i) 4 ≠ [] → u.poisonIn (l * 64 + 8 * i) 8 ≠ []) ∧
    ((∀ d, (amGet s.lines l).bind Line.view ≠ some (d, true)) → exec (.viewLineWriteback l) s = .next { s with behind := amErase s.behind l }) ∧
    ∀ d x, amGet s.lines l = some x → x.view = some (d, true) → d.length = 64 → Gives (.viewLineWriteback l) s fun u =>
      amGet u.lines l = some { x with view := some (d, false) } ∧ (∀ q, q ≠ l → amGet u.lines q = amGet s.lines q) ∧
      (∀ w o, s.viewOf (l * 64) = some (w, o) →
        (∀ j, j < 32 → spGet u.mem (w.store + o / 2 + j) = BitVec.ofNat 8 (encodeNarrow (unpack fmtBf (halfAt d j)) w.fmt).1) ∧
        ∀ a, ¬ (w.store + o / 2 ≤ a ∧ a < w.store + o / 2 + 32) → spGet u.mem a = spGet s.mem a) ∧
      (s.viewOf (l * 64) = none → (∀ i, i < 64 → spGet u.mem (l * 64 + i) = d.getD i 0) ∧
        ∀ a, ¬ (l * 64 ≤ a ∧ a < l * 64 + 64) → spGet u.mem a = spGet s.mem a)

namespace Sys2Proof.Stated

/-- A record of an error of a unit, with the errors it has corrected since its last record (R363). -/
def recorded (s : State) (unit site cu kind : Nat) : ErrRec :=
  { unit := unit, site := site, cu := cu, kind := kind, clock := s.clock, corr := amGetD s.corrected (unit * 2 ^ 16 + site % 256 * 2 ^ 8 + cu % 256) 0 }

/-- The state with one more error record, at its clock, and the management vector's message (R363). -/
def logged (s : State) (unit site cu kind : Nat) : State := { s with
  errLog := s.errLog ++ [recorded s unit site cu kind]
  corrected := amErase s.corrected (unit * 2 ^ 16 + site % 256 * 2 ^ 8 + cu % 256)
  msgs := s.msgs ++ [.msix 0 0] }

/-- The site a link's records name: spokes and ring links their own, peer ports the hub. -/
def linkSite (link : Nat) : Nat := if link < 16 then link % 8 else 8

end Sys2Proof.Stated

/-- A CRC error that a receiver finds in one direction of a link counts a correction of the link, and the sender of that direction resends the
failed flit and every later one, in order; the eighth failure in a row of one flit retrains the link; one that trains delays its flits for at most
20,000 clocks, and a third retraining in 2^31 clocks loses it. A lost link is logged; a peer port's descriptors end, a die left without a link is
contained, and otherwise what each of its replay buffers holds is sent again on the route round it that goes its way, which holds until it is
restored (R357, R358, R359, R363). Which flit a CRC error hits, and how long a training takes, is the model's choice (log entry 54). -/
def Obligations.LinkSteps : Prop :=
  ∀ (s : State) (link : Nat) (out : Bool),
    let x := amGetD s.links link {}
    let y := if out then x.out else x.back
    let q := y.failing s.clock
    let n := if y.fails ≠ 0 ∧ y.failSeq = q then y.fails + 1 else 1
    let failed (f : Nat) : Lane := { y with
      fails := f
      failSeq := q
      kept := (y.kept.takeWhile fun k => decide (k.1 ≠ q)) ++ (y.kept.dropWhile fun k => decide (k.1 ≠ q)).map fun k => (k.1, s.clock) }
    let put (z : Lane) : Link := if out then { x with out := z } else { x with back := z }
    let at0 := 6 * 2 ^ 16 + linkSite link % 256 * 2 ^ 8 + link % 256
    let count := amSet s.corrected at0 (amGetD s.corrected at0 0 + 1)
    (x.state ≠ 0 → exec (.flitReplay ⟨link, out⟩) s = .next s) ∧
    (x.state = 0 → n ≠ 8 → exec (.flitReplay ⟨link, out⟩) s = .next { s with
      links := amSet s.links link (put (failed n))
      corrected := count }) ∧
    (x.state = 0 → n = 8 → exec (.flitReplay ⟨link, out⟩) s = .next { s with
      links := amSet s.links link (put (failed 0))
      corrected := count
      agenda := insAgenda s.agenda { due := s.clock, prio := prioLate, ev := .linkRetrain link } }) ∧
    (x.state = 2 → exec (.linkRetrain link) s = .next s ∧ exec (.linkLost link) s = .next s ∧
      exec (.linkRestore link) s = .next { s with links := amSet s.links link {} }) ∧
    (x.state ≠ 2 → exec (.linkRestore link) s = .next s) ∧
    (x.state = 1 → exec (.linkRetrain link) s = .next (if s.clock < x.trained then s else { s with
      links := amSet s.links link { x.clean with state := 0 } })) ∧
    (x.state ≠ 1 → x.state ≠ 2 → Gives (.linkRetrain link) s fun u => u.mem = s.mem ∧ ∃ y, amGet u.links link = some y ∧ y.state = 1 ∧
      y.retrains = (x.retrains.filter fun t => decide (s.clock < t + 2 ^ 31)) ++ [s.clock] ∧ s.clock ≤ y.trained ∧ y.trained ≤ s.clock + 20000 ∧
      u.errLog = (logged s 6 (linkSite link) link 6).errLog ∧
      (y.retrains.length < 3 → { due := y.trained, prio := prioLate, ev := .linkRetrain link } ∈ u.agenda) ∧
      (3 ≤ y.retrains.length → { due := s.clock, prio := prioLate, ev := .linkLost link } ∈ u.agenda)) ∧
    (x.state ≠ 2 →
      let cut : State := { logged s 6 (linkSite link) link 7 with links := amSet s.links link { x.clean with state := 2 } }
      (16 ≤ link → Gives (.linkLost link) s fun u => u.mem = s.mem ∧ amGet u.links link = some { x.clean with state := 2 } ∧
        u.errLog = cut.errLog ∧ (∀ d ∈ s.descs, d.2.port = some (link - 16) → amGet s.descs d.1 = some d.2 → amGet u.descs d.1 = none) ∧
        ∀ i, (∀ d ∈ s.descs, d.1 = i → d.2.port ≠ some (link - 16)) → amGet u.descs i = amGet s.descs i) ∧
      (link < 16 → (∀ a, a < 8 → cut.cutOff a = true → (amGetD s.dies a {}).status = 3) → exec (.linkLost link) s = .next (cut.resend link).settle ∧
        (amGetD (cut.resend link).links link {}).out.kept = [] ∧ (amGetD (cut.resend link).links link {}).back.kept = []) ∧
      ∀ a, link < 16 → a < 8 → cut.cutOff a = true → (amGetD s.dies a {}).status ≠ 3 → Then (.linkLost link) s fun u =>
        (amGetD u.dies a {}).status = 3 ∧ (amGetD u.dies a {}).pooled = false ∧ ∀ c, c < Config.cus a → (u.cu (cuKey a c)).dead = true)

namespace Sys2Proof.Stated

/-- What the containment of an agent leaves: its CUs out of service, its teams gone, the contexts that had one stopping as HALT does with code 33,
the words of other homes that it held poisoned, each with a record of kind 2, and their lines with no owner, and a record of kind 8, the last
(R360, R363). What it held comes back to L2 lines, where a dirty view line may have to make room. -/
def Contained (s u : State) (cs : List Nat) (other : Nat → Bool) (unit site cu : Nat) : Prop :=
  let clean := ∀ p ∈ s.lines, ∀ d, p.2.view ≠ some (d, true)
  (clean → u.mem = s.mem) ∧ (∀ c ∈ cs, (u.cu c).dead = true) ∧ (∀ t ∈ s.teams, t.2.cu ∈ cs → amGet u.teams t.1 = none ∧ ∀ k ∈ t.2.warps, amGet u.warps k = none) ∧
  (∀ n x, amGet s.ctxs n = some x → x.state = .running → (∃ t ∈ s.ctxTeams n, t.2.cu ∈ cs) → ∃ d, amGet u.ctxs n = some d ∧ d.state = .stopping ∧
    d.stopHalt = true ∧ d.stopCode = 33 ∧ d.stopAt = some s.clock) ∧
  (∀ l x o, amGet s.lines l = some x → x.owner = some o → o ∈ cs → other l = true → s.viewHere (l * 64) = none →
    (u.line l).owner = none ∧ (clean → u.poisonIn (l * 64) 64 ≠ [])) ∧
  ∃ pre, u.errLog = s.errLog ++ pre ++ [recorded s unit site cu 8] ∧ (∀ r ∈ pre, r.kind = 2 ∧ r.unit = 0) ∧
    ∀ l x o, amGet s.lines l = some x → x.owner = some o → o ∈ cs → other l = true → ∀ i, i < 8 → ∃ r ∈ pre, r.paddr = l * 64 + 8 * i ∧
      r.site = homeOf (l * 64)

end Sys2Proof.Stated

/-- A dead CU or die is contained: its CUs leave placement, its teams are lost, their contexts halt and accept only KILL, and what it alone held
is poisoned; a dead copy engine takes its CU out of placement and ends its copies with CODE 6; one record of kind 8 names each dead agent, of
unit 5 for a CU or a copy engine and 6 for a die (log entry 55). A dead die's memory answers no access until its page is re-homed, which a page
of a die that is to be parked is too. An uncorrectable directory entry is rebuilt by probes with no owner, no
copy and the largest timestamps its slice has given; a CU that does not answer in 65,536 clocks poisons the line. The patrol scrubber goes
through DRAM line by line, one in 13,107 clocks (log entry 53), and makes no event (R314, R348, R356, R359, R360). -/
def Obligations.AgentFailures : Prop :=
  (∀ (s : State) (site c : Nat), site < 8 → s.mcas = [] →
    (c < Config.cus site → (s.cu (cuKey site c)).dead = false → Then (.agentDead site (some (.cu c))) s fun u =>
      Contained s u [cuKey site c] (fun _ => true) 5 site c) ∧
    (∀ id cp k, c < Config.cus site → (s.cu (cuKey site c)).dead = false → (s.cu (cuKey site c)).engineDead = false →
      (s.cu (cuKey site c)).copies = [id] → amGet s.copies id = some cp → cp.cu = cuKey site c → cp.ks = some k →
      (∀ t, amGet s.teams cp.team = some t → t.copies = [id]) → Then (.agentDead site (some (.engine c))) s fun u =>
        SameBytes s u ∧ (u.cu (cuKey site c)).engineDead = true ∧ (u.cu (cuKey site c)).copies = [] ∧ amGet u.copies id = none ∧
        { due := s.clock, prio := prioResult, ev := .statusWordWrite cp.warp k id (copyStatus 6 cp.moved) } ∈ u.agenda ∧
        u.errLog = s.errLog ++ [recorded s 5 site c 8]) ∧
    ((amGetD s.dies site {}).status ≠ 3 → Then (.agentDead site none) s fun u =>
      Contained s u ((List.range (Config.cus site)).map fun c => cuKey site c) (fun l => decide (homeOf (l * 64) ≠ site)) 6 site 0 ∧
      (amGetD u.dies site {}).status = 3 ∧ (amGetD u.dies site {}).pooled = false ∧
      ∀ a, homeOf a = site → s.rehomed.contains (a / 4096) = false → u.contained a = true)) ∧
  (∀ (s : State) (line site : Nat), homeOf (line * 64) = site → onChip (line * 64) = false →
    (s.contained (line * 64) = true ∨ (amGetD s.dies site {}).status = 2 →
      exec (.pageRehome line site) s = .next { s with rehomed := s.rehomed ++ [line / 64] }) ∧
    (s.contained (line * 64) = true → State.contained { s with rehomed := s.rehomed ++ [line / 64] } (line * 64) = false)) ∧
  (∀ s : State, exec .patrolScrub s = .next { s with
      scrubAt := nextScrub s.scrubAt
      agenda := insAgenda s.agenda { due := s.clock + 13107, prio := prioLate, ev := .patrolScrub } }) ∧
  (∀ l, inDram (l * 64) = true → inDram (nextScrub l * 64) = true) ∧
  ∀ (s : State) (l : Nat), onChip (l * 64) = false → s.probing l = false →
    let x := s.line l
    let probed : State := { s with lines := amSet s.lines l { x with recovering := true } }
    let top := max (max (amGetD s.tmax (homeOf (l * 64) * 64 + sliceOf (l * 64)) 0) (amGetD s.dies (homeOf (l * 64)) {}).floor)
      (if x.owner.isSome then x.wts else 0)
    let rebuilt (u : State) (kind : Nat) : Prop := (u.line l).wts = top ∧ (u.line l).rts = top ∧ (u.line l).owner = none ∧
      (u.line l).recovering = false ∧ (∀ c, u.l1Copy c l = none) ∧ ∃ r ∈ u.errLog, r.paddr = l * 64 ∧ r.unit = 2 ∧ r.kind = kind
    (x.recovering = false → s.silent = false → exec (.directoryRecovery l) s = .next { probed with
      agenda := insAgenda s.agenda { due := s.clock + s.probeClocks (homeOf (l * 64)), prio := prioLate, ev := .directoryRecovery l } }) ∧
    (x.recovering = false → s.silent = true → exec (.directoryRecovery l) s = .next { probed with
      agenda := insAgenda s.agenda { due := s.clock + 65536, prio := prioLate, ev := .probeTimeout l } }) ∧
    (x.recovering = true → x.queue = [] → x.owner = none ∨ Plain s l → Gives (.directoryRecovery l) s fun u => u.mem = s.mem ∧ u.poison = s.poison ∧ rebuilt u 3) ∧
    (x.recovering = true → x.queue = [] → x.owner = none ∨ Plain s l → Gives (.probeTimeout l) s fun u => u.mem = s.mem ∧
      (s.viewHere (l * 64) = none → u.poisonIn (l * 64) 64 ≠ []) ∧ rebuilt u 4) ∧
    (x.recovering = false → exec (.probeTimeout l) s = .next s)

/-- The events of the issue slots, the result pipes, the budget periods, the watchdog and the matrix engines complete where their conditions hold:
a slot with one warp slot that can issue issues its holder, ahead of the others where it starves (R118, R120, R374); a result leaves its pipe
(R187); a period begins with the strands' budgets unused (R115, R116); a strand that has waited for the limit is frozen (R373); the gather that
its CU serves has its rows (R305); an idle engine starts the oldest of its queue, for K/4 or K/8 clocks (R266, R290); a broadcast on which its
participants agree starts on all their engines (R264); an engine that is done is idle, with its result out of the pipe (R262). -/
def Obligations.SlotAndEngineEvents : Prop :=
  (∀ (s : State) (slot k e : Nat), (s.updateHolders slot).startGathers slot = s → (amGet s.warps k).bind Warp.holder = some e →
    let issues : State := { s with cur := some { warp := k, entry := e } }
    (s.readySlots slot = [k] → exec (.issueSelect slot) s = .next issues) ∧
    (s.starved slot = [k] → exec (.starvationIssue slot) s = .next issues)) ∧
  (∀ (s : State) (k id : Nat) (w : Warp) (p : Pipe), amGet s.warps k = some w → amGet w.pipe id = some p → Then (.pipelineResult k id) s fun u =>
    SameBytes s u ∧ ∃ v, amGet u.warps k = some v ∧ v.pipe = amErase w.pipe id) ∧
  (∀ s : State, Gives .budgetPeriod s fun u => u.mem = s.mem ∧ u.warps = s.warps ∧ u.atomUsed = [] ∧ u.mxsUsed = []) ∧
  (∀ (s : State) (uid k e : Nat) (w : Warp), Stands s uid k e w → (w.strand e).fence = none →
    (w.strand e).state ∈ [.barrier, .countWait, .statusWait, .atJoin] → s.watchLimit ≤ s.clock - (w.strand e).waitSince →
    Then (.watchdogExpiry uid) s fun u => u.mem = s.mem ∧ ∃ v, amGet u.warps k = some v ∧ (v.strand e).state = .frozen ∧
      (v.strand e).trapClass = 12 ∧ (v.strand e).pc = (w.strand e).pc ∧ (v.strand e).mask = (w.strand e).mask) ∧
  (∀ (s : State) (uid k e : Nat) (w : Warp) (m : MatOp), amGet s.gathers uid = some m → Stands s uid k e w → m.fetched = false →
    (s.cu (warpCu k)).gather.head? = some uid → (s.cu (warpCu k)).gatherTill ≤ s.clock → s.earlierPending s.nextId uid m.kin = false →
    (∀ c ∈ m.chunks, s.lineFree (lineOf c.2.2.1) = true ∧ s.contained c.2.2.1 = false ∧ s.poisonIn c.2.2.1 64 = []) →
    Gives (.gatherRowArrival uid) s fun u =>
      (∃ q, amGet u.gathers uid = some q ∧ q.fetched = true ∧ q.rows = m.rows) ∧
      ∃ v, amGet u.warps k = some v ∧ (v.strand e).hold = .none ∧ (v.strand e).pc = (w.strand e).pc ∧ (v.strand e).mask = (w.strand e).mask) ∧
  (∀ (s : State) (cu : Nat) (m : MatOp) (rest : List MatOp), (s.cu cu).running = none → (s.cu cu).queue = m :: rest → m.notBefore ≤ s.clock →
    m.form ≠ .broadcast → s.earlierPending m.id m.uid m.kin = false →
    (∀ a ∈ (s.operands m).1 ++ (s.operands m).2, s.lineFree (lineOf a) = true ∧ s.contained a = false) →
    Then (.matrixEngineStart cu) s fun u => (∀ k, (amGet u.warps k).map clockless = (amGet s.warps k).map clockless) ∧
      (u.cu cu).queue.map MatOp.id = rest.map MatOp.id ∧
      ∃ q, (u.cu cu).running = some q ∧ q.id = m.id ∧ q.until_ = s.clock + (if cuSite cu % 2 = 0 then m.k / 4 else m.k / 8)) ∧
  (∀ (s : State) (gn group rank : Nat) (l : List (Nat × MatOp)), group < 2 ^ 40 → l ≠ [] → s.episodeHeads gn group rank = some l →
    (l.map Prod.fst).Nodup → (∀ r ∈ l, ∀ a ∈ (s.operands r.2).1 ++ (s.operands r.2).2, s.contained a = false) →
    (∀ q ∈ l, ∀ r ∈ l, q.2.k = r.2.k ∧ q.2.ptrB = r.2.ptrB) →
    Then (.mmabEpisodeStart (groupArg gn group) rank) s fun u => ∀ r ∈ l, (u.cu r.1).queue.map MatOp.id = ((s.cu r.1).queue.drop 1).map MatOp.id ∧
      ∃ q, (u.cu r.1).running = some q ∧ q.id = r.2.id) ∧
  ∀ (s : State) (cu : Nat) (m : MatOp) (w : Warp), (s.cu cu).running = some m → m.until_ = s.clock → amGet s.warps m.warp = some w →
    Then (.matrixEngineFinish cu) s fun u => (u.cu cu).running = none ∧ ∃ v, amGet u.warps m.warp = some v ∧ amGet v.pipe m.id = none
end

