-- ==== Sys2Proof/Laws/Maps.lean ====
section
/-! SUPPORT. Reading and writing finite maps and sparse maps, and the canonical form that every memory operation keeps. -/

namespace Sys2Proof.Machine

/-! ### Finite maps -/

@[simp] theorem amGet_amSet_self {α : Type} (m : AMap α) (a : Nat) (x : α) : amGet (amSet m a x) a = some x := by
  induction m with
  | nil => simp [amSet, amGet]
  | cons p t ih =>
    obtain ⟨k, v⟩ := p
    simp only [amSet]
    split
    · simp [amGet]
    · split
      · simp [amGet]
      · rename_i h
        simp [amGet, show ¬ k = a from fun e => h e.symm, ih]

theorem amGet_amSet_ne {α : Type} (m : AMap α) {a b : Nat} (x : α) (h : b ≠ a) : amGet (amSet m a x) b = amGet m b := by
  induction m with
  | nil => simp [amSet, amGet, Ne.symm h]
  | cons p t ih =>
    obtain ⟨k, v⟩ := p
    simp only [amSet]
    split
    · simp [amGet, Ne.symm h]
    · split
      · rename_i e
        subst e
        simp [amGet, Ne.symm h]
      · simp [amGet, ih]

theorem amSet_amSet {α : Type} (m : AMap α) (a : Nat) (x y : α) : amSet (amSet m a x) a y = amSet m a y := by
  induction m with
  | nil => simp [amSet]
  | cons p t ih =>
    obtain ⟨k, v⟩ := p
    simp only [amSet]
    split
    · simp [amSet]
    · split
      · simp [amSet]
      · simp [amSet, *]

theorem amMod_of_get {α : Type} {m : AMap α} {a : Nat} {v : α} (f : α → α) (h : amGet m a = some v) : amMod m a f = amSet m a (f v) := by
  simp [amMod, h]

theorem amMod_of_none {α : Type} {m : AMap α} {a : Nat} (f : α → α) (h : amGet m a = none) : amMod m a f = m := by
  simp [amMod, h]

theorem amMod_amSet {α : Type} (m : AMap α) (a : Nat) (x : α) (f : α → α) : amMod (amSet m a x) a f = amSet m a (f x) := by
  simp [amMod, amSet_amSet]

theorem amGet_amMod_ne {α : Type} (m : AMap α) {a b : Nat} (f : α → α) (h : b ≠ a) : amGet (amMod m a f) b = amGet m b := by
  unfold amMod
  split
  · exact amGet_amSet_ne m _ h
  · rfl

theorem amGet_amMod {α : Type} (m : AMap α) (a : Nat) (f : α → α) : amGet (amMod m a f) a = (amGet m a).map f := by
  unfold amMod
  split <;> simp_all

theorem amGet_filter_ne {α : Type} (m : AMap α) (a b : Nat) :
    amGet (m.filter fun e => decide (e.1 ≠ a)) b = if b = a then none else amGet m b := by
  induction m with
  | nil => simp [amGet]
  | cons p t ih =>
    obtain ⟨k, v⟩ := p
    by_cases hk : k = a
    · subst hk
      simp only [ne_eq, not_true_eq_false, decide_false, Bool.false_eq_true, not_false_eq_true, List.filter_cons_of_neg, amGet] at ih ⊢
      rw [ih]
      split
      · rfl
      · rw [if_neg (fun e => by simp_all)]
    · simp only [ne_eq, hk, not_false_eq_true, decide_true, List.filter_cons_of_pos, amGet] at ih ⊢
      rw [ih]
      split
      · rename_i e; subst e; simp [hk]
      · rfl

@[simp] theorem amGet_amErase_self {α : Type} (m : AMap α) (a : Nat) : amGet (amErase m a) a = none := by
  unfold amErase
  rw [amGet_filter_ne]
  simp

theorem amGet_amErase_ne {α : Type} (m : AMap α) {a b : Nat} (h : b ≠ a) : amGet (amErase m a) b = amGet m b := by
  unfold amErase
  rw [amGet_filter_ne]
  simp [h]

/-! ### Sparse maps -/

/-- What a list of keys and words lists, whatever its order: spGet of the first entry of a key. -/
theorem spGet_append {w : Nat} (m n : Sparse w) (a : Nat) :
    spGet (m ++ n) a = if (m.any fun e => decide (e.1 = a)) then spGet m a else spGet n a := by
  induction m with
  | nil => simp
  | cons p t ih =>
    obtain ⟨k, v⟩ := p
    by_cases h : k = a
    · simp [spGet, h]
    · simp [spGet, h, ih]

theorem spGet_filter {w : Nat} (m : Sparse w) (p : Nat → Bool) (a : Nat) :
    spGet (m.filter fun e => p e.1) a = if p a then spGet m a else 0 := by
  induction m with
  | nil => simp [spGet]
  | cons q t ih =>
    obtain ⟨k, v⟩ := q
    by_cases hp : p k = true
    · simp only [hp, List.filter_cons_of_pos, spGet]
      rw [ih]
      by_cases hk : k = a
      · subst hk; simp [hp]
      · simp [hk]
    · simp only [hp, Bool.false_eq_true, not_false_eq_true, List.filter_cons_of_neg, spGet]
      rw [ih]
      by_cases hk : k = a
      · subst hk; simp [hp]
      · simp [hk]

theorem any_filter_key {w : Nat} (m : Sparse w) (p : Nat → Bool) (a : Nat) :
    ((m.filter fun e => p e.1).any fun e => decide (e.1 = a)) = (p a && m.any fun e => decide (e.1 = a)) := by
  induction m with
  | nil => simp
  | cons q t ih =>
    obtain ⟨k, v⟩ := q
    by_cases hp : p k = true
    · simp only [hp, List.filter_cons_of_pos, List.any_cons, ih]
      by_cases hk : k = a
      · subst hk; simp [hp]
      · simp [hk]
    · simp only [hp, Bool.false_eq_true, not_false_eq_true, List.filter_cons_of_neg, List.any_cons, ih]
      by_cases hk : k = a
      · subst hk; simp [hp]
      · simp [hk]

theorem spGet_of_not_any {w : Nat} (m : Sparse w) (a : Nat) (h : (m.any fun e => decide (e.1 = a)) = false) : spGet m a = 0 := by
  induction m with
  | nil => rfl
  | cons p t ih =>
    obtain ⟨k, v⟩ := p
    simp only [List.any_cons, Bool.or_eq_false_iff, decide_eq_false_iff_not] at h
    simp [spGet, h.1, ih h.2]

theorem spGet_runOf {w : Nat} (b : List (BitVec w)) (a x : Nat) :
    spGet (runOf a b) x = if a ≤ x ∧ x < a + b.length then b.getD (x - a) 0 else 0 := by
  induction b generalizing a with
  | nil => simp [runOf, spGet]
  | cons v t ih =>
    have key : spGet (runOf a (v :: t)) x = if a = x then v else spGet (runOf (a + 1) t) x := by
      simp only [runOf]
      split
      · rename_i hv
        rw [hv]
        split
        · rename_i hx
          subst hx
          rw [ih]
          simp
        · rfl
      · simp [spGet]
    rw [key, ih]
    simp only [List.length_cons]
    by_cases h : a = x
    · subst h; simp
    · rw [if_neg h]
      by_cases h2 : a + 1 ≤ x ∧ x < a + 1 + t.length
      · rw [if_pos h2, if_pos (by omega)]
        obtain ⟨k, hk⟩ : ∃ k, x - a = k + 1 := ⟨x - a - 1, by omega⟩
        rw [hk, show x - (a + 1) = k by omega]
        simp
      · rw [if_neg h2, if_neg (by omega)]

theorem any_runOf {w : Nat} (b : List (BitVec w)) (a x : Nat) (h : x < a ∨ a + b.length ≤ x) :
    ((runOf a b).any fun e => decide (e.1 = x)) = false := by
  induction b generalizing a with
  | nil => simp [runOf]
  | cons v t ih =>
    simp only [List.length_cons] at h
    simp only [runOf]
    split
    · exact ih (a + 1) (by omega)
    · simp only [List.any_cons, ih (a + 1) (by omega), Bool.or_false, decide_eq_false_iff_not]
      omega

/-- A read after a write of a run of words: the words written inside it, what was there outside. -/
theorem spGet_spWrite {w : Nat} (m : Sparse w) (a : Nat) (b : List (BitVec w)) (x : Nat) :
    spGet (spWrite m a b) x = if a ≤ x ∧ x < a + b.length then b.getD (x - a) 0 else spGet m x := by
  unfold spWrite
  rw [spGet_append, spGet_append, List.any_append, any_filter_key m (fun k => decide (k < a)) x,
    spGet_filter m (fun k => decide (k < a)) x, spGet_filter m (fun k => decide (a + b.length ≤ k)) x, spGet_runOf]
  by_cases h : a ≤ x ∧ x < a + b.length
  · have h1 : ¬ x < a := by omega
    have h2 : ¬ a + b.length ≤ x := by omega
    simp only [h1, decide_false, Bool.false_and, Bool.false_or, Bool.false_eq_true, ite_false, h, and_self, ite_true, h2]
    split
    · rfl
    · rename_i hn
      have := spGet_of_not_any (runOf a b) x (Bool.eq_false_iff.mpr hn)
      rw [spGet_runOf, if_pos h] at this
      exact this.symm
  · rw [if_neg h]
    by_cases h1 : x < a
    · have h2 : ¬ a + b.length ≤ x := by omega
      simp only [h1, decide_true, Bool.true_and, any_runOf b a x (Or.inl h1), Bool.or_false, ite_true]
      split
      · simp
      · rename_i hn
        simp only [h2, decide_false, Bool.false_eq_true, ite_false]
        exact (spGet_of_not_any m x (Bool.eq_false_iff.mpr hn)).symm
    · have h2 : a + b.length ≤ x := by omega
      simp [h1, h2, any_runOf b a x (Or.inr h2)]

@[simp] theorem spGet_spSet_self {w : Nat} (m : Sparse w) (a : Nat) (x : BitVec w) : spGet (spSet m a x) a = x := by
  unfold spSet
  split
  · rename_i hx
    rw [amErase, spGet_filter m (fun k => decide (k ≠ a)) a]
    simp [hx]
  · induction m with
    | nil => simp [amSet, spGet]
    | cons p t ih =>
      obtain ⟨k, v⟩ := p
      simp only [amSet]
      split
      · simp [spGet]
      · split
        · simp [spGet]
        · rename_i h1 h2
          simp [spGet, Ne.symm h2, ih]

theorem spGet_spSet_ne {w : Nat} (m : Sparse w) {a b : Nat} (x : BitVec w) (h : b ≠ a) : spGet (spSet m a x) b = spGet m b := by
  unfold spSet
  split
  · rw [amErase, spGet_filter m (fun k => decide (k ≠ a)) b]
    simp [h]
  · induction m with
    | nil => simp [amSet, spGet, Ne.symm h]
    | cons p t ih =>
      obtain ⟨k, v⟩ := p
      simp only [amSet]
      split
      · simp [spGet, Ne.symm h]
      · split
        · rename_i e
          subst e
          simp [spGet, Ne.symm h]
        · simp [spGet, ih]

/-! ### The canonical form -/

theorem spWfFrom_mono {w : Nat} (m : Sparse w) (lo hi : Option Nat) (h : spWfFrom hi m = true)
    (le : ∀ a, lo = some a → ∃ b, hi = some b ∧ a ≤ b) : spWfFrom lo m = true := by
  cases m with
  | nil => rfl
  | cons p t =>
    obtain ⟨k, v⟩ := p
    cases lo with
    | none => simp_all [spWfFrom]
    | some a =>
      obtain ⟨b, hb, hab⟩ := le a rfl
      subst hb
      simp only [spWfFrom, Bool.and_eq_true, decide_eq_true_eq] at h ⊢
      exact ⟨⟨by omega, h.1.2⟩, h.2⟩

theorem spWfFrom_filter {w : Nat} (m : Sparse w) (p : Nat × BitVec w → Bool) (lo : Option Nat) (h : spWfFrom lo m = true) :
    spWfFrom lo (m.filter p) = true := by
  induction m generalizing lo with
  | nil => rfl
  | cons q t ih =>
    obtain ⟨k, v⟩ := q
    simp only [spWfFrom, Bool.and_eq_true] at h
    by_cases hp : p (k, v) = true
    · simp only [hp, List.filter_cons_of_pos, spWfFrom, Bool.and_eq_true]
      exact ⟨h.1, ih _ h.2⟩
    · simp only [hp, Bool.false_eq_true, not_false_eq_true, List.filter_cons_of_neg]
      refine ih lo (spWfFrom_mono t lo _ h.2 fun b hb => ⟨k, rfl, ?_⟩)
      subst hb
      exact Nat.le_of_lt (by simpa using h.1.1)

theorem spWfFrom_amSet {w : Nat} (m : Sparse w) (lo : Option Nat) (a : Nat) (x : BitVec w) (hx : x ≠ 0) (h : spWfFrom lo m = true)
    (ha : ∀ b, lo = some b → b < a) : spWfFrom lo (amSet m a x) = true := by
  induction m generalizing lo with
  | nil => cases lo <;> simp_all [spWfFrom, amSet]
  | cons p t ih =>
    obtain ⟨k, v⟩ := p
    simp only [spWfFrom, Bool.and_eq_true] at h
    simp only [amSet]
    split
    · rename_i hlt
      simp only [spWfFrom, Bool.and_eq_true, decide_eq_true_eq]
      refine ⟨⟨?_, hx⟩, ⟨hlt, by simpa using h.1.2⟩, h.2⟩
      cases lo with
      | none => rfl
      | some b => simpa using ha b rfl
    · split
      · rename_i he
        subst he
        simp only [spWfFrom, Bool.and_eq_true, decide_eq_true_eq]
        exact ⟨⟨h.1.1, hx⟩, h.2⟩
      · simp only [spWfFrom, Bool.and_eq_true]
        exact ⟨h.1, ih _ h.2 fun b hb => by simp at hb; omega⟩

/-- Writing one word keeps the canonical form. -/
theorem spWf_spSet {w : Nat} (m : Sparse w) (a : Nat) (x : BitVec w) (h : spWf m = true) : spWf (spSet m a x) = true := by
  unfold spSet
  split
  · exact spWfFrom_filter m _ none h
  · rename_i hx
    exact spWfFrom_amSet m none a x hx h (by simp)

theorem spWf_filter {w : Nat} (m : Sparse w) (p : Nat × BitVec w → Bool) (h : spWf m = true) : spWf (m.filter p) = true :=
  spWfFrom_filter m p none h

/-- Two canonical maps one above the other make a canonical map. -/
theorem spWfFrom_append {w : Nat} (m n : Sparse w) (lo : Option Nat) (hi : Nat) (hm : spWfFrom lo m = true)
    (hn : ∀ b, (∀ e ∈ m, e.1 ≤ b) → (∀ a, lo = some a → a ≤ b) → b ≤ hi → spWfFrom (some b) n = true) (hn0 : lo = none → spWfFrom none n = true)
    (hb : ∀ e ∈ m, e.1 ≤ hi) (hl : ∀ a, lo = some a → a ≤ hi) : spWfFrom lo (m ++ n) = true := by
  induction m generalizing lo with
  | nil =>
    cases lo with
    | none => exact hn0 rfl
    | some a => exact hn a (by simp) (by simp) (hl a rfl)
  | cons p t ih =>
    obtain ⟨k, v⟩ := p
    simp only [spWfFrom, Bool.and_eq_true] at hm
    simp only [List.cons_append, spWfFrom, Bool.and_eq_true]
    refine ⟨hm.1, ih (some k) hm.2 ?_ (by simp) (fun e he => hb e (by simp [he])) (fun a ha => by
      simp only [Option.some.injEq] at ha; subst ha; exact hb (k, v) (by simp))⟩
    intro b h1 h2 h3
    refine hn b ?_ ?_ h3
    · intro e he
      simp only [List.mem_cons] at he
      rcases he with he | he
      · subst he; exact h2 k rfl
      · exact h1 e he
    · intro a ha
      subst ha
      have : a < k := by simpa using hm.1.1
      exact Nat.le_trans (Nat.le_of_lt this) (h2 k rfl)

theorem spWfFrom_runOf {w : Nat} (b : List (BitVec w)) (a : Nat) (lo : Option Nat) (h : ∀ x, lo = some x → x < a) :
    spWfFrom lo (runOf a b) = true := by
  induction b generalizing a lo with
  | nil => rfl
  | cons v t ih =>
    simp only [runOf]
    split
    · exact ih (a + 1) lo fun x hx => Nat.lt_succ_of_lt (h x hx)
    · rename_i hv
      simp only [spWfFrom, Bool.and_eq_true, decide_eq_true_eq]
      refine ⟨⟨?_, hv⟩, ih (a + 1) (some a) (by simp)⟩
      cases lo with
      | none => rfl
      | some x => simpa using h x rfl

theorem mem_runOf {w : Nat} (b : List (BitVec w)) (a : Nat) (e : Nat × BitVec w) (h : e ∈ runOf a b) : a ≤ e.1 ∧ e.1 < a + b.length := by
  induction b generalizing a with
  | nil => simp [runOf] at h
  | cons v t ih =>
    simp only [runOf] at h
    simp only [List.length_cons]
    split at h
    · have := ih (a + 1) h; omega
    · simp only [List.mem_cons] at h
      rcases h with h | h
      · subst h; simp
      · have := ih (a + 1) h; omega

/-- Everything of a canonical map above a bound is canonical above any smaller one. -/
theorem spWfFrom_above {w : Nat} (m : Sparse w) (lo : Option Nat) (b c : Nat) (h : spWfFrom lo m = true) (hc : b < c) :
    spWfFrom (some b) (m.filter fun e => decide (c ≤ e.1)) = true := by
  induction m generalizing lo with
  | nil => rfl
  | cons p t ih =>
    obtain ⟨k, v⟩ := p
    simp only [spWfFrom, Bool.and_eq_true] at h
    by_cases hk : c ≤ k
    · simp only [hk, decide_true, List.filter_cons_of_pos, spWfFrom, Bool.and_eq_true, decide_eq_true_eq]
      refine ⟨⟨by omega, by simpa using h.1.2⟩, ?_⟩
      exact spWfFrom_filter t _ _ h.2
    · simp only [hk, decide_false, Bool.false_eq_true, not_false_eq_true, List.filter_cons_of_neg]
      exact ih _ h.2

/-- Writing a run of words keeps the canonical form. -/
theorem spWf_spWrite {w : Nat} (m : Sparse w) (a : Nat) (b : List (BitVec w)) (h : spWf m = true) : spWf (spWrite m a b) = true := by
  unfold spWf spWrite
  rw [List.append_assoc]
  have tail : ∀ lo : Option Nat, (∀ x, lo = some x → x < a) →
      spWfFrom lo (runOf a b ++ m.filter fun e => decide (a + b.length ≤ e.1)) = true := by
    intro lo hlo
    by_cases hb : b = []
    · subst hb
      simp only [runOf, List.nil_append, List.length_nil, Nat.add_zero]
      cases lo with
      | none => exact spWfFrom_filter m _ none h
      | some x => exact spWfFrom_above m none x a h (hlo x rfl)
    · have len : 0 < b.length := List.length_pos_iff.mpr hb
      refine spWfFrom_append _ _ lo (a + b.length - 1) (spWfFrom_runOf b a lo hlo) ?_ ?_ ?_ ?_
      · intro x _ _ hx
        exact spWfFrom_above m none x _ h (by omega)
      · intro _
        exact spWfFrom_filter m _ none h
      · intro e he
        have := mem_runOf b a e he
        omega
      · intro x hx
        have := hlo x hx
        omega
  by_cases ha : a = 0
  · subst ha
    have none0 : (m.filter fun e => decide (e.1 < 0)) = [] := by simp
    rw [none0, List.nil_append]
    exact tail none (by simp)
  · refine spWfFrom_append _ _ none (a - 1) (spWfFrom_filter m _ none h) ?_ ?_ ?_ (by simp)
    · intro x _ _ hx
      exact tail (some x) (by simp; omega)
    · intro _
      exact tail none (by simp)
    · intro e he
      simp only [List.mem_filter, decide_eq_true_eq] at he
      omega

/-- A canonical memory without a range of addresses is canonical. -/
theorem spWf_foldl_spSet {w : Nat} {α : Type} (l : List α) (k : α → Nat) (v : α → BitVec w) (m : Sparse w) (h : spWf m = true) :
    spWf (l.foldl (fun m e => spSet m (k e) (v e)) m) = true := by
  induction l generalizing m with
  | nil => exact h
  | cons e t ih => exact ih _ (spWf_spSet m _ _ h)

end Sys2Proof.Machine
end

