-- ==== Sys2Proof/Laws/Bytes.lean ====
section
/-! SUPPORT. Bytes and words of memory: byte order, reading what a store wrote, what it leaves, and that every memory operation keeps the
canonical form. -/

namespace Sys2Proof.Machine

/-! ### Byte order (R7) -/

@[simp] theorem toBytes_length (n x : Nat) : (toBytes n x).length = n := by
  induction n generalizing x with
  | zero => rfl
  | succ n ih => simp [toBytes, ih]

theorem ofBytes_toBytes (n x : Nat) : ofBytes (toBytes n x) = x % 256 ^ n := by
  induction n generalizing x with
  | zero => simp [toBytes, ofBytes, Nat.mod_one]
  | succ n ih =>
    simp only [toBytes, ofBytes, ih, BitVec.toNat_ofNat]
    rw [show (256 : Nat) ^ (n + 1) = 256 * 256 ^ n by rw [Nat.pow_succ, Nat.mul_comm], Nat.mod_mul]

theorem ofBytes_lt (b : List Byte) : ofBytes b < 256 ^ b.length := by
  induction b with
  | nil => simp [ofBytes]
  | cons v t ih =>
    simp only [ofBytes, List.length_cons, Nat.pow_succ]
    have := v.isLt
    omega

/-! ### Lanes (R11) -/

theorem mem_lanesOf (m : Word) (i : Nat) : i ∈ lanesOf m ↔ i < 32 ∧ m.getLsbD i = true := by
  simp [lanesOf, List.mem_filter]

theorem nodup_lanesOf (m : Word) : (lanesOf m).Nodup := List.Nodup.filter _ List.nodup_range

/-! ### Stores -/

theorem onChip_add {a : Nat} (h : onChip a = true) (i : Nat) : onChip (a + i) = true := by
  simp only [onChip, decide_eq_true_eq] at h ⊢
  omega

@[simp] theorem onChip_regAddr (k : Nat) (w : Warp) (n : Nat) : onChip (regAddr k w n) = true := by
  have : 2 ^ 40 ≤ regAddr k w n := by unfold regAddr bankAddr; omega
  simpa [onChip] using this

@[simp] theorem onChip_accAddr (cu x : Nat) : onChip (accAddr cu x) = true := by
  have : 2 ^ 40 ≤ accAddr cu x := by unfold accAddr bankAddr; omega
  simpa [onChip] using this

theorem viewAt_chip (s : State) {a : Nat} (h : onChip a = true) : s.viewAt a = none := by simp [State.viewAt, h]

theorem viewHere_chip (s : State) {a : Nat} (h : onChip a = true) : s.viewHere a = none := by
  unfold State.viewHere
  split
  · rfl
  · simp [State.viewOf, h]

/-- A store on chip changes memory and poison only. -/
theorem store_chip (s : State) {a : Nat} (bs : List Byte) (h : onChip a = true) :
    s.store a bs = { s with mem := spWrite s.mem a bs, poison := (s.unpoison a bs.length).poison } := by
  simp [State.store, State.setBytes, State.viewAt, h, State.unpoison]

/-- A byte after a store on chip (R7). -/
theorem byte_store_chip (s : State) {a : Nat} (bs : List Byte) (h : onChip a = true) (x : Nat) :
    (s.store a bs).byte x = if a ≤ x ∧ x < a + bs.length then bs.getD (x - a) 0 else s.byte x := by
  rw [store_chip s bs h]
  have same : ∀ y, ({ s with mem := spWrite s.mem a bs, poison := (s.unpoison a bs.length).poison } : State).storageByte y = s.storageByte y := by
    intro y
    by_cases hy : onChip y = true
    · simp [State.storageByte, hy]
    · have : ¬ (a ≤ y ∧ y < a + bs.length) := by
        simp only [onChip, decide_eq_true_eq] at h hy
        omega
      simp [State.storageByte, hy, spGet_spWrite, this]
  by_cases hx : a ≤ x ∧ x < a + bs.length
  · have hc : onChip x = true := by
      simp only [onChip, decide_eq_true_eq] at h ⊢
      omega
    simp only [State.byte, viewAt_chip _ hc, viewHere_chip _ hc, spGet_spWrite]
  · simp only [State.byte, State.viewByte, same]
    simp only [spGet_spWrite, if_neg hx]
    rfl

/-- A byte after a store to a place that L2 holds no view line of and that is neither in an enabled view nor storage of one. -/
theorem byte_store (s : State) {a : Nat} (bs : List Byte) (x : Nat)
    (h : ∀ i, i < bs.length → s.viewAt (a + i) = none ∧ s.viewHere (a + i) = none) (h0 : s.viewAt a = none)
    (hs : ∀ w o, s.viewHere x = some (w, o) → ¬ (a ≤ w.store + o / 2 ∧ w.store + o / 2 < a + bs.length)) :
    (s.store a bs).byte x = if a ≤ x ∧ x < a + bs.length then bs.getD (x - a) 0 else s.byte x := by
  have eq : ∃ q z, s.store a bs = { s with mem := spWrite s.mem a bs, poison := q, behind := z } := by
    refine ⟨(s.unpoison a bs.length).poison, if onChip a then s.behind else s.keepBehind a, ?_⟩
    simp [State.store, State.setBytes, h0, State.unpoison]
  obtain ⟨q, z, eq⟩ := eq
  have at0 : ∀ y, (s.store a bs).viewAt y = s.viewAt y := by intro y; rw [eq]; rfl
  have here : ∀ y, (s.store a bs).viewHere y = s.viewHere y := by intro y; rw [eq]; rfl
  simp only [State.byte, at0, here]
  by_cases hx : a ≤ x ∧ x < a + bs.length
  · have := h (x - a) (by omega)
    rw [Nat.add_sub_cancel' hx.1] at this
    simp only [this.1, this.2, eq, spGet_spWrite, hx, and_self, ite_true]
  · rw [if_neg hx]
    split
    · rfl
    · next w o _ hw =>
      simp only [State.viewByte, State.storageByte, eq, spGet_spWrite, if_neg (hs w o hw)]
    · simp only [eq, spGet_spWrite, if_neg hx]

theorem bytes_eq (s t : State) (a n : Nat) (h : ∀ i, i < n → s.byte (a + i) = t.byte (a + i)) : s.bytes a n = t.bytes a n := by
  simp only [State.bytes]
  apply List.map_congr_left
  intro i hi
  exact h i (List.mem_range.mp hi)

theorem word_eq (s t : State) (a : Nat) (h : ∀ x, a ≤ x → x < a + 4 → s.byte x = t.byte x) : s.word a = t.word a := by
  simp only [State.word, State.num]
  rw [bytes_eq s t a 4 fun i hi => h _ (by omega) (by omega)]

theorem bytes_of_getD (s : State) (a : Nat) (bs : List Byte) (h : ∀ i, i < bs.length → s.byte (a + i) = bs.getD i 0) :
    s.bytes a bs.length = bs := by
  apply List.ext_getElem
  · simp [State.bytes]
  · intro i h1 h2
    simp only [State.bytes, List.getElem_map, List.getElem_range]
    rw [h i h2]
    simp [h2]

/-- The bytes of a store on chip read back. -/
theorem bytes_store_chip (s : State) {a : Nat} (bs : List Byte) (h : onChip a = true) : (s.store a bs).bytes a bs.length = bs := by
  apply bytes_of_getD
  intro i hi
  rw [byte_store_chip s bs h, if_pos (by omega), Nat.add_sub_cancel_left]

theorem word_store_chip (s : State) {a : Nat} (v : Word) (h : onChip a = true) : (s.store a (toBytes 4 v.toNat)).word a = v := by
  have := bytes_store_chip s (toBytes 4 v.toNat) h
  rw [toBytes_length] at this
  simp only [State.word, State.num, this, ofBytes_toBytes]
  apply BitVec.eq_of_toNat_eq
  have := v.isLt
  simp only [BitVec.toNat_ofNat]
  norm_num at this ⊢
  omega

/-! ### Registers (R89, R184) -/

@[simp] theorem noteBytes_byte (s : State) (u : Nat) (p : Bool) (a n x : Nat) : (s.noteBytes u p a n).byte x = s.byte x := rfl

theorem storeLane_chip (s : State) (u : Nat) (p : Bool) {a : Nat} (v : Word) (h : onChip a = true) (x : Nat) :
    (s.storeLane u p a v).byte x = if a ≤ x ∧ x < a + 4 then (toBytes 4 v.toNat).getD (x - a) 0 else s.byte x := by
  simp only [State.storeLane]
  rw [byte_store_chip _ _ h, toBytes_length]
  rfl

/-- A lane write changes memory, poison and the undo list only. -/
theorem storeLane_rest (s : State) (u : Nat) (p : Bool) {a : Nat} (v : Word) (h : onChip a = true) :
    ∃ m q n, s.storeLane u p a v = { s with mem := m, poison := q, undo := n } := by
  simp only [State.storeLane]
  rw [store_chip _ _ h]
  exact ⟨_, _, _, rfl⟩

theorem storeLane_word (s : State) (u : Nat) (p : Bool) {a : Nat} (v : Word) (h : onChip a = true) : (s.storeLane u p a v).word a = v := by
  simp only [State.storeLane]
  exact word_store_chip _ v h

/-- A register write changes memory, poison and the undo list only. -/
theorem storeLanes_rest (l : List Nat) (s : State) (u : Nat) (p : Bool) {a : Nat} (f : Nat → Word) (h : onChip a = true) :
    ∃ m q n, l.foldl (fun s i => s.storeLane u p (a + 4 * i) (f i)) s = { s with mem := m, poison := q, undo := n } := by
  induction l generalizing s with
  | nil => exact ⟨_, _, _, rfl⟩
  | cons i t ih =>
    obtain ⟨m, q, n, e⟩ := storeLane_rest s u p (f i) (onChip_add h (4 * i))
    simp only [List.foldl_cons, e]
    obtain ⟨m', q', n', e'⟩ := ih { s with mem := m, poison := q, undo := n }
    exact ⟨m', q', n', e'⟩

theorem storeLanes_other (l : List Nat) (s : State) (u : Nat) (p : Bool) {a : Nat} (f : Nat → Word) (h : onChip a = true) (x : Nat)
    (hx : ∀ i ∈ l, ¬ (a + 4 * i ≤ x ∧ x < a + 4 * i + 4)) : (l.foldl (fun s i => s.storeLane u p (a + 4 * i) (f i)) s).byte x = s.byte x := by
  induction l generalizing s with
  | nil => rfl
  | cons i t ih =>
    simp only [List.foldl_cons]
    rw [ih _ fun j hj => hx j (by simp [hj]), storeLane_chip _ _ _ _ (onChip_add h _), if_neg (hx i (by simp))]

theorem storeLanes_word (l : List Nat) (s : State) (u : Nat) (p : Bool) {a : Nat} (f : Nat → Word) (h : onChip a = true) (i : Nat)
    (hn : l.Nodup) (hi : i ∈ l) : (l.foldl (fun s i => s.storeLane u p (a + 4 * i) (f i)) s).word (a + 4 * i) = f i := by
  induction l generalizing s with
  | nil => simp at hi
  | cons j t ih =>
    simp only [List.foldl_cons]
    rw [List.nodup_cons] at hn
    by_cases hj : i ∈ t
    · exact ih _ hn.2 hj
    · have : i = j := by simpa [hj] using hi
      subst this
      refine Eq.trans (word_eq _ (s.storeLane u p (a + 4 * i) (f i)) _ ?_) (storeLane_word s u p (f i) (onChip_add h (4 * i)))
      intro x h1 h2
      apply storeLanes_other _ _ _ _ _ h
      intro k hk
      have : k ≠ i := fun e => hn.1 (e ▸ hk)
      omega

/-- A register write changes memory, poison and the undo list only. -/
theorem storeReg_rest (s : State) (u : Nat) (p : Bool) {a : Nat} (m : Word) (f : Nat → Word) (h : onChip a = true) :
    ∃ b q n, s.storeReg u p a m f = { s with mem := b, poison := q, undo := n } := storeLanes_rest _ s u p f h

/-- An active lane of a written register. -/
theorem storeReg_active (s : State) (u : Nat) (p : Bool) {a : Nat} (m : Word) (f : Nat → Word) (h : onChip a = true) {i : Nat} (hi : i < 32)
    (hm : m.getLsbD i = true) : (s.storeReg u p a m f).word (a + 4 * i) = f i :=
  storeLanes_word _ s u p f h i (nodup_lanesOf m) ((mem_lanesOf m i).mpr ⟨hi, hm⟩)

/-- What a register write leaves: every byte outside its active lanes. -/
theorem storeReg_other (s : State) (u : Nat) (p : Bool) {a : Nat} (m : Word) (f : Nat → Word) (h : onChip a = true) (x : Nat)
    (hx : ∀ i < 32, m.getLsbD i = true → ¬ (a + 4 * i ≤ x ∧ x < a + 4 * i + 4)) : (s.storeReg u p a m f).byte x = s.byte x :=
  storeLanes_other _ s u p f h x fun i hi => hx i ((mem_lanesOf m i).mp hi).1 ((mem_lanesOf m i).mp hi).2

/-! ### The canonical form (every memory operation keeps it) -/

theorem memOk_setBytes {s : State} (h : MemOk s) (a : Nat) (bs : List Byte) : MemOk (s.setBytes a bs) := by
  simp only [State.setBytes]
  split
  · exact h
  · exact spWf_spWrite _ _ _ h

theorem memOk_store {s : State} (h : MemOk s) (a : Nat) (bs : List Byte) : MemOk (s.store a bs) := memOk_setBytes h a bs

theorem memOk_zero {s : State} (h : MemOk s) (a n : Nat) : MemOk (s.zero a n) := spWf_filter _ _ h

theorem memOk_storeLane {s : State} (h : MemOk s) (u : Nat) (p : Bool) (a : Nat) (v : Word) : MemOk (s.storeLane u p a v) :=
  memOk_store (s := s.noteBytes u p a 4) h a _

theorem memOk_storeReg {s : State} (h : MemOk s) (u : Nat) (p : Bool) (a : Nat) (m : Word) (f : Nat → Word) : MemOk (s.storeReg u p a m f) := by
  simp only [State.storeReg]
  generalize lanesOf m = l
  induction l generalizing s with
  | nil => exact h
  | cons i t ih => exact ih (memOk_storeLane h u p _ _)

theorem memOk_reset : MemOk State.reset := rfl

end Sys2Proof.Machine
end

