-- ==== Sys2Proof/Laws/Issue.lean ====
section
/-! SUPPORT. What a group at issue is, and what the shared operations that end its effect leave: the results of lane instructions, of
predicates and of k registers, and the move past the group. -/

namespace Sys2Proof.Machine

/-! ### The group at issue -/

/-- Everything that issOf finds. -/
theorem issOf_some {i : Instr} {s : State} {x : Iss} (h : issOf i s = some x) :
    s.cur = some { warp := x.k, entry := x.e } ∧ amGet s.warps x.k = some x.w ∧ x.st = x.w.strand x.e ∧ x.st.live = true ∧
      x.g = i.pfx ∧ x.info = i.info ∧ x.len = i.len ∧ x.parcel = i.word ∧ x.mask = x.st.mask &&& guardMask x.w x.st.fibre i.pfx ∧
      x.tn = x.w.team ∧ amGet s.teams x.tn = some x.team ∧ x.gn = x.team.grid ∧ amGet s.grids x.gn = some x.grid ∧
      x.cn = x.grid.ctx ∧ amGet s.ctxs x.cn = some x.ctx := by
  unfold issOf at h
  split at h
  · cases h
  · rename_i c hc
    split at h
    · cases h
    · rename_i w hw
      split at h
      · cases h
      · rename_i t ht
        split at h
        · cases h
        · rename_i gr hg
          split at h
          · cases h
          · rename_i cx hx
            simp only at h
            split at h
            · rename_i hl
              cases h
              exact ⟨hc, hw, rfl, hl, rfl, rfl, rfl, rfl, rfl, rfl, ht, rfl, hg, rfl, hx⟩
            · cases h

theorem entry_lt {i : Instr} {s : State} {x : Iss} (h : issOf i s = some x) : x.e < x.w.table.length := by
  have h' := issOf_some h
  by_contra hn
  have hd : x.w.strand x.e = {} := by
    simp only [Warp.strand]
    exact List.getD_eq_default _ _ (Nat.le_of_not_lt hn)
  rw [hd] at h'
  have := h'.2.2.2.1
  rw [h'.2.2.1] at this
  simp [Strand.live] at this

@[simp] theorem strand_set (w : Warp) {e : Nat} (st : Strand) (h : e < w.table.length) : (w.setStrand e st).strand e = st := by
  simp [Warp.setStrand, Warp.strand, h]

/-- The warps after the strand of a group is changed. -/
theorem modStrand_at {i : Instr} {s : State} {x : Iss} (h : issOf i s = some x) (f : Strand → Strand) :
    s.modStrand x.k x.e f = { s with warps := amSet s.warps x.k { x.w with table := x.w.table.set x.e (f x.st) } } := by
  have h' := issOf_some h
  simp only [State.modStrand, State.modWarp]
  rw [amMod_of_get _ h'.2.1]
  simp only [Warp.modStrand, Warp.setStrand, ← h'.2.2.1]

/-! ### The shared head (R332, R333) -/

/-- A group that passes has its effect. -/
theorem issue_passes {i : Instr} {s : State} {x : Iss} (h : AtIssue i s x) (f : Iss → State → State) : issue i s f = .next (f x s) := by
  have hm := h.lanes
  simp only [issue, h.group, h.checks]
  rw [if_neg (fun c => hm c.1)]

theorem issueP_passes {i : Instr} {s : State} {x : Iss} (h : Passes i s x) (f : Iss → State → State) : issueP i s f = .next (f x s) := by
  simp only [issueP]
  rw [issue_passes h.toAtIssue]
  simp [h.clean]

/-- A group that fails a shared check is stopped by it. -/
theorem issue_fails {i : Instr} {s t : State} {x : Iss} (h : issOf i s = some x) (c : x.check s = some t) (f : Iss → State → State) :
    issue i s f = .next t := by
  simp [issue, h, c]

/-- A group with no active lane and no vector destination only moves on (R333). -/
theorem issue_empty {i : Instr} {s : State} {x : Iss} (h : issOf i s = some x) (c : x.check s = none) (m : x.mask = 0) (d : x.info.dst = none)
    (f : Iss → State → State) : issue i s f = .next (x.skip s) := by
  simp [issue, h, c, m, d]

/-! ### Moving past the group (R182) -/

theorem advance_on {i : Instr} {s : State} {x : Iss} (h : issOf i s = some x) : MovedTo x s (x.advance s) x.next := by
  simp only [MovedTo, Iss.advance]
  rw [modStrand_at h]
  rfl

/-- Moving past the group after its strand and scoreboard have been changed. -/
theorem advance_after (x : Iss) (s : State) (st : Strand) (w : Warp) (hw : amGet s.warps x.k = some w) (hs : w.strand x.e = st) :
    x.advance s = { s with warps := amSet s.warps x.k { w with
      table := w.table.set x.e ({ st with pc := x.next, fence := st.fence.map fun fw => { fw with issued := fw.issued + 1 } }) }, cur := none } := by
  simp only [Iss.advance, State.modStrand, State.modWarp]
  rw [amMod_of_get _ hw]
  simp only [Warp.modStrand, Warp.setStrand, hs]

/-! ### Pushes (R92) -/

theorem spGet_push (l : List Nat) (f : Nat → Word) (m : Sparse 32) (i : Nat) :
    spGet (l.foldl (fun m i => spSet m i (f i)) m) i = if i ∈ l then f i else spGet m i := by
  induction l generalizing m with
  | nil => simp
  | cons j t ih =>
    simp only [List.foldl_cons]
    rw [ih]
    by_cases hi : i ∈ t
    · simp [hi]
    · simp only [hi, ite_false, List.mem_cons, or_false]
      by_cases hj : i = j
      · subst hj
        simp
      · simp [hj, spGet_spSet_ne m (f j) hj]

/-- The latch that a push makes. -/
def newLatch (mask : Word) (f : Nat → Word) (ready : Nat) : Latch :=
  { valid := true, data := (lanesOf mask).foldl (fun m i => spSet m i (f i)) [], ready := ready, load := none }

theorem push_latches (st : Strand) (mask : Word) (f : Nat → Word) (ready : Nat) :
    st.push mask f ready none = { st with latches := newLatch mask f ready :: st.latches.take 3 } := rfl

theorem newLatch_pushed (x : Iss) (f : Nat → Word) (ready : Nat) : Pushed x f ready (newLatch x.mask f ready) := by
  refine ⟨rfl, rfl, rfl, ?_⟩
  intro i hi
  simp only [newLatch]
  rw [spGet_push]
  simp [mem_lanesOf, hi, spGet]

/-! ### The results of lane instructions (R184) -/

/-- The scoreboard entry of a result, and the move past the group, on a state whose strand has been pushed. -/
theorem finish_issued {i : Instr} {s : State} {x : Iss} (h : issOf i s = some x) (lat : Nat) (p : Pipe) (st : Strand) (m : List Host.Cell)
    (q : AMap Nat) (u : List (Nat × Undo)) :
    x.advance (({ s with
        mem := m, poison := q, undo := u
        warps := amSet s.warps x.k { x.w with table := x.w.table.set x.e st } } : State).pipeFor x.k lat p) =
      { s with
        mem := m, poison := q, undo := u
        warps := amSet s.warps x.k { x.w with
          table := x.w.table.set x.e ({ st with pc := x.next, fence := st.fence.map fun fw => { fw with issued := fw.issued + 1 } })
          pipe := amSet x.w.pipe s.nextId p }
        agenda := insAgenda s.agenda { due := s.clock + lat, prio := prioResult, ev := .pipelineResult x.k s.nextId }
        nextId := s.nextId + 1, cur := none } := by
  have hl := entry_lt h
  simp only [State.pipeFor, State.addPipe, State.modWarp, State.after, State.bump, Iss.advance, State.modStrand, amMod_amSet, Warp.modStrand,
    Warp.setStrand, Warp.strand]
  congr 2
  simp [hl]

/-- The scoreboard entry of a 32-bit result. -/
def Iss.pipeOf (x : Iss) (d : Nat) (n : Bool) (flags : Flags) : Pipe :=
  { res := if n then [] else if d < 120 then x.resOf d else [], fibre := x.st.fibre, uid := x.st.uid, flags := flags, mayFlag := x.info.flags }

/-- The end of a 32-bit result on a state whose memory has been written. -/
theorem result_tail {i : Instr} {s : State} {x : Iss} (h : issOf i s = some x) (lat lb : Nat) (f : Nat → Word) (p : Pipe)
    (m : List Host.Cell) (q : AMap Nat) (u : List (Nat × Undo)) :
    x.Issued s (x.advance ((({ s with mem := m, poison := q, undo := u } : State).modStrand x.k x.e fun st =>
      st.push x.mask f (s.clock + lb) none).pipeFor x.k lat p)) (x.past (newLatch x.mask f (s.clock + lb) :: x.st.latches.take 3)) lat p := by
  have hu : issOf i { s with mem := m, poison := q, undo := u } = some x := h
  rw [modStrand_at hu, push_latches]
  exact ⟨m, q, u, finish_issued h lat p _ m q u⟩

/-- What the result of a 32-bit lane instruction leaves. -/
theorem result_spec {i : Instr} {s : State} {x : Iss} (h : issOf i s = some x) (d : Nat) (n : Bool) (lat lb : Nat) (flags : Flags)
    (f : Nat → Word) : LaneResult x s (x.result s d n lat lb flags f) d n lat lb flags f := by
  have hp : (x.pipeOf d n flags).res = (if n = true ∨ 120 ≤ d then [] else x.resOf d) := by
    by_cases hn : n = true
    · simp [Iss.pipeOf, hn]
    · by_cases hd : d < 120
      · simp [Iss.pipeOf, hn, hd, Nat.not_le.mpr hd]
      · simp [Iss.pipeOf, hn, hd, Nat.le_of_not_lt hd]
  have fin : ∀ m q u, x.result s d n lat lb flags f = x.advance ((({ s with mem := m, poison := q, undo := u } : State).modStrand x.k x.e
        fun st => st.push x.mask f (s.clock + lb) none).pipeFor x.k lat (x.pipeOf d n flags)) →
      (∀ a, (x.result s d n lat lb flags f).byte a = ({ s with mem := m, poison := q, undo := u } : State).byte a) ∧
      ∃ l p, Pushed x f (s.clock + lb) l ∧ p.flags = flags ∧ p.fibre = x.st.fibre ∧ p.uid = x.st.uid ∧
        p.res = (if n = true ∨ 120 ≤ d then [] else x.resOf d) ∧
        x.Issued s (x.result s d n lat lb flags f) (x.past (l :: x.st.latches.take 3)) lat p := by
    intro m q u e
    have hu : issOf i { s with mem := m, poison := q, undo := u } = some x := h
    constructor
    · intro a
      rw [e, modStrand_at hu, push_latches]
      have := finish_issued h lat (x.pipeOf d n flags) ({ x.st with latches := newLatch x.mask f (s.clock + lb) :: x.st.latches.take 3 }) m q u
      simp only at this ⊢
      rw [this]
      rfl
    · refine ⟨newLatch x.mask f (s.clock + lb), x.pipeOf d n flags, newLatch_pushed x f _, rfl, rfl, rfl, hp, ?_⟩
      rw [e]
      exact result_tail h lat lb f _ m q u
  by_cases hw : d < 120 ∧ n = false
  · obtain ⟨hd, hn⟩ := hw
    cases hr : x.w.reg x.st.fibre d with
    | ok r =>
      have hc := onChip_regAddr x.k x.w r
      obtain ⟨m, q, u, e⟩ := storeReg_rest s x.st.uid x.st.spec x.mask f hc
      obtain ⟨bytes, issued⟩ := fin m q u (by rw [← e]; simp [Iss.result, Iss.pipeOf, hd, hn, hr, e])
      rw [← e] at bytes
      refine ⟨?_, ?_, issued⟩
      · intro _ r' _ hr' l hl
        rw [hr] at hr'
        cases hr'
        rw [word_eq _ _ _ fun y _ _ => bytes y]
        split
        · rename_i ha
          exact storeReg_active s _ _ _ f hc hl ha
        · rename_i ha
          apply word_eq
          intro y h1 h2
          apply storeReg_other s _ _ _ f hc
          intro j hj ja
          have : j ≠ l := fun e => ha (e ▸ ja)
          omega
      · intro a ha
        rw [bytes]
        apply storeReg_other s _ _ _ f hc
        intro j hj ja hx
        exact ha ⟨hn, r, j, hd, hr, hj, ja, hx.1, hx.2⟩
    | bad c =>
      obtain ⟨bytes, issued⟩ := fin s.mem s.poison s.undo (by simp [Iss.result, Iss.pipeOf, hd, hn, hr])
      refine ⟨?_, fun a _ => bytes a, issued⟩
      intro _ r _ hr'
      rw [hr] at hr'
      cases hr'
  · obtain ⟨bytes, issued⟩ := fin s.mem s.poison s.undo (by
      have : (decide (d < 120) && !n) = false := by
        by_cases hd : d < 120 <;> cases n <;> simp_all
      simp [Iss.result, Iss.pipeOf, this])
    refine ⟨?_, fun a _ => bytes a, issued⟩
    intro hn r hd
    exact absurd ⟨hd, hn⟩ hw

/-- The end of a 64-bit result on a state whose memory has been written. -/
theorem result64_tail {i : Instr} {s : State} {x : Iss} (h : issOf i s = some x) (lat lb : Nat) (f g : Nat → Word) (p : Pipe)
    (m : List Host.Cell) (q : AMap Nat) (u : List (Nat × Undo)) :
    x.advance ((({ s with mem := m, poison := q, undo := u } : State).modStrand x.k x.e fun st =>
      (st.push x.mask g (s.clock + lb) none).push x.mask f (s.clock + lb) none).pipeFor x.k lat p) =
      { s with
        mem := m, poison := q, undo := u
        warps := amSet s.warps x.k { x.w with
          table := x.w.table.set x.e
            (x.past (newLatch x.mask f (s.clock + lb) :: newLatch x.mask g (s.clock + lb) :: x.st.latches.take 2))
          pipe := amSet x.w.pipe s.nextId p }
        agenda := insAgenda s.agenda { due := s.clock + lat, prio := prioResult, ev := .pipelineResult x.k s.nextId }
        nextId := s.nextId + 1, cur := none } := by
  have hu : issOf i { s with mem := m, poison := q, undo := u } = some x := h
  rw [modStrand_at hu, push_latches, push_latches]
  have := finish_issued h lat p ({ x.st with
    latches := newLatch x.mask f (s.clock + lb) :: (newLatch x.mask g (s.clock + lb) :: x.st.latches.take 3).take 3 }) m q u
  simp only at this ⊢
  rw [this]
  simp [Iss.past, List.take_take]

/-- Two registers written one after the other, when they are distinct. -/
theorem storeReg_two (s : State) (u : Nat) (p : Bool) {a b : Nat} (m : Word) (f g : Nat → Word) (ha : onChip a = true) (hb : onChip b = true)
    (ab : a + 128 ≤ b ∨ b + 128 ≤ a) :
    (∀ i < 32, ((s.storeReg u p a m f).storeReg u p b m g).word (a + 4 * i) = if m.getLsbD i then f i else s.word (a + 4 * i)) ∧
      (∀ i < 32, ((s.storeReg u p a m f).storeReg u p b m g).word (b + 4 * i) = if m.getLsbD i then g i else s.word (b + 4 * i)) ∧
      ∀ x, (∀ i < 32, m.getLsbD i = true → ¬ (a + 4 * i ≤ x ∧ x < a + 4 * i + 4) ∧ ¬ (b + 4 * i ≤ x ∧ x < b + 4 * i + 4)) →
        ((s.storeReg u p a m f).storeReg u p b m g).byte x = s.byte x := by
  have second : ∀ x, (∀ i < 32, m.getLsbD i = true → ¬ (b + 4 * i ≤ x ∧ x < b + 4 * i + 4)) →
      ((s.storeReg u p a m f).storeReg u p b m g).byte x = (s.storeReg u p a m f).byte x :=
    fun x hx => storeReg_other _ _ _ _ _ hb x hx
  have one : ∀ (c : Nat) (h : Nat → Word) (t : State), onChip c = true → ∀ i < 32,
      (t.storeReg u p c m h).word (c + 4 * i) = if m.getLsbD i then h i else t.word (c + 4 * i) := by
    intro c h t hc i hi
    split
    · rename_i hm
      exact storeReg_active t u p m h hc hi hm
    · rename_i hm
      apply word_eq
      intro y h1 h2
      apply storeReg_other t u p m h hc
      intro j hj ja
      have : j ≠ i := fun e => hm (e ▸ ja)
      omega
  refine ⟨?_, ?_, ?_⟩
  · intro i hi
    rw [← one a f s ha i hi]
    apply word_eq
    intro y h1 h2
    apply second
    intro j hj _
    omega
  · intro i hi
    rw [one b g _ hb i hi]
    split
    · rfl
    · apply word_eq
      intro y h1 h2
      apply storeReg_other s u p m f ha
      intro j hj _
      omega
  · intro x hx
    rw [second x fun i hi hm => (hx i hi hm).2]
    exact storeReg_other s u p m f ha x fun i hi hm => (hx i hi hm).1

/-- The odd neighbour of an even register lies behind it in the block (R89, R90). -/
theorem reg_pair (w : Warp) (f d r : Nat) (hd : d % 2 = 0) (h : w.reg f d = .ok r) : w.reg f (d + 1) = .ok (r + 1) := by
  have h1 : (d + 1) / 8 = d / 8 := by omega
  have h2 : (d + 1) % 8 = d % 8 + 1 := by omega
  unfold Warp.reg at h ⊢
  rw [h1, h2]
  simp only at h ⊢
  split at h
  · cases h
  · split at h
    · cases h
    · rename_i a b
      rw [if_neg a, if_neg b]
      cases h
      rfl

theorem reg_pair_bad (w : Warp) (f d c : Nat) (hd : d % 2 = 0) (h : w.reg f d = .bad c) : w.reg f (d + 1) = .bad c := by
  have h1 : (d + 1) / 8 = d / 8 := by omega
  unfold Warp.reg at h ⊢
  rw [h1]
  simp only at h ⊢
  split at h
  · rename_i a
    rw [if_pos a]
    exact h
  · split at h
    · rename_i a b
      rw [if_neg a, if_pos b]
      exact h
    · cases h

theorem regAddr_next (k : Nat) (w : Warp) (r : Nat) : regAddr k w (r + 1) = regAddr k w r + 128 := by
  unfold regAddr bankAddr
  omega

/-- What the result of a 64-bit lane instruction leaves. -/
theorem result64_spec {i : Instr} {s : State} {x : Iss} (h : issOf i s = some x) (d : Nat) (n : Bool) (lat lb : Nat) (flags : Flags)
    (f : Nat → DWord) (hd2 : d % 2 = 0) : LaneResult64 x s (x.result64 s d n lat lb flags f) d n lat lb flags f := by
  let lo (i : Nat) : Word := (f i).setWidth 32
  let hi (i : Nat) : Word := (f i >>> 32).setWidth 32
  let p : Pipe :=
    { res := if n then [] else if d < 120 then x.resOf d ++ x.resOf (d + 1) else []
      fibre := x.st.fibre
      uid := x.st.uid
      flags := flags
      mayFlag := x.info.flags }
  have fin : ∀ m q u, x.result64 s d n lat lb flags f = x.advance ((({ s with mem := m, poison := q, undo := u } : State).modStrand x.k x.e
        fun st => (st.push x.mask hi (s.clock + lb) none).push x.mask lo (s.clock + lb) none).pipeFor x.k lat p) →
      (∀ a, (x.result64 s d n lat lb flags f).byte a = ({ s with mem := m, poison := q, undo := u } : State).byte a) ∧
      ∃ l h p, Pushed x lo (s.clock + lb) l ∧ Pushed x hi (s.clock + lb) h ∧ p.flags = flags ∧ p.fibre = x.st.fibre ∧ p.uid = x.st.uid ∧
        x.Issued s (x.result64 s d n lat lb flags f) (x.past (l :: h :: x.st.latches.take 2)) lat p := by
    intro m q u e
    have tail := result64_tail h lat lb lo hi p m q u
    simp only at tail e
    constructor
    · intro a
      rw [e, tail]
      rfl
    · exact ⟨_, _, p, newLatch_pushed x lo _, newLatch_pushed x hi _, rfl, rfl, rfl, m, q, u, by rw [e, tail]⟩
  by_cases hw : d < 120 ∧ n = false
  · obtain ⟨hd, hn⟩ := hw
    have cond : (decide (d < 120) && !n) = true := by simp [hd, hn]
    cases hr : x.w.reg x.st.fibre d with
    | ok r =>
      have hr1 := reg_pair _ _ _ _ hd2 hr
      have hc := onChip_regAddr x.k x.w r
      have hc1 := onChip_regAddr x.k x.w (r + 1)
      obtain ⟨m, q, u, e⟩ := storeReg_rest s x.st.uid x.st.spec x.mask lo hc
      obtain ⟨m1, q1, u1, e1⟩ := storeReg_rest (s.storeReg x.st.uid x.st.spec (regAddr x.k x.w r) x.mask lo) x.st.uid x.st.spec x.mask hi hc1
      have e2 : (s.storeReg x.st.uid x.st.spec (regAddr x.k x.w r) x.mask lo).storeReg x.st.uid x.st.spec (regAddr x.k x.w (r + 1)) x.mask hi =
          { s with mem := m1, poison := q1, undo := u1 } := by rw [e1, e]
      obtain ⟨bytes, issued⟩ := fin m1 q1 u1 (by
        rw [← e2]
        simp only [Iss.result64, hr, hr1, cond, ite_true]
        rw [e2])
      rw [← e2] at bytes
      have two := storeReg_two s x.st.uid x.st.spec x.mask lo hi hc hc1 (by rw [regAddr_next]; omega)
      refine ⟨?_, ?_, ?_, issued⟩
      · intro _ r' _ hr' l hl
        rw [hr] at hr'
        cases hr'
        rw [word_eq _ _ _ fun y _ _ => bytes y]
        exact two.1 l hl
      · intro _ _ r' _ hr' l hl
        rw [hr1] at hr'
        cases hr'
        rw [word_eq _ _ _ fun y _ _ => bytes y]
        exact two.2.1 l hl
      · intro a ha
        rw [bytes]
        apply two.2.2
        intro j hj ja
        constructor
        · intro hx
          exact ha ⟨hn, hd, Or.inl ⟨r, j, hd, hr, hj, ja, hx.1, hx.2⟩⟩
        · intro hx
          exact ha ⟨hn, hd, Or.inr ⟨r + 1, j, by omega, hr1, hj, ja, hx.1, hx.2⟩⟩
    | bad c =>
      have hr1 := reg_pair_bad _ _ _ _ hd2 hr
      obtain ⟨bytes, issued⟩ := fin s.mem s.poison s.undo (by
        simp only [Iss.result64, hr, cond, ite_true]
        rfl)
      refine ⟨?_, ?_, fun a _ => bytes a, issued⟩
      · intro _ r _ hr'
        rw [hr] at hr'
        cases hr'
      · intro _ _ r _ hr'
        rw [hr1] at hr'
        cases hr'
  · have no : (decide (d < 120) && !n) = false := by
      by_cases hd : d < 120 <;> cases n <;> simp_all
    obtain ⟨bytes, issued⟩ := fin s.mem s.poison s.undo (by
      simp only [Iss.result64, no, Bool.false_eq_true, ite_false]
      rfl)
    refine ⟨?_, ?_, fun a _ => bytes a, issued⟩
    · intro hn r hd
      exact absurd ⟨hd, hn⟩ hw
    · intro hn hd
      exact absurd ⟨hd, hn⟩ hw

/-! ### Predicates and k registers (R94, R197, R203) -/

theorem getLsbD_foldl_or (l : List Nat) (a : Word) (i : Nat) (hi : i < 32) :
    (l.foldl (fun m j => m ||| BitVec.ofNat 32 (2 ^ j)) a).getLsbD i = (a.getLsbD i || decide (i ∈ l)) := by
  induction l generalizing a with
  | nil => simp
  | cons j t ih =>
    simp only [List.foldl_cons]
    rw [ih, BitVec.getLsbD_or, BitVec.getLsbD_ofNat, Nat.testBit_two_pow]
    by_cases h : i = j
    · subst h; simp [hi]
    · simp [h, Ne.symm h, hi]

theorem getLsbD_maskOf (l : List Nat) (i : Nat) (hi : i < 32) : (maskOf l).getLsbD i = decide (i ∈ l) := by
  simp only [maskOf]
  rw [getLsbD_foldl_or _ _ _ hi]
  simp

/-- The lanes that a predicate result writes. -/
theorem predLanes (mask old : Word) (f : Nat → Bool) (i : Nat) (hi : i < 32) :
    ((old &&& ~~~mask) ||| maskOf ((lanesOf mask).filter f)).getLsbD i = if mask.getLsbD i then f i else old.getLsbD i := by
  rw [BitVec.getLsbD_or, BitVec.getLsbD_and, BitVec.getLsbD_not, getLsbD_maskOf _ _ hi]
  simp only [List.mem_filter, mem_lanesOf, hi, true_and, decide_true, Bool.true_and]
  cases h : mask.getLsbD i <;> simp

/-- The scoreboard entry of a result that no latch takes, on a state whose warp has been changed. -/
theorem finish_warp {i : Instr} {s : State} {x : Iss} (h : issOf i s = some x) (lat : Nat) (p : Pipe) (w : Warp) (u : List (Nat × Undo))
    (hs : w.table = x.w.table) (hp : w.pipe = x.w.pipe) :
    x.advance (({ s with undo := u, warps := amSet s.warps x.k w } : State).pipeFor x.k lat p) =
      { s with
        undo := u
        warps := amSet s.warps x.k { w with table := x.w.table.set x.e x.on, pipe := amSet x.w.pipe s.nextId p }
        agenda := insAgenda s.agenda { due := s.clock + lat, prio := prioResult, ev := .pipelineResult x.k s.nextId }
        nextId := s.nextId + 1, cur := none } := by
  have h' := issOf_some h
  simp only [State.pipeFor, State.addPipe, State.modWarp, State.after, State.bump, Iss.advance, State.modStrand, amMod_amSet, Warp.modStrand,
    Warp.setStrand, Warp.strand, hs, hp]
  have e : x.w.table.getD x.e {} = x.st := h'.2.2.1.symm
  rw [e]
  rfl

/-- What the result of an instruction that writes a predicate leaves. -/
theorem predResult_spec {i : Instr} {s : State} {x : Iss} (h : issOf i s = some x) (p : Nat) (f : Nat → Bool) :
    PredResult x s (x.predResult s p f) p f := by
  have h' := issOf_some h
  let on := maskOf ((lanesOf x.mask).filter f)
  let old := x.w.pred x.st.fibre p
  let v := spSet (x.w.fibre x.st.fibre).preds p ((old &&& ~~~ x.mask) ||| on)
  let z := if x.mask = BitVec.allOnes 32 then amErase (x.w.fibre x.st.fibre).predPoison p else (x.w.fibre x.st.fibre).predPoison
  let w : Warp := { x.w with fibres := x.w.fibres.set x.st.fibre { x.w.fibre x.st.fibre with preds := v, predPoison := z } }
  have e : ∃ u, x.predResult s p f =
      x.advance (({ s with undo := u, warps := amSet s.warps x.k w } : State).pipeFor x.k 2
        { res := [.pred x.st.fibre p], fibre := x.st.fibre, uid := x.st.uid }) := by
    by_cases hs : x.st.spec = true
    · refine ⟨(x.st.uid, .pred x.k x.st.fibre p x.mask old (amGet (x.w.fibre x.st.fibre).predPoison p)) :: s.undo, ?_⟩
      simp only [Iss.predResult, hs, ite_true, State.modWarp]
      rw [amMod_of_get _ h'.2.1]
      rfl
    · refine ⟨s.undo, ?_⟩
      simp only [Iss.predResult, hs, Bool.false_eq_true, ite_false, State.modWarp]
      rw [amMod_of_get _ h'.2.1]
      rfl
  obtain ⟨u, e⟩ := e
  have fin := finish_warp h 2 { res := [.pred x.st.fibre p], fibre := x.st.fibre, uid := x.st.uid } w u rfl rfl
  refine ⟨v, z, u, { res := [.pred x.st.fibre p], fibre := x.st.fibre, uid := x.st.uid }, ?_, rfl, ?_, ?_⟩
  · rw [e]
    simp only at fin ⊢
    rw [fin]
  · intro b hb
    exact spGet_spSet_ne _ _ hb
  · intro j hj
    rw [spGet_spSet_self]
    exact predLanes x.mask old f j hj

/-- What the result of a uniform instruction leaves. -/
theorem kResult_spec {i : Instr} {s : State} {x : Iss} (h : issOf i s = some x) (d lat : Nat) (v : Word) :
    KResult x s (x.kResult s d lat v) d lat v := by
  have h' := issOf_some h
  let w : Warp := { x.w with k := spSet x.w.k d v, kPoison := amErase x.w.kPoison d }
  have e : ∃ u, x.kResult s d lat v = x.advance (({ s with undo := u, warps := amSet s.warps x.k w } : State).pipeFor x.k lat
      { res := [.kreg d], fibre := x.st.fibre, uid := x.st.uid }) := by
    simp only [Iss.kResult, State.setK, State.modWarp]
    rw [amMod_of_get _ h'.2.1]
    exact ⟨_, rfl⟩
  obtain ⟨u, e⟩ := e
  have fin := finish_warp h lat { res := [.kreg d], fibre := x.st.fibre, uid := x.st.uid } w u rfl rfl
  refine ⟨u, { res := [.kreg d], fibre := x.st.fibre, uid := x.st.uid }, ?_, rfl⟩
  rw [e]
  simp only at fin ⊢
  rw [fin]

end Sys2Proof.Machine
end

