-- ==== Sys2Proof/Laws/State.lean ====
section
/-! SUPPORT. What the shared updates of the state, and of a warp, leave in each field. -/

namespace Sys2Proof.Machine

/-! ### State.bump -/

@[simp] theorem State.bump_clock (s : State) : s.bump.clock = s.clock := rfl
@[simp] theorem State.bump_mem (s : State) : s.bump.mem = s.mem := rfl
@[simp] theorem State.bump_poison (s : State) : s.bump.poison = s.poison := rfl
@[simp] theorem State.bump_rowFlags (s : State) : s.bump.rowFlags = s.rowFlags := rfl
@[simp] theorem State.bump_lines (s : State) : s.bump.lines = s.lines := rfl
@[simp] theorem State.bump_behind (s : State) : s.bump.behind = s.behind := rfl
@[simp] theorem State.bump_tmax (s : State) : s.bump.tmax = s.tmax := rfl
@[simp] theorem State.bump_l1 (s : State) : s.bump.l1 = s.l1 := rfl
@[simp] theorem State.bump_tlbSlot (s : State) : s.bump.tlbSlot = s.tlbSlot := rfl
@[simp] theorem State.bump_tlbDie (s : State) : s.bump.tlbDie = s.tlbDie := rfl
@[simp] theorem State.bump_walkCache (s : State) : s.bump.walkCache = s.walkCache := rfl
@[simp] theorem State.bump_walks (s : State) : s.bump.walks = s.walks := rfl
@[simp] theorem State.bump_horLoc (s : State) : s.bump.horLoc = s.horLoc := rfl
@[simp] theorem State.bump_horGal (s : State) : s.bump.horGal = s.horGal := rfl
@[simp] theorem State.bump_horDev (s : State) : s.bump.horDev = s.horDev := rfl
@[simp] theorem State.bump_horSys (s : State) : s.bump.horSys = s.horSys := rfl
@[simp] theorem State.bump_cus (s : State) : s.bump.cus = s.cus := rfl
@[simp] theorem State.bump_warps (s : State) : s.bump.warps = s.warps := rfl
@[simp] theorem State.bump_teams (s : State) : s.bump.teams = s.teams := rfl
@[simp] theorem State.bump_grids (s : State) : s.bump.grids = s.grids := rfl
@[simp] theorem State.bump_ctxs (s : State) : s.bump.ctxs = s.ctxs := rfl
@[simp] theorem State.bump_atomUsed (s : State) : s.bump.atomUsed = s.atomUsed := rfl
@[simp] theorem State.bump_linkUsed (s : State) : s.bump.linkUsed = s.linkUsed := rfl
@[simp] theorem State.bump_linkHeld (s : State) : s.bump.linkHeld = s.linkHeld := rfl
@[simp] theorem State.bump_copyUsed (s : State) : s.bump.copyUsed = s.copyUsed := rfl
@[simp] theorem State.bump_copyHeld (s : State) : s.bump.copyHeld = s.copyHeld := rfl
@[simp] theorem State.bump_mxsUsed (s : State) : s.bump.mxsUsed = s.mxsUsed := rfl
@[simp] theorem State.bump_deferred (s : State) : s.bump.deferred = s.deferred := rfl
@[simp] theorem State.bump_windows (s : State) : s.bump.windows = s.windows := rfl
@[simp] theorem State.bump_launches (s : State) : s.bump.launches = s.launches := rfl
@[simp] theorem State.bump_loads (s : State) : s.bump.loads = s.loads := rfl
@[simp] theorem State.bump_reqs (s : State) : s.bump.reqs = s.reqs := rfl
@[simp] theorem State.bump_mcas (s : State) : s.bump.mcas = s.mcas := rfl
@[simp] theorem State.bump_copies (s : State) : s.bump.copies = s.copies := rfl
@[simp] theorem State.bump_gathers (s : State) : s.bump.gathers = s.gathers := rfl
@[simp] theorem State.bump_ovls (s : State) : s.bump.ovls = s.ovls := rfl
@[simp] theorem State.bump_episodes (s : State) : s.bump.episodes = s.episodes := rfl
@[simp] theorem State.bump_replies (s : State) : s.bump.replies = s.replies := rfl
@[simp] theorem State.bump_supOps (s : State) : s.bump.supOps = s.supOps := rfl
@[simp] theorem State.bump_pieces (s : State) : s.bump.pieces = s.pieces := rfl
@[simp] theorem State.bump_hreads (s : State) : s.bump.hreads = s.hreads := rfl
@[simp] theorem State.bump_descs (s : State) : s.bump.descs = s.descs := rfl
@[simp] theorem State.bump_hubH (s : State) : s.bump.hubH = s.hubH := rfl
@[simp] theorem State.bump_hubSeq (s : State) : s.bump.hubSeq = s.hubSeq := rfl
@[simp] theorem State.bump_hubC (s : State) : s.bump.hubC = s.hubC := rfl
@[simp] theorem State.bump_dealNext (s : State) : s.bump.dealNext = s.dealNext := rfl
@[simp] theorem State.bump_damam (s : State) : s.bump.damam = s.damam := rfl
@[simp] theorem State.bump_contract (s : State) : s.bump.contract = s.contract := rfl
@[simp] theorem State.bump_dies (s : State) : s.bump.dies = s.dies := rfl
@[simp] theorem State.bump_links (s : State) : s.bump.links = s.links := rfl
@[simp] theorem State.bump_firmwareOk (s : State) : s.bump.firmwareOk = s.firmwareOk := rfl
@[simp] theorem State.bump_firmwareImage (s : State) : s.bump.firmwareImage = s.firmwareImage := rfl
@[simp] theorem State.bump_firmwareNext (s : State) : s.bump.firmwareNext = s.firmwareNext := rfl
@[simp] theorem State.bump_firmwareVer (s : State) : s.bump.firmwareVer = s.firmwareVer := rfl
@[simp] theorem State.bump_fnCtx (s : State) : s.bump.fnCtx = s.fnCtx := rfl
@[simp] theorem State.bump_powerCap (s : State) : s.bump.powerCap = s.powerCap := rfl
@[simp] theorem State.bump_mhz (s : State) : s.bump.mhz = s.mhz := rfl
@[simp] theorem State.bump_capMhz (s : State) : s.bump.capMhz = s.capMhz := rfl
@[simp] theorem State.bump_throttled (s : State) : s.bump.throttled = s.throttled := rfl
@[simp] theorem State.bump_watchLimit (s : State) : s.bump.watchLimit = s.watchLimit := rfl
@[simp] theorem State.bump_watchNext (s : State) : s.bump.watchNext = s.watchNext := rfl
@[simp] theorem State.bump_errLog (s : State) : s.bump.errLog = s.errLog := rfl
@[simp] theorem State.bump_corrected (s : State) : s.bump.corrected = s.corrected := rfl
@[simp] theorem State.bump_hostUp (s : State) : s.bump.hostUp = s.hostUp := rfl
@[simp] theorem State.bump_insecure (s : State) : s.bump.insecure = s.insecure := rfl
@[simp] theorem State.bump_msgs (s : State) : s.bump.msgs = s.msgs := rfl
@[simp] theorem State.bump_atsCache (s : State) : s.bump.atsCache = s.atsCache := rfl
@[simp] theorem State.bump_msixTable (s : State) : s.bump.msixTable = s.msixTable := rfl
@[simp] theorem State.bump_upsets (s : State) : s.bump.upsets = s.upsets := rfl
@[simp] theorem State.bump_routes (s : State) : s.bump.routes = s.routes := rfl
@[simp] theorem State.bump_scrubAt (s : State) : s.bump.scrubAt = s.scrubAt := rfl
@[simp] theorem State.bump_rehomed (s : State) : s.bump.rehomed = s.rehomed := rfl
@[simp] theorem State.bump_spillUsed (s : State) : s.bump.spillUsed = s.spillUsed := rfl
@[simp] theorem State.bump_detLog (s : State) : s.bump.detLog = s.detLog := rfl
@[simp] theorem State.bump_detSync (s : State) : s.bump.detSync = s.detSync := rfl
@[simp] theorem State.bump_undo (s : State) : s.bump.undo = s.undo := rfl
@[simp] theorem State.bump_fibreEntry (s : State) : s.bump.fibreEntry = s.fibreEntry := rfl
@[simp] theorem State.bump_freeCtr (s : State) : s.bump.freeCtr = s.freeCtr := rfl
@[simp] theorem State.bump_delays (s : State) : s.bump.delays = s.delays := rfl
@[simp] theorem State.bump_cur (s : State) : s.bump.cur = s.cur := rfl
@[simp] theorem State.bump_toServe (s : State) : s.bump.toServe = s.toServe := rfl
@[simp] theorem State.bump_tried (s : State) : s.bump.tried = s.tried := rfl
@[simp] theorem State.bump_agenda (s : State) : s.bump.agenda = s.agenda := rfl
@[simp] theorem State.bump_nextId (s : State) : s.bump.nextId = s.nextId + 1 := rfl

/-! ### State.bumpFree -/

@[simp] theorem State.bumpFree_clock (s : State) (n : Nat) : (s.bumpFree n).clock = s.clock := rfl
@[simp] theorem State.bumpFree_mem (s : State) (n : Nat) : (s.bumpFree n).mem = s.mem := rfl
@[simp] theorem State.bumpFree_poison (s : State) (n : Nat) : (s.bumpFree n).poison = s.poison := rfl
@[simp] theorem State.bumpFree_rowFlags (s : State) (n : Nat) : (s.bumpFree n).rowFlags = s.rowFlags := rfl
@[simp] theorem State.bumpFree_lines (s : State) (n : Nat) : (s.bumpFree n).lines = s.lines := rfl
@[simp] theorem State.bumpFree_behind (s : State) (n : Nat) : (s.bumpFree n).behind = s.behind := rfl
@[simp] theorem State.bumpFree_tmax (s : State) (n : Nat) : (s.bumpFree n).tmax = s.tmax := rfl
@[simp] theorem State.bumpFree_l1 (s : State) (n : Nat) : (s.bumpFree n).l1 = s.l1 := rfl
@[simp] theorem State.bumpFree_tlbSlot (s : State) (n : Nat) : (s.bumpFree n).tlbSlot = s.tlbSlot := rfl
@[simp] theorem State.bumpFree_tlbDie (s : State) (n : Nat) : (s.bumpFree n).tlbDie = s.tlbDie := rfl
@[simp] theorem State.bumpFree_walkCache (s : State) (n : Nat) : (s.bumpFree n).walkCache = s.walkCache := rfl
@[simp] theorem State.bumpFree_walks (s : State) (n : Nat) : (s.bumpFree n).walks = s.walks := rfl
@[simp] theorem State.bumpFree_horLoc (s : State) (n : Nat) : (s.bumpFree n).horLoc = s.horLoc := rfl
@[simp] theorem State.bumpFree_horGal (s : State) (n : Nat) : (s.bumpFree n).horGal = s.horGal := rfl
@[simp] theorem State.bumpFree_horDev (s : State) (n : Nat) : (s.bumpFree n).horDev = s.horDev := rfl
@[simp] theorem State.bumpFree_horSys (s : State) (n : Nat) : (s.bumpFree n).horSys = s.horSys := rfl
@[simp] theorem State.bumpFree_cus (s : State) (n : Nat) : (s.bumpFree n).cus = s.cus := rfl
@[simp] theorem State.bumpFree_warps (s : State) (n : Nat) : (s.bumpFree n).warps = s.warps := rfl
@[simp] theorem State.bumpFree_teams (s : State) (n : Nat) : (s.bumpFree n).teams = s.teams := rfl
@[simp] theorem State.bumpFree_grids (s : State) (n : Nat) : (s.bumpFree n).grids = s.grids := rfl
@[simp] theorem State.bumpFree_ctxs (s : State) (n : Nat) : (s.bumpFree n).ctxs = s.ctxs := rfl
@[simp] theorem State.bumpFree_atomUsed (s : State) (n : Nat) : (s.bumpFree n).atomUsed = s.atomUsed := rfl
@[simp] theorem State.bumpFree_linkUsed (s : State) (n : Nat) : (s.bumpFree n).linkUsed = s.linkUsed := rfl
@[simp] theorem State.bumpFree_linkHeld (s : State) (n : Nat) : (s.bumpFree n).linkHeld = s.linkHeld := rfl
@[simp] theorem State.bumpFree_copyUsed (s : State) (n : Nat) : (s.bumpFree n).copyUsed = s.copyUsed := rfl
@[simp] theorem State.bumpFree_copyHeld (s : State) (n : Nat) : (s.bumpFree n).copyHeld = s.copyHeld := rfl
@[simp] theorem State.bumpFree_mxsUsed (s : State) (n : Nat) : (s.bumpFree n).mxsUsed = s.mxsUsed := rfl
@[simp] theorem State.bumpFree_deferred (s : State) (n : Nat) : (s.bumpFree n).deferred = s.deferred := rfl
@[simp] theorem State.bumpFree_windows (s : State) (n : Nat) : (s.bumpFree n).windows = s.windows := rfl
@[simp] theorem State.bumpFree_launches (s : State) (n : Nat) : (s.bumpFree n).launches = s.launches := rfl
@[simp] theorem State.bumpFree_loads (s : State) (n : Nat) : (s.bumpFree n).loads = s.loads := rfl
@[simp] theorem State.bumpFree_reqs (s : State) (n : Nat) : (s.bumpFree n).reqs = s.reqs := rfl
@[simp] theorem State.bumpFree_mcas (s : State) (n : Nat) : (s.bumpFree n).mcas = s.mcas := rfl
@[simp] theorem State.bumpFree_copies (s : State) (n : Nat) : (s.bumpFree n).copies = s.copies := rfl
@[simp] theorem State.bumpFree_gathers (s : State) (n : Nat) : (s.bumpFree n).gathers = s.gathers := rfl
@[simp] theorem State.bumpFree_ovls (s : State) (n : Nat) : (s.bumpFree n).ovls = s.ovls := rfl
@[simp] theorem State.bumpFree_episodes (s : State) (n : Nat) : (s.bumpFree n).episodes = s.episodes := rfl
@[simp] theorem State.bumpFree_replies (s : State) (n : Nat) : (s.bumpFree n).replies = s.replies := rfl
@[simp] theorem State.bumpFree_supOps (s : State) (n : Nat) : (s.bumpFree n).supOps = s.supOps := rfl
@[simp] theorem State.bumpFree_pieces (s : State) (n : Nat) : (s.bumpFree n).pieces = s.pieces := rfl
@[simp] theorem State.bumpFree_hreads (s : State) (n : Nat) : (s.bumpFree n).hreads = s.hreads := rfl
@[simp] theorem State.bumpFree_descs (s : State) (n : Nat) : (s.bumpFree n).descs = s.descs := rfl
@[simp] theorem State.bumpFree_hubH (s : State) (n : Nat) : (s.bumpFree n).hubH = s.hubH := rfl
@[simp] theorem State.bumpFree_hubSeq (s : State) (n : Nat) : (s.bumpFree n).hubSeq = s.hubSeq := rfl
@[simp] theorem State.bumpFree_hubC (s : State) (n : Nat) : (s.bumpFree n).hubC = s.hubC := rfl
@[simp] theorem State.bumpFree_dealNext (s : State) (n : Nat) : (s.bumpFree n).dealNext = s.dealNext := rfl
@[simp] theorem State.bumpFree_damam (s : State) (n : Nat) : (s.bumpFree n).damam = s.damam := rfl
@[simp] theorem State.bumpFree_contract (s : State) (n : Nat) : (s.bumpFree n).contract = s.contract := rfl
@[simp] theorem State.bumpFree_dies (s : State) (n : Nat) : (s.bumpFree n).dies = s.dies := rfl
@[simp] theorem State.bumpFree_links (s : State) (n : Nat) : (s.bumpFree n).links = s.links := rfl
@[simp] theorem State.bumpFree_firmwareOk (s : State) (n : Nat) : (s.bumpFree n).firmwareOk = s.firmwareOk := rfl
@[simp] theorem State.bumpFree_firmwareImage (s : State) (n : Nat) : (s.bumpFree n).firmwareImage = s.firmwareImage := rfl
@[simp] theorem State.bumpFree_firmwareNext (s : State) (n : Nat) : (s.bumpFree n).firmwareNext = s.firmwareNext := rfl
@[simp] theorem State.bumpFree_firmwareVer (s : State) (n : Nat) : (s.bumpFree n).firmwareVer = s.firmwareVer := rfl
@[simp] theorem State.bumpFree_fnCtx (s : State) (n : Nat) : (s.bumpFree n).fnCtx = s.fnCtx := rfl
@[simp] theorem State.bumpFree_powerCap (s : State) (n : Nat) : (s.bumpFree n).powerCap = s.powerCap := rfl
@[simp] theorem State.bumpFree_mhz (s : State) (n : Nat) : (s.bumpFree n).mhz = s.mhz := rfl
@[simp] theorem State.bumpFree_capMhz (s : State) (n : Nat) : (s.bumpFree n).capMhz = s.capMhz := rfl
@[simp] theorem State.bumpFree_throttled (s : State) (n : Nat) : (s.bumpFree n).throttled = s.throttled := rfl
@[simp] theorem State.bumpFree_watchLimit (s : State) (n : Nat) : (s.bumpFree n).watchLimit = s.watchLimit := rfl
@[simp] theorem State.bumpFree_watchNext (s : State) (n : Nat) : (s.bumpFree n).watchNext = s.watchNext := rfl
@[simp] theorem State.bumpFree_errLog (s : State) (n : Nat) : (s.bumpFree n).errLog = s.errLog := rfl
@[simp] theorem State.bumpFree_corrected (s : State) (n : Nat) : (s.bumpFree n).corrected = s.corrected := rfl
@[simp] theorem State.bumpFree_hostUp (s : State) (n : Nat) : (s.bumpFree n).hostUp = s.hostUp := rfl
@[simp] theorem State.bumpFree_insecure (s : State) (n : Nat) : (s.bumpFree n).insecure = s.insecure := rfl
@[simp] theorem State.bumpFree_msgs (s : State) (n : Nat) : (s.bumpFree n).msgs = s.msgs := rfl
@[simp] theorem State.bumpFree_atsCache (s : State) (n : Nat) : (s.bumpFree n).atsCache = s.atsCache := rfl
@[simp] theorem State.bumpFree_msixTable (s : State) (n : Nat) : (s.bumpFree n).msixTable = s.msixTable := rfl
@[simp] theorem State.bumpFree_upsets (s : State) (n : Nat) : (s.bumpFree n).upsets = s.upsets := rfl
@[simp] theorem State.bumpFree_routes (s : State) (n : Nat) : (s.bumpFree n).routes = s.routes := rfl
@[simp] theorem State.bumpFree_scrubAt (s : State) (n : Nat) : (s.bumpFree n).scrubAt = s.scrubAt := rfl
@[simp] theorem State.bumpFree_rehomed (s : State) (n : Nat) : (s.bumpFree n).rehomed = s.rehomed := rfl
@[simp] theorem State.bumpFree_spillUsed (s : State) (n : Nat) : (s.bumpFree n).spillUsed = s.spillUsed := rfl
@[simp] theorem State.bumpFree_detLog (s : State) (n : Nat) : (s.bumpFree n).detLog = s.detLog := rfl
@[simp] theorem State.bumpFree_detSync (s : State) (n : Nat) : (s.bumpFree n).detSync = s.detSync := rfl
@[simp] theorem State.bumpFree_undo (s : State) (n : Nat) : (s.bumpFree n).undo = s.undo := rfl
@[simp] theorem State.bumpFree_fibreEntry (s : State) (n : Nat) : (s.bumpFree n).fibreEntry = s.fibreEntry := rfl
@[simp] theorem State.bumpFree_freeCtr (s : State) (n : Nat) : (s.bumpFree n).freeCtr = s.freeCtr + n := rfl
@[simp] theorem State.bumpFree_delays (s : State) (n : Nat) : (s.bumpFree n).delays = s.delays := rfl
@[simp] theorem State.bumpFree_cur (s : State) (n : Nat) : (s.bumpFree n).cur = s.cur := rfl
@[simp] theorem State.bumpFree_toServe (s : State) (n : Nat) : (s.bumpFree n).toServe = s.toServe := rfl
@[simp] theorem State.bumpFree_tried (s : State) (n : Nat) : (s.bumpFree n).tried = s.tried := rfl
@[simp] theorem State.bumpFree_agenda (s : State) (n : Nat) : (s.bumpFree n).agenda = s.agenda := rfl
@[simp] theorem State.bumpFree_nextId (s : State) (n : Nat) : (s.bumpFree n).nextId = s.nextId := rfl

/-! ### State.after -/

@[simp] theorem State.after_clock (s : State) (d p : Nat) (ev : Instr) : (s.after d p ev).clock = s.clock := rfl
@[simp] theorem State.after_mem (s : State) (d p : Nat) (ev : Instr) : (s.after d p ev).mem = s.mem := rfl
@[simp] theorem State.after_poison (s : State) (d p : Nat) (ev : Instr) : (s.after d p ev).poison = s.poison := rfl
@[simp] theorem State.after_rowFlags (s : State) (d p : Nat) (ev : Instr) : (s.after d p ev).rowFlags = s.rowFlags := rfl
@[simp] theorem State.after_lines (s : State) (d p : Nat) (ev : Instr) : (s.after d p ev).lines = s.lines := rfl
@[simp] theorem State.after_behind (s : State) (d p : Nat) (ev : Instr) : (s.after d p ev).behind = s.behind := rfl
@[simp] theorem State.after_tmax (s : State) (d p : Nat) (ev : Instr) : (s.after d p ev).tmax = s.tmax := rfl
@[simp] theorem State.after_l1 (s : State) (d p : Nat) (ev : Instr) : (s.after d p ev).l1 = s.l1 := rfl
@[simp] theorem State.after_tlbSlot (s : State) (d p : Nat) (ev : Instr) : (s.after d p ev).tlbSlot = s.tlbSlot := rfl
@[simp] theorem State.after_tlbDie (s : State) (d p : Nat) (ev : Instr) : (s.after d p ev).tlbDie = s.tlbDie := rfl
@[simp] theorem State.after_walkCache (s : State) (d p : Nat) (ev : Instr) : (s.after d p ev).walkCache = s.walkCache := rfl
@[simp] theorem State.after_walks (s : State) (d p : Nat) (ev : Instr) : (s.after d p ev).walks = s.walks := rfl
@[simp] theorem State.after_horLoc (s : State) (d p : Nat) (ev : Instr) : (s.after d p ev).horLoc = s.horLoc := rfl
@[simp] theorem State.after_horGal (s : State) (d p : Nat) (ev : Instr) : (s.after d p ev).horGal = s.horGal := rfl
@[simp] theorem State.after_horDev (s : State) (d p : Nat) (ev : Instr) : (s.after d p ev).horDev = s.horDev := rfl
@[simp] theorem State.after_horSys (s : State) (d p : Nat) (ev : Instr) : (s.after d p ev).horSys = s.horSys := rfl
@[simp] theorem State.after_cus (s : State) (d p : Nat) (ev : Instr) : (s.after d p ev).cus = s.cus := rfl
@[simp] theorem State.after_warps (s : State) (d p : Nat) (ev : Instr) : (s.after d p ev).warps = s.warps := rfl
@[simp] theorem State.after_teams (s : State) (d p : Nat) (ev : Instr) : (s.after d p ev).teams = s.teams := rfl
@[simp] theorem State.after_grids (s : State) (d p : Nat) (ev : Instr) : (s.after d p ev).grids = s.grids := rfl
@[simp] theorem State.after_ctxs (s : State) (d p : Nat) (ev : Instr) : (s.after d p ev).ctxs = s.ctxs := rfl
@[simp] theorem State.after_atomUsed (s : State) (d p : Nat) (ev : Instr) : (s.after d p ev).atomUsed = s.atomUsed := rfl
@[simp] theorem State.after_linkUsed (s : State) (d p : Nat) (ev : Instr) : (s.after d p ev).linkUsed = s.linkUsed := rfl
@[simp] theorem State.after_linkHeld (s : State) (d p : Nat) (ev : Instr) : (s.after d p ev).linkHeld = s.linkHeld := rfl
@[simp] theorem State.after_copyUsed (s : State) (d p : Nat) (ev : Instr) : (s.after d p ev).copyUsed = s.copyUsed := rfl
@[simp] theorem State.after_copyHeld (s : State) (d p : Nat) (ev : Instr) : (s.after d p ev).copyHeld = s.copyHeld := rfl
@[simp] theorem State.after_mxsUsed (s : State) (d p : Nat) (ev : Instr) : (s.after d p ev).mxsUsed = s.mxsUsed := rfl
@[simp] theorem State.after_deferred (s : State) (d p : Nat) (ev : Instr) : (s.after d p ev).deferred = s.deferred := rfl
@[simp] theorem State.after_windows (s : State) (d p : Nat) (ev : Instr) : (s.after d p ev).windows = s.windows := rfl
@[simp] theorem State.after_launches (s : State) (d p : Nat) (ev : Instr) : (s.after d p ev).launches = s.launches := rfl
@[simp] theorem State.after_loads (s : State) (d p : Nat) (ev : Instr) : (s.after d p ev).loads = s.loads := rfl
@[simp] theorem State.after_reqs (s : State) (d p : Nat) (ev : Instr) : (s.after d p ev).reqs = s.reqs := rfl
@[simp] theorem State.after_mcas (s : State) (d p : Nat) (ev : Instr) : (s.after d p ev).mcas = s.mcas := rfl
@[simp] theorem State.after_copies (s : State) (d p : Nat) (ev : Instr) : (s.after d p ev).copies = s.copies := rfl
@[simp] theorem State.after_gathers (s : State) (d p : Nat) (ev : Instr) : (s.after d p ev).gathers = s.gathers := rfl
@[simp] theorem State.after_ovls (s : State) (d p : Nat) (ev : Instr) : (s.after d p ev).ovls = s.ovls := rfl
@[simp] theorem State.after_episodes (s : State) (d p : Nat) (ev : Instr) : (s.after d p ev).episodes = s.episodes := rfl
@[simp] theorem State.after_replies (s : State) (d p : Nat) (ev : Instr) : (s.after d p ev).replies = s.replies := rfl
@[simp] theorem State.after_supOps (s : State) (d p : Nat) (ev : Instr) : (s.after d p ev).supOps = s.supOps := rfl
@[simp] theorem State.after_pieces (s : State) (d p : Nat) (ev : Instr) : (s.after d p ev).pieces = s.pieces := rfl
@[simp] theorem State.after_hreads (s : State) (d p : Nat) (ev : Instr) : (s.after d p ev).hreads = s.hreads := rfl
@[simp] theorem State.after_descs (s : State) (d p : Nat) (ev : Instr) : (s.after d p ev).descs = s.descs := rfl
@[simp] theorem State.after_hubH (s : State) (d p : Nat) (ev : Instr) : (s.after d p ev).hubH = s.hubH := rfl
@[simp] theorem State.after_hubSeq (s : State) (d p : Nat) (ev : Instr) : (s.after d p ev).hubSeq = s.hubSeq := rfl
@[simp] theorem State.after_hubC (s : State) (d p : Nat) (ev : Instr) : (s.after d p ev).hubC = s.hubC := rfl
@[simp] theorem State.after_dealNext (s : State) (d p : Nat) (ev : Instr) : (s.after d p ev).dealNext = s.dealNext := rfl
@[simp] theorem State.after_damam (s : State) (d p : Nat) (ev : Instr) : (s.after d p ev).damam = s.damam := rfl
@[simp] theorem State.after_contract (s : State) (d p : Nat) (ev : Instr) : (s.after d p ev).contract = s.contract := rfl
@[simp] theorem State.after_dies (s : State) (d p : Nat) (ev : Instr) : (s.after d p ev).dies = s.dies := rfl
@[simp] theorem State.after_links (s : State) (d p : Nat) (ev : Instr) : (s.after d p ev).links = s.links := rfl
@[simp] theorem State.after_firmwareOk (s : State) (d p : Nat) (ev : Instr) : (s.after d p ev).firmwareOk = s.firmwareOk := rfl
@[simp] theorem State.after_firmwareImage (s : State) (d p : Nat) (ev : Instr) : (s.after d p ev).firmwareImage = s.firmwareImage := rfl
@[simp] theorem State.after_firmwareNext (s : State) (d p : Nat) (ev : Instr) : (s.after d p ev).firmwareNext = s.firmwareNext := rfl
@[simp] theorem State.after_firmwareVer (s : State) (d p : Nat) (ev : Instr) : (s.after d p ev).firmwareVer = s.firmwareVer := rfl
@[simp] theorem State.after_fnCtx (s : State) (d p : Nat) (ev : Instr) : (s.after d p ev).fnCtx = s.fnCtx := rfl
@[simp] theorem State.after_powerCap (s : State) (d p : Nat) (ev : Instr) : (s.after d p ev).powerCap = s.powerCap := rfl
@[simp] theorem State.after_mhz (s : State) (d p : Nat) (ev : Instr) : (s.after d p ev).mhz = s.mhz := rfl
@[simp] theorem State.after_capMhz (s : State) (d p : Nat) (ev : Instr) : (s.after d p ev).capMhz = s.capMhz := rfl
@[simp] theorem State.after_throttled (s : State) (d p : Nat) (ev : Instr) : (s.after d p ev).throttled = s.throttled := rfl
@[simp] theorem State.after_watchLimit (s : State) (d p : Nat) (ev : Instr) : (s.after d p ev).watchLimit = s.watchLimit := rfl
@[simp] theorem State.after_watchNext (s : State) (d p : Nat) (ev : Instr) : (s.after d p ev).watchNext = s.watchNext := rfl
@[simp] theorem State.after_errLog (s : State) (d p : Nat) (ev : Instr) : (s.after d p ev).errLog = s.errLog := rfl
@[simp] theorem State.after_corrected (s : State) (d p : Nat) (ev : Instr) : (s.after d p ev).corrected = s.corrected := rfl
@[simp] theorem State.after_hostUp (s : State) (d p : Nat) (ev : Instr) : (s.after d p ev).hostUp = s.hostUp := rfl
@[simp] theorem State.after_insecure (s : State) (d p : Nat) (ev : Instr) : (s.after d p ev).insecure = s.insecure := rfl
@[simp] theorem State.after_msgs (s : State) (d p : Nat) (ev : Instr) : (s.after d p ev).msgs = s.msgs := rfl
@[simp] theorem State.after_atsCache (s : State) (d p : Nat) (ev : Instr) : (s.after d p ev).atsCache = s.atsCache := rfl
@[simp] theorem State.after_msixTable (s : State) (d p : Nat) (ev : Instr) : (s.after d p ev).msixTable = s.msixTable := rfl
@[simp] theorem State.after_upsets (s : State) (d p : Nat) (ev : Instr) : (s.after d p ev).upsets = s.upsets := rfl
@[simp] theorem State.after_routes (s : State) (d p : Nat) (ev : Instr) : (s.after d p ev).routes = s.routes := rfl
@[simp] theorem State.after_scrubAt (s : State) (d p : Nat) (ev : Instr) : (s.after d p ev).scrubAt = s.scrubAt := rfl
@[simp] theorem State.after_rehomed (s : State) (d p : Nat) (ev : Instr) : (s.after d p ev).rehomed = s.rehomed := rfl
@[simp] theorem State.after_spillUsed (s : State) (d p : Nat) (ev : Instr) : (s.after d p ev).spillUsed = s.spillUsed := rfl
@[simp] theorem State.after_detLog (s : State) (d p : Nat) (ev : Instr) : (s.after d p ev).detLog = s.detLog := rfl
@[simp] theorem State.after_detSync (s : State) (d p : Nat) (ev : Instr) : (s.after d p ev).detSync = s.detSync := rfl
@[simp] theorem State.after_undo (s : State) (d p : Nat) (ev : Instr) : (s.after d p ev).undo = s.undo := rfl
@[simp] theorem State.after_fibreEntry (s : State) (d p : Nat) (ev : Instr) : (s.after d p ev).fibreEntry = s.fibreEntry := rfl
@[simp] theorem State.after_freeCtr (s : State) (d p : Nat) (ev : Instr) : (s.after d p ev).freeCtr = s.freeCtr := rfl
@[simp] theorem State.after_delays (s : State) (d p : Nat) (ev : Instr) : (s.after d p ev).delays = s.delays := rfl
@[simp] theorem State.after_cur (s : State) (d p : Nat) (ev : Instr) : (s.after d p ev).cur = s.cur := rfl
@[simp] theorem State.after_toServe (s : State) (d p : Nat) (ev : Instr) : (s.after d p ev).toServe = s.toServe := rfl
@[simp] theorem State.after_tried (s : State) (d p : Nat) (ev : Instr) : (s.after d p ev).tried = s.tried := rfl
@[simp] theorem State.after_agenda (s : State) (d p : Nat) (ev : Instr) : (s.after d p ev).agenda = insAgenda s.agenda { due := s.clock + d, prio := p, ev := ev } := rfl
@[simp] theorem State.after_nextId (s : State) (d p : Nat) (ev : Instr) : (s.after d p ev).nextId = s.nextId := rfl

/-! ### State.dropDelay -/

@[simp] theorem State.dropDelay_clock (s : State) : s.dropDelay.clock = s.clock := rfl
@[simp] theorem State.dropDelay_mem (s : State) : s.dropDelay.mem = s.mem := rfl
@[simp] theorem State.dropDelay_poison (s : State) : s.dropDelay.poison = s.poison := rfl
@[simp] theorem State.dropDelay_rowFlags (s : State) : s.dropDelay.rowFlags = s.rowFlags := rfl
@[simp] theorem State.dropDelay_lines (s : State) : s.dropDelay.lines = s.lines := rfl
@[simp] theorem State.dropDelay_behind (s : State) : s.dropDelay.behind = s.behind := rfl
@[simp] theorem State.dropDelay_tmax (s : State) : s.dropDelay.tmax = s.tmax := rfl
@[simp] theorem State.dropDelay_l1 (s : State) : s.dropDelay.l1 = s.l1 := rfl
@[simp] theorem State.dropDelay_tlbSlot (s : State) : s.dropDelay.tlbSlot = s.tlbSlot := rfl
@[simp] theorem State.dropDelay_tlbDie (s : State) : s.dropDelay.tlbDie = s.tlbDie := rfl
@[simp] theorem State.dropDelay_walkCache (s : State) : s.dropDelay.walkCache = s.walkCache := rfl
@[simp] theorem State.dropDelay_walks (s : State) : s.dropDelay.walks = s.walks := rfl
@[simp] theorem State.dropDelay_horLoc (s : State) : s.dropDelay.horLoc = s.horLoc := rfl
@[simp] theorem State.dropDelay_horGal (s : State) : s.dropDelay.horGal = s.horGal := rfl
@[simp] theorem State.dropDelay_horDev (s : State) : s.dropDelay.horDev = s.horDev := rfl
@[simp] theorem State.dropDelay_horSys (s : State) : s.dropDelay.horSys = s.horSys := rfl
@[simp] theorem State.dropDelay_cus (s : State) : s.dropDelay.cus = s.cus := rfl
@[simp] theorem State.dropDelay_warps (s : State) : s.dropDelay.warps = s.warps := rfl
@[simp] theorem State.dropDelay_teams (s : State) : s.dropDelay.teams = s.teams := rfl
@[simp] theorem State.dropDelay_grids (s : State) : s.dropDelay.grids = s.grids := rfl
@[simp] theorem State.dropDelay_ctxs (s : State) : s.dropDelay.ctxs = s.ctxs := rfl
@[simp] theorem State.dropDelay_atomUsed (s : State) : s.dropDelay.atomUsed = s.atomUsed := rfl
@[simp] theorem State.dropDelay_linkUsed (s : State) : s.dropDelay.linkUsed = s.linkUsed := rfl
@[simp] theorem State.dropDelay_linkHeld (s : State) : s.dropDelay.linkHeld = s.linkHeld := rfl
@[simp] theorem State.dropDelay_copyUsed (s : State) : s.dropDelay.copyUsed = s.copyUsed := rfl
@[simp] theorem State.dropDelay_copyHeld (s : State) : s.dropDelay.copyHeld = s.copyHeld := rfl
@[simp] theorem State.dropDelay_mxsUsed (s : State) : s.dropDelay.mxsUsed = s.mxsUsed := rfl
@[simp] theorem State.dropDelay_deferred (s : State) : s.dropDelay.deferred = s.deferred := rfl
@[simp] theorem State.dropDelay_windows (s : State) : s.dropDelay.windows = s.windows := rfl
@[simp] theorem State.dropDelay_launches (s : State) : s.dropDelay.launches = s.launches := rfl
@[simp] theorem State.dropDelay_loads (s : State) : s.dropDelay.loads = s.loads := rfl
@[simp] theorem State.dropDelay_reqs (s : State) : s.dropDelay.reqs = s.reqs := rfl
@[simp] theorem State.dropDelay_mcas (s : State) : s.dropDelay.mcas = s.mcas := rfl
@[simp] theorem State.dropDelay_copies (s : State) : s.dropDelay.copies = s.copies := rfl
@[simp] theorem State.dropDelay_gathers (s : State) : s.dropDelay.gathers = s.gathers := rfl
@[simp] theorem State.dropDelay_ovls (s : State) : s.dropDelay.ovls = s.ovls := rfl
@[simp] theorem State.dropDelay_episodes (s : State) : s.dropDelay.episodes = s.episodes := rfl
@[simp] theorem State.dropDelay_replies (s : State) : s.dropDelay.replies = s.replies := rfl
@[simp] theorem State.dropDelay_supOps (s : State) : s.dropDelay.supOps = s.supOps := rfl
@[simp] theorem State.dropDelay_pieces (s : State) : s.dropDelay.pieces = s.pieces := rfl
@[simp] theorem State.dropDelay_hreads (s : State) : s.dropDelay.hreads = s.hreads := rfl
@[simp] theorem State.dropDelay_descs (s : State) : s.dropDelay.descs = s.descs := rfl
@[simp] theorem State.dropDelay_hubH (s : State) : s.dropDelay.hubH = s.hubH := rfl
@[simp] theorem State.dropDelay_hubSeq (s : State) : s.dropDelay.hubSeq = s.hubSeq := rfl
@[simp] theorem State.dropDelay_hubC (s : State) : s.dropDelay.hubC = s.hubC := rfl
@[simp] theorem State.dropDelay_dealNext (s : State) : s.dropDelay.dealNext = s.dealNext := rfl
@[simp] theorem State.dropDelay_damam (s : State) : s.dropDelay.damam = s.damam := rfl
@[simp] theorem State.dropDelay_contract (s : State) : s.dropDelay.contract = s.contract := rfl
@[simp] theorem State.dropDelay_dies (s : State) : s.dropDelay.dies = s.dies := rfl
@[simp] theorem State.dropDelay_links (s : State) : s.dropDelay.links = s.links := rfl
@[simp] theorem State.dropDelay_firmwareOk (s : State) : s.dropDelay.firmwareOk = s.firmwareOk := rfl
@[simp] theorem State.dropDelay_firmwareImage (s : State) : s.dropDelay.firmwareImage = s.firmwareImage := rfl
@[simp] theorem State.dropDelay_firmwareNext (s : State) : s.dropDelay.firmwareNext = s.firmwareNext := rfl
@[simp] theorem State.dropDelay_firmwareVer (s : State) : s.dropDelay.firmwareVer = s.firmwareVer := rfl
@[simp] theorem State.dropDelay_fnCtx (s : State) : s.dropDelay.fnCtx = s.fnCtx := rfl
@[simp] theorem State.dropDelay_powerCap (s : State) : s.dropDelay.powerCap = s.powerCap := rfl
@[simp] theorem State.dropDelay_mhz (s : State) : s.dropDelay.mhz = s.mhz := rfl
@[simp] theorem State.dropDelay_capMhz (s : State) : s.dropDelay.capMhz = s.capMhz := rfl
@[simp] theorem State.dropDelay_throttled (s : State) : s.dropDelay.throttled = s.throttled := rfl
@[simp] theorem State.dropDelay_watchLimit (s : State) : s.dropDelay.watchLimit = s.watchLimit := rfl
@[simp] theorem State.dropDelay_watchNext (s : State) : s.dropDelay.watchNext = s.watchNext := rfl
@[simp] theorem State.dropDelay_errLog (s : State) : s.dropDelay.errLog = s.errLog := rfl
@[simp] theorem State.dropDelay_corrected (s : State) : s.dropDelay.corrected = s.corrected := rfl
@[simp] theorem State.dropDelay_hostUp (s : State) : s.dropDelay.hostUp = s.hostUp := rfl
@[simp] theorem State.dropDelay_insecure (s : State) : s.dropDelay.insecure = s.insecure := rfl
@[simp] theorem State.dropDelay_msgs (s : State) : s.dropDelay.msgs = s.msgs := rfl
@[simp] theorem State.dropDelay_atsCache (s : State) : s.dropDelay.atsCache = s.atsCache := rfl
@[simp] theorem State.dropDelay_msixTable (s : State) : s.dropDelay.msixTable = s.msixTable := rfl
@[simp] theorem State.dropDelay_upsets (s : State) : s.dropDelay.upsets = s.upsets := rfl
@[simp] theorem State.dropDelay_routes (s : State) : s.dropDelay.routes = s.routes := rfl
@[simp] theorem State.dropDelay_scrubAt (s : State) : s.dropDelay.scrubAt = s.scrubAt := rfl
@[simp] theorem State.dropDelay_rehomed (s : State) : s.dropDelay.rehomed = s.rehomed := rfl
@[simp] theorem State.dropDelay_spillUsed (s : State) : s.dropDelay.spillUsed = s.spillUsed := rfl
@[simp] theorem State.dropDelay_detLog (s : State) : s.dropDelay.detLog = s.detLog := rfl
@[simp] theorem State.dropDelay_detSync (s : State) : s.dropDelay.detSync = s.detSync := rfl
@[simp] theorem State.dropDelay_undo (s : State) : s.dropDelay.undo = s.undo := rfl
@[simp] theorem State.dropDelay_fibreEntry (s : State) : s.dropDelay.fibreEntry = s.fibreEntry := rfl
@[simp] theorem State.dropDelay_freeCtr (s : State) : s.dropDelay.freeCtr = s.freeCtr := rfl
@[simp] theorem State.dropDelay_delays (s : State) : s.dropDelay.delays = s.delays.drop 1 := rfl
@[simp] theorem State.dropDelay_cur (s : State) : s.dropDelay.cur = s.cur := rfl
@[simp] theorem State.dropDelay_toServe (s : State) : s.dropDelay.toServe = s.toServe := rfl
@[simp] theorem State.dropDelay_tried (s : State) : s.dropDelay.tried = s.tried := rfl
@[simp] theorem State.dropDelay_agenda (s : State) : s.dropDelay.agenda = s.agenda := rfl
@[simp] theorem State.dropDelay_nextId (s : State) : s.dropDelay.nextId = s.nextId := rfl

/-! ### State.modWarp -/

@[simp] theorem State.modWarp_clock (s : State) (k : Nat) (f : Warp → Warp) : (s.modWarp k f).clock = s.clock := rfl
@[simp] theorem State.modWarp_mem (s : State) (k : Nat) (f : Warp → Warp) : (s.modWarp k f).mem = s.mem := rfl
@[simp] theorem State.modWarp_poison (s : State) (k : Nat) (f : Warp → Warp) : (s.modWarp k f).poison = s.poison := rfl
@[simp] theorem State.modWarp_rowFlags (s : State) (k : Nat) (f : Warp → Warp) : (s.modWarp k f).rowFlags = s.rowFlags := rfl
@[simp] theorem State.modWarp_lines (s : State) (k : Nat) (f : Warp → Warp) : (s.modWarp k f).lines = s.lines := rfl
@[simp] theorem State.modWarp_behind (s : State) (k : Nat) (f : Warp → Warp) : (s.modWarp k f).behind = s.behind := rfl
@[simp] theorem State.modWarp_tmax (s : State) (k : Nat) (f : Warp → Warp) : (s.modWarp k f).tmax = s.tmax := rfl
@[simp] theorem State.modWarp_l1 (s : State) (k : Nat) (f : Warp → Warp) : (s.modWarp k f).l1 = s.l1 := rfl
@[simp] theorem State.modWarp_tlbSlot (s : State) (k : Nat) (f : Warp → Warp) : (s.modWarp k f).tlbSlot = s.tlbSlot := rfl
@[simp] theorem State.modWarp_tlbDie (s : State) (k : Nat) (f : Warp → Warp) : (s.modWarp k f).tlbDie = s.tlbDie := rfl
@[simp] theorem State.modWarp_walkCache (s : State) (k : Nat) (f : Warp → Warp) : (s.modWarp k f).walkCache = s.walkCache := rfl
@[simp] theorem State.modWarp_walks (s : State) (k : Nat) (f : Warp → Warp) : (s.modWarp k f).walks = s.walks := rfl
@[simp] theorem State.modWarp_horLoc (s : State) (k : Nat) (f : Warp → Warp) : (s.modWarp k f).horLoc = s.horLoc := rfl
@[simp] theorem State.modWarp_horGal (s : State) (k : Nat) (f : Warp → Warp) : (s.modWarp k f).horGal = s.horGal := rfl
@[simp] theorem State.modWarp_horDev (s : State) (k : Nat) (f : Warp → Warp) : (s.modWarp k f).horDev = s.horDev := rfl
@[simp] theorem State.modWarp_horSys (s : State) (k : Nat) (f : Warp → Warp) : (s.modWarp k f).horSys = s.horSys := rfl
@[simp] theorem State.modWarp_cus (s : State) (k : Nat) (f : Warp → Warp) : (s.modWarp k f).cus = s.cus := rfl
@[simp] theorem State.modWarp_warps (s : State) (k : Nat) (f : Warp → Warp) : (s.modWarp k f).warps = amMod s.warps k f := rfl
@[simp] theorem State.modWarp_teams (s : State) (k : Nat) (f : Warp → Warp) : (s.modWarp k f).teams = s.teams := rfl
@[simp] theorem State.modWarp_grids (s : State) (k : Nat) (f : Warp → Warp) : (s.modWarp k f).grids = s.grids := rfl
@[simp] theorem State.modWarp_ctxs (s : State) (k : Nat) (f : Warp → Warp) : (s.modWarp k f).ctxs = s.ctxs := rfl
@[simp] theorem State.modWarp_atomUsed (s : State) (k : Nat) (f : Warp → Warp) : (s.modWarp k f).atomUsed = s.atomUsed := rfl
@[simp] theorem State.modWarp_linkUsed (s : State) (k : Nat) (f : Warp → Warp) : (s.modWarp k f).linkUsed = s.linkUsed := rfl
@[simp] theorem State.modWarp_linkHeld (s : State) (k : Nat) (f : Warp → Warp) : (s.modWarp k f).linkHeld = s.linkHeld := rfl
@[simp] theorem State.modWarp_copyUsed (s : State) (k : Nat) (f : Warp → Warp) : (s.modWarp k f).copyUsed = s.copyUsed := rfl
@[simp] theorem State.modWarp_copyHeld (s : State) (k : Nat) (f : Warp → Warp) : (s.modWarp k f).copyHeld = s.copyHeld := rfl
@[simp] theorem State.modWarp_mxsUsed (s : State) (k : Nat) (f : Warp → Warp) : (s.modWarp k f).mxsUsed = s.mxsUsed := rfl
@[simp] theorem State.modWarp_deferred (s : State) (k : Nat) (f : Warp → Warp) : (s.modWarp k f).deferred = s.deferred := rfl
@[simp] theorem State.modWarp_windows (s : State) (k : Nat) (f : Warp → Warp) : (s.modWarp k f).windows = s.windows := rfl
@[simp] theorem State.modWarp_launches (s : State) (k : Nat) (f : Warp → Warp) : (s.modWarp k f).launches = s.launches := rfl
@[simp] theorem State.modWarp_loads (s : State) (k : Nat) (f : Warp → Warp) : (s.modWarp k f).loads = s.loads := rfl
@[simp] theorem State.modWarp_reqs (s : State) (k : Nat) (f : Warp → Warp) : (s.modWarp k f).reqs = s.reqs := rfl
@[simp] theorem State.modWarp_mcas (s : State) (k : Nat) (f : Warp → Warp) : (s.modWarp k f).mcas = s.mcas := rfl
@[simp] theorem State.modWarp_copies (s : State) (k : Nat) (f : Warp → Warp) : (s.modWarp k f).copies = s.copies := rfl
@[simp] theorem State.modWarp_gathers (s : State) (k : Nat) (f : Warp → Warp) : (s.modWarp k f).gathers = s.gathers := rfl
@[simp] theorem State.modWarp_ovls (s : State) (k : Nat) (f : Warp → Warp) : (s.modWarp k f).ovls = s.ovls := rfl
@[simp] theorem State.modWarp_episodes (s : State) (k : Nat) (f : Warp → Warp) : (s.modWarp k f).episodes = s.episodes := rfl
@[simp] theorem State.modWarp_replies (s : State) (k : Nat) (f : Warp → Warp) : (s.modWarp k f).replies = s.replies := rfl
@[simp] theorem State.modWarp_supOps (s : State) (k : Nat) (f : Warp → Warp) : (s.modWarp k f).supOps = s.supOps := rfl
@[simp] theorem State.modWarp_pieces (s : State) (k : Nat) (f : Warp → Warp) : (s.modWarp k f).pieces = s.pieces := rfl
@[simp] theorem State.modWarp_hreads (s : State) (k : Nat) (f : Warp → Warp) : (s.modWarp k f).hreads = s.hreads := rfl
@[simp] theorem State.modWarp_descs (s : State) (k : Nat) (f : Warp → Warp) : (s.modWarp k f).descs = s.descs := rfl
@[simp] theorem State.modWarp_hubH (s : State) (k : Nat) (f : Warp → Warp) : (s.modWarp k f).hubH = s.hubH := rfl
@[simp] theorem State.modWarp_hubSeq (s : State) (k : Nat) (f : Warp → Warp) : (s.modWarp k f).hubSeq = s.hubSeq := rfl
@[simp] theorem State.modWarp_hubC (s : State) (k : Nat) (f : Warp → Warp) : (s.modWarp k f).hubC = s.hubC := rfl
@[simp] theorem State.modWarp_dealNext (s : State) (k : Nat) (f : Warp → Warp) : (s.modWarp k f).dealNext = s.dealNext := rfl
@[simp] theorem State.modWarp_damam (s : State) (k : Nat) (f : Warp → Warp) : (s.modWarp k f).damam = s.damam := rfl
@[simp] theorem State.modWarp_contract (s : State) (k : Nat) (f : Warp → Warp) : (s.modWarp k f).contract = s.contract := rfl
@[simp] theorem State.modWarp_dies (s : State) (k : Nat) (f : Warp → Warp) : (s.modWarp k f).dies = s.dies := rfl
@[simp] theorem State.modWarp_links (s : State) (k : Nat) (f : Warp → Warp) : (s.modWarp k f).links = s.links := rfl
@[simp] theorem State.modWarp_firmwareOk (s : State) (k : Nat) (f : Warp → Warp) : (s.modWarp k f).firmwareOk = s.firmwareOk := rfl
@[simp] theorem State.modWarp_firmwareImage (s : State) (k : Nat) (f : Warp → Warp) : (s.modWarp k f).firmwareImage = s.firmwareImage := rfl
@[simp] theorem State.modWarp_firmwareNext (s : State) (k : Nat) (f : Warp → Warp) : (s.modWarp k f).firmwareNext = s.firmwareNext := rfl
@[simp] theorem State.modWarp_firmwareVer (s : State) (k : Nat) (f : Warp → Warp) : (s.modWarp k f).firmwareVer = s.firmwareVer := rfl
@[simp] theorem State.modWarp_fnCtx (s : State) (k : Nat) (f : Warp → Warp) : (s.modWarp k f).fnCtx = s.fnCtx := rfl
@[simp] theorem State.modWarp_powerCap (s : State) (k : Nat) (f : Warp → Warp) : (s.modWarp k f).powerCap = s.powerCap := rfl
@[simp] theorem State.modWarp_mhz (s : State) (k : Nat) (f : Warp → Warp) : (s.modWarp k f).mhz = s.mhz := rfl
@[simp] theorem State.modWarp_capMhz (s : State) (k : Nat) (f : Warp → Warp) : (s.modWarp k f).capMhz = s.capMhz := rfl
@[simp] theorem State.modWarp_throttled (s : State) (k : Nat) (f : Warp → Warp) : (s.modWarp k f).throttled = s.throttled := rfl
@[simp] theorem State.modWarp_watchLimit (s : State) (k : Nat) (f : Warp → Warp) : (s.modWarp k f).watchLimit = s.watchLimit := rfl
@[simp] theorem State.modWarp_watchNext (s : State) (k : Nat) (f : Warp → Warp) : (s.modWarp k f).watchNext = s.watchNext := rfl
@[simp] theorem State.modWarp_errLog (s : State) (k : Nat) (f : Warp → Warp) : (s.modWarp k f).errLog = s.errLog := rfl
@[simp] theorem State.modWarp_corrected (s : State) (k : Nat) (f : Warp → Warp) : (s.modWarp k f).corrected = s.corrected := rfl
@[simp] theorem State.modWarp_hostUp (s : State) (k : Nat) (f : Warp → Warp) : (s.modWarp k f).hostUp = s.hostUp := rfl
@[simp] theorem State.modWarp_insecure (s : State) (k : Nat) (f : Warp → Warp) : (s.modWarp k f).insecure = s.insecure := rfl
@[simp] theorem State.modWarp_msgs (s : State) (k : Nat) (f : Warp → Warp) : (s.modWarp k f).msgs = s.msgs := rfl
@[simp] theorem State.modWarp_atsCache (s : State) (k : Nat) (f : Warp → Warp) : (s.modWarp k f).atsCache = s.atsCache := rfl
@[simp] theorem State.modWarp_msixTable (s : State) (k : Nat) (f : Warp → Warp) : (s.modWarp k f).msixTable = s.msixTable := rfl
@[simp] theorem State.modWarp_upsets (s : State) (k : Nat) (f : Warp → Warp) : (s.modWarp k f).upsets = s.upsets := rfl
@[simp] theorem State.modWarp_routes (s : State) (k : Nat) (f : Warp → Warp) : (s.modWarp k f).routes = s.routes := rfl
@[simp] theorem State.modWarp_scrubAt (s : State) (k : Nat) (f : Warp → Warp) : (s.modWarp k f).scrubAt = s.scrubAt := rfl
@[simp] theorem State.modWarp_rehomed (s : State) (k : Nat) (f : Warp → Warp) : (s.modWarp k f).rehomed = s.rehomed := rfl
@[simp] theorem State.modWarp_spillUsed (s : State) (k : Nat) (f : Warp → Warp) : (s.modWarp k f).spillUsed = s.spillUsed := rfl
@[simp] theorem State.modWarp_detLog (s : State) (k : Nat) (f : Warp → Warp) : (s.modWarp k f).detLog = s.detLog := rfl
@[simp] theorem State.modWarp_detSync (s : State) (k : Nat) (f : Warp → Warp) : (s.modWarp k f).detSync = s.detSync := rfl
@[simp] theorem State.modWarp_undo (s : State) (k : Nat) (f : Warp → Warp) : (s.modWarp k f).undo = s.undo := rfl
@[simp] theorem State.modWarp_fibreEntry (s : State) (k : Nat) (f : Warp → Warp) : (s.modWarp k f).fibreEntry = s.fibreEntry := rfl
@[simp] theorem State.modWarp_freeCtr (s : State) (k : Nat) (f : Warp → Warp) : (s.modWarp k f).freeCtr = s.freeCtr := rfl
@[simp] theorem State.modWarp_delays (s : State) (k : Nat) (f : Warp → Warp) : (s.modWarp k f).delays = s.delays := rfl
@[simp] theorem State.modWarp_cur (s : State) (k : Nat) (f : Warp → Warp) : (s.modWarp k f).cur = s.cur := rfl
@[simp] theorem State.modWarp_toServe (s : State) (k : Nat) (f : Warp → Warp) : (s.modWarp k f).toServe = s.toServe := rfl
@[simp] theorem State.modWarp_tried (s : State) (k : Nat) (f : Warp → Warp) : (s.modWarp k f).tried = s.tried := rfl
@[simp] theorem State.modWarp_agenda (s : State) (k : Nat) (f : Warp → Warp) : (s.modWarp k f).agenda = s.agenda := rfl
@[simp] theorem State.modWarp_nextId (s : State) (k : Nat) (f : Warp → Warp) : (s.modWarp k f).nextId = s.nextId := rfl

/-! ### State.modStrand -/

@[simp] theorem State.modStrand_clock (s : State) (k e : Nat) (f : Strand → Strand) : (s.modStrand k e f).clock = s.clock := rfl
@[simp] theorem State.modStrand_mem (s : State) (k e : Nat) (f : Strand → Strand) : (s.modStrand k e f).mem = s.mem := rfl
@[simp] theorem State.modStrand_poison (s : State) (k e : Nat) (f : Strand → Strand) : (s.modStrand k e f).poison = s.poison := rfl
@[simp] theorem State.modStrand_rowFlags (s : State) (k e : Nat) (f : Strand → Strand) : (s.modStrand k e f).rowFlags = s.rowFlags := rfl
@[simp] theorem State.modStrand_lines (s : State) (k e : Nat) (f : Strand → Strand) : (s.modStrand k e f).lines = s.lines := rfl
@[simp] theorem State.modStrand_behind (s : State) (k e : Nat) (f : Strand → Strand) : (s.modStrand k e f).behind = s.behind := rfl
@[simp] theorem State.modStrand_tmax (s : State) (k e : Nat) (f : Strand → Strand) : (s.modStrand k e f).tmax = s.tmax := rfl
@[simp] theorem State.modStrand_l1 (s : State) (k e : Nat) (f : Strand → Strand) : (s.modStrand k e f).l1 = s.l1 := rfl
@[simp] theorem State.modStrand_tlbSlot (s : State) (k e : Nat) (f : Strand → Strand) : (s.modStrand k e f).tlbSlot = s.tlbSlot := rfl
@[simp] theorem State.modStrand_tlbDie (s : State) (k e : Nat) (f : Strand → Strand) : (s.modStrand k e f).tlbDie = s.tlbDie := rfl
@[simp] theorem State.modStrand_walkCache (s : State) (k e : Nat) (f : Strand → Strand) : (s.modStrand k e f).walkCache = s.walkCache := rfl
@[simp] theorem State.modStrand_walks (s : State) (k e : Nat) (f : Strand → Strand) : (s.modStrand k e f).walks = s.walks := rfl
@[simp] theorem State.modStrand_horLoc (s : State) (k e : Nat) (f : Strand → Strand) : (s.modStrand k e f).horLoc = s.horLoc := rfl
@[simp] theorem State.modStrand_horGal (s : State) (k e : Nat) (f : Strand → Strand) : (s.modStrand k e f).horGal = s.horGal := rfl
@[simp] theorem State.modStrand_horDev (s : State) (k e : Nat) (f : Strand → Strand) : (s.modStrand k e f).horDev = s.horDev := rfl
@[simp] theorem State.modStrand_horSys (s : State) (k e : Nat) (f : Strand → Strand) : (s.modStrand k e f).horSys = s.horSys := rfl
@[simp] theorem State.modStrand_cus (s : State) (k e : Nat) (f : Strand → Strand) : (s.modStrand k e f).cus = s.cus := rfl
@[simp] theorem State.modStrand_warps (s : State) (k e : Nat) (f : Strand → Strand) : (s.modStrand k e f).warps = amMod s.warps k fun w => w.modStrand e f := rfl
@[simp] theorem State.modStrand_teams (s : State) (k e : Nat) (f : Strand → Strand) : (s.modStrand k e f).teams = s.teams := rfl
@[simp] theorem State.modStrand_grids (s : State) (k e : Nat) (f : Strand → Strand) : (s.modStrand k e f).grids = s.grids := rfl
@[simp] theorem State.modStrand_ctxs (s : State) (k e : Nat) (f : Strand → Strand) : (s.modStrand k e f).ctxs = s.ctxs := rfl
@[simp] theorem State.modStrand_atomUsed (s : State) (k e : Nat) (f : Strand → Strand) : (s.modStrand k e f).atomUsed = s.atomUsed := rfl
@[simp] theorem State.modStrand_linkUsed (s : State) (k e : Nat) (f : Strand → Strand) : (s.modStrand k e f).linkUsed = s.linkUsed := rfl
@[simp] theorem State.modStrand_linkHeld (s : State) (k e : Nat) (f : Strand → Strand) : (s.modStrand k e f).linkHeld = s.linkHeld := rfl
@[simp] theorem State.modStrand_copyUsed (s : State) (k e : Nat) (f : Strand → Strand) : (s.modStrand k e f).copyUsed = s.copyUsed := rfl
@[simp] theorem State.modStrand_copyHeld (s : State) (k e : Nat) (f : Strand → Strand) : (s.modStrand k e f).copyHeld = s.copyHeld := rfl
@[simp] theorem State.modStrand_mxsUsed (s : State) (k e : Nat) (f : Strand → Strand) : (s.modStrand k e f).mxsUsed = s.mxsUsed := rfl
@[simp] theorem State.modStrand_deferred (s : State) (k e : Nat) (f : Strand → Strand) : (s.modStrand k e f).deferred = s.deferred := rfl
@[simp] theorem State.modStrand_windows (s : State) (k e : Nat) (f : Strand → Strand) : (s.modStrand k e f).windows = s.windows := rfl
@[simp] theorem State.modStrand_launches (s : State) (k e : Nat) (f : Strand → Strand) : (s.modStrand k e f).launches = s.launches := rfl
@[simp] theorem State.modStrand_loads (s : State) (k e : Nat) (f : Strand → Strand) : (s.modStrand k e f).loads = s.loads := rfl
@[simp] theorem State.modStrand_reqs (s : State) (k e : Nat) (f : Strand → Strand) : (s.modStrand k e f).reqs = s.reqs := rfl
@[simp] theorem State.modStrand_mcas (s : State) (k e : Nat) (f : Strand → Strand) : (s.modStrand k e f).mcas = s.mcas := rfl
@[simp] theorem State.modStrand_copies (s : State) (k e : Nat) (f : Strand → Strand) : (s.modStrand k e f).copies = s.copies := rfl
@[simp] theorem State.modStrand_gathers (s : State) (k e : Nat) (f : Strand → Strand) : (s.modStrand k e f).gathers = s.gathers := rfl
@[simp] theorem State.modStrand_ovls (s : State) (k e : Nat) (f : Strand → Strand) : (s.modStrand k e f).ovls = s.ovls := rfl
@[simp] theorem State.modStrand_episodes (s : State) (k e : Nat) (f : Strand → Strand) : (s.modStrand k e f).episodes = s.episodes := rfl
@[simp] theorem State.modStrand_replies (s : State) (k e : Nat) (f : Strand → Strand) : (s.modStrand k e f).replies = s.replies := rfl
@[simp] theorem State.modStrand_supOps (s : State) (k e : Nat) (f : Strand → Strand) : (s.modStrand k e f).supOps = s.supOps := rfl
@[simp] theorem State.modStrand_pieces (s : State) (k e : Nat) (f : Strand → Strand) : (s.modStrand k e f).pieces = s.pieces := rfl
@[simp] theorem State.modStrand_hreads (s : State) (k e : Nat) (f : Strand → Strand) : (s.modStrand k e f).hreads = s.hreads := rfl
@[simp] theorem State.modStrand_descs (s : State) (k e : Nat) (f : Strand → Strand) : (s.modStrand k e f).descs = s.descs := rfl
@[simp] theorem State.modStrand_hubH (s : State) (k e : Nat) (f : Strand → Strand) : (s.modStrand k e f).hubH = s.hubH := rfl
@[simp] theorem State.modStrand_hubSeq (s : State) (k e : Nat) (f : Strand → Strand) : (s.modStrand k e f).hubSeq = s.hubSeq := rfl
@[simp] theorem State.modStrand_hubC (s : State) (k e : Nat) (f : Strand → Strand) : (s.modStrand k e f).hubC = s.hubC := rfl
@[simp] theorem State.modStrand_dealNext (s : State) (k e : Nat) (f : Strand → Strand) : (s.modStrand k e f).dealNext = s.dealNext := rfl
@[simp] theorem State.modStrand_damam (s : State) (k e : Nat) (f : Strand → Strand) : (s.modStrand k e f).damam = s.damam := rfl
@[simp] theorem State.modStrand_contract (s : State) (k e : Nat) (f : Strand → Strand) : (s.modStrand k e f).contract = s.contract := rfl
@[simp] theorem State.modStrand_dies (s : State) (k e : Nat) (f : Strand → Strand) : (s.modStrand k e f).dies = s.dies := rfl
@[simp] theorem State.modStrand_links (s : State) (k e : Nat) (f : Strand → Strand) : (s.modStrand k e f).links = s.links := rfl
@[simp] theorem State.modStrand_firmwareOk (s : State) (k e : Nat) (f : Strand → Strand) : (s.modStrand k e f).firmwareOk = s.firmwareOk := rfl
@[simp] theorem State.modStrand_firmwareImage (s : State) (k e : Nat) (f : Strand → Strand) : (s.modStrand k e f).firmwareImage = s.firmwareImage := rfl
@[simp] theorem State.modStrand_firmwareNext (s : State) (k e : Nat) (f : Strand → Strand) : (s.modStrand k e f).firmwareNext = s.firmwareNext := rfl
@[simp] theorem State.modStrand_firmwareVer (s : State) (k e : Nat) (f : Strand → Strand) : (s.modStrand k e f).firmwareVer = s.firmwareVer := rfl
@[simp] theorem State.modStrand_fnCtx (s : State) (k e : Nat) (f : Strand → Strand) : (s.modStrand k e f).fnCtx = s.fnCtx := rfl
@[simp] theorem State.modStrand_powerCap (s : State) (k e : Nat) (f : Strand → Strand) : (s.modStrand k e f).powerCap = s.powerCap := rfl
@[simp] theorem State.modStrand_mhz (s : State) (k e : Nat) (f : Strand → Strand) : (s.modStrand k e f).mhz = s.mhz := rfl
@[simp] theorem State.modStrand_capMhz (s : State) (k e : Nat) (f : Strand → Strand) : (s.modStrand k e f).capMhz = s.capMhz := rfl
@[simp] theorem State.modStrand_throttled (s : State) (k e : Nat) (f : Strand → Strand) : (s.modStrand k e f).throttled = s.throttled := rfl
@[simp] theorem State.modStrand_watchLimit (s : State) (k e : Nat) (f : Strand → Strand) : (s.modStrand k e f).watchLimit = s.watchLimit := rfl
@[simp] theorem State.modStrand_watchNext (s : State) (k e : Nat) (f : Strand → Strand) : (s.modStrand k e f).watchNext = s.watchNext := rfl
@[simp] theorem State.modStrand_errLog (s : State) (k e : Nat) (f : Strand → Strand) : (s.modStrand k e f).errLog = s.errLog := rfl
@[simp] theorem State.modStrand_corrected (s : State) (k e : Nat) (f : Strand → Strand) : (s.modStrand k e f).corrected = s.corrected := rfl
@[simp] theorem State.modStrand_hostUp (s : State) (k e : Nat) (f : Strand → Strand) : (s.modStrand k e f).hostUp = s.hostUp := rfl
@[simp] theorem State.modStrand_insecure (s : State) (k e : Nat) (f : Strand → Strand) : (s.modStrand k e f).insecure = s.insecure := rfl
@[simp] theorem State.modStrand_msgs (s : State) (k e : Nat) (f : Strand → Strand) : (s.modStrand k e f).msgs = s.msgs := rfl
@[simp] theorem State.modStrand_atsCache (s : State) (k e : Nat) (f : Strand → Strand) : (s.modStrand k e f).atsCache = s.atsCache := rfl
@[simp] theorem State.modStrand_msixTable (s : State) (k e : Nat) (f : Strand → Strand) : (s.modStrand k e f).msixTable = s.msixTable := rfl
@[simp] theorem State.modStrand_upsets (s : State) (k e : Nat) (f : Strand → Strand) : (s.modStrand k e f).upsets = s.upsets := rfl
@[simp] theorem State.modStrand_routes (s : State) (k e : Nat) (f : Strand → Strand) : (s.modStrand k e f).routes = s.routes := rfl
@[simp] theorem State.modStrand_scrubAt (s : State) (k e : Nat) (f : Strand → Strand) : (s.modStrand k e f).scrubAt = s.scrubAt := rfl
@[simp] theorem State.modStrand_rehomed (s : State) (k e : Nat) (f : Strand → Strand) : (s.modStrand k e f).rehomed = s.rehomed := rfl
@[simp] theorem State.modStrand_spillUsed (s : State) (k e : Nat) (f : Strand → Strand) : (s.modStrand k e f).spillUsed = s.spillUsed := rfl
@[simp] theorem State.modStrand_detLog (s : State) (k e : Nat) (f : Strand → Strand) : (s.modStrand k e f).detLog = s.detLog := rfl
@[simp] theorem State.modStrand_detSync (s : State) (k e : Nat) (f : Strand → Strand) : (s.modStrand k e f).detSync = s.detSync := rfl
@[simp] theorem State.modStrand_undo (s : State) (k e : Nat) (f : Strand → Strand) : (s.modStrand k e f).undo = s.undo := rfl
@[simp] theorem State.modStrand_fibreEntry (s : State) (k e : Nat) (f : Strand → Strand) : (s.modStrand k e f).fibreEntry = s.fibreEntry := rfl
@[simp] theorem State.modStrand_freeCtr (s : State) (k e : Nat) (f : Strand → Strand) : (s.modStrand k e f).freeCtr = s.freeCtr := rfl
@[simp] theorem State.modStrand_delays (s : State) (k e : Nat) (f : Strand → Strand) : (s.modStrand k e f).delays = s.delays := rfl
@[simp] theorem State.modStrand_cur (s : State) (k e : Nat) (f : Strand → Strand) : (s.modStrand k e f).cur = s.cur := rfl
@[simp] theorem State.modStrand_toServe (s : State) (k e : Nat) (f : Strand → Strand) : (s.modStrand k e f).toServe = s.toServe := rfl
@[simp] theorem State.modStrand_tried (s : State) (k e : Nat) (f : Strand → Strand) : (s.modStrand k e f).tried = s.tried := rfl
@[simp] theorem State.modStrand_agenda (s : State) (k e : Nat) (f : Strand → Strand) : (s.modStrand k e f).agenda = s.agenda := rfl
@[simp] theorem State.modStrand_nextId (s : State) (k e : Nat) (f : Strand → Strand) : (s.modStrand k e f).nextId = s.nextId := rfl

/-! ### State.modCu -/

@[simp] theorem State.modCu_clock (s : State) (k : Nat) (f : Cu → Cu) : (s.modCu k f).clock = s.clock := rfl
@[simp] theorem State.modCu_mem (s : State) (k : Nat) (f : Cu → Cu) : (s.modCu k f).mem = s.mem := rfl
@[simp] theorem State.modCu_poison (s : State) (k : Nat) (f : Cu → Cu) : (s.modCu k f).poison = s.poison := rfl
@[simp] theorem State.modCu_rowFlags (s : State) (k : Nat) (f : Cu → Cu) : (s.modCu k f).rowFlags = s.rowFlags := rfl
@[simp] theorem State.modCu_lines (s : State) (k : Nat) (f : Cu → Cu) : (s.modCu k f).lines = s.lines := rfl
@[simp] theorem State.modCu_behind (s : State) (k : Nat) (f : Cu → Cu) : (s.modCu k f).behind = s.behind := rfl
@[simp] theorem State.modCu_tmax (s : State) (k : Nat) (f : Cu → Cu) : (s.modCu k f).tmax = s.tmax := rfl
@[simp] theorem State.modCu_l1 (s : State) (k : Nat) (f : Cu → Cu) : (s.modCu k f).l1 = s.l1 := rfl
@[simp] theorem State.modCu_tlbSlot (s : State) (k : Nat) (f : Cu → Cu) : (s.modCu k f).tlbSlot = s.tlbSlot := rfl
@[simp] theorem State.modCu_tlbDie (s : State) (k : Nat) (f : Cu → Cu) : (s.modCu k f).tlbDie = s.tlbDie := rfl
@[simp] theorem State.modCu_walkCache (s : State) (k : Nat) (f : Cu → Cu) : (s.modCu k f).walkCache = s.walkCache := rfl
@[simp] theorem State.modCu_walks (s : State) (k : Nat) (f : Cu → Cu) : (s.modCu k f).walks = s.walks := rfl
@[simp] theorem State.modCu_horLoc (s : State) (k : Nat) (f : Cu → Cu) : (s.modCu k f).horLoc = s.horLoc := rfl
@[simp] theorem State.modCu_horGal (s : State) (k : Nat) (f : Cu → Cu) : (s.modCu k f).horGal = s.horGal := rfl
@[simp] theorem State.modCu_horDev (s : State) (k : Nat) (f : Cu → Cu) : (s.modCu k f).horDev = s.horDev := rfl
@[simp] theorem State.modCu_horSys (s : State) (k : Nat) (f : Cu → Cu) : (s.modCu k f).horSys = s.horSys := rfl
@[simp] theorem State.modCu_cus (s : State) (k : Nat) (f : Cu → Cu) : (s.modCu k f).cus = amSet s.cus k (f (s.cu k)) := rfl
@[simp] theorem State.modCu_warps (s : State) (k : Nat) (f : Cu → Cu) : (s.modCu k f).warps = s.warps := rfl
@[simp] theorem State.modCu_teams (s : State) (k : Nat) (f : Cu → Cu) : (s.modCu k f).teams = s.teams := rfl
@[simp] theorem State.modCu_grids (s : State) (k : Nat) (f : Cu → Cu) : (s.modCu k f).grids = s.grids := rfl
@[simp] theorem State.modCu_ctxs (s : State) (k : Nat) (f : Cu → Cu) : (s.modCu k f).ctxs = s.ctxs := rfl
@[simp] theorem State.modCu_atomUsed (s : State) (k : Nat) (f : Cu → Cu) : (s.modCu k f).atomUsed = s.atomUsed := rfl
@[simp] theorem State.modCu_linkUsed (s : State) (k : Nat) (f : Cu → Cu) : (s.modCu k f).linkUsed = s.linkUsed := rfl
@[simp] theorem State.modCu_linkHeld (s : State) (k : Nat) (f : Cu → Cu) : (s.modCu k f).linkHeld = s.linkHeld := rfl
@[simp] theorem State.modCu_copyUsed (s : State) (k : Nat) (f : Cu → Cu) : (s.modCu k f).copyUsed = s.copyUsed := rfl
@[simp] theorem State.modCu_copyHeld (s : State) (k : Nat) (f : Cu → Cu) : (s.modCu k f).copyHeld = s.copyHeld := rfl
@[simp] theorem State.modCu_mxsUsed (s : State) (k : Nat) (f : Cu → Cu) : (s.modCu k f).mxsUsed = s.mxsUsed := rfl
@[simp] theorem State.modCu_deferred (s : State) (k : Nat) (f : Cu → Cu) : (s.modCu k f).deferred = s.deferred := rfl
@[simp] theorem State.modCu_windows (s : State) (k : Nat) (f : Cu → Cu) : (s.modCu k f).windows = s.windows := rfl
@[simp] theorem State.modCu_launches (s : State) (k : Nat) (f : Cu → Cu) : (s.modCu k f).launches = s.launches := rfl
@[simp] theorem State.modCu_loads (s : State) (k : Nat) (f : Cu → Cu) : (s.modCu k f).loads = s.loads := rfl
@[simp] theorem State.modCu_reqs (s : State) (k : Nat) (f : Cu → Cu) : (s.modCu k f).reqs = s.reqs := rfl
@[simp] theorem State.modCu_mcas (s : State) (k : Nat) (f : Cu → Cu) : (s.modCu k f).mcas = s.mcas := rfl
@[simp] theorem State.modCu_copies (s : State) (k : Nat) (f : Cu → Cu) : (s.modCu k f).copies = s.copies := rfl
@[simp] theorem State.modCu_gathers (s : State) (k : Nat) (f : Cu → Cu) : (s.modCu k f).gathers = s.gathers := rfl
@[simp] theorem State.modCu_ovls (s : State) (k : Nat) (f : Cu → Cu) : (s.modCu k f).ovls = s.ovls := rfl
@[simp] theorem State.modCu_episodes (s : State) (k : Nat) (f : Cu → Cu) : (s.modCu k f).episodes = s.episodes := rfl
@[simp] theorem State.modCu_replies (s : State) (k : Nat) (f : Cu → Cu) : (s.modCu k f).replies = s.replies := rfl
@[simp] theorem State.modCu_supOps (s : State) (k : Nat) (f : Cu → Cu) : (s.modCu k f).supOps = s.supOps := rfl
@[simp] theorem State.modCu_pieces (s : State) (k : Nat) (f : Cu → Cu) : (s.modCu k f).pieces = s.pieces := rfl
@[simp] theorem State.modCu_hreads (s : State) (k : Nat) (f : Cu → Cu) : (s.modCu k f).hreads = s.hreads := rfl
@[simp] theorem State.modCu_descs (s : State) (k : Nat) (f : Cu → Cu) : (s.modCu k f).descs = s.descs := rfl
@[simp] theorem State.modCu_hubH (s : State) (k : Nat) (f : Cu → Cu) : (s.modCu k f).hubH = s.hubH := rfl
@[simp] theorem State.modCu_hubSeq (s : State) (k : Nat) (f : Cu → Cu) : (s.modCu k f).hubSeq = s.hubSeq := rfl
@[simp] theorem State.modCu_hubC (s : State) (k : Nat) (f : Cu → Cu) : (s.modCu k f).hubC = s.hubC := rfl
@[simp] theorem State.modCu_dealNext (s : State) (k : Nat) (f : Cu → Cu) : (s.modCu k f).dealNext = s.dealNext := rfl
@[simp] theorem State.modCu_damam (s : State) (k : Nat) (f : Cu → Cu) : (s.modCu k f).damam = s.damam := rfl
@[simp] theorem State.modCu_contract (s : State) (k : Nat) (f : Cu → Cu) : (s.modCu k f).contract = s.contract := rfl
@[simp] theorem State.modCu_dies (s : State) (k : Nat) (f : Cu → Cu) : (s.modCu k f).dies = s.dies := rfl
@[simp] theorem State.modCu_links (s : State) (k : Nat) (f : Cu → Cu) : (s.modCu k f).links = s.links := rfl
@[simp] theorem State.modCu_firmwareOk (s : State) (k : Nat) (f : Cu → Cu) : (s.modCu k f).firmwareOk = s.firmwareOk := rfl
@[simp] theorem State.modCu_firmwareImage (s : State) (k : Nat) (f : Cu → Cu) : (s.modCu k f).firmwareImage = s.firmwareImage := rfl
@[simp] theorem State.modCu_firmwareNext (s : State) (k : Nat) (f : Cu → Cu) : (s.modCu k f).firmwareNext = s.firmwareNext := rfl
@[simp] theorem State.modCu_firmwareVer (s : State) (k : Nat) (f : Cu → Cu) : (s.modCu k f).firmwareVer = s.firmwareVer := rfl
@[simp] theorem State.modCu_fnCtx (s : State) (k : Nat) (f : Cu → Cu) : (s.modCu k f).fnCtx = s.fnCtx := rfl
@[simp] theorem State.modCu_powerCap (s : State) (k : Nat) (f : Cu → Cu) : (s.modCu k f).powerCap = s.powerCap := rfl
@[simp] theorem State.modCu_mhz (s : State) (k : Nat) (f : Cu → Cu) : (s.modCu k f).mhz = s.mhz := rfl
@[simp] theorem State.modCu_capMhz (s : State) (k : Nat) (f : Cu → Cu) : (s.modCu k f).capMhz = s.capMhz := rfl
@[simp] theorem State.modCu_throttled (s : State) (k : Nat) (f : Cu → Cu) : (s.modCu k f).throttled = s.throttled := rfl
@[simp] theorem State.modCu_watchLimit (s : State) (k : Nat) (f : Cu → Cu) : (s.modCu k f).watchLimit = s.watchLimit := rfl
@[simp] theorem State.modCu_watchNext (s : State) (k : Nat) (f : Cu → Cu) : (s.modCu k f).watchNext = s.watchNext := rfl
@[simp] theorem State.modCu_errLog (s : State) (k : Nat) (f : Cu → Cu) : (s.modCu k f).errLog = s.errLog := rfl
@[simp] theorem State.modCu_corrected (s : State) (k : Nat) (f : Cu → Cu) : (s.modCu k f).corrected = s.corrected := rfl
@[simp] theorem State.modCu_hostUp (s : State) (k : Nat) (f : Cu → Cu) : (s.modCu k f).hostUp = s.hostUp := rfl
@[simp] theorem State.modCu_insecure (s : State) (k : Nat) (f : Cu → Cu) : (s.modCu k f).insecure = s.insecure := rfl
@[simp] theorem State.modCu_msgs (s : State) (k : Nat) (f : Cu → Cu) : (s.modCu k f).msgs = s.msgs := rfl
@[simp] theorem State.modCu_atsCache (s : State) (k : Nat) (f : Cu → Cu) : (s.modCu k f).atsCache = s.atsCache := rfl
@[simp] theorem State.modCu_msixTable (s : State) (k : Nat) (f : Cu → Cu) : (s.modCu k f).msixTable = s.msixTable := rfl
@[simp] theorem State.modCu_upsets (s : State) (k : Nat) (f : Cu → Cu) : (s.modCu k f).upsets = s.upsets := rfl
@[simp] theorem State.modCu_routes (s : State) (k : Nat) (f : Cu → Cu) : (s.modCu k f).routes = s.routes := rfl
@[simp] theorem State.modCu_scrubAt (s : State) (k : Nat) (f : Cu → Cu) : (s.modCu k f).scrubAt = s.scrubAt := rfl
@[simp] theorem State.modCu_rehomed (s : State) (k : Nat) (f : Cu → Cu) : (s.modCu k f).rehomed = s.rehomed := rfl
@[simp] theorem State.modCu_spillUsed (s : State) (k : Nat) (f : Cu → Cu) : (s.modCu k f).spillUsed = s.spillUsed := rfl
@[simp] theorem State.modCu_detLog (s : State) (k : Nat) (f : Cu → Cu) : (s.modCu k f).detLog = s.detLog := rfl
@[simp] theorem State.modCu_detSync (s : State) (k : Nat) (f : Cu → Cu) : (s.modCu k f).detSync = s.detSync := rfl
@[simp] theorem State.modCu_undo (s : State) (k : Nat) (f : Cu → Cu) : (s.modCu k f).undo = s.undo := rfl
@[simp] theorem State.modCu_fibreEntry (s : State) (k : Nat) (f : Cu → Cu) : (s.modCu k f).fibreEntry = s.fibreEntry := rfl
@[simp] theorem State.modCu_freeCtr (s : State) (k : Nat) (f : Cu → Cu) : (s.modCu k f).freeCtr = s.freeCtr := rfl
@[simp] theorem State.modCu_delays (s : State) (k : Nat) (f : Cu → Cu) : (s.modCu k f).delays = s.delays := rfl
@[simp] theorem State.modCu_cur (s : State) (k : Nat) (f : Cu → Cu) : (s.modCu k f).cur = s.cur := rfl
@[simp] theorem State.modCu_toServe (s : State) (k : Nat) (f : Cu → Cu) : (s.modCu k f).toServe = s.toServe := rfl
@[simp] theorem State.modCu_tried (s : State) (k : Nat) (f : Cu → Cu) : (s.modCu k f).tried = s.tried := rfl
@[simp] theorem State.modCu_agenda (s : State) (k : Nat) (f : Cu → Cu) : (s.modCu k f).agenda = s.agenda := rfl
@[simp] theorem State.modCu_nextId (s : State) (k : Nat) (f : Cu → Cu) : (s.modCu k f).nextId = s.nextId := rfl

/-! ### State.modTeam -/

@[simp] theorem State.modTeam_clock (s : State) (k : Nat) (f : Team → Team) : (s.modTeam k f).clock = s.clock := rfl
@[simp] theorem State.modTeam_mem (s : State) (k : Nat) (f : Team → Team) : (s.modTeam k f).mem = s.mem := rfl
@[simp] theorem State.modTeam_poison (s : State) (k : Nat) (f : Team → Team) : (s.modTeam k f).poison = s.poison := rfl
@[simp] theorem State.modTeam_rowFlags (s : State) (k : Nat) (f : Team → Team) : (s.modTeam k f).rowFlags = s.rowFlags := rfl
@[simp] theorem State.modTeam_lines (s : State) (k : Nat) (f : Team → Team) : (s.modTeam k f).lines = s.lines := rfl
@[simp] theorem State.modTeam_behind (s : State) (k : Nat) (f : Team → Team) : (s.modTeam k f).behind = s.behind := rfl
@[simp] theorem State.modTeam_tmax (s : State) (k : Nat) (f : Team → Team) : (s.modTeam k f).tmax = s.tmax := rfl
@[simp] theorem State.modTeam_l1 (s : State) (k : Nat) (f : Team → Team) : (s.modTeam k f).l1 = s.l1 := rfl
@[simp] theorem State.modTeam_tlbSlot (s : State) (k : Nat) (f : Team → Team) : (s.modTeam k f).tlbSlot = s.tlbSlot := rfl
@[simp] theorem State.modTeam_tlbDie (s : State) (k : Nat) (f : Team → Team) : (s.modTeam k f).tlbDie = s.tlbDie := rfl
@[simp] theorem State.modTeam_walkCache (s : State) (k : Nat) (f : Team → Team) : (s.modTeam k f).walkCache = s.walkCache := rfl
@[simp] theorem State.modTeam_walks (s : State) (k : Nat) (f : Team → Team) : (s.modTeam k f).walks = s.walks := rfl
@[simp] theorem State.modTeam_horLoc (s : State) (k : Nat) (f : Team → Team) : (s.modTeam k f).horLoc = s.horLoc := rfl
@[simp] theorem State.modTeam_horGal (s : State) (k : Nat) (f : Team → Team) : (s.modTeam k f).horGal = s.horGal := rfl
@[simp] theorem State.modTeam_horDev (s : State) (k : Nat) (f : Team → Team) : (s.modTeam k f).horDev = s.horDev := rfl
@[simp] theorem State.modTeam_horSys (s : State) (k : Nat) (f : Team → Team) : (s.modTeam k f).horSys = s.horSys := rfl
@[simp] theorem State.modTeam_cus (s : State) (k : Nat) (f : Team → Team) : (s.modTeam k f).cus = s.cus := rfl
@[simp] theorem State.modTeam_warps (s : State) (k : Nat) (f : Team → Team) : (s.modTeam k f).warps = s.warps := rfl
@[simp] theorem State.modTeam_teams (s : State) (k : Nat) (f : Team → Team) : (s.modTeam k f).teams = amMod s.teams k f := rfl
@[simp] theorem State.modTeam_grids (s : State) (k : Nat) (f : Team → Team) : (s.modTeam k f).grids = s.grids := rfl
@[simp] theorem State.modTeam_ctxs (s : State) (k : Nat) (f : Team → Team) : (s.modTeam k f).ctxs = s.ctxs := rfl
@[simp] theorem State.modTeam_atomUsed (s : State) (k : Nat) (f : Team → Team) : (s.modTeam k f).atomUsed = s.atomUsed := rfl
@[simp] theorem State.modTeam_linkUsed (s : State) (k : Nat) (f : Team → Team) : (s.modTeam k f).linkUsed = s.linkUsed := rfl
@[simp] theorem State.modTeam_linkHeld (s : State) (k : Nat) (f : Team → Team) : (s.modTeam k f).linkHeld = s.linkHeld := rfl
@[simp] theorem State.modTeam_copyUsed (s : State) (k : Nat) (f : Team → Team) : (s.modTeam k f).copyUsed = s.copyUsed := rfl
@[simp] theorem State.modTeam_copyHeld (s : State) (k : Nat) (f : Team → Team) : (s.modTeam k f).copyHeld = s.copyHeld := rfl
@[simp] theorem State.modTeam_mxsUsed (s : State) (k : Nat) (f : Team → Team) : (s.modTeam k f).mxsUsed = s.mxsUsed := rfl
@[simp] theorem State.modTeam_deferred (s : State) (k : Nat) (f : Team → Team) : (s.modTeam k f).deferred = s.deferred := rfl
@[simp] theorem State.modTeam_windows (s : State) (k : Nat) (f : Team → Team) : (s.modTeam k f).windows = s.windows := rfl
@[simp] theorem State.modTeam_launches (s : State) (k : Nat) (f : Team → Team) : (s.modTeam k f).launches = s.launches := rfl
@[simp] theorem State.modTeam_loads (s : State) (k : Nat) (f : Team → Team) : (s.modTeam k f).loads = s.loads := rfl
@[simp] theorem State.modTeam_reqs (s : State) (k : Nat) (f : Team → Team) : (s.modTeam k f).reqs = s.reqs := rfl
@[simp] theorem State.modTeam_mcas (s : State) (k : Nat) (f : Team → Team) : (s.modTeam k f).mcas = s.mcas := rfl
@[simp] theorem State.modTeam_copies (s : State) (k : Nat) (f : Team → Team) : (s.modTeam k f).copies = s.copies := rfl
@[simp] theorem State.modTeam_gathers (s : State) (k : Nat) (f : Team → Team) : (s.modTeam k f).gathers = s.gathers := rfl
@[simp] theorem State.modTeam_ovls (s : State) (k : Nat) (f : Team → Team) : (s.modTeam k f).ovls = s.ovls := rfl
@[simp] theorem State.modTeam_episodes (s : State) (k : Nat) (f : Team → Team) : (s.modTeam k f).episodes = s.episodes := rfl
@[simp] theorem State.modTeam_replies (s : State) (k : Nat) (f : Team → Team) : (s.modTeam k f).replies = s.replies := rfl
@[simp] theorem State.modTeam_supOps (s : State) (k : Nat) (f : Team → Team) : (s.modTeam k f).supOps = s.supOps := rfl
@[simp] theorem State.modTeam_pieces (s : State) (k : Nat) (f : Team → Team) : (s.modTeam k f).pieces = s.pieces := rfl
@[simp] theorem State.modTeam_hreads (s : State) (k : Nat) (f : Team → Team) : (s.modTeam k f).hreads = s.hreads := rfl
@[simp] theorem State.modTeam_descs (s : State) (k : Nat) (f : Team → Team) : (s.modTeam k f).descs = s.descs := rfl
@[simp] theorem State.modTeam_hubH (s : State) (k : Nat) (f : Team → Team) : (s.modTeam k f).hubH = s.hubH := rfl
@[simp] theorem State.modTeam_hubSeq (s : State) (k : Nat) (f : Team → Team) : (s.modTeam k f).hubSeq = s.hubSeq := rfl
@[simp] theorem State.modTeam_hubC (s : State) (k : Nat) (f : Team → Team) : (s.modTeam k f).hubC = s.hubC := rfl
@[simp] theorem State.modTeam_dealNext (s : State) (k : Nat) (f : Team → Team) : (s.modTeam k f).dealNext = s.dealNext := rfl
@[simp] theorem State.modTeam_damam (s : State) (k : Nat) (f : Team → Team) : (s.modTeam k f).damam = s.damam := rfl
@[simp] theorem State.modTeam_contract (s : State) (k : Nat) (f : Team → Team) : (s.modTeam k f).contract = s.contract := rfl
@[simp] theorem State.modTeam_dies (s : State) (k : Nat) (f : Team → Team) : (s.modTeam k f).dies = s.dies := rfl
@[simp] theorem State.modTeam_links (s : State) (k : Nat) (f : Team → Team) : (s.modTeam k f).links = s.links := rfl
@[simp] theorem State.modTeam_firmwareOk (s : State) (k : Nat) (f : Team → Team) : (s.modTeam k f).firmwareOk = s.firmwareOk := rfl
@[simp] theorem State.modTeam_firmwareImage (s : State) (k : Nat) (f : Team → Team) : (s.modTeam k f).firmwareImage = s.firmwareImage := rfl
@[simp] theorem State.modTeam_firmwareNext (s : State) (k : Nat) (f : Team → Team) : (s.modTeam k f).firmwareNext = s.firmwareNext := rfl
@[simp] theorem State.modTeam_firmwareVer (s : State) (k : Nat) (f : Team → Team) : (s.modTeam k f).firmwareVer = s.firmwareVer := rfl
@[simp] theorem State.modTeam_fnCtx (s : State) (k : Nat) (f : Team → Team) : (s.modTeam k f).fnCtx = s.fnCtx := rfl
@[simp] theorem State.modTeam_powerCap (s : State) (k : Nat) (f : Team → Team) : (s.modTeam k f).powerCap = s.powerCap := rfl
@[simp] theorem State.modTeam_mhz (s : State) (k : Nat) (f : Team → Team) : (s.modTeam k f).mhz = s.mhz := rfl
@[simp] theorem State.modTeam_capMhz (s : State) (k : Nat) (f : Team → Team) : (s.modTeam k f).capMhz = s.capMhz := rfl
@[simp] theorem State.modTeam_throttled (s : State) (k : Nat) (f : Team → Team) : (s.modTeam k f).throttled = s.throttled := rfl
@[simp] theorem State.modTeam_watchLimit (s : State) (k : Nat) (f : Team → Team) : (s.modTeam k f).watchLimit = s.watchLimit := rfl
@[simp] theorem State.modTeam_watchNext (s : State) (k : Nat) (f : Team → Team) : (s.modTeam k f).watchNext = s.watchNext := rfl
@[simp] theorem State.modTeam_errLog (s : State) (k : Nat) (f : Team → Team) : (s.modTeam k f).errLog = s.errLog := rfl
@[simp] theorem State.modTeam_corrected (s : State) (k : Nat) (f : Team → Team) : (s.modTeam k f).corrected = s.corrected := rfl
@[simp] theorem State.modTeam_hostUp (s : State) (k : Nat) (f : Team → Team) : (s.modTeam k f).hostUp = s.hostUp := rfl
@[simp] theorem State.modTeam_insecure (s : State) (k : Nat) (f : Team → Team) : (s.modTeam k f).insecure = s.insecure := rfl
@[simp] theorem State.modTeam_msgs (s : State) (k : Nat) (f : Team → Team) : (s.modTeam k f).msgs = s.msgs := rfl
@[simp] theorem State.modTeam_atsCache (s : State) (k : Nat) (f : Team → Team) : (s.modTeam k f).atsCache = s.atsCache := rfl
@[simp] theorem State.modTeam_msixTable (s : State) (k : Nat) (f : Team → Team) : (s.modTeam k f).msixTable = s.msixTable := rfl
@[simp] theorem State.modTeam_upsets (s : State) (k : Nat) (f : Team → Team) : (s.modTeam k f).upsets = s.upsets := rfl
@[simp] theorem State.modTeam_routes (s : State) (k : Nat) (f : Team → Team) : (s.modTeam k f).routes = s.routes := rfl
@[simp] theorem State.modTeam_scrubAt (s : State) (k : Nat) (f : Team → Team) : (s.modTeam k f).scrubAt = s.scrubAt := rfl
@[simp] theorem State.modTeam_rehomed (s : State) (k : Nat) (f : Team → Team) : (s.modTeam k f).rehomed = s.rehomed := rfl
@[simp] theorem State.modTeam_spillUsed (s : State) (k : Nat) (f : Team → Team) : (s.modTeam k f).spillUsed = s.spillUsed := rfl
@[simp] theorem State.modTeam_detLog (s : State) (k : Nat) (f : Team → Team) : (s.modTeam k f).detLog = s.detLog := rfl
@[simp] theorem State.modTeam_detSync (s : State) (k : Nat) (f : Team → Team) : (s.modTeam k f).detSync = s.detSync := rfl
@[simp] theorem State.modTeam_undo (s : State) (k : Nat) (f : Team → Team) : (s.modTeam k f).undo = s.undo := rfl
@[simp] theorem State.modTeam_fibreEntry (s : State) (k : Nat) (f : Team → Team) : (s.modTeam k f).fibreEntry = s.fibreEntry := rfl
@[simp] theorem State.modTeam_freeCtr (s : State) (k : Nat) (f : Team → Team) : (s.modTeam k f).freeCtr = s.freeCtr := rfl
@[simp] theorem State.modTeam_delays (s : State) (k : Nat) (f : Team → Team) : (s.modTeam k f).delays = s.delays := rfl
@[simp] theorem State.modTeam_cur (s : State) (k : Nat) (f : Team → Team) : (s.modTeam k f).cur = s.cur := rfl
@[simp] theorem State.modTeam_toServe (s : State) (k : Nat) (f : Team → Team) : (s.modTeam k f).toServe = s.toServe := rfl
@[simp] theorem State.modTeam_tried (s : State) (k : Nat) (f : Team → Team) : (s.modTeam k f).tried = s.tried := rfl
@[simp] theorem State.modTeam_agenda (s : State) (k : Nat) (f : Team → Team) : (s.modTeam k f).agenda = s.agenda := rfl
@[simp] theorem State.modTeam_nextId (s : State) (k : Nat) (f : Team → Team) : (s.modTeam k f).nextId = s.nextId := rfl

/-! ### State.modGrid -/

@[simp] theorem State.modGrid_clock (s : State) (k : Nat) (f : Grid → Grid) : (s.modGrid k f).clock = s.clock := rfl
@[simp] theorem State.modGrid_mem (s : State) (k : Nat) (f : Grid → Grid) : (s.modGrid k f).mem = s.mem := rfl
@[simp] theorem State.modGrid_poison (s : State) (k : Nat) (f : Grid → Grid) : (s.modGrid k f).poison = s.poison := rfl
@[simp] theorem State.modGrid_rowFlags (s : State) (k : Nat) (f : Grid → Grid) : (s.modGrid k f).rowFlags = s.rowFlags := rfl
@[simp] theorem State.modGrid_lines (s : State) (k : Nat) (f : Grid → Grid) : (s.modGrid k f).lines = s.lines := rfl
@[simp] theorem State.modGrid_behind (s : State) (k : Nat) (f : Grid → Grid) : (s.modGrid k f).behind = s.behind := rfl
@[simp] theorem State.modGrid_tmax (s : State) (k : Nat) (f : Grid → Grid) : (s.modGrid k f).tmax = s.tmax := rfl
@[simp] theorem State.modGrid_l1 (s : State) (k : Nat) (f : Grid → Grid) : (s.modGrid k f).l1 = s.l1 := rfl
@[simp] theorem State.modGrid_tlbSlot (s : State) (k : Nat) (f : Grid → Grid) : (s.modGrid k f).tlbSlot = s.tlbSlot := rfl
@[simp] theorem State.modGrid_tlbDie (s : State) (k : Nat) (f : Grid → Grid) : (s.modGrid k f).tlbDie = s.tlbDie := rfl
@[simp] theorem State.modGrid_walkCache (s : State) (k : Nat) (f : Grid → Grid) : (s.modGrid k f).walkCache = s.walkCache := rfl
@[simp] theorem State.modGrid_walks (s : State) (k : Nat) (f : Grid → Grid) : (s.modGrid k f).walks = s.walks := rfl
@[simp] theorem State.modGrid_horLoc (s : State) (k : Nat) (f : Grid → Grid) : (s.modGrid k f).horLoc = s.horLoc := rfl
@[simp] theorem State.modGrid_horGal (s : State) (k : Nat) (f : Grid → Grid) : (s.modGrid k f).horGal = s.horGal := rfl
@[simp] theorem State.modGrid_horDev (s : State) (k : Nat) (f : Grid → Grid) : (s.modGrid k f).horDev = s.horDev := rfl
@[simp] theorem State.modGrid_horSys (s : State) (k : Nat) (f : Grid → Grid) : (s.modGrid k f).horSys = s.horSys := rfl
@[simp] theorem State.modGrid_cus (s : State) (k : Nat) (f : Grid → Grid) : (s.modGrid k f).cus = s.cus := rfl
@[simp] theorem State.modGrid_warps (s : State) (k : Nat) (f : Grid → Grid) : (s.modGrid k f).warps = s.warps := rfl
@[simp] theorem State.modGrid_teams (s : State) (k : Nat) (f : Grid → Grid) : (s.modGrid k f).teams = s.teams := rfl
@[simp] theorem State.modGrid_grids (s : State) (k : Nat) (f : Grid → Grid) : (s.modGrid k f).grids = amMod s.grids k f := rfl
@[simp] theorem State.modGrid_ctxs (s : State) (k : Nat) (f : Grid → Grid) : (s.modGrid k f).ctxs = s.ctxs := rfl
@[simp] theorem State.modGrid_atomUsed (s : State) (k : Nat) (f : Grid → Grid) : (s.modGrid k f).atomUsed = s.atomUsed := rfl
@[simp] theorem State.modGrid_linkUsed (s : State) (k : Nat) (f : Grid → Grid) : (s.modGrid k f).linkUsed = s.linkUsed := rfl
@[simp] theorem State.modGrid_linkHeld (s : State) (k : Nat) (f : Grid → Grid) : (s.modGrid k f).linkHeld = s.linkHeld := rfl
@[simp] theorem State.modGrid_copyUsed (s : State) (k : Nat) (f : Grid → Grid) : (s.modGrid k f).copyUsed = s.copyUsed := rfl
@[simp] theorem State.modGrid_copyHeld (s : State) (k : Nat) (f : Grid → Grid) : (s.modGrid k f).copyHeld = s.copyHeld := rfl
@[simp] theorem State.modGrid_mxsUsed (s : State) (k : Nat) (f : Grid → Grid) : (s.modGrid k f).mxsUsed = s.mxsUsed := rfl
@[simp] theorem State.modGrid_deferred (s : State) (k : Nat) (f : Grid → Grid) : (s.modGrid k f).deferred = s.deferred := rfl
@[simp] theorem State.modGrid_windows (s : State) (k : Nat) (f : Grid → Grid) : (s.modGrid k f).windows = s.windows := rfl
@[simp] theorem State.modGrid_launches (s : State) (k : Nat) (f : Grid → Grid) : (s.modGrid k f).launches = s.launches := rfl
@[simp] theorem State.modGrid_loads (s : State) (k : Nat) (f : Grid → Grid) : (s.modGrid k f).loads = s.loads := rfl
@[simp] theorem State.modGrid_reqs (s : State) (k : Nat) (f : Grid → Grid) : (s.modGrid k f).reqs = s.reqs := rfl
@[simp] theorem State.modGrid_mcas (s : State) (k : Nat) (f : Grid → Grid) : (s.modGrid k f).mcas = s.mcas := rfl
@[simp] theorem State.modGrid_copies (s : State) (k : Nat) (f : Grid → Grid) : (s.modGrid k f).copies = s.copies := rfl
@[simp] theorem State.modGrid_gathers (s : State) (k : Nat) (f : Grid → Grid) : (s.modGrid k f).gathers = s.gathers := rfl
@[simp] theorem State.modGrid_ovls (s : State) (k : Nat) (f : Grid → Grid) : (s.modGrid k f).ovls = s.ovls := rfl
@[simp] theorem State.modGrid_episodes (s : State) (k : Nat) (f : Grid → Grid) : (s.modGrid k f).episodes = s.episodes := rfl
@[simp] theorem State.modGrid_replies (s : State) (k : Nat) (f : Grid → Grid) : (s.modGrid k f).replies = s.replies := rfl
@[simp] theorem State.modGrid_supOps (s : State) (k : Nat) (f : Grid → Grid) : (s.modGrid k f).supOps = s.supOps := rfl
@[simp] theorem State.modGrid_pieces (s : State) (k : Nat) (f : Grid → Grid) : (s.modGrid k f).pieces = s.pieces := rfl
@[simp] theorem State.modGrid_hreads (s : State) (k : Nat) (f : Grid → Grid) : (s.modGrid k f).hreads = s.hreads := rfl
@[simp] theorem State.modGrid_descs (s : State) (k : Nat) (f : Grid → Grid) : (s.modGrid k f).descs = s.descs := rfl
@[simp] theorem State.modGrid_hubH (s : State) (k : Nat) (f : Grid → Grid) : (s.modGrid k f).hubH = s.hubH := rfl
@[simp] theorem State.modGrid_hubSeq (s : State) (k : Nat) (f : Grid → Grid) : (s.modGrid k f).hubSeq = s.hubSeq := rfl
@[simp] theorem State.modGrid_hubC (s : State) (k : Nat) (f : Grid → Grid) : (s.modGrid k f).hubC = s.hubC := rfl
@[simp] theorem State.modGrid_dealNext (s : State) (k : Nat) (f : Grid → Grid) : (s.modGrid k f).dealNext = s.dealNext := rfl
@[simp] theorem State.modGrid_damam (s : State) (k : Nat) (f : Grid → Grid) : (s.modGrid k f).damam = s.damam := rfl
@[simp] theorem State.modGrid_contract (s : State) (k : Nat) (f : Grid → Grid) : (s.modGrid k f).contract = s.contract := rfl
@[simp] theorem State.modGrid_dies (s : State) (k : Nat) (f : Grid → Grid) : (s.modGrid k f).dies = s.dies := rfl
@[simp] theorem State.modGrid_links (s : State) (k : Nat) (f : Grid → Grid) : (s.modGrid k f).links = s.links := rfl
@[simp] theorem State.modGrid_firmwareOk (s : State) (k : Nat) (f : Grid → Grid) : (s.modGrid k f).firmwareOk = s.firmwareOk := rfl
@[simp] theorem State.modGrid_firmwareImage (s : State) (k : Nat) (f : Grid → Grid) : (s.modGrid k f).firmwareImage = s.firmwareImage := rfl
@[simp] theorem State.modGrid_firmwareNext (s : State) (k : Nat) (f : Grid → Grid) : (s.modGrid k f).firmwareNext = s.firmwareNext := rfl
@[simp] theorem State.modGrid_firmwareVer (s : State) (k : Nat) (f : Grid → Grid) : (s.modGrid k f).firmwareVer = s.firmwareVer := rfl
@[simp] theorem State.modGrid_fnCtx (s : State) (k : Nat) (f : Grid → Grid) : (s.modGrid k f).fnCtx = s.fnCtx := rfl
@[simp] theorem State.modGrid_powerCap (s : State) (k : Nat) (f : Grid → Grid) : (s.modGrid k f).powerCap = s.powerCap := rfl
@[simp] theorem State.modGrid_mhz (s : State) (k : Nat) (f : Grid → Grid) : (s.modGrid k f).mhz = s.mhz := rfl
@[simp] theorem State.modGrid_capMhz (s : State) (k : Nat) (f : Grid → Grid) : (s.modGrid k f).capMhz = s.capMhz := rfl
@[simp] theorem State.modGrid_throttled (s : State) (k : Nat) (f : Grid → Grid) : (s.modGrid k f).throttled = s.throttled := rfl
@[simp] theorem State.modGrid_watchLimit (s : State) (k : Nat) (f : Grid → Grid) : (s.modGrid k f).watchLimit = s.watchLimit := rfl
@[simp] theorem State.modGrid_watchNext (s : State) (k : Nat) (f : Grid → Grid) : (s.modGrid k f).watchNext = s.watchNext := rfl
@[simp] theorem State.modGrid_errLog (s : State) (k : Nat) (f : Grid → Grid) : (s.modGrid k f).errLog = s.errLog := rfl
@[simp] theorem State.modGrid_corrected (s : State) (k : Nat) (f : Grid → Grid) : (s.modGrid k f).corrected = s.corrected := rfl
@[simp] theorem State.modGrid_hostUp (s : State) (k : Nat) (f : Grid → Grid) : (s.modGrid k f).hostUp = s.hostUp := rfl
@[simp] theorem State.modGrid_insecure (s : State) (k : Nat) (f : Grid → Grid) : (s.modGrid k f).insecure = s.insecure := rfl
@[simp] theorem State.modGrid_msgs (s : State) (k : Nat) (f : Grid → Grid) : (s.modGrid k f).msgs = s.msgs := rfl
@[simp] theorem State.modGrid_atsCache (s : State) (k : Nat) (f : Grid → Grid) : (s.modGrid k f).atsCache = s.atsCache := rfl
@[simp] theorem State.modGrid_msixTable (s : State) (k : Nat) (f : Grid → Grid) : (s.modGrid k f).msixTable = s.msixTable := rfl
@[simp] theorem State.modGrid_upsets (s : State) (k : Nat) (f : Grid → Grid) : (s.modGrid k f).upsets = s.upsets := rfl
@[simp] theorem State.modGrid_routes (s : State) (k : Nat) (f : Grid → Grid) : (s.modGrid k f).routes = s.routes := rfl
@[simp] theorem State.modGrid_scrubAt (s : State) (k : Nat) (f : Grid → Grid) : (s.modGrid k f).scrubAt = s.scrubAt := rfl
@[simp] theorem State.modGrid_rehomed (s : State) (k : Nat) (f : Grid → Grid) : (s.modGrid k f).rehomed = s.rehomed := rfl
@[simp] theorem State.modGrid_spillUsed (s : State) (k : Nat) (f : Grid → Grid) : (s.modGrid k f).spillUsed = s.spillUsed := rfl
@[simp] theorem State.modGrid_detLog (s : State) (k : Nat) (f : Grid → Grid) : (s.modGrid k f).detLog = s.detLog := rfl
@[simp] theorem State.modGrid_detSync (s : State) (k : Nat) (f : Grid → Grid) : (s.modGrid k f).detSync = s.detSync := rfl
@[simp] theorem State.modGrid_undo (s : State) (k : Nat) (f : Grid → Grid) : (s.modGrid k f).undo = s.undo := rfl
@[simp] theorem State.modGrid_fibreEntry (s : State) (k : Nat) (f : Grid → Grid) : (s.modGrid k f).fibreEntry = s.fibreEntry := rfl
@[simp] theorem State.modGrid_freeCtr (s : State) (k : Nat) (f : Grid → Grid) : (s.modGrid k f).freeCtr = s.freeCtr := rfl
@[simp] theorem State.modGrid_delays (s : State) (k : Nat) (f : Grid → Grid) : (s.modGrid k f).delays = s.delays := rfl
@[simp] theorem State.modGrid_cur (s : State) (k : Nat) (f : Grid → Grid) : (s.modGrid k f).cur = s.cur := rfl
@[simp] theorem State.modGrid_toServe (s : State) (k : Nat) (f : Grid → Grid) : (s.modGrid k f).toServe = s.toServe := rfl
@[simp] theorem State.modGrid_tried (s : State) (k : Nat) (f : Grid → Grid) : (s.modGrid k f).tried = s.tried := rfl
@[simp] theorem State.modGrid_agenda (s : State) (k : Nat) (f : Grid → Grid) : (s.modGrid k f).agenda = s.agenda := rfl
@[simp] theorem State.modGrid_nextId (s : State) (k : Nat) (f : Grid → Grid) : (s.modGrid k f).nextId = s.nextId := rfl

/-! ### State.modCtx -/

@[simp] theorem State.modCtx_clock (s : State) (k : Nat) (f : Ctx → Ctx) : (s.modCtx k f).clock = s.clock := rfl
@[simp] theorem State.modCtx_mem (s : State) (k : Nat) (f : Ctx → Ctx) : (s.modCtx k f).mem = s.mem := rfl
@[simp] theorem State.modCtx_poison (s : State) (k : Nat) (f : Ctx → Ctx) : (s.modCtx k f).poison = s.poison := rfl
@[simp] theorem State.modCtx_rowFlags (s : State) (k : Nat) (f : Ctx → Ctx) : (s.modCtx k f).rowFlags = s.rowFlags := rfl
@[simp] theorem State.modCtx_lines (s : State) (k : Nat) (f : Ctx → Ctx) : (s.modCtx k f).lines = s.lines := rfl
@[simp] theorem State.modCtx_behind (s : State) (k : Nat) (f : Ctx → Ctx) : (s.modCtx k f).behind = s.behind := rfl
@[simp] theorem State.modCtx_tmax (s : State) (k : Nat) (f : Ctx → Ctx) : (s.modCtx k f).tmax = s.tmax := rfl
@[simp] theorem State.modCtx_l1 (s : State) (k : Nat) (f : Ctx → Ctx) : (s.modCtx k f).l1 = s.l1 := rfl
@[simp] theorem State.modCtx_tlbSlot (s : State) (k : Nat) (f : Ctx → Ctx) : (s.modCtx k f).tlbSlot = s.tlbSlot := rfl
@[simp] theorem State.modCtx_tlbDie (s : State) (k : Nat) (f : Ctx → Ctx) : (s.modCtx k f).tlbDie = s.tlbDie := rfl
@[simp] theorem State.modCtx_walkCache (s : State) (k : Nat) (f : Ctx → Ctx) : (s.modCtx k f).walkCache = s.walkCache := rfl
@[simp] theorem State.modCtx_walks (s : State) (k : Nat) (f : Ctx → Ctx) : (s.modCtx k f).walks = s.walks := rfl
@[simp] theorem State.modCtx_horLoc (s : State) (k : Nat) (f : Ctx → Ctx) : (s.modCtx k f).horLoc = s.horLoc := rfl
@[simp] theorem State.modCtx_horGal (s : State) (k : Nat) (f : Ctx → Ctx) : (s.modCtx k f).horGal = s.horGal := rfl
@[simp] theorem State.modCtx_horDev (s : State) (k : Nat) (f : Ctx → Ctx) : (s.modCtx k f).horDev = s.horDev := rfl
@[simp] theorem State.modCtx_horSys (s : State) (k : Nat) (f : Ctx → Ctx) : (s.modCtx k f).horSys = s.horSys := rfl
@[simp] theorem State.modCtx_cus (s : State) (k : Nat) (f : Ctx → Ctx) : (s.modCtx k f).cus = s.cus := rfl
@[simp] theorem State.modCtx_warps (s : State) (k : Nat) (f : Ctx → Ctx) : (s.modCtx k f).warps = s.warps := rfl
@[simp] theorem State.modCtx_teams (s : State) (k : Nat) (f : Ctx → Ctx) : (s.modCtx k f).teams = s.teams := rfl
@[simp] theorem State.modCtx_grids (s : State) (k : Nat) (f : Ctx → Ctx) : (s.modCtx k f).grids = s.grids := rfl
@[simp] theorem State.modCtx_ctxs (s : State) (k : Nat) (f : Ctx → Ctx) : (s.modCtx k f).ctxs = amMod s.ctxs k f := rfl
@[simp] theorem State.modCtx_atomUsed (s : State) (k : Nat) (f : Ctx → Ctx) : (s.modCtx k f).atomUsed = s.atomUsed := rfl
@[simp] theorem State.modCtx_linkUsed (s : State) (k : Nat) (f : Ctx → Ctx) : (s.modCtx k f).linkUsed = s.linkUsed := rfl
@[simp] theorem State.modCtx_linkHeld (s : State) (k : Nat) (f : Ctx → Ctx) : (s.modCtx k f).linkHeld = s.linkHeld := rfl
@[simp] theorem State.modCtx_copyUsed (s : State) (k : Nat) (f : Ctx → Ctx) : (s.modCtx k f).copyUsed = s.copyUsed := rfl
@[simp] theorem State.modCtx_copyHeld (s : State) (k : Nat) (f : Ctx → Ctx) : (s.modCtx k f).copyHeld = s.copyHeld := rfl
@[simp] theorem State.modCtx_mxsUsed (s : State) (k : Nat) (f : Ctx → Ctx) : (s.modCtx k f).mxsUsed = s.mxsUsed := rfl
@[simp] theorem State.modCtx_deferred (s : State) (k : Nat) (f : Ctx → Ctx) : (s.modCtx k f).deferred = s.deferred := rfl
@[simp] theorem State.modCtx_windows (s : State) (k : Nat) (f : Ctx → Ctx) : (s.modCtx k f).windows = s.windows := rfl
@[simp] theorem State.modCtx_launches (s : State) (k : Nat) (f : Ctx → Ctx) : (s.modCtx k f).launches = s.launches := rfl
@[simp] theorem State.modCtx_loads (s : State) (k : Nat) (f : Ctx → Ctx) : (s.modCtx k f).loads = s.loads := rfl
@[simp] theorem State.modCtx_reqs (s : State) (k : Nat) (f : Ctx → Ctx) : (s.modCtx k f).reqs = s.reqs := rfl
@[simp] theorem State.modCtx_mcas (s : State) (k : Nat) (f : Ctx → Ctx) : (s.modCtx k f).mcas = s.mcas := rfl
@[simp] theorem State.modCtx_copies (s : State) (k : Nat) (f : Ctx → Ctx) : (s.modCtx k f).copies = s.copies := rfl
@[simp] theorem State.modCtx_gathers (s : State) (k : Nat) (f : Ctx → Ctx) : (s.modCtx k f).gathers = s.gathers := rfl
@[simp] theorem State.modCtx_ovls (s : State) (k : Nat) (f : Ctx → Ctx) : (s.modCtx k f).ovls = s.ovls := rfl
@[simp] theorem State.modCtx_episodes (s : State) (k : Nat) (f : Ctx → Ctx) : (s.modCtx k f).episodes = s.episodes := rfl
@[simp] theorem State.modCtx_replies (s : State) (k : Nat) (f : Ctx → Ctx) : (s.modCtx k f).replies = s.replies := rfl
@[simp] theorem State.modCtx_supOps (s : State) (k : Nat) (f : Ctx → Ctx) : (s.modCtx k f).supOps = s.supOps := rfl
@[simp] theorem State.modCtx_pieces (s : State) (k : Nat) (f : Ctx → Ctx) : (s.modCtx k f).pieces = s.pieces := rfl
@[simp] theorem State.modCtx_hreads (s : State) (k : Nat) (f : Ctx → Ctx) : (s.modCtx k f).hreads = s.hreads := rfl
@[simp] theorem State.modCtx_descs (s : State) (k : Nat) (f : Ctx → Ctx) : (s.modCtx k f).descs = s.descs := rfl
@[simp] theorem State.modCtx_hubH (s : State) (k : Nat) (f : Ctx → Ctx) : (s.modCtx k f).hubH = s.hubH := rfl
@[simp] theorem State.modCtx_hubSeq (s : State) (k : Nat) (f : Ctx → Ctx) : (s.modCtx k f).hubSeq = s.hubSeq := rfl
@[simp] theorem State.modCtx_hubC (s : State) (k : Nat) (f : Ctx → Ctx) : (s.modCtx k f).hubC = s.hubC := rfl
@[simp] theorem State.modCtx_dealNext (s : State) (k : Nat) (f : Ctx → Ctx) : (s.modCtx k f).dealNext = s.dealNext := rfl
@[simp] theorem State.modCtx_damam (s : State) (k : Nat) (f : Ctx → Ctx) : (s.modCtx k f).damam = s.damam := rfl
@[simp] theorem State.modCtx_contract (s : State) (k : Nat) (f : Ctx → Ctx) : (s.modCtx k f).contract = s.contract := rfl
@[simp] theorem State.modCtx_dies (s : State) (k : Nat) (f : Ctx → Ctx) : (s.modCtx k f).dies = s.dies := rfl
@[simp] theorem State.modCtx_links (s : State) (k : Nat) (f : Ctx → Ctx) : (s.modCtx k f).links = s.links := rfl
@[simp] theorem State.modCtx_firmwareOk (s : State) (k : Nat) (f : Ctx → Ctx) : (s.modCtx k f).firmwareOk = s.firmwareOk := rfl
@[simp] theorem State.modCtx_firmwareImage (s : State) (k : Nat) (f : Ctx → Ctx) : (s.modCtx k f).firmwareImage = s.firmwareImage := rfl
@[simp] theorem State.modCtx_firmwareNext (s : State) (k : Nat) (f : Ctx → Ctx) : (s.modCtx k f).firmwareNext = s.firmwareNext := rfl
@[simp] theorem State.modCtx_firmwareVer (s : State) (k : Nat) (f : Ctx → Ctx) : (s.modCtx k f).firmwareVer = s.firmwareVer := rfl
@[simp] theorem State.modCtx_fnCtx (s : State) (k : Nat) (f : Ctx → Ctx) : (s.modCtx k f).fnCtx = s.fnCtx := rfl
@[simp] theorem State.modCtx_powerCap (s : State) (k : Nat) (f : Ctx → Ctx) : (s.modCtx k f).powerCap = s.powerCap := rfl
@[simp] theorem State.modCtx_mhz (s : State) (k : Nat) (f : Ctx → Ctx) : (s.modCtx k f).mhz = s.mhz := rfl
@[simp] theorem State.modCtx_capMhz (s : State) (k : Nat) (f : Ctx → Ctx) : (s.modCtx k f).capMhz = s.capMhz := rfl
@[simp] theorem State.modCtx_throttled (s : State) (k : Nat) (f : Ctx → Ctx) : (s.modCtx k f).throttled = s.throttled := rfl
@[simp] theorem State.modCtx_watchLimit (s : State) (k : Nat) (f : Ctx → Ctx) : (s.modCtx k f).watchLimit = s.watchLimit := rfl
@[simp] theorem State.modCtx_watchNext (s : State) (k : Nat) (f : Ctx → Ctx) : (s.modCtx k f).watchNext = s.watchNext := rfl
@[simp] theorem State.modCtx_errLog (s : State) (k : Nat) (f : Ctx → Ctx) : (s.modCtx k f).errLog = s.errLog := rfl
@[simp] theorem State.modCtx_corrected (s : State) (k : Nat) (f : Ctx → Ctx) : (s.modCtx k f).corrected = s.corrected := rfl
@[simp] theorem State.modCtx_hostUp (s : State) (k : Nat) (f : Ctx → Ctx) : (s.modCtx k f).hostUp = s.hostUp := rfl
@[simp] theorem State.modCtx_insecure (s : State) (k : Nat) (f : Ctx → Ctx) : (s.modCtx k f).insecure = s.insecure := rfl
@[simp] theorem State.modCtx_msgs (s : State) (k : Nat) (f : Ctx → Ctx) : (s.modCtx k f).msgs = s.msgs := rfl
@[simp] theorem State.modCtx_atsCache (s : State) (k : Nat) (f : Ctx → Ctx) : (s.modCtx k f).atsCache = s.atsCache := rfl
@[simp] theorem State.modCtx_msixTable (s : State) (k : Nat) (f : Ctx → Ctx) : (s.modCtx k f).msixTable = s.msixTable := rfl
@[simp] theorem State.modCtx_upsets (s : State) (k : Nat) (f : Ctx → Ctx) : (s.modCtx k f).upsets = s.upsets := rfl
@[simp] theorem State.modCtx_routes (s : State) (k : Nat) (f : Ctx → Ctx) : (s.modCtx k f).routes = s.routes := rfl
@[simp] theorem State.modCtx_scrubAt (s : State) (k : Nat) (f : Ctx → Ctx) : (s.modCtx k f).scrubAt = s.scrubAt := rfl
@[simp] theorem State.modCtx_rehomed (s : State) (k : Nat) (f : Ctx → Ctx) : (s.modCtx k f).rehomed = s.rehomed := rfl
@[simp] theorem State.modCtx_spillUsed (s : State) (k : Nat) (f : Ctx → Ctx) : (s.modCtx k f).spillUsed = s.spillUsed := rfl
@[simp] theorem State.modCtx_detLog (s : State) (k : Nat) (f : Ctx → Ctx) : (s.modCtx k f).detLog = s.detLog := rfl
@[simp] theorem State.modCtx_detSync (s : State) (k : Nat) (f : Ctx → Ctx) : (s.modCtx k f).detSync = s.detSync := rfl
@[simp] theorem State.modCtx_undo (s : State) (k : Nat) (f : Ctx → Ctx) : (s.modCtx k f).undo = s.undo := rfl
@[simp] theorem State.modCtx_fibreEntry (s : State) (k : Nat) (f : Ctx → Ctx) : (s.modCtx k f).fibreEntry = s.fibreEntry := rfl
@[simp] theorem State.modCtx_freeCtr (s : State) (k : Nat) (f : Ctx → Ctx) : (s.modCtx k f).freeCtr = s.freeCtr := rfl
@[simp] theorem State.modCtx_delays (s : State) (k : Nat) (f : Ctx → Ctx) : (s.modCtx k f).delays = s.delays := rfl
@[simp] theorem State.modCtx_cur (s : State) (k : Nat) (f : Ctx → Ctx) : (s.modCtx k f).cur = s.cur := rfl
@[simp] theorem State.modCtx_toServe (s : State) (k : Nat) (f : Ctx → Ctx) : (s.modCtx k f).toServe = s.toServe := rfl
@[simp] theorem State.modCtx_tried (s : State) (k : Nat) (f : Ctx → Ctx) : (s.modCtx k f).tried = s.tried := rfl
@[simp] theorem State.modCtx_agenda (s : State) (k : Nat) (f : Ctx → Ctx) : (s.modCtx k f).agenda = s.agenda := rfl
@[simp] theorem State.modCtx_nextId (s : State) (k : Nat) (f : Ctx → Ctx) : (s.modCtx k f).nextId = s.nextId := rfl

/-! ### State.modReq -/

@[simp] theorem State.modReq_clock (s : State) (k : Nat) (f : Req → Req) : (s.modReq k f).clock = s.clock := rfl
@[simp] theorem State.modReq_mem (s : State) (k : Nat) (f : Req → Req) : (s.modReq k f).mem = s.mem := rfl
@[simp] theorem State.modReq_poison (s : State) (k : Nat) (f : Req → Req) : (s.modReq k f).poison = s.poison := rfl
@[simp] theorem State.modReq_rowFlags (s : State) (k : Nat) (f : Req → Req) : (s.modReq k f).rowFlags = s.rowFlags := rfl
@[simp] theorem State.modReq_lines (s : State) (k : Nat) (f : Req → Req) : (s.modReq k f).lines = s.lines := rfl
@[simp] theorem State.modReq_behind (s : State) (k : Nat) (f : Req → Req) : (s.modReq k f).behind = s.behind := rfl
@[simp] theorem State.modReq_tmax (s : State) (k : Nat) (f : Req → Req) : (s.modReq k f).tmax = s.tmax := rfl
@[simp] theorem State.modReq_l1 (s : State) (k : Nat) (f : Req → Req) : (s.modReq k f).l1 = s.l1 := rfl
@[simp] theorem State.modReq_tlbSlot (s : State) (k : Nat) (f : Req → Req) : (s.modReq k f).tlbSlot = s.tlbSlot := rfl
@[simp] theorem State.modReq_tlbDie (s : State) (k : Nat) (f : Req → Req) : (s.modReq k f).tlbDie = s.tlbDie := rfl
@[simp] theorem State.modReq_walkCache (s : State) (k : Nat) (f : Req → Req) : (s.modReq k f).walkCache = s.walkCache := rfl
@[simp] theorem State.modReq_walks (s : State) (k : Nat) (f : Req → Req) : (s.modReq k f).walks = s.walks := rfl
@[simp] theorem State.modReq_horLoc (s : State) (k : Nat) (f : Req → Req) : (s.modReq k f).horLoc = s.horLoc := rfl
@[simp] theorem State.modReq_horGal (s : State) (k : Nat) (f : Req → Req) : (s.modReq k f).horGal = s.horGal := rfl
@[simp] theorem State.modReq_horDev (s : State) (k : Nat) (f : Req → Req) : (s.modReq k f).horDev = s.horDev := rfl
@[simp] theorem State.modReq_horSys (s : State) (k : Nat) (f : Req → Req) : (s.modReq k f).horSys = s.horSys := rfl
@[simp] theorem State.modReq_cus (s : State) (k : Nat) (f : Req → Req) : (s.modReq k f).cus = s.cus := rfl
@[simp] theorem State.modReq_warps (s : State) (k : Nat) (f : Req → Req) : (s.modReq k f).warps = s.warps := rfl
@[simp] theorem State.modReq_teams (s : State) (k : Nat) (f : Req → Req) : (s.modReq k f).teams = s.teams := rfl
@[simp] theorem State.modReq_grids (s : State) (k : Nat) (f : Req → Req) : (s.modReq k f).grids = s.grids := rfl
@[simp] theorem State.modReq_ctxs (s : State) (k : Nat) (f : Req → Req) : (s.modReq k f).ctxs = s.ctxs := rfl
@[simp] theorem State.modReq_atomUsed (s : State) (k : Nat) (f : Req → Req) : (s.modReq k f).atomUsed = s.atomUsed := rfl
@[simp] theorem State.modReq_linkUsed (s : State) (k : Nat) (f : Req → Req) : (s.modReq k f).linkUsed = s.linkUsed := rfl
@[simp] theorem State.modReq_linkHeld (s : State) (k : Nat) (f : Req → Req) : (s.modReq k f).linkHeld = s.linkHeld := rfl
@[simp] theorem State.modReq_copyUsed (s : State) (k : Nat) (f : Req → Req) : (s.modReq k f).copyUsed = s.copyUsed := rfl
@[simp] theorem State.modReq_copyHeld (s : State) (k : Nat) (f : Req → Req) : (s.modReq k f).copyHeld = s.copyHeld := rfl
@[simp] theorem State.modReq_mxsUsed (s : State) (k : Nat) (f : Req → Req) : (s.modReq k f).mxsUsed = s.mxsUsed := rfl
@[simp] theorem State.modReq_deferred (s : State) (k : Nat) (f : Req → Req) : (s.modReq k f).deferred = s.deferred := rfl
@[simp] theorem State.modReq_windows (s : State) (k : Nat) (f : Req → Req) : (s.modReq k f).windows = s.windows := rfl
@[simp] theorem State.modReq_launches (s : State) (k : Nat) (f : Req → Req) : (s.modReq k f).launches = s.launches := rfl
@[simp] theorem State.modReq_loads (s : State) (k : Nat) (f : Req → Req) : (s.modReq k f).loads = s.loads := rfl
@[simp] theorem State.modReq_reqs (s : State) (k : Nat) (f : Req → Req) : (s.modReq k f).reqs = amMod s.reqs k f := rfl
@[simp] theorem State.modReq_mcas (s : State) (k : Nat) (f : Req → Req) : (s.modReq k f).mcas = s.mcas := rfl
@[simp] theorem State.modReq_copies (s : State) (k : Nat) (f : Req → Req) : (s.modReq k f).copies = s.copies := rfl
@[simp] theorem State.modReq_gathers (s : State) (k : Nat) (f : Req → Req) : (s.modReq k f).gathers = s.gathers := rfl
@[simp] theorem State.modReq_ovls (s : State) (k : Nat) (f : Req → Req) : (s.modReq k f).ovls = s.ovls := rfl
@[simp] theorem State.modReq_episodes (s : State) (k : Nat) (f : Req → Req) : (s.modReq k f).episodes = s.episodes := rfl
@[simp] theorem State.modReq_replies (s : State) (k : Nat) (f : Req → Req) : (s.modReq k f).replies = s.replies := rfl
@[simp] theorem State.modReq_supOps (s : State) (k : Nat) (f : Req → Req) : (s.modReq k f).supOps = s.supOps := rfl
@[simp] theorem State.modReq_pieces (s : State) (k : Nat) (f : Req → Req) : (s.modReq k f).pieces = s.pieces := rfl
@[simp] theorem State.modReq_hreads (s : State) (k : Nat) (f : Req → Req) : (s.modReq k f).hreads = s.hreads := rfl
@[simp] theorem State.modReq_descs (s : State) (k : Nat) (f : Req → Req) : (s.modReq k f).descs = s.descs := rfl
@[simp] theorem State.modReq_hubH (s : State) (k : Nat) (f : Req → Req) : (s.modReq k f).hubH = s.hubH := rfl
@[simp] theorem State.modReq_hubSeq (s : State) (k : Nat) (f : Req → Req) : (s.modReq k f).hubSeq = s.hubSeq := rfl
@[simp] theorem State.modReq_hubC (s : State) (k : Nat) (f : Req → Req) : (s.modReq k f).hubC = s.hubC := rfl
@[simp] theorem State.modReq_dealNext (s : State) (k : Nat) (f : Req → Req) : (s.modReq k f).dealNext = s.dealNext := rfl
@[simp] theorem State.modReq_damam (s : State) (k : Nat) (f : Req → Req) : (s.modReq k f).damam = s.damam := rfl
@[simp] theorem State.modReq_contract (s : State) (k : Nat) (f : Req → Req) : (s.modReq k f).contract = s.contract := rfl
@[simp] theorem State.modReq_dies (s : State) (k : Nat) (f : Req → Req) : (s.modReq k f).dies = s.dies := rfl
@[simp] theorem State.modReq_links (s : State) (k : Nat) (f : Req → Req) : (s.modReq k f).links = s.links := rfl
@[simp] theorem State.modReq_firmwareOk (s : State) (k : Nat) (f : Req → Req) : (s.modReq k f).firmwareOk = s.firmwareOk := rfl
@[simp] theorem State.modReq_firmwareImage (s : State) (k : Nat) (f : Req → Req) : (s.modReq k f).firmwareImage = s.firmwareImage := rfl
@[simp] theorem State.modReq_firmwareNext (s : State) (k : Nat) (f : Req → Req) : (s.modReq k f).firmwareNext = s.firmwareNext := rfl
@[simp] theorem State.modReq_firmwareVer (s : State) (k : Nat) (f : Req → Req) : (s.modReq k f).firmwareVer = s.firmwareVer := rfl
@[simp] theorem State.modReq_fnCtx (s : State) (k : Nat) (f : Req → Req) : (s.modReq k f).fnCtx = s.fnCtx := rfl
@[simp] theorem State.modReq_powerCap (s : State) (k : Nat) (f : Req → Req) : (s.modReq k f).powerCap = s.powerCap := rfl
@[simp] theorem State.modReq_mhz (s : State) (k : Nat) (f : Req → Req) : (s.modReq k f).mhz = s.mhz := rfl
@[simp] theorem State.modReq_capMhz (s : State) (k : Nat) (f : Req → Req) : (s.modReq k f).capMhz = s.capMhz := rfl
@[simp] theorem State.modReq_throttled (s : State) (k : Nat) (f : Req → Req) : (s.modReq k f).throttled = s.throttled := rfl
@[simp] theorem State.modReq_watchLimit (s : State) (k : Nat) (f : Req → Req) : (s.modReq k f).watchLimit = s.watchLimit := rfl
@[simp] theorem State.modReq_watchNext (s : State) (k : Nat) (f : Req → Req) : (s.modReq k f).watchNext = s.watchNext := rfl
@[simp] theorem State.modReq_errLog (s : State) (k : Nat) (f : Req → Req) : (s.modReq k f).errLog = s.errLog := rfl
@[simp] theorem State.modReq_corrected (s : State) (k : Nat) (f : Req → Req) : (s.modReq k f).corrected = s.corrected := rfl
@[simp] theorem State.modReq_hostUp (s : State) (k : Nat) (f : Req → Req) : (s.modReq k f).hostUp = s.hostUp := rfl
@[simp] theorem State.modReq_insecure (s : State) (k : Nat) (f : Req → Req) : (s.modReq k f).insecure = s.insecure := rfl
@[simp] theorem State.modReq_msgs (s : State) (k : Nat) (f : Req → Req) : (s.modReq k f).msgs = s.msgs := rfl
@[simp] theorem State.modReq_atsCache (s : State) (k : Nat) (f : Req → Req) : (s.modReq k f).atsCache = s.atsCache := rfl
@[simp] theorem State.modReq_msixTable (s : State) (k : Nat) (f : Req → Req) : (s.modReq k f).msixTable = s.msixTable := rfl
@[simp] theorem State.modReq_upsets (s : State) (k : Nat) (f : Req → Req) : (s.modReq k f).upsets = s.upsets := rfl
@[simp] theorem State.modReq_routes (s : State) (k : Nat) (f : Req → Req) : (s.modReq k f).routes = s.routes := rfl
@[simp] theorem State.modReq_scrubAt (s : State) (k : Nat) (f : Req → Req) : (s.modReq k f).scrubAt = s.scrubAt := rfl
@[simp] theorem State.modReq_rehomed (s : State) (k : Nat) (f : Req → Req) : (s.modReq k f).rehomed = s.rehomed := rfl
@[simp] theorem State.modReq_spillUsed (s : State) (k : Nat) (f : Req → Req) : (s.modReq k f).spillUsed = s.spillUsed := rfl
@[simp] theorem State.modReq_detLog (s : State) (k : Nat) (f : Req → Req) : (s.modReq k f).detLog = s.detLog := rfl
@[simp] theorem State.modReq_detSync (s : State) (k : Nat) (f : Req → Req) : (s.modReq k f).detSync = s.detSync := rfl
@[simp] theorem State.modReq_undo (s : State) (k : Nat) (f : Req → Req) : (s.modReq k f).undo = s.undo := rfl
@[simp] theorem State.modReq_fibreEntry (s : State) (k : Nat) (f : Req → Req) : (s.modReq k f).fibreEntry = s.fibreEntry := rfl
@[simp] theorem State.modReq_freeCtr (s : State) (k : Nat) (f : Req → Req) : (s.modReq k f).freeCtr = s.freeCtr := rfl
@[simp] theorem State.modReq_delays (s : State) (k : Nat) (f : Req → Req) : (s.modReq k f).delays = s.delays := rfl
@[simp] theorem State.modReq_cur (s : State) (k : Nat) (f : Req → Req) : (s.modReq k f).cur = s.cur := rfl
@[simp] theorem State.modReq_toServe (s : State) (k : Nat) (f : Req → Req) : (s.modReq k f).toServe = s.toServe := rfl
@[simp] theorem State.modReq_tried (s : State) (k : Nat) (f : Req → Req) : (s.modReq k f).tried = s.tried := rfl
@[simp] theorem State.modReq_agenda (s : State) (k : Nat) (f : Req → Req) : (s.modReq k f).agenda = s.agenda := rfl
@[simp] theorem State.modReq_nextId (s : State) (k : Nat) (f : Req → Req) : (s.modReq k f).nextId = s.nextId := rfl

/-! ### State.setLine -/

@[simp] theorem State.setLine_clock (s : State) (l : Nat) (x : Line) : (s.setLine l x).clock = s.clock := rfl
@[simp] theorem State.setLine_mem (s : State) (l : Nat) (x : Line) : (s.setLine l x).mem = s.mem := rfl
@[simp] theorem State.setLine_poison (s : State) (l : Nat) (x : Line) : (s.setLine l x).poison = s.poison := rfl
@[simp] theorem State.setLine_rowFlags (s : State) (l : Nat) (x : Line) : (s.setLine l x).rowFlags = s.rowFlags := rfl
@[simp] theorem State.setLine_lines (s : State) (l : Nat) (x : Line) : (s.setLine l x).lines = amSet s.lines l x := rfl
@[simp] theorem State.setLine_behind (s : State) (l : Nat) (x : Line) : (s.setLine l x).behind = s.behind := rfl
@[simp] theorem State.setLine_tmax (s : State) (l : Nat) (x : Line) : (s.setLine l x).tmax = s.tmax := rfl
@[simp] theorem State.setLine_l1 (s : State) (l : Nat) (x : Line) : (s.setLine l x).l1 = s.l1 := rfl
@[simp] theorem State.setLine_tlbSlot (s : State) (l : Nat) (x : Line) : (s.setLine l x).tlbSlot = s.tlbSlot := rfl
@[simp] theorem State.setLine_tlbDie (s : State) (l : Nat) (x : Line) : (s.setLine l x).tlbDie = s.tlbDie := rfl
@[simp] theorem State.setLine_walkCache (s : State) (l : Nat) (x : Line) : (s.setLine l x).walkCache = s.walkCache := rfl
@[simp] theorem State.setLine_walks (s : State) (l : Nat) (x : Line) : (s.setLine l x).walks = s.walks := rfl
@[simp] theorem State.setLine_horLoc (s : State) (l : Nat) (x : Line) : (s.setLine l x).horLoc = s.horLoc := rfl
@[simp] theorem State.setLine_horGal (s : State) (l : Nat) (x : Line) : (s.setLine l x).horGal = s.horGal := rfl
@[simp] theorem State.setLine_horDev (s : State) (l : Nat) (x : Line) : (s.setLine l x).horDev = s.horDev := rfl
@[simp] theorem State.setLine_horSys (s : State) (l : Nat) (x : Line) : (s.setLine l x).horSys = s.horSys := rfl
@[simp] theorem State.setLine_cus (s : State) (l : Nat) (x : Line) : (s.setLine l x).cus = s.cus := rfl
@[simp] theorem State.setLine_warps (s : State) (l : Nat) (x : Line) : (s.setLine l x).warps = s.warps := rfl
@[simp] theorem State.setLine_teams (s : State) (l : Nat) (x : Line) : (s.setLine l x).teams = s.teams := rfl
@[simp] theorem State.setLine_grids (s : State) (l : Nat) (x : Line) : (s.setLine l x).grids = s.grids := rfl
@[simp] theorem State.setLine_ctxs (s : State) (l : Nat) (x : Line) : (s.setLine l x).ctxs = s.ctxs := rfl
@[simp] theorem State.setLine_atomUsed (s : State) (l : Nat) (x : Line) : (s.setLine l x).atomUsed = s.atomUsed := rfl
@[simp] theorem State.setLine_linkUsed (s : State) (l : Nat) (x : Line) : (s.setLine l x).linkUsed = s.linkUsed := rfl
@[simp] theorem State.setLine_linkHeld (s : State) (l : Nat) (x : Line) : (s.setLine l x).linkHeld = s.linkHeld := rfl
@[simp] theorem State.setLine_copyUsed (s : State) (l : Nat) (x : Line) : (s.setLine l x).copyUsed = s.copyUsed := rfl
@[simp] theorem State.setLine_copyHeld (s : State) (l : Nat) (x : Line) : (s.setLine l x).copyHeld = s.copyHeld := rfl
@[simp] theorem State.setLine_mxsUsed (s : State) (l : Nat) (x : Line) : (s.setLine l x).mxsUsed = s.mxsUsed := rfl
@[simp] theorem State.setLine_deferred (s : State) (l : Nat) (x : Line) : (s.setLine l x).deferred = s.deferred := rfl
@[simp] theorem State.setLine_windows (s : State) (l : Nat) (x : Line) : (s.setLine l x).windows = s.windows := rfl
@[simp] theorem State.setLine_launches (s : State) (l : Nat) (x : Line) : (s.setLine l x).launches = s.launches := rfl
@[simp] theorem State.setLine_loads (s : State) (l : Nat) (x : Line) : (s.setLine l x).loads = s.loads := rfl
@[simp] theorem State.setLine_reqs (s : State) (l : Nat) (x : Line) : (s.setLine l x).reqs = s.reqs := rfl
@[simp] theorem State.setLine_mcas (s : State) (l : Nat) (x : Line) : (s.setLine l x).mcas = s.mcas := rfl
@[simp] theorem State.setLine_copies (s : State) (l : Nat) (x : Line) : (s.setLine l x).copies = s.copies := rfl
@[simp] theorem State.setLine_gathers (s : State) (l : Nat) (x : Line) : (s.setLine l x).gathers = s.gathers := rfl
@[simp] theorem State.setLine_ovls (s : State) (l : Nat) (x : Line) : (s.setLine l x).ovls = s.ovls := rfl
@[simp] theorem State.setLine_episodes (s : State) (l : Nat) (x : Line) : (s.setLine l x).episodes = s.episodes := rfl
@[simp] theorem State.setLine_replies (s : State) (l : Nat) (x : Line) : (s.setLine l x).replies = s.replies := rfl
@[simp] theorem State.setLine_supOps (s : State) (l : Nat) (x : Line) : (s.setLine l x).supOps = s.supOps := rfl
@[simp] theorem State.setLine_pieces (s : State) (l : Nat) (x : Line) : (s.setLine l x).pieces = s.pieces := rfl
@[simp] theorem State.setLine_hreads (s : State) (l : Nat) (x : Line) : (s.setLine l x).hreads = s.hreads := rfl
@[simp] theorem State.setLine_descs (s : State) (l : Nat) (x : Line) : (s.setLine l x).descs = s.descs := rfl
@[simp] theorem State.setLine_hubH (s : State) (l : Nat) (x : Line) : (s.setLine l x).hubH = s.hubH := rfl
@[simp] theorem State.setLine_hubSeq (s : State) (l : Nat) (x : Line) : (s.setLine l x).hubSeq = s.hubSeq := rfl
@[simp] theorem State.setLine_hubC (s : State) (l : Nat) (x : Line) : (s.setLine l x).hubC = s.hubC := rfl
@[simp] theorem State.setLine_dealNext (s : State) (l : Nat) (x : Line) : (s.setLine l x).dealNext = s.dealNext := rfl
@[simp] theorem State.setLine_damam (s : State) (l : Nat) (x : Line) : (s.setLine l x).damam = s.damam := rfl
@[simp] theorem State.setLine_contract (s : State) (l : Nat) (x : Line) : (s.setLine l x).contract = s.contract := rfl
@[simp] theorem State.setLine_dies (s : State) (l : Nat) (x : Line) : (s.setLine l x).dies = s.dies := rfl
@[simp] theorem State.setLine_links (s : State) (l : Nat) (x : Line) : (s.setLine l x).links = s.links := rfl
@[simp] theorem State.setLine_firmwareOk (s : State) (l : Nat) (x : Line) : (s.setLine l x).firmwareOk = s.firmwareOk := rfl
@[simp] theorem State.setLine_firmwareImage (s : State) (l : Nat) (x : Line) : (s.setLine l x).firmwareImage = s.firmwareImage := rfl
@[simp] theorem State.setLine_firmwareNext (s : State) (l : Nat) (x : Line) : (s.setLine l x).firmwareNext = s.firmwareNext := rfl
@[simp] theorem State.setLine_firmwareVer (s : State) (l : Nat) (x : Line) : (s.setLine l x).firmwareVer = s.firmwareVer := rfl
@[simp] theorem State.setLine_fnCtx (s : State) (l : Nat) (x : Line) : (s.setLine l x).fnCtx = s.fnCtx := rfl
@[simp] theorem State.setLine_powerCap (s : State) (l : Nat) (x : Line) : (s.setLine l x).powerCap = s.powerCap := rfl
@[simp] theorem State.setLine_mhz (s : State) (l : Nat) (x : Line) : (s.setLine l x).mhz = s.mhz := rfl
@[simp] theorem State.setLine_capMhz (s : State) (l : Nat) (x : Line) : (s.setLine l x).capMhz = s.capMhz := rfl
@[simp] theorem State.setLine_throttled (s : State) (l : Nat) (x : Line) : (s.setLine l x).throttled = s.throttled := rfl
@[simp] theorem State.setLine_watchLimit (s : State) (l : Nat) (x : Line) : (s.setLine l x).watchLimit = s.watchLimit := rfl
@[simp] theorem State.setLine_watchNext (s : State) (l : Nat) (x : Line) : (s.setLine l x).watchNext = s.watchNext := rfl
@[simp] theorem State.setLine_errLog (s : State) (l : Nat) (x : Line) : (s.setLine l x).errLog = s.errLog := rfl
@[simp] theorem State.setLine_corrected (s : State) (l : Nat) (x : Line) : (s.setLine l x).corrected = s.corrected := rfl
@[simp] theorem State.setLine_hostUp (s : State) (l : Nat) (x : Line) : (s.setLine l x).hostUp = s.hostUp := rfl
@[simp] theorem State.setLine_insecure (s : State) (l : Nat) (x : Line) : (s.setLine l x).insecure = s.insecure := rfl
@[simp] theorem State.setLine_msgs (s : State) (l : Nat) (x : Line) : (s.setLine l x).msgs = s.msgs := rfl
@[simp] theorem State.setLine_atsCache (s : State) (l : Nat) (x : Line) : (s.setLine l x).atsCache = s.atsCache := rfl
@[simp] theorem State.setLine_msixTable (s : State) (l : Nat) (x : Line) : (s.setLine l x).msixTable = s.msixTable := rfl
@[simp] theorem State.setLine_upsets (s : State) (l : Nat) (x : Line) : (s.setLine l x).upsets = s.upsets := rfl
@[simp] theorem State.setLine_routes (s : State) (l : Nat) (x : Line) : (s.setLine l x).routes = s.routes := rfl
@[simp] theorem State.setLine_scrubAt (s : State) (l : Nat) (x : Line) : (s.setLine l x).scrubAt = s.scrubAt := rfl
@[simp] theorem State.setLine_rehomed (s : State) (l : Nat) (x : Line) : (s.setLine l x).rehomed = s.rehomed := rfl
@[simp] theorem State.setLine_spillUsed (s : State) (l : Nat) (x : Line) : (s.setLine l x).spillUsed = s.spillUsed := rfl
@[simp] theorem State.setLine_detLog (s : State) (l : Nat) (x : Line) : (s.setLine l x).detLog = s.detLog := rfl
@[simp] theorem State.setLine_detSync (s : State) (l : Nat) (x : Line) : (s.setLine l x).detSync = s.detSync := rfl
@[simp] theorem State.setLine_undo (s : State) (l : Nat) (x : Line) : (s.setLine l x).undo = s.undo := rfl
@[simp] theorem State.setLine_fibreEntry (s : State) (l : Nat) (x : Line) : (s.setLine l x).fibreEntry = s.fibreEntry := rfl
@[simp] theorem State.setLine_freeCtr (s : State) (l : Nat) (x : Line) : (s.setLine l x).freeCtr = s.freeCtr := rfl
@[simp] theorem State.setLine_delays (s : State) (l : Nat) (x : Line) : (s.setLine l x).delays = s.delays := rfl
@[simp] theorem State.setLine_cur (s : State) (l : Nat) (x : Line) : (s.setLine l x).cur = s.cur := rfl
@[simp] theorem State.setLine_toServe (s : State) (l : Nat) (x : Line) : (s.setLine l x).toServe = s.toServe := rfl
@[simp] theorem State.setLine_tried (s : State) (l : Nat) (x : Line) : (s.setLine l x).tried = s.tried := rfl
@[simp] theorem State.setLine_agenda (s : State) (l : Nat) (x : Line) : (s.setLine l x).agenda = s.agenda := rfl
@[simp] theorem State.setLine_nextId (s : State) (l : Nat) (x : Line) : (s.setLine l x).nextId = s.nextId := rfl

/-! ### State.say -/

@[simp] theorem State.say_clock (s : State) (m : Msg) : (s.say m).clock = s.clock := rfl
@[simp] theorem State.say_mem (s : State) (m : Msg) : (s.say m).mem = s.mem := rfl
@[simp] theorem State.say_poison (s : State) (m : Msg) : (s.say m).poison = s.poison := rfl
@[simp] theorem State.say_rowFlags (s : State) (m : Msg) : (s.say m).rowFlags = s.rowFlags := rfl
@[simp] theorem State.say_lines (s : State) (m : Msg) : (s.say m).lines = s.lines := rfl
@[simp] theorem State.say_behind (s : State) (m : Msg) : (s.say m).behind = s.behind := rfl
@[simp] theorem State.say_tmax (s : State) (m : Msg) : (s.say m).tmax = s.tmax := rfl
@[simp] theorem State.say_l1 (s : State) (m : Msg) : (s.say m).l1 = s.l1 := rfl
@[simp] theorem State.say_tlbSlot (s : State) (m : Msg) : (s.say m).tlbSlot = s.tlbSlot := rfl
@[simp] theorem State.say_tlbDie (s : State) (m : Msg) : (s.say m).tlbDie = s.tlbDie := rfl
@[simp] theorem State.say_walkCache (s : State) (m : Msg) : (s.say m).walkCache = s.walkCache := rfl
@[simp] theorem State.say_walks (s : State) (m : Msg) : (s.say m).walks = s.walks := rfl
@[simp] theorem State.say_horLoc (s : State) (m : Msg) : (s.say m).horLoc = s.horLoc := rfl
@[simp] theorem State.say_horGal (s : State) (m : Msg) : (s.say m).horGal = s.horGal := rfl
@[simp] theorem State.say_horDev (s : State) (m : Msg) : (s.say m).horDev = s.horDev := rfl
@[simp] theorem State.say_horSys (s : State) (m : Msg) : (s.say m).horSys = s.horSys := rfl
@[simp] theorem State.say_cus (s : State) (m : Msg) : (s.say m).cus = s.cus := rfl
@[simp] theorem State.say_warps (s : State) (m : Msg) : (s.say m).warps = s.warps := rfl
@[simp] theorem State.say_teams (s : State) (m : Msg) : (s.say m).teams = s.teams := rfl
@[simp] theorem State.say_grids (s : State) (m : Msg) : (s.say m).grids = s.grids := rfl
@[simp] theorem State.say_ctxs (s : State) (m : Msg) : (s.say m).ctxs = s.ctxs := rfl
@[simp] theorem State.say_atomUsed (s : State) (m : Msg) : (s.say m).atomUsed = s.atomUsed := rfl
@[simp] theorem State.say_linkUsed (s : State) (m : Msg) : (s.say m).linkUsed = s.linkUsed := rfl
@[simp] theorem State.say_linkHeld (s : State) (m : Msg) : (s.say m).linkHeld = s.linkHeld := rfl
@[simp] theorem State.say_copyUsed (s : State) (m : Msg) : (s.say m).copyUsed = s.copyUsed := rfl
@[simp] theorem State.say_copyHeld (s : State) (m : Msg) : (s.say m).copyHeld = s.copyHeld := rfl
@[simp] theorem State.say_mxsUsed (s : State) (m : Msg) : (s.say m).mxsUsed = s.mxsUsed := rfl
@[simp] theorem State.say_deferred (s : State) (m : Msg) : (s.say m).deferred = s.deferred := rfl
@[simp] theorem State.say_windows (s : State) (m : Msg) : (s.say m).windows = s.windows := rfl
@[simp] theorem State.say_launches (s : State) (m : Msg) : (s.say m).launches = s.launches := rfl
@[simp] theorem State.say_loads (s : State) (m : Msg) : (s.say m).loads = s.loads := rfl
@[simp] theorem State.say_reqs (s : State) (m : Msg) : (s.say m).reqs = s.reqs := rfl
@[simp] theorem State.say_mcas (s : State) (m : Msg) : (s.say m).mcas = s.mcas := rfl
@[simp] theorem State.say_copies (s : State) (m : Msg) : (s.say m).copies = s.copies := rfl
@[simp] theorem State.say_gathers (s : State) (m : Msg) : (s.say m).gathers = s.gathers := rfl
@[simp] theorem State.say_ovls (s : State) (m : Msg) : (s.say m).ovls = s.ovls := rfl
@[simp] theorem State.say_episodes (s : State) (m : Msg) : (s.say m).episodes = s.episodes := rfl
@[simp] theorem State.say_replies (s : State) (m : Msg) : (s.say m).replies = s.replies := rfl
@[simp] theorem State.say_supOps (s : State) (m : Msg) : (s.say m).supOps = s.supOps := rfl
@[simp] theorem State.say_pieces (s : State) (m : Msg) : (s.say m).pieces = s.pieces := rfl
@[simp] theorem State.say_hreads (s : State) (m : Msg) : (s.say m).hreads = s.hreads := rfl
@[simp] theorem State.say_descs (s : State) (m : Msg) : (s.say m).descs = s.descs := rfl
@[simp] theorem State.say_hubH (s : State) (m : Msg) : (s.say m).hubH = s.hubH := rfl
@[simp] theorem State.say_hubSeq (s : State) (m : Msg) : (s.say m).hubSeq = s.hubSeq := rfl
@[simp] theorem State.say_hubC (s : State) (m : Msg) : (s.say m).hubC = s.hubC := rfl
@[simp] theorem State.say_dealNext (s : State) (m : Msg) : (s.say m).dealNext = s.dealNext := rfl
@[simp] theorem State.say_damam (s : State) (m : Msg) : (s.say m).damam = s.damam := rfl
@[simp] theorem State.say_contract (s : State) (m : Msg) : (s.say m).contract = s.contract := rfl
@[simp] theorem State.say_dies (s : State) (m : Msg) : (s.say m).dies = s.dies := rfl
@[simp] theorem State.say_links (s : State) (m : Msg) : (s.say m).links = s.links := rfl
@[simp] theorem State.say_firmwareOk (s : State) (m : Msg) : (s.say m).firmwareOk = s.firmwareOk := rfl
@[simp] theorem State.say_firmwareImage (s : State) (m : Msg) : (s.say m).firmwareImage = s.firmwareImage := rfl
@[simp] theorem State.say_firmwareNext (s : State) (m : Msg) : (s.say m).firmwareNext = s.firmwareNext := rfl
@[simp] theorem State.say_firmwareVer (s : State) (m : Msg) : (s.say m).firmwareVer = s.firmwareVer := rfl
@[simp] theorem State.say_fnCtx (s : State) (m : Msg) : (s.say m).fnCtx = s.fnCtx := rfl
@[simp] theorem State.say_powerCap (s : State) (m : Msg) : (s.say m).powerCap = s.powerCap := rfl
@[simp] theorem State.say_mhz (s : State) (m : Msg) : (s.say m).mhz = s.mhz := rfl
@[simp] theorem State.say_capMhz (s : State) (m : Msg) : (s.say m).capMhz = s.capMhz := rfl
@[simp] theorem State.say_throttled (s : State) (m : Msg) : (s.say m).throttled = s.throttled := rfl
@[simp] theorem State.say_watchLimit (s : State) (m : Msg) : (s.say m).watchLimit = s.watchLimit := rfl
@[simp] theorem State.say_watchNext (s : State) (m : Msg) : (s.say m).watchNext = s.watchNext := rfl
@[simp] theorem State.say_errLog (s : State) (m : Msg) : (s.say m).errLog = s.errLog := rfl
@[simp] theorem State.say_corrected (s : State) (m : Msg) : (s.say m).corrected = s.corrected := rfl
@[simp] theorem State.say_hostUp (s : State) (m : Msg) : (s.say m).hostUp = s.hostUp := rfl
@[simp] theorem State.say_insecure (s : State) (m : Msg) : (s.say m).insecure = s.insecure := rfl
@[simp] theorem State.say_msgs (s : State) (m : Msg) : (s.say m).msgs = s.msgs ++ [m] := rfl
@[simp] theorem State.say_atsCache (s : State) (m : Msg) : (s.say m).atsCache = s.atsCache := rfl
@[simp] theorem State.say_msixTable (s : State) (m : Msg) : (s.say m).msixTable = s.msixTable := rfl
@[simp] theorem State.say_upsets (s : State) (m : Msg) : (s.say m).upsets = s.upsets := rfl
@[simp] theorem State.say_routes (s : State) (m : Msg) : (s.say m).routes = s.routes := rfl
@[simp] theorem State.say_scrubAt (s : State) (m : Msg) : (s.say m).scrubAt = s.scrubAt := rfl
@[simp] theorem State.say_rehomed (s : State) (m : Msg) : (s.say m).rehomed = s.rehomed := rfl
@[simp] theorem State.say_spillUsed (s : State) (m : Msg) : (s.say m).spillUsed = s.spillUsed := rfl
@[simp] theorem State.say_detLog (s : State) (m : Msg) : (s.say m).detLog = s.detLog := rfl
@[simp] theorem State.say_detSync (s : State) (m : Msg) : (s.say m).detSync = s.detSync := rfl
@[simp] theorem State.say_undo (s : State) (m : Msg) : (s.say m).undo = s.undo := rfl
@[simp] theorem State.say_fibreEntry (s : State) (m : Msg) : (s.say m).fibreEntry = s.fibreEntry := rfl
@[simp] theorem State.say_freeCtr (s : State) (m : Msg) : (s.say m).freeCtr = s.freeCtr := rfl
@[simp] theorem State.say_delays (s : State) (m : Msg) : (s.say m).delays = s.delays := rfl
@[simp] theorem State.say_cur (s : State) (m : Msg) : (s.say m).cur = s.cur := rfl
@[simp] theorem State.say_toServe (s : State) (m : Msg) : (s.say m).toServe = s.toServe := rfl
@[simp] theorem State.say_tried (s : State) (m : Msg) : (s.say m).tried = s.tried := rfl
@[simp] theorem State.say_agenda (s : State) (m : Msg) : (s.say m).agenda = s.agenda := rfl
@[simp] theorem State.say_nextId (s : State) (m : Msg) : (s.say m).nextId = s.nextId := rfl

/-! ### State.logErr -/

@[simp] theorem State.logErr_clock (s : State) (r : ErrRec) : (s.logErr r).clock = s.clock := rfl
@[simp] theorem State.logErr_mem (s : State) (r : ErrRec) : (s.logErr r).mem = s.mem := rfl
@[simp] theorem State.logErr_poison (s : State) (r : ErrRec) : (s.logErr r).poison = s.poison := rfl
@[simp] theorem State.logErr_rowFlags (s : State) (r : ErrRec) : (s.logErr r).rowFlags = s.rowFlags := rfl
@[simp] theorem State.logErr_lines (s : State) (r : ErrRec) : (s.logErr r).lines = s.lines := rfl
@[simp] theorem State.logErr_behind (s : State) (r : ErrRec) : (s.logErr r).behind = s.behind := rfl
@[simp] theorem State.logErr_tmax (s : State) (r : ErrRec) : (s.logErr r).tmax = s.tmax := rfl
@[simp] theorem State.logErr_l1 (s : State) (r : ErrRec) : (s.logErr r).l1 = s.l1 := rfl
@[simp] theorem State.logErr_tlbSlot (s : State) (r : ErrRec) : (s.logErr r).tlbSlot = s.tlbSlot := rfl
@[simp] theorem State.logErr_tlbDie (s : State) (r : ErrRec) : (s.logErr r).tlbDie = s.tlbDie := rfl
@[simp] theorem State.logErr_walkCache (s : State) (r : ErrRec) : (s.logErr r).walkCache = s.walkCache := rfl
@[simp] theorem State.logErr_walks (s : State) (r : ErrRec) : (s.logErr r).walks = s.walks := rfl
@[simp] theorem State.logErr_horLoc (s : State) (r : ErrRec) : (s.logErr r).horLoc = s.horLoc := rfl
@[simp] theorem State.logErr_horGal (s : State) (r : ErrRec) : (s.logErr r).horGal = s.horGal := rfl
@[simp] theorem State.logErr_horDev (s : State) (r : ErrRec) : (s.logErr r).horDev = s.horDev := rfl
@[simp] theorem State.logErr_horSys (s : State) (r : ErrRec) : (s.logErr r).horSys = s.horSys := rfl
@[simp] theorem State.logErr_cus (s : State) (r : ErrRec) : (s.logErr r).cus = s.cus := rfl
@[simp] theorem State.logErr_warps (s : State) (r : ErrRec) : (s.logErr r).warps = s.warps := rfl
@[simp] theorem State.logErr_teams (s : State) (r : ErrRec) : (s.logErr r).teams = s.teams := rfl
@[simp] theorem State.logErr_grids (s : State) (r : ErrRec) : (s.logErr r).grids = s.grids := rfl
@[simp] theorem State.logErr_ctxs (s : State) (r : ErrRec) : (s.logErr r).ctxs = s.ctxs := rfl
@[simp] theorem State.logErr_atomUsed (s : State) (r : ErrRec) : (s.logErr r).atomUsed = s.atomUsed := rfl
@[simp] theorem State.logErr_linkUsed (s : State) (r : ErrRec) : (s.logErr r).linkUsed = s.linkUsed := rfl
@[simp] theorem State.logErr_linkHeld (s : State) (r : ErrRec) : (s.logErr r).linkHeld = s.linkHeld := rfl
@[simp] theorem State.logErr_copyUsed (s : State) (r : ErrRec) : (s.logErr r).copyUsed = s.copyUsed := rfl
@[simp] theorem State.logErr_copyHeld (s : State) (r : ErrRec) : (s.logErr r).copyHeld = s.copyHeld := rfl
@[simp] theorem State.logErr_mxsUsed (s : State) (r : ErrRec) : (s.logErr r).mxsUsed = s.mxsUsed := rfl
@[simp] theorem State.logErr_deferred (s : State) (r : ErrRec) : (s.logErr r).deferred = s.deferred := rfl
@[simp] theorem State.logErr_windows (s : State) (r : ErrRec) : (s.logErr r).windows = s.windows := rfl
@[simp] theorem State.logErr_launches (s : State) (r : ErrRec) : (s.logErr r).launches = s.launches := rfl
@[simp] theorem State.logErr_loads (s : State) (r : ErrRec) : (s.logErr r).loads = s.loads := rfl
@[simp] theorem State.logErr_reqs (s : State) (r : ErrRec) : (s.logErr r).reqs = s.reqs := rfl
@[simp] theorem State.logErr_mcas (s : State) (r : ErrRec) : (s.logErr r).mcas = s.mcas := rfl
@[simp] theorem State.logErr_copies (s : State) (r : ErrRec) : (s.logErr r).copies = s.copies := rfl
@[simp] theorem State.logErr_gathers (s : State) (r : ErrRec) : (s.logErr r).gathers = s.gathers := rfl
@[simp] theorem State.logErr_ovls (s : State) (r : ErrRec) : (s.logErr r).ovls = s.ovls := rfl
@[simp] theorem State.logErr_episodes (s : State) (r : ErrRec) : (s.logErr r).episodes = s.episodes := rfl
@[simp] theorem State.logErr_replies (s : State) (r : ErrRec) : (s.logErr r).replies = s.replies := rfl
@[simp] theorem State.logErr_supOps (s : State) (r : ErrRec) : (s.logErr r).supOps = s.supOps := rfl
@[simp] theorem State.logErr_pieces (s : State) (r : ErrRec) : (s.logErr r).pieces = s.pieces := rfl
@[simp] theorem State.logErr_hreads (s : State) (r : ErrRec) : (s.logErr r).hreads = s.hreads := rfl
@[simp] theorem State.logErr_descs (s : State) (r : ErrRec) : (s.logErr r).descs = s.descs := rfl
@[simp] theorem State.logErr_hubH (s : State) (r : ErrRec) : (s.logErr r).hubH = s.hubH := rfl
@[simp] theorem State.logErr_hubSeq (s : State) (r : ErrRec) : (s.logErr r).hubSeq = s.hubSeq := rfl
@[simp] theorem State.logErr_hubC (s : State) (r : ErrRec) : (s.logErr r).hubC = s.hubC := rfl
@[simp] theorem State.logErr_dealNext (s : State) (r : ErrRec) : (s.logErr r).dealNext = s.dealNext := rfl
@[simp] theorem State.logErr_damam (s : State) (r : ErrRec) : (s.logErr r).damam = s.damam := rfl
@[simp] theorem State.logErr_contract (s : State) (r : ErrRec) : (s.logErr r).contract = s.contract := rfl
@[simp] theorem State.logErr_dies (s : State) (r : ErrRec) : (s.logErr r).dies = s.dies := rfl
@[simp] theorem State.logErr_links (s : State) (r : ErrRec) : (s.logErr r).links = s.links := rfl
@[simp] theorem State.logErr_firmwareOk (s : State) (r : ErrRec) : (s.logErr r).firmwareOk = s.firmwareOk := rfl
@[simp] theorem State.logErr_firmwareImage (s : State) (r : ErrRec) : (s.logErr r).firmwareImage = s.firmwareImage := rfl
@[simp] theorem State.logErr_firmwareNext (s : State) (r : ErrRec) : (s.logErr r).firmwareNext = s.firmwareNext := rfl
@[simp] theorem State.logErr_firmwareVer (s : State) (r : ErrRec) : (s.logErr r).firmwareVer = s.firmwareVer := rfl
@[simp] theorem State.logErr_fnCtx (s : State) (r : ErrRec) : (s.logErr r).fnCtx = s.fnCtx := rfl
@[simp] theorem State.logErr_powerCap (s : State) (r : ErrRec) : (s.logErr r).powerCap = s.powerCap := rfl
@[simp] theorem State.logErr_mhz (s : State) (r : ErrRec) : (s.logErr r).mhz = s.mhz := rfl
@[simp] theorem State.logErr_capMhz (s : State) (r : ErrRec) : (s.logErr r).capMhz = s.capMhz := rfl
@[simp] theorem State.logErr_throttled (s : State) (r : ErrRec) : (s.logErr r).throttled = s.throttled := rfl
@[simp] theorem State.logErr_watchLimit (s : State) (r : ErrRec) : (s.logErr r).watchLimit = s.watchLimit := rfl
@[simp] theorem State.logErr_watchNext (s : State) (r : ErrRec) : (s.logErr r).watchNext = s.watchNext := rfl
@[simp] theorem State.logErr_errLog (s : State) (r : ErrRec) : (s.logErr r).errLog = s.errLog ++
    [{ r with clock := s.clock, corr := r.corr + amGetD s.corrected (unitKey r.unit r.site r.cu) 0 }] := rfl
@[simp] theorem State.logErr_corrected (s : State) (r : ErrRec) : (s.logErr r).corrected = amErase s.corrected (unitKey r.unit r.site r.cu) := rfl
@[simp] theorem State.logErr_hostUp (s : State) (r : ErrRec) : (s.logErr r).hostUp = s.hostUp := rfl
@[simp] theorem State.logErr_insecure (s : State) (r : ErrRec) : (s.logErr r).insecure = s.insecure := rfl
@[simp] theorem State.logErr_msgs (s : State) (r : ErrRec) : (s.logErr r).msgs = s.msgs ++ [.msix 0 0] := rfl
@[simp] theorem State.logErr_atsCache (s : State) (r : ErrRec) : (s.logErr r).atsCache = s.atsCache := rfl
@[simp] theorem State.logErr_msixTable (s : State) (r : ErrRec) : (s.logErr r).msixTable = s.msixTable := rfl
@[simp] theorem State.logErr_upsets (s : State) (r : ErrRec) : (s.logErr r).upsets = s.upsets := rfl
@[simp] theorem State.logErr_routes (s : State) (r : ErrRec) : (s.logErr r).routes = s.routes := rfl
@[simp] theorem State.logErr_scrubAt (s : State) (r : ErrRec) : (s.logErr r).scrubAt = s.scrubAt := rfl
@[simp] theorem State.logErr_rehomed (s : State) (r : ErrRec) : (s.logErr r).rehomed = s.rehomed := rfl
@[simp] theorem State.logErr_spillUsed (s : State) (r : ErrRec) : (s.logErr r).spillUsed = s.spillUsed := rfl
@[simp] theorem State.logErr_detLog (s : State) (r : ErrRec) : (s.logErr r).detLog = s.detLog := rfl
@[simp] theorem State.logErr_detSync (s : State) (r : ErrRec) : (s.logErr r).detSync = s.detSync := rfl
@[simp] theorem State.logErr_undo (s : State) (r : ErrRec) : (s.logErr r).undo = s.undo := rfl
@[simp] theorem State.logErr_fibreEntry (s : State) (r : ErrRec) : (s.logErr r).fibreEntry = s.fibreEntry := rfl
@[simp] theorem State.logErr_freeCtr (s : State) (r : ErrRec) : (s.logErr r).freeCtr = s.freeCtr := rfl
@[simp] theorem State.logErr_delays (s : State) (r : ErrRec) : (s.logErr r).delays = s.delays := rfl
@[simp] theorem State.logErr_cur (s : State) (r : ErrRec) : (s.logErr r).cur = s.cur := rfl
@[simp] theorem State.logErr_toServe (s : State) (r : ErrRec) : (s.logErr r).toServe = s.toServe := rfl
@[simp] theorem State.logErr_tried (s : State) (r : ErrRec) : (s.logErr r).tried = s.tried := rfl
@[simp] theorem State.logErr_agenda (s : State) (r : ErrRec) : (s.logErr r).agenda = s.agenda := rfl
@[simp] theorem State.logErr_nextId (s : State) (r : ErrRec) : (s.logErr r).nextId = s.nextId := rfl

/-! ### State.foldHub -/

@[simp] theorem State.foldHub_clock (s : State) (c n : Nat) : (s.foldHub c n).clock = s.clock := rfl
@[simp] theorem State.foldHub_mem (s : State) (c n : Nat) : (s.foldHub c n).mem = s.mem := rfl
@[simp] theorem State.foldHub_poison (s : State) (c n : Nat) : (s.foldHub c n).poison = s.poison := rfl
@[simp] theorem State.foldHub_rowFlags (s : State) (c n : Nat) : (s.foldHub c n).rowFlags = s.rowFlags := rfl
@[simp] theorem State.foldHub_lines (s : State) (c n : Nat) : (s.foldHub c n).lines = s.lines := rfl
@[simp] theorem State.foldHub_behind (s : State) (c n : Nat) : (s.foldHub c n).behind = s.behind := rfl
@[simp] theorem State.foldHub_tmax (s : State) (c n : Nat) : (s.foldHub c n).tmax = s.tmax := rfl
@[simp] theorem State.foldHub_l1 (s : State) (c n : Nat) : (s.foldHub c n).l1 = s.l1 := rfl
@[simp] theorem State.foldHub_tlbSlot (s : State) (c n : Nat) : (s.foldHub c n).tlbSlot = s.tlbSlot := rfl
@[simp] theorem State.foldHub_tlbDie (s : State) (c n : Nat) : (s.foldHub c n).tlbDie = s.tlbDie := rfl
@[simp] theorem State.foldHub_walkCache (s : State) (c n : Nat) : (s.foldHub c n).walkCache = s.walkCache := rfl
@[simp] theorem State.foldHub_walks (s : State) (c n : Nat) : (s.foldHub c n).walks = s.walks := rfl
@[simp] theorem State.foldHub_horLoc (s : State) (c n : Nat) : (s.foldHub c n).horLoc = s.horLoc := rfl
@[simp] theorem State.foldHub_horGal (s : State) (c n : Nat) : (s.foldHub c n).horGal = s.horGal := rfl
@[simp] theorem State.foldHub_horDev (s : State) (c n : Nat) : (s.foldHub c n).horDev = raise s.horDev c n := rfl
@[simp] theorem State.foldHub_horSys (s : State) (c n : Nat) : (s.foldHub c n).horSys = max s.horSys n := rfl
@[simp] theorem State.foldHub_cus (s : State) (c n : Nat) : (s.foldHub c n).cus = s.cus := rfl
@[simp] theorem State.foldHub_warps (s : State) (c n : Nat) : (s.foldHub c n).warps = s.warps := rfl
@[simp] theorem State.foldHub_teams (s : State) (c n : Nat) : (s.foldHub c n).teams = s.teams := rfl
@[simp] theorem State.foldHub_grids (s : State) (c n : Nat) : (s.foldHub c n).grids = s.grids := rfl
@[simp] theorem State.foldHub_ctxs (s : State) (c n : Nat) : (s.foldHub c n).ctxs = s.ctxs := rfl
@[simp] theorem State.foldHub_atomUsed (s : State) (c n : Nat) : (s.foldHub c n).atomUsed = s.atomUsed := rfl
@[simp] theorem State.foldHub_linkUsed (s : State) (c n : Nat) : (s.foldHub c n).linkUsed = s.linkUsed := rfl
@[simp] theorem State.foldHub_linkHeld (s : State) (c n : Nat) : (s.foldHub c n).linkHeld = s.linkHeld := rfl
@[simp] theorem State.foldHub_copyUsed (s : State) (c n : Nat) : (s.foldHub c n).copyUsed = s.copyUsed := rfl
@[simp] theorem State.foldHub_copyHeld (s : State) (c n : Nat) : (s.foldHub c n).copyHeld = s.copyHeld := rfl
@[simp] theorem State.foldHub_mxsUsed (s : State) (c n : Nat) : (s.foldHub c n).mxsUsed = s.mxsUsed := rfl
@[simp] theorem State.foldHub_deferred (s : State) (c n : Nat) : (s.foldHub c n).deferred = s.deferred := rfl
@[simp] theorem State.foldHub_windows (s : State) (c n : Nat) : (s.foldHub c n).windows = s.windows := rfl
@[simp] theorem State.foldHub_launches (s : State) (c n : Nat) : (s.foldHub c n).launches = s.launches := rfl
@[simp] theorem State.foldHub_loads (s : State) (c n : Nat) : (s.foldHub c n).loads = s.loads := rfl
@[simp] theorem State.foldHub_reqs (s : State) (c n : Nat) : (s.foldHub c n).reqs = s.reqs := rfl
@[simp] theorem State.foldHub_mcas (s : State) (c n : Nat) : (s.foldHub c n).mcas = s.mcas := rfl
@[simp] theorem State.foldHub_copies (s : State) (c n : Nat) : (s.foldHub c n).copies = s.copies := rfl
@[simp] theorem State.foldHub_gathers (s : State) (c n : Nat) : (s.foldHub c n).gathers = s.gathers := rfl
@[simp] theorem State.foldHub_ovls (s : State) (c n : Nat) : (s.foldHub c n).ovls = s.ovls := rfl
@[simp] theorem State.foldHub_episodes (s : State) (c n : Nat) : (s.foldHub c n).episodes = s.episodes := rfl
@[simp] theorem State.foldHub_replies (s : State) (c n : Nat) : (s.foldHub c n).replies = s.replies := rfl
@[simp] theorem State.foldHub_supOps (s : State) (c n : Nat) : (s.foldHub c n).supOps = s.supOps := rfl
@[simp] theorem State.foldHub_pieces (s : State) (c n : Nat) : (s.foldHub c n).pieces = s.pieces := rfl
@[simp] theorem State.foldHub_hreads (s : State) (c n : Nat) : (s.foldHub c n).hreads = s.hreads := rfl
@[simp] theorem State.foldHub_descs (s : State) (c n : Nat) : (s.foldHub c n).descs = s.descs := rfl
@[simp] theorem State.foldHub_hubH (s : State) (c n : Nat) : (s.foldHub c n).hubH = s.hubH := rfl
@[simp] theorem State.foldHub_hubSeq (s : State) (c n : Nat) : (s.foldHub c n).hubSeq = s.hubSeq := rfl
@[simp] theorem State.foldHub_hubC (s : State) (c n : Nat) : (s.foldHub c n).hubC = s.hubC := rfl
@[simp] theorem State.foldHub_dealNext (s : State) (c n : Nat) : (s.foldHub c n).dealNext = s.dealNext := rfl
@[simp] theorem State.foldHub_damam (s : State) (c n : Nat) : (s.foldHub c n).damam = s.damam := rfl
@[simp] theorem State.foldHub_contract (s : State) (c n : Nat) : (s.foldHub c n).contract = s.contract := rfl
@[simp] theorem State.foldHub_dies (s : State) (c n : Nat) : (s.foldHub c n).dies = s.dies := rfl
@[simp] theorem State.foldHub_links (s : State) (c n : Nat) : (s.foldHub c n).links = s.links := rfl
@[simp] theorem State.foldHub_firmwareOk (s : State) (c n : Nat) : (s.foldHub c n).firmwareOk = s.firmwareOk := rfl
@[simp] theorem State.foldHub_firmwareImage (s : State) (c n : Nat) : (s.foldHub c n).firmwareImage = s.firmwareImage := rfl
@[simp] theorem State.foldHub_firmwareNext (s : State) (c n : Nat) : (s.foldHub c n).firmwareNext = s.firmwareNext := rfl
@[simp] theorem State.foldHub_firmwareVer (s : State) (c n : Nat) : (s.foldHub c n).firmwareVer = s.firmwareVer := rfl
@[simp] theorem State.foldHub_fnCtx (s : State) (c n : Nat) : (s.foldHub c n).fnCtx = s.fnCtx := rfl
@[simp] theorem State.foldHub_powerCap (s : State) (c n : Nat) : (s.foldHub c n).powerCap = s.powerCap := rfl
@[simp] theorem State.foldHub_mhz (s : State) (c n : Nat) : (s.foldHub c n).mhz = s.mhz := rfl
@[simp] theorem State.foldHub_capMhz (s : State) (c n : Nat) : (s.foldHub c n).capMhz = s.capMhz := rfl
@[simp] theorem State.foldHub_throttled (s : State) (c n : Nat) : (s.foldHub c n).throttled = s.throttled := rfl
@[simp] theorem State.foldHub_watchLimit (s : State) (c n : Nat) : (s.foldHub c n).watchLimit = s.watchLimit := rfl
@[simp] theorem State.foldHub_watchNext (s : State) (c n : Nat) : (s.foldHub c n).watchNext = s.watchNext := rfl
@[simp] theorem State.foldHub_errLog (s : State) (c n : Nat) : (s.foldHub c n).errLog = s.errLog := rfl
@[simp] theorem State.foldHub_corrected (s : State) (c n : Nat) : (s.foldHub c n).corrected = s.corrected := rfl
@[simp] theorem State.foldHub_hostUp (s : State) (c n : Nat) : (s.foldHub c n).hostUp = s.hostUp := rfl
@[simp] theorem State.foldHub_insecure (s : State) (c n : Nat) : (s.foldHub c n).insecure = s.insecure := rfl
@[simp] theorem State.foldHub_msgs (s : State) (c n : Nat) : (s.foldHub c n).msgs = s.msgs := rfl
@[simp] theorem State.foldHub_atsCache (s : State) (c n : Nat) : (s.foldHub c n).atsCache = s.atsCache := rfl
@[simp] theorem State.foldHub_msixTable (s : State) (c n : Nat) : (s.foldHub c n).msixTable = s.msixTable := rfl
@[simp] theorem State.foldHub_upsets (s : State) (c n : Nat) : (s.foldHub c n).upsets = s.upsets := rfl
@[simp] theorem State.foldHub_routes (s : State) (c n : Nat) : (s.foldHub c n).routes = s.routes := rfl
@[simp] theorem State.foldHub_scrubAt (s : State) (c n : Nat) : (s.foldHub c n).scrubAt = s.scrubAt := rfl
@[simp] theorem State.foldHub_rehomed (s : State) (c n : Nat) : (s.foldHub c n).rehomed = s.rehomed := rfl
@[simp] theorem State.foldHub_spillUsed (s : State) (c n : Nat) : (s.foldHub c n).spillUsed = s.spillUsed := rfl
@[simp] theorem State.foldHub_detLog (s : State) (c n : Nat) : (s.foldHub c n).detLog = s.detLog := rfl
@[simp] theorem State.foldHub_detSync (s : State) (c n : Nat) : (s.foldHub c n).detSync = s.detSync := rfl
@[simp] theorem State.foldHub_undo (s : State) (c n : Nat) : (s.foldHub c n).undo = s.undo := rfl
@[simp] theorem State.foldHub_fibreEntry (s : State) (c n : Nat) : (s.foldHub c n).fibreEntry = s.fibreEntry := rfl
@[simp] theorem State.foldHub_freeCtr (s : State) (c n : Nat) : (s.foldHub c n).freeCtr = s.freeCtr := rfl
@[simp] theorem State.foldHub_delays (s : State) (c n : Nat) : (s.foldHub c n).delays = s.delays := rfl
@[simp] theorem State.foldHub_cur (s : State) (c n : Nat) : (s.foldHub c n).cur = s.cur := rfl
@[simp] theorem State.foldHub_toServe (s : State) (c n : Nat) : (s.foldHub c n).toServe = s.toServe := rfl
@[simp] theorem State.foldHub_tried (s : State) (c n : Nat) : (s.foldHub c n).tried = s.tried := rfl
@[simp] theorem State.foldHub_agenda (s : State) (c n : Nat) : (s.foldHub c n).agenda = s.agenda := rfl
@[simp] theorem State.foldHub_nextId (s : State) (c n : Nat) : (s.foldHub c n).nextId = s.nextId := rfl

/-! ### State.foldNear -/

@[simp] theorem State.foldNear_clock (s : State) (cu t : Nat) : (s.foldNear cu t).clock = s.clock := rfl
@[simp] theorem State.foldNear_mem (s : State) (cu t : Nat) : (s.foldNear cu t).mem = s.mem := rfl
@[simp] theorem State.foldNear_poison (s : State) (cu t : Nat) : (s.foldNear cu t).poison = s.poison := rfl
@[simp] theorem State.foldNear_rowFlags (s : State) (cu t : Nat) : (s.foldNear cu t).rowFlags = s.rowFlags := rfl
@[simp] theorem State.foldNear_lines (s : State) (cu t : Nat) : (s.foldNear cu t).lines = s.lines := rfl
@[simp] theorem State.foldNear_behind (s : State) (cu t : Nat) : (s.foldNear cu t).behind = s.behind := rfl
@[simp] theorem State.foldNear_tmax (s : State) (cu t : Nat) : (s.foldNear cu t).tmax = s.tmax := rfl
@[simp] theorem State.foldNear_l1 (s : State) (cu t : Nat) : (s.foldNear cu t).l1 = s.l1 := rfl
@[simp] theorem State.foldNear_tlbSlot (s : State) (cu t : Nat) : (s.foldNear cu t).tlbSlot = s.tlbSlot := rfl
@[simp] theorem State.foldNear_tlbDie (s : State) (cu t : Nat) : (s.foldNear cu t).tlbDie = s.tlbDie := rfl
@[simp] theorem State.foldNear_walkCache (s : State) (cu t : Nat) : (s.foldNear cu t).walkCache = s.walkCache := rfl
@[simp] theorem State.foldNear_walks (s : State) (cu t : Nat) : (s.foldNear cu t).walks = s.walks := rfl
@[simp] theorem State.foldNear_horLoc (s : State) (cu t : Nat) : (s.foldNear cu t).horLoc = raise s.horLoc cu t := rfl
@[simp] theorem State.foldNear_horGal (s : State) (cu t : Nat) : (s.foldNear cu t).horGal = raise s.horGal (cuGallery cu) t := rfl
@[simp] theorem State.foldNear_horDev (s : State) (cu t : Nat) : (s.foldNear cu t).horDev = s.horDev := rfl
@[simp] theorem State.foldNear_horSys (s : State) (cu t : Nat) : (s.foldNear cu t).horSys = s.horSys := rfl
@[simp] theorem State.foldNear_cus (s : State) (cu t : Nat) : (s.foldNear cu t).cus = s.cus := rfl
@[simp] theorem State.foldNear_warps (s : State) (cu t : Nat) : (s.foldNear cu t).warps = s.warps := rfl
@[simp] theorem State.foldNear_teams (s : State) (cu t : Nat) : (s.foldNear cu t).teams = s.teams := rfl
@[simp] theorem State.foldNear_grids (s : State) (cu t : Nat) : (s.foldNear cu t).grids = s.grids := rfl
@[simp] theorem State.foldNear_ctxs (s : State) (cu t : Nat) : (s.foldNear cu t).ctxs = s.ctxs := rfl
@[simp] theorem State.foldNear_atomUsed (s : State) (cu t : Nat) : (s.foldNear cu t).atomUsed = s.atomUsed := rfl
@[simp] theorem State.foldNear_linkUsed (s : State) (cu t : Nat) : (s.foldNear cu t).linkUsed = s.linkUsed := rfl
@[simp] theorem State.foldNear_linkHeld (s : State) (cu t : Nat) : (s.foldNear cu t).linkHeld = s.linkHeld := rfl
@[simp] theorem State.foldNear_copyUsed (s : State) (cu t : Nat) : (s.foldNear cu t).copyUsed = s.copyUsed := rfl
@[simp] theorem State.foldNear_copyHeld (s : State) (cu t : Nat) : (s.foldNear cu t).copyHeld = s.copyHeld := rfl
@[simp] theorem State.foldNear_mxsUsed (s : State) (cu t : Nat) : (s.foldNear cu t).mxsUsed = s.mxsUsed := rfl
@[simp] theorem State.foldNear_deferred (s : State) (cu t : Nat) : (s.foldNear cu t).deferred = s.deferred := rfl
@[simp] theorem State.foldNear_windows (s : State) (cu t : Nat) : (s.foldNear cu t).windows = s.windows := rfl
@[simp] theorem State.foldNear_launches (s : State) (cu t : Nat) : (s.foldNear cu t).launches = s.launches := rfl
@[simp] theorem State.foldNear_loads (s : State) (cu t : Nat) : (s.foldNear cu t).loads = s.loads := rfl
@[simp] theorem State.foldNear_reqs (s : State) (cu t : Nat) : (s.foldNear cu t).reqs = s.reqs := rfl
@[simp] theorem State.foldNear_mcas (s : State) (cu t : Nat) : (s.foldNear cu t).mcas = s.mcas := rfl
@[simp] theorem State.foldNear_copies (s : State) (cu t : Nat) : (s.foldNear cu t).copies = s.copies := rfl
@[simp] theorem State.foldNear_gathers (s : State) (cu t : Nat) : (s.foldNear cu t).gathers = s.gathers := rfl
@[simp] theorem State.foldNear_ovls (s : State) (cu t : Nat) : (s.foldNear cu t).ovls = s.ovls := rfl
@[simp] theorem State.foldNear_episodes (s : State) (cu t : Nat) : (s.foldNear cu t).episodes = s.episodes := rfl
@[simp] theorem State.foldNear_replies (s : State) (cu t : Nat) : (s.foldNear cu t).replies = s.replies := rfl
@[simp] theorem State.foldNear_supOps (s : State) (cu t : Nat) : (s.foldNear cu t).supOps = s.supOps := rfl
@[simp] theorem State.foldNear_pieces (s : State) (cu t : Nat) : (s.foldNear cu t).pieces = s.pieces := rfl
@[simp] theorem State.foldNear_hreads (s : State) (cu t : Nat) : (s.foldNear cu t).hreads = s.hreads := rfl
@[simp] theorem State.foldNear_descs (s : State) (cu t : Nat) : (s.foldNear cu t).descs = s.descs := rfl
@[simp] theorem State.foldNear_hubH (s : State) (cu t : Nat) : (s.foldNear cu t).hubH = s.hubH := rfl
@[simp] theorem State.foldNear_hubSeq (s : State) (cu t : Nat) : (s.foldNear cu t).hubSeq = s.hubSeq := rfl
@[simp] theorem State.foldNear_hubC (s : State) (cu t : Nat) : (s.foldNear cu t).hubC = s.hubC := rfl
@[simp] theorem State.foldNear_dealNext (s : State) (cu t : Nat) : (s.foldNear cu t).dealNext = s.dealNext := rfl
@[simp] theorem State.foldNear_damam (s : State) (cu t : Nat) : (s.foldNear cu t).damam = s.damam := rfl
@[simp] theorem State.foldNear_contract (s : State) (cu t : Nat) : (s.foldNear cu t).contract = s.contract := rfl
@[simp] theorem State.foldNear_dies (s : State) (cu t : Nat) : (s.foldNear cu t).dies = s.dies := rfl
@[simp] theorem State.foldNear_links (s : State) (cu t : Nat) : (s.foldNear cu t).links = s.links := rfl
@[simp] theorem State.foldNear_firmwareOk (s : State) (cu t : Nat) : (s.foldNear cu t).firmwareOk = s.firmwareOk := rfl
@[simp] theorem State.foldNear_firmwareImage (s : State) (cu t : Nat) : (s.foldNear cu t).firmwareImage = s.firmwareImage := rfl
@[simp] theorem State.foldNear_firmwareNext (s : State) (cu t : Nat) : (s.foldNear cu t).firmwareNext = s.firmwareNext := rfl
@[simp] theorem State.foldNear_firmwareVer (s : State) (cu t : Nat) : (s.foldNear cu t).firmwareVer = s.firmwareVer := rfl
@[simp] theorem State.foldNear_fnCtx (s : State) (cu t : Nat) : (s.foldNear cu t).fnCtx = s.fnCtx := rfl
@[simp] theorem State.foldNear_powerCap (s : State) (cu t : Nat) : (s.foldNear cu t).powerCap = s.powerCap := rfl
@[simp] theorem State.foldNear_mhz (s : State) (cu t : Nat) : (s.foldNear cu t).mhz = s.mhz := rfl
@[simp] theorem State.foldNear_capMhz (s : State) (cu t : Nat) : (s.foldNear cu t).capMhz = s.capMhz := rfl
@[simp] theorem State.foldNear_throttled (s : State) (cu t : Nat) : (s.foldNear cu t).throttled = s.throttled := rfl
@[simp] theorem State.foldNear_watchLimit (s : State) (cu t : Nat) : (s.foldNear cu t).watchLimit = s.watchLimit := rfl
@[simp] theorem State.foldNear_watchNext (s : State) (cu t : Nat) : (s.foldNear cu t).watchNext = s.watchNext := rfl
@[simp] theorem State.foldNear_errLog (s : State) (cu t : Nat) : (s.foldNear cu t).errLog = s.errLog := rfl
@[simp] theorem State.foldNear_corrected (s : State) (cu t : Nat) : (s.foldNear cu t).corrected = s.corrected := rfl
@[simp] theorem State.foldNear_hostUp (s : State) (cu t : Nat) : (s.foldNear cu t).hostUp = s.hostUp := rfl
@[simp] theorem State.foldNear_insecure (s : State) (cu t : Nat) : (s.foldNear cu t).insecure = s.insecure := rfl
@[simp] theorem State.foldNear_msgs (s : State) (cu t : Nat) : (s.foldNear cu t).msgs = s.msgs := rfl
@[simp] theorem State.foldNear_atsCache (s : State) (cu t : Nat) : (s.foldNear cu t).atsCache = s.atsCache := rfl
@[simp] theorem State.foldNear_msixTable (s : State) (cu t : Nat) : (s.foldNear cu t).msixTable = s.msixTable := rfl
@[simp] theorem State.foldNear_upsets (s : State) (cu t : Nat) : (s.foldNear cu t).upsets = s.upsets := rfl
@[simp] theorem State.foldNear_routes (s : State) (cu t : Nat) : (s.foldNear cu t).routes = s.routes := rfl
@[simp] theorem State.foldNear_scrubAt (s : State) (cu t : Nat) : (s.foldNear cu t).scrubAt = s.scrubAt := rfl
@[simp] theorem State.foldNear_rehomed (s : State) (cu t : Nat) : (s.foldNear cu t).rehomed = s.rehomed := rfl
@[simp] theorem State.foldNear_spillUsed (s : State) (cu t : Nat) : (s.foldNear cu t).spillUsed = s.spillUsed := rfl
@[simp] theorem State.foldNear_detLog (s : State) (cu t : Nat) : (s.foldNear cu t).detLog = s.detLog := rfl
@[simp] theorem State.foldNear_detSync (s : State) (cu t : Nat) : (s.foldNear cu t).detSync = s.detSync := rfl
@[simp] theorem State.foldNear_undo (s : State) (cu t : Nat) : (s.foldNear cu t).undo = s.undo := rfl
@[simp] theorem State.foldNear_fibreEntry (s : State) (cu t : Nat) : (s.foldNear cu t).fibreEntry = s.fibreEntry := rfl
@[simp] theorem State.foldNear_freeCtr (s : State) (cu t : Nat) : (s.foldNear cu t).freeCtr = s.freeCtr := rfl
@[simp] theorem State.foldNear_delays (s : State) (cu t : Nat) : (s.foldNear cu t).delays = s.delays := rfl
@[simp] theorem State.foldNear_cur (s : State) (cu t : Nat) : (s.foldNear cu t).cur = s.cur := rfl
@[simp] theorem State.foldNear_toServe (s : State) (cu t : Nat) : (s.foldNear cu t).toServe = s.toServe := rfl
@[simp] theorem State.foldNear_tried (s : State) (cu t : Nat) : (s.foldNear cu t).tried = s.tried := rfl
@[simp] theorem State.foldNear_agenda (s : State) (cu t : Nat) : (s.foldNear cu t).agenda = s.agenda := rfl
@[simp] theorem State.foldNear_nextId (s : State) (cu t : Nat) : (s.foldNear cu t).nextId = s.nextId := rfl

/-! ### State.poisonRange -/

@[simp] theorem State.poisonRange_clock (s : State) (a n o : Nat) : (s.poisonRange a n o).clock = s.clock := rfl
@[simp] theorem State.poisonRange_mem (s : State) (a n o : Nat) : (s.poisonRange a n o).mem = s.mem := rfl
@[simp] theorem State.poisonRange_rowFlags (s : State) (a n o : Nat) : (s.poisonRange a n o).rowFlags = s.rowFlags := rfl
@[simp] theorem State.poisonRange_lines (s : State) (a n o : Nat) : (s.poisonRange a n o).lines = s.lines := rfl
@[simp] theorem State.poisonRange_behind (s : State) (a n o : Nat) : (s.poisonRange a n o).behind = s.behind := rfl
@[simp] theorem State.poisonRange_tmax (s : State) (a n o : Nat) : (s.poisonRange a n o).tmax = s.tmax := rfl
@[simp] theorem State.poisonRange_l1 (s : State) (a n o : Nat) : (s.poisonRange a n o).l1 = s.l1 := rfl
@[simp] theorem State.poisonRange_tlbSlot (s : State) (a n o : Nat) : (s.poisonRange a n o).tlbSlot = s.tlbSlot := rfl
@[simp] theorem State.poisonRange_tlbDie (s : State) (a n o : Nat) : (s.poisonRange a n o).tlbDie = s.tlbDie := rfl
@[simp] theorem State.poisonRange_walkCache (s : State) (a n o : Nat) : (s.poisonRange a n o).walkCache = s.walkCache := rfl
@[simp] theorem State.poisonRange_walks (s : State) (a n o : Nat) : (s.poisonRange a n o).walks = s.walks := rfl
@[simp] theorem State.poisonRange_horLoc (s : State) (a n o : Nat) : (s.poisonRange a n o).horLoc = s.horLoc := rfl
@[simp] theorem State.poisonRange_horGal (s : State) (a n o : Nat) : (s.poisonRange a n o).horGal = s.horGal := rfl
@[simp] theorem State.poisonRange_horDev (s : State) (a n o : Nat) : (s.poisonRange a n o).horDev = s.horDev := rfl
@[simp] theorem State.poisonRange_horSys (s : State) (a n o : Nat) : (s.poisonRange a n o).horSys = s.horSys := rfl
@[simp] theorem State.poisonRange_cus (s : State) (a n o : Nat) : (s.poisonRange a n o).cus = s.cus := rfl
@[simp] theorem State.poisonRange_warps (s : State) (a n o : Nat) : (s.poisonRange a n o).warps = s.warps := rfl
@[simp] theorem State.poisonRange_teams (s : State) (a n o : Nat) : (s.poisonRange a n o).teams = s.teams := rfl
@[simp] theorem State.poisonRange_grids (s : State) (a n o : Nat) : (s.poisonRange a n o).grids = s.grids := rfl
@[simp] theorem State.poisonRange_ctxs (s : State) (a n o : Nat) : (s.poisonRange a n o).ctxs = s.ctxs := rfl
@[simp] theorem State.poisonRange_atomUsed (s : State) (a n o : Nat) : (s.poisonRange a n o).atomUsed = s.atomUsed := rfl
@[simp] theorem State.poisonRange_linkUsed (s : State) (a n o : Nat) : (s.poisonRange a n o).linkUsed = s.linkUsed := rfl
@[simp] theorem State.poisonRange_linkHeld (s : State) (a n o : Nat) : (s.poisonRange a n o).linkHeld = s.linkHeld := rfl
@[simp] theorem State.poisonRange_copyUsed (s : State) (a n o : Nat) : (s.poisonRange a n o).copyUsed = s.copyUsed := rfl
@[simp] theorem State.poisonRange_copyHeld (s : State) (a n o : Nat) : (s.poisonRange a n o).copyHeld = s.copyHeld := rfl
@[simp] theorem State.poisonRange_mxsUsed (s : State) (a n o : Nat) : (s.poisonRange a n o).mxsUsed = s.mxsUsed := rfl
@[simp] theorem State.poisonRange_deferred (s : State) (a n o : Nat) : (s.poisonRange a n o).deferred = s.deferred := rfl
@[simp] theorem State.poisonRange_windows (s : State) (a n o : Nat) : (s.poisonRange a n o).windows = s.windows := rfl
@[simp] theorem State.poisonRange_launches (s : State) (a n o : Nat) : (s.poisonRange a n o).launches = s.launches := rfl
@[simp] theorem State.poisonRange_loads (s : State) (a n o : Nat) : (s.poisonRange a n o).loads = s.loads := rfl
@[simp] theorem State.poisonRange_reqs (s : State) (a n o : Nat) : (s.poisonRange a n o).reqs = s.reqs := rfl
@[simp] theorem State.poisonRange_mcas (s : State) (a n o : Nat) : (s.poisonRange a n o).mcas = s.mcas := rfl
@[simp] theorem State.poisonRange_copies (s : State) (a n o : Nat) : (s.poisonRange a n o).copies = s.copies := rfl
@[simp] theorem State.poisonRange_gathers (s : State) (a n o : Nat) : (s.poisonRange a n o).gathers = s.gathers := rfl
@[simp] theorem State.poisonRange_ovls (s : State) (a n o : Nat) : (s.poisonRange a n o).ovls = s.ovls := rfl
@[simp] theorem State.poisonRange_episodes (s : State) (a n o : Nat) : (s.poisonRange a n o).episodes = s.episodes := rfl
@[simp] theorem State.poisonRange_replies (s : State) (a n o : Nat) : (s.poisonRange a n o).replies = s.replies := rfl
@[simp] theorem State.poisonRange_supOps (s : State) (a n o : Nat) : (s.poisonRange a n o).supOps = s.supOps := rfl
@[simp] theorem State.poisonRange_pieces (s : State) (a n o : Nat) : (s.poisonRange a n o).pieces = s.pieces := rfl
@[simp] theorem State.poisonRange_hreads (s : State) (a n o : Nat) : (s.poisonRange a n o).hreads = s.hreads := rfl
@[simp] theorem State.poisonRange_descs (s : State) (a n o : Nat) : (s.poisonRange a n o).descs = s.descs := rfl
@[simp] theorem State.poisonRange_hubH (s : State) (a n o : Nat) : (s.poisonRange a n o).hubH = s.hubH := rfl
@[simp] theorem State.poisonRange_hubSeq (s : State) (a n o : Nat) : (s.poisonRange a n o).hubSeq = s.hubSeq := rfl
@[simp] theorem State.poisonRange_hubC (s : State) (a n o : Nat) : (s.poisonRange a n o).hubC = s.hubC := rfl
@[simp] theorem State.poisonRange_dealNext (s : State) (a n o : Nat) : (s.poisonRange a n o).dealNext = s.dealNext := rfl
@[simp] theorem State.poisonRange_damam (s : State) (a n o : Nat) : (s.poisonRange a n o).damam = s.damam := rfl
@[simp] theorem State.poisonRange_contract (s : State) (a n o : Nat) : (s.poisonRange a n o).contract = s.contract := rfl
@[simp] theorem State.poisonRange_dies (s : State) (a n o : Nat) : (s.poisonRange a n o).dies = s.dies := rfl
@[simp] theorem State.poisonRange_links (s : State) (a n o : Nat) : (s.poisonRange a n o).links = s.links := rfl
@[simp] theorem State.poisonRange_firmwareOk (s : State) (a n o : Nat) : (s.poisonRange a n o).firmwareOk = s.firmwareOk := rfl
@[simp] theorem State.poisonRange_firmwareImage (s : State) (a n o : Nat) : (s.poisonRange a n o).firmwareImage = s.firmwareImage := rfl
@[simp] theorem State.poisonRange_firmwareNext (s : State) (a n o : Nat) : (s.poisonRange a n o).firmwareNext = s.firmwareNext := rfl
@[simp] theorem State.poisonRange_firmwareVer (s : State) (a n o : Nat) : (s.poisonRange a n o).firmwareVer = s.firmwareVer := rfl
@[simp] theorem State.poisonRange_fnCtx (s : State) (a n o : Nat) : (s.poisonRange a n o).fnCtx = s.fnCtx := rfl
@[simp] theorem State.poisonRange_powerCap (s : State) (a n o : Nat) : (s.poisonRange a n o).powerCap = s.powerCap := rfl
@[simp] theorem State.poisonRange_mhz (s : State) (a n o : Nat) : (s.poisonRange a n o).mhz = s.mhz := rfl
@[simp] theorem State.poisonRange_capMhz (s : State) (a n o : Nat) : (s.poisonRange a n o).capMhz = s.capMhz := rfl
@[simp] theorem State.poisonRange_throttled (s : State) (a n o : Nat) : (s.poisonRange a n o).throttled = s.throttled := rfl
@[simp] theorem State.poisonRange_watchLimit (s : State) (a n o : Nat) : (s.poisonRange a n o).watchLimit = s.watchLimit := rfl
@[simp] theorem State.poisonRange_watchNext (s : State) (a n o : Nat) : (s.poisonRange a n o).watchNext = s.watchNext := rfl
@[simp] theorem State.poisonRange_errLog (s : State) (a n o : Nat) : (s.poisonRange a n o).errLog = s.errLog := rfl
@[simp] theorem State.poisonRange_corrected (s : State) (a n o : Nat) : (s.poisonRange a n o).corrected = s.corrected := rfl
@[simp] theorem State.poisonRange_hostUp (s : State) (a n o : Nat) : (s.poisonRange a n o).hostUp = s.hostUp := rfl
@[simp] theorem State.poisonRange_insecure (s : State) (a n o : Nat) : (s.poisonRange a n o).insecure = s.insecure := rfl
@[simp] theorem State.poisonRange_msgs (s : State) (a n o : Nat) : (s.poisonRange a n o).msgs = s.msgs := rfl
@[simp] theorem State.poisonRange_atsCache (s : State) (a n o : Nat) : (s.poisonRange a n o).atsCache = s.atsCache := rfl
@[simp] theorem State.poisonRange_msixTable (s : State) (a n o : Nat) : (s.poisonRange a n o).msixTable = s.msixTable := rfl
@[simp] theorem State.poisonRange_upsets (s : State) (a n o : Nat) : (s.poisonRange a n o).upsets = s.upsets := rfl
@[simp] theorem State.poisonRange_routes (s : State) (a n o : Nat) : (s.poisonRange a n o).routes = s.routes := rfl
@[simp] theorem State.poisonRange_scrubAt (s : State) (a n o : Nat) : (s.poisonRange a n o).scrubAt = s.scrubAt := rfl
@[simp] theorem State.poisonRange_rehomed (s : State) (a n o : Nat) : (s.poisonRange a n o).rehomed = s.rehomed := rfl
@[simp] theorem State.poisonRange_spillUsed (s : State) (a n o : Nat) : (s.poisonRange a n o).spillUsed = s.spillUsed := rfl
@[simp] theorem State.poisonRange_detLog (s : State) (a n o : Nat) : (s.poisonRange a n o).detLog = s.detLog := rfl
@[simp] theorem State.poisonRange_detSync (s : State) (a n o : Nat) : (s.poisonRange a n o).detSync = s.detSync := rfl
@[simp] theorem State.poisonRange_undo (s : State) (a n o : Nat) : (s.poisonRange a n o).undo = s.undo := rfl
@[simp] theorem State.poisonRange_fibreEntry (s : State) (a n o : Nat) : (s.poisonRange a n o).fibreEntry = s.fibreEntry := rfl
@[simp] theorem State.poisonRange_freeCtr (s : State) (a n o : Nat) : (s.poisonRange a n o).freeCtr = s.freeCtr := rfl
@[simp] theorem State.poisonRange_delays (s : State) (a n o : Nat) : (s.poisonRange a n o).delays = s.delays := rfl
@[simp] theorem State.poisonRange_cur (s : State) (a n o : Nat) : (s.poisonRange a n o).cur = s.cur := rfl
@[simp] theorem State.poisonRange_toServe (s : State) (a n o : Nat) : (s.poisonRange a n o).toServe = s.toServe := rfl
@[simp] theorem State.poisonRange_tried (s : State) (a n o : Nat) : (s.poisonRange a n o).tried = s.tried := rfl
@[simp] theorem State.poisonRange_agenda (s : State) (a n o : Nat) : (s.poisonRange a n o).agenda = s.agenda := rfl
@[simp] theorem State.poisonRange_nextId (s : State) (a n o : Nat) : (s.poisonRange a n o).nextId = s.nextId := rfl

/-! ### State.unpoison -/

@[simp] theorem State.unpoison_clock (s : State) (a n : Nat) : (s.unpoison a n).clock = s.clock := rfl
@[simp] theorem State.unpoison_mem (s : State) (a n : Nat) : (s.unpoison a n).mem = s.mem := rfl
@[simp] theorem State.unpoison_rowFlags (s : State) (a n : Nat) : (s.unpoison a n).rowFlags = s.rowFlags := rfl
@[simp] theorem State.unpoison_lines (s : State) (a n : Nat) : (s.unpoison a n).lines = s.lines := rfl
@[simp] theorem State.unpoison_behind (s : State) (a n : Nat) : (s.unpoison a n).behind = s.behind := rfl
@[simp] theorem State.unpoison_tmax (s : State) (a n : Nat) : (s.unpoison a n).tmax = s.tmax := rfl
@[simp] theorem State.unpoison_l1 (s : State) (a n : Nat) : (s.unpoison a n).l1 = s.l1 := rfl
@[simp] theorem State.unpoison_tlbSlot (s : State) (a n : Nat) : (s.unpoison a n).tlbSlot = s.tlbSlot := rfl
@[simp] theorem State.unpoison_tlbDie (s : State) (a n : Nat) : (s.unpoison a n).tlbDie = s.tlbDie := rfl
@[simp] theorem State.unpoison_walkCache (s : State) (a n : Nat) : (s.unpoison a n).walkCache = s.walkCache := rfl
@[simp] theorem State.unpoison_walks (s : State) (a n : Nat) : (s.unpoison a n).walks = s.walks := rfl
@[simp] theorem State.unpoison_horLoc (s : State) (a n : Nat) : (s.unpoison a n).horLoc = s.horLoc := rfl
@[simp] theorem State.unpoison_horGal (s : State) (a n : Nat) : (s.unpoison a n).horGal = s.horGal := rfl
@[simp] theorem State.unpoison_horDev (s : State) (a n : Nat) : (s.unpoison a n).horDev = s.horDev := rfl
@[simp] theorem State.unpoison_horSys (s : State) (a n : Nat) : (s.unpoison a n).horSys = s.horSys := rfl
@[simp] theorem State.unpoison_cus (s : State) (a n : Nat) : (s.unpoison a n).cus = s.cus := rfl
@[simp] theorem State.unpoison_warps (s : State) (a n : Nat) : (s.unpoison a n).warps = s.warps := rfl
@[simp] theorem State.unpoison_teams (s : State) (a n : Nat) : (s.unpoison a n).teams = s.teams := rfl
@[simp] theorem State.unpoison_grids (s : State) (a n : Nat) : (s.unpoison a n).grids = s.grids := rfl
@[simp] theorem State.unpoison_ctxs (s : State) (a n : Nat) : (s.unpoison a n).ctxs = s.ctxs := rfl
@[simp] theorem State.unpoison_atomUsed (s : State) (a n : Nat) : (s.unpoison a n).atomUsed = s.atomUsed := rfl
@[simp] theorem State.unpoison_linkUsed (s : State) (a n : Nat) : (s.unpoison a n).linkUsed = s.linkUsed := rfl
@[simp] theorem State.unpoison_linkHeld (s : State) (a n : Nat) : (s.unpoison a n).linkHeld = s.linkHeld := rfl
@[simp] theorem State.unpoison_copyUsed (s : State) (a n : Nat) : (s.unpoison a n).copyUsed = s.copyUsed := rfl
@[simp] theorem State.unpoison_copyHeld (s : State) (a n : Nat) : (s.unpoison a n).copyHeld = s.copyHeld := rfl
@[simp] theorem State.unpoison_mxsUsed (s : State) (a n : Nat) : (s.unpoison a n).mxsUsed = s.mxsUsed := rfl
@[simp] theorem State.unpoison_deferred (s : State) (a n : Nat) : (s.unpoison a n).deferred = s.deferred := rfl
@[simp] theorem State.unpoison_windows (s : State) (a n : Nat) : (s.unpoison a n).windows = s.windows := rfl
@[simp] theorem State.unpoison_launches (s : State) (a n : Nat) : (s.unpoison a n).launches = s.launches := rfl
@[simp] theorem State.unpoison_loads (s : State) (a n : Nat) : (s.unpoison a n).loads = s.loads := rfl
@[simp] theorem State.unpoison_reqs (s : State) (a n : Nat) : (s.unpoison a n).reqs = s.reqs := rfl
@[simp] theorem State.unpoison_mcas (s : State) (a n : Nat) : (s.unpoison a n).mcas = s.mcas := rfl
@[simp] theorem State.unpoison_copies (s : State) (a n : Nat) : (s.unpoison a n).copies = s.copies := rfl
@[simp] theorem State.unpoison_gathers (s : State) (a n : Nat) : (s.unpoison a n).gathers = s.gathers := rfl
@[simp] theorem State.unpoison_ovls (s : State) (a n : Nat) : (s.unpoison a n).ovls = s.ovls := rfl
@[simp] theorem State.unpoison_episodes (s : State) (a n : Nat) : (s.unpoison a n).episodes = s.episodes := rfl
@[simp] theorem State.unpoison_replies (s : State) (a n : Nat) : (s.unpoison a n).replies = s.replies := rfl
@[simp] theorem State.unpoison_supOps (s : State) (a n : Nat) : (s.unpoison a n).supOps = s.supOps := rfl
@[simp] theorem State.unpoison_pieces (s : State) (a n : Nat) : (s.unpoison a n).pieces = s.pieces := rfl
@[simp] theorem State.unpoison_hreads (s : State) (a n : Nat) : (s.unpoison a n).hreads = s.hreads := rfl
@[simp] theorem State.unpoison_descs (s : State) (a n : Nat) : (s.unpoison a n).descs = s.descs := rfl
@[simp] theorem State.unpoison_hubH (s : State) (a n : Nat) : (s.unpoison a n).hubH = s.hubH := rfl
@[simp] theorem State.unpoison_hubSeq (s : State) (a n : Nat) : (s.unpoison a n).hubSeq = s.hubSeq := rfl
@[simp] theorem State.unpoison_hubC (s : State) (a n : Nat) : (s.unpoison a n).hubC = s.hubC := rfl
@[simp] theorem State.unpoison_dealNext (s : State) (a n : Nat) : (s.unpoison a n).dealNext = s.dealNext := rfl
@[simp] theorem State.unpoison_damam (s : State) (a n : Nat) : (s.unpoison a n).damam = s.damam := rfl
@[simp] theorem State.unpoison_contract (s : State) (a n : Nat) : (s.unpoison a n).contract = s.contract := rfl
@[simp] theorem State.unpoison_dies (s : State) (a n : Nat) : (s.unpoison a n).dies = s.dies := rfl
@[simp] theorem State.unpoison_links (s : State) (a n : Nat) : (s.unpoison a n).links = s.links := rfl
@[simp] theorem State.unpoison_firmwareOk (s : State) (a n : Nat) : (s.unpoison a n).firmwareOk = s.firmwareOk := rfl
@[simp] theorem State.unpoison_firmwareImage (s : State) (a n : Nat) : (s.unpoison a n).firmwareImage = s.firmwareImage := rfl
@[simp] theorem State.unpoison_firmwareNext (s : State) (a n : Nat) : (s.unpoison a n).firmwareNext = s.firmwareNext := rfl
@[simp] theorem State.unpoison_firmwareVer (s : State) (a n : Nat) : (s.unpoison a n).firmwareVer = s.firmwareVer := rfl
@[simp] theorem State.unpoison_fnCtx (s : State) (a n : Nat) : (s.unpoison a n).fnCtx = s.fnCtx := rfl
@[simp] theorem State.unpoison_powerCap (s : State) (a n : Nat) : (s.unpoison a n).powerCap = s.powerCap := rfl
@[simp] theorem State.unpoison_mhz (s : State) (a n : Nat) : (s.unpoison a n).mhz = s.mhz := rfl
@[simp] theorem State.unpoison_capMhz (s : State) (a n : Nat) : (s.unpoison a n).capMhz = s.capMhz := rfl
@[simp] theorem State.unpoison_throttled (s : State) (a n : Nat) : (s.unpoison a n).throttled = s.throttled := rfl
@[simp] theorem State.unpoison_watchLimit (s : State) (a n : Nat) : (s.unpoison a n).watchLimit = s.watchLimit := rfl
@[simp] theorem State.unpoison_watchNext (s : State) (a n : Nat) : (s.unpoison a n).watchNext = s.watchNext := rfl
@[simp] theorem State.unpoison_errLog (s : State) (a n : Nat) : (s.unpoison a n).errLog = s.errLog := rfl
@[simp] theorem State.unpoison_corrected (s : State) (a n : Nat) : (s.unpoison a n).corrected = s.corrected := rfl
@[simp] theorem State.unpoison_hostUp (s : State) (a n : Nat) : (s.unpoison a n).hostUp = s.hostUp := rfl
@[simp] theorem State.unpoison_insecure (s : State) (a n : Nat) : (s.unpoison a n).insecure = s.insecure := rfl
@[simp] theorem State.unpoison_msgs (s : State) (a n : Nat) : (s.unpoison a n).msgs = s.msgs := rfl
@[simp] theorem State.unpoison_atsCache (s : State) (a n : Nat) : (s.unpoison a n).atsCache = s.atsCache := rfl
@[simp] theorem State.unpoison_msixTable (s : State) (a n : Nat) : (s.unpoison a n).msixTable = s.msixTable := rfl
@[simp] theorem State.unpoison_upsets (s : State) (a n : Nat) : (s.unpoison a n).upsets = s.upsets := rfl
@[simp] theorem State.unpoison_routes (s : State) (a n : Nat) : (s.unpoison a n).routes = s.routes := rfl
@[simp] theorem State.unpoison_scrubAt (s : State) (a n : Nat) : (s.unpoison a n).scrubAt = s.scrubAt := rfl
@[simp] theorem State.unpoison_rehomed (s : State) (a n : Nat) : (s.unpoison a n).rehomed = s.rehomed := rfl
@[simp] theorem State.unpoison_spillUsed (s : State) (a n : Nat) : (s.unpoison a n).spillUsed = s.spillUsed := rfl
@[simp] theorem State.unpoison_detLog (s : State) (a n : Nat) : (s.unpoison a n).detLog = s.detLog := rfl
@[simp] theorem State.unpoison_detSync (s : State) (a n : Nat) : (s.unpoison a n).detSync = s.detSync := rfl
@[simp] theorem State.unpoison_undo (s : State) (a n : Nat) : (s.unpoison a n).undo = s.undo := rfl
@[simp] theorem State.unpoison_fibreEntry (s : State) (a n : Nat) : (s.unpoison a n).fibreEntry = s.fibreEntry := rfl
@[simp] theorem State.unpoison_freeCtr (s : State) (a n : Nat) : (s.unpoison a n).freeCtr = s.freeCtr := rfl
@[simp] theorem State.unpoison_delays (s : State) (a n : Nat) : (s.unpoison a n).delays = s.delays := rfl
@[simp] theorem State.unpoison_cur (s : State) (a n : Nat) : (s.unpoison a n).cur = s.cur := rfl
@[simp] theorem State.unpoison_toServe (s : State) (a n : Nat) : (s.unpoison a n).toServe = s.toServe := rfl
@[simp] theorem State.unpoison_tried (s : State) (a n : Nat) : (s.unpoison a n).tried = s.tried := rfl
@[simp] theorem State.unpoison_agenda (s : State) (a n : Nat) : (s.unpoison a n).agenda = s.agenda := rfl
@[simp] theorem State.unpoison_nextId (s : State) (a n : Nat) : (s.unpoison a n).nextId = s.nextId := rfl

/-! ### Warps -/

@[simp] theorem Warp.setStrand_team (w : Warp) (e : Nat) (x : Strand) : (w.setStrand e x).team = w.team := rfl
@[simp] theorem Warp.setStrand_number (w : Warp) (e : Nat) (x : Strand) : (w.setStrand e x).number = w.number := rfl
@[simp] theorem Warp.setStrand_k (w : Warp) (e : Nat) (x : Strand) : (w.setStrand e x).k = w.k := rfl
@[simp] theorem Warp.setStrand_kPoison (w : Warp) (e : Nat) (x : Strand) : (w.setStrand e x).kPoison = w.kPoison := rfl
@[simp] theorem Warp.setStrand_block (w : Warp) (e : Nat) (x : Strand) : (w.setStrand e x).block = w.block := rfl
@[simp] theorem Warp.setStrand_blockBytes (w : Warp) (e : Nat) (x : Strand) : (w.setStrand e x).blockBytes = w.blockBytes := rfl
@[simp] theorem Warp.setStrand_winmap (w : Warp) (e : Nat) (x : Strand) : (w.setStrand e x).winmap = w.winmap := rfl
@[simp] theorem Warp.setStrand_fibres (w : Warp) (e : Nat) (x : Strand) : (w.setStrand e x).fibres = w.fibres := rfl
@[simp] theorem Warp.setStrand_table (w : Warp) (e : Nat) (x : Strand) : (w.setStrand e x).table = w.table.set e x := rfl
@[simp] theorem Warp.setStrand_overflow (w : Warp) (e : Nat) (x : Strand) : (w.setStrand e x).overflow = w.overflow := rfl
@[simp] theorem Warp.setStrand_holder (w : Warp) (e : Nat) (x : Strand) : (w.setStrand e x).holder = w.holder := rfl
@[simp] theorem Warp.setStrand_vacated (w : Warp) (e : Nat) (x : Strand) : (w.setStrand e x).vacated = w.vacated := rfl
@[simp] theorem Warp.setStrand_leftAt (w : Warp) (e : Nat) (x : Strand) : (w.setStrand e x).leftAt = w.leftAt := rfl
@[simp] theorem Warp.setStrand_lastFibre (w : Warp) (e : Nat) (x : Strand) : (w.setStrand e x).lastFibre = w.lastFibre := rfl
@[simp] theorem Warp.setStrand_lastIssue (w : Warp) (e : Nat) (x : Strand) : (w.setStrand e x).lastIssue = w.lastIssue := rfl
@[simp] theorem Warp.setStrand_pipe (w : Warp) (e : Nat) (x : Strand) : (w.setStrand e x).pipe = w.pipe := rfl
@[simp] theorem Warp.setStrand_kpend (w : Warp) (e : Nat) (x : Strand) : (w.setStrand e x).kpend = w.kpend := rfl
@[simp] theorem Warp.setStrand_kops (w : Warp) (e : Nat) (x : Strand) : (w.setStrand e x).kops = w.kops := rfl
@[simp] theorem Warp.setStrand_kts (w : Warp) (e : Nat) (x : Strand) : (w.setStrand e x).kts = w.kts := rfl
@[simp] theorem Warp.setStrand_op (w : Warp) (e : Nat) (x : Strand) : (w.setStrand e x).op = w.op := rfl
@[simp] theorem Warp.setStrand_spilled (w : Warp) (e : Nat) (x : Strand) : (w.setStrand e x).spilled = w.spilled := rfl
@[simp] theorem Warp.setStrand_regrow (w : Warp) (e : Nat) (x : Strand) : (w.setStrand e x).regrow = w.regrow := rfl

@[simp] theorem Warp.modStrand_team (w : Warp) (e : Nat) (f : Strand → Strand) : (w.modStrand e f).team = w.team := rfl
@[simp] theorem Warp.modStrand_number (w : Warp) (e : Nat) (f : Strand → Strand) : (w.modStrand e f).number = w.number := rfl
@[simp] theorem Warp.modStrand_k (w : Warp) (e : Nat) (f : Strand → Strand) : (w.modStrand e f).k = w.k := rfl
@[simp] theorem Warp.modStrand_kPoison (w : Warp) (e : Nat) (f : Strand → Strand) : (w.modStrand e f).kPoison = w.kPoison := rfl
@[simp] theorem Warp.modStrand_block (w : Warp) (e : Nat) (f : Strand → Strand) : (w.modStrand e f).block = w.block := rfl
@[simp] theorem Warp.modStrand_blockBytes (w : Warp) (e : Nat) (f : Strand → Strand) : (w.modStrand e f).blockBytes = w.blockBytes := rfl
@[simp] theorem Warp.modStrand_winmap (w : Warp) (e : Nat) (f : Strand → Strand) : (w.modStrand e f).winmap = w.winmap := rfl
@[simp] theorem Warp.modStrand_fibres (w : Warp) (e : Nat) (f : Strand → Strand) : (w.modStrand e f).fibres = w.fibres := rfl
@[simp] theorem Warp.modStrand_table (w : Warp) (e : Nat) (f : Strand → Strand) : (w.modStrand e f).table = w.table.set e (f (w.strand e)) := rfl
@[simp] theorem Warp.modStrand_overflow (w : Warp) (e : Nat) (f : Strand → Strand) : (w.modStrand e f).overflow = w.overflow := rfl
@[simp] theorem Warp.modStrand_holder (w : Warp) (e : Nat) (f : Strand → Strand) : (w.modStrand e f).holder = w.holder := rfl
@[simp] theorem Warp.modStrand_vacated (w : Warp) (e : Nat) (f : Strand → Strand) : (w.modStrand e f).vacated = w.vacated := rfl
@[simp] theorem Warp.modStrand_leftAt (w : Warp) (e : Nat) (f : Strand → Strand) : (w.modStrand e f).leftAt = w.leftAt := rfl
@[simp] theorem Warp.modStrand_lastFibre (w : Warp) (e : Nat) (f : Strand → Strand) : (w.modStrand e f).lastFibre = w.lastFibre := rfl
@[simp] theorem Warp.modStrand_lastIssue (w : Warp) (e : Nat) (f : Strand → Strand) : (w.modStrand e f).lastIssue = w.lastIssue := rfl
@[simp] theorem Warp.modStrand_pipe (w : Warp) (e : Nat) (f : Strand → Strand) : (w.modStrand e f).pipe = w.pipe := rfl
@[simp] theorem Warp.modStrand_kpend (w : Warp) (e : Nat) (f : Strand → Strand) : (w.modStrand e f).kpend = w.kpend := rfl
@[simp] theorem Warp.modStrand_kops (w : Warp) (e : Nat) (f : Strand → Strand) : (w.modStrand e f).kops = w.kops := rfl
@[simp] theorem Warp.modStrand_kts (w : Warp) (e : Nat) (f : Strand → Strand) : (w.modStrand e f).kts = w.kts := rfl
@[simp] theorem Warp.modStrand_op (w : Warp) (e : Nat) (f : Strand → Strand) : (w.modStrand e f).op = w.op := rfl
@[simp] theorem Warp.modStrand_spilled (w : Warp) (e : Nat) (f : Strand → Strand) : (w.modStrand e f).spilled = w.spilled := rfl
@[simp] theorem Warp.modStrand_regrow (w : Warp) (e : Nat) (f : Strand → Strand) : (w.modStrand e f).regrow = w.regrow := rfl

@[simp] theorem Warp.modFibre_team (w : Warp) (i : Nat) (f : Fibre → Fibre) : (w.modFibre i f).team = w.team := rfl
@[simp] theorem Warp.modFibre_number (w : Warp) (i : Nat) (f : Fibre → Fibre) : (w.modFibre i f).number = w.number := rfl
@[simp] theorem Warp.modFibre_k (w : Warp) (i : Nat) (f : Fibre → Fibre) : (w.modFibre i f).k = w.k := rfl
@[simp] theorem Warp.modFibre_kPoison (w : Warp) (i : Nat) (f : Fibre → Fibre) : (w.modFibre i f).kPoison = w.kPoison := rfl
@[simp] theorem Warp.modFibre_block (w : Warp) (i : Nat) (f : Fibre → Fibre) : (w.modFibre i f).block = w.block := rfl
@[simp] theorem Warp.modFibre_blockBytes (w : Warp) (i : Nat) (f : Fibre → Fibre) : (w.modFibre i f).blockBytes = w.blockBytes := rfl
@[simp] theorem Warp.modFibre_winmap (w : Warp) (i : Nat) (f : Fibre → Fibre) : (w.modFibre i f).winmap = w.winmap := rfl
@[simp] theorem Warp.modFibre_fibres (w : Warp) (i : Nat) (f : Fibre → Fibre) : (w.modFibre i f).fibres = w.fibres.set i (f (w.fibre i)) := rfl
@[simp] theorem Warp.modFibre_table (w : Warp) (i : Nat) (f : Fibre → Fibre) : (w.modFibre i f).table = w.table := rfl
@[simp] theorem Warp.modFibre_overflow (w : Warp) (i : Nat) (f : Fibre → Fibre) : (w.modFibre i f).overflow = w.overflow := rfl
@[simp] theorem Warp.modFibre_holder (w : Warp) (i : Nat) (f : Fibre → Fibre) : (w.modFibre i f).holder = w.holder := rfl
@[simp] theorem Warp.modFibre_vacated (w : Warp) (i : Nat) (f : Fibre → Fibre) : (w.modFibre i f).vacated = w.vacated := rfl
@[simp] theorem Warp.modFibre_leftAt (w : Warp) (i : Nat) (f : Fibre → Fibre) : (w.modFibre i f).leftAt = w.leftAt := rfl
@[simp] theorem Warp.modFibre_lastFibre (w : Warp) (i : Nat) (f : Fibre → Fibre) : (w.modFibre i f).lastFibre = w.lastFibre := rfl
@[simp] theorem Warp.modFibre_lastIssue (w : Warp) (i : Nat) (f : Fibre → Fibre) : (w.modFibre i f).lastIssue = w.lastIssue := rfl
@[simp] theorem Warp.modFibre_pipe (w : Warp) (i : Nat) (f : Fibre → Fibre) : (w.modFibre i f).pipe = w.pipe := rfl
@[simp] theorem Warp.modFibre_kpend (w : Warp) (i : Nat) (f : Fibre → Fibre) : (w.modFibre i f).kpend = w.kpend := rfl
@[simp] theorem Warp.modFibre_kops (w : Warp) (i : Nat) (f : Fibre → Fibre) : (w.modFibre i f).kops = w.kops := rfl
@[simp] theorem Warp.modFibre_kts (w : Warp) (i : Nat) (f : Fibre → Fibre) : (w.modFibre i f).kts = w.kts := rfl
@[simp] theorem Warp.modFibre_op (w : Warp) (i : Nat) (f : Fibre → Fibre) : (w.modFibre i f).op = w.op := rfl
@[simp] theorem Warp.modFibre_spilled (w : Warp) (i : Nat) (f : Fibre → Fibre) : (w.modFibre i f).spilled = w.spilled := rfl
@[simp] theorem Warp.modFibre_regrow (w : Warp) (i : Nat) (f : Fibre → Fibre) : (w.modFibre i f).regrow = w.regrow := rfl

end Sys2Proof.Machine
end

