-- ==== Sys2Proof/Laws/Memory.lean ====
section
/-! SUPPORT. Every operation that writes memory keeps its canonical form; what noting a write, taking a trap, stamping a line and scheduling
an event do. -/

namespace Sys2Proof.Machine

/-! ### Folds -/

/-- What every step of a fold keeps, the fold keeps. -/
theorem foldl_keeps {α β : Type} (P : β → Prop) (f : β → α → β) (l : List α) (b : β) (h : P b) (k : ∀ b a, P b → P (f b a)) : P (l.foldl f b) := by
  induction l generalizing b with
  | nil => exact h
  | cons a t ih => exact ih _ (k b a h)

/-- A quantity that no step of a fold changes is the one before it. -/
theorem foldl_same {α β γ : Type} (q : β → γ) (f : β → α → β) (l : List α) (b : β) (k : ∀ b a, q (f b a) = q b) : q (l.foldl f b) = q b :=
  foldl_keeps (fun x => q x = q b) f l b rfl fun x a h => (k x a).trans h

/-! ### The canonical form -/

theorem memOk_poisonRange {s : State} (h : MemOk s) (a n o : Nat) : MemOk (s.poisonRange a n o) := h
theorem memOk_unpoison {s : State} (h : MemOk s) (a n : Nat) : MemOk (s.unpoison a n) := h
theorem memOk_setLine {s : State} (h : MemOk s) (l : Nat) (x : Line) : MemOk (s.setLine l x) := h

theorem memOk_writebackLine {s : State} (h : MemOk s) (l : Nat) : MemOk (s.writebackLine l) := by
  unfold State.writebackLine
  split
  · dsimp only
    split
    · refine foldl_keeps MemOk _ _ _ (spWf_spWrite _ _ _ h) fun u i hu => ?_
      split <;> exact hu
    · exact spWf_spWrite _ _ _ h
  · exact h

theorem memOk_evictLine {s : State} (h : MemOk s) (l : Nat) : MemOk (s.evictLine l) := by
  unfold State.evictLine
  dsimp only
  split
  · split <;> exact memOk_writebackLine h l
  · exact memOk_writebackLine h l

theorem memOk_makeRoom {s : State} (h : MemOk s) (l : Nat) : MemOk (s.makeRoom l) := by
  unfold State.makeRoom
  dsimp only
  split
  · exact h
  · split
    · exact h
    · exact memOk_evictLine (s := s) h _

theorem memOk_fillLine {s : State} (h : MemOk s) (l : Nat) : MemOk (s.fillLine l) := by
  unfold State.fillLine
  split
  · exact h
  · split
    · exact h
    · have hm := memOk_makeRoom h l
      dsimp only
      split
      · refine foldl_keeps MemOk _ _ _ hm fun u i hu => ?_
        split <;> exact hu
      · exact hm

theorem memOk_setRun (n : Nat) {s : State} (h : MemOk s) (a : Nat) (bs : List Byte) : MemOk (s.setRun a bs n) := by
  induction n generalizing s a bs with
  | zero => exact h
  | succ n ih =>
    unfold State.setRun
    split
    · exact h
    · refine ih (memOk_setBytes ?_ _ _) _ _
      split
      · exact memOk_fillLine h _
      · exact h

theorem memOk_storeRun {s : State} (h : MemOk s) (a : Nat) (bs : List Byte) : MemOk (s.storeRun a bs) := memOk_setRun _ h _ _

/-- Enabling a view (R144) keeps the canonical form. -/
theorem memOk_adoptLines {s : State} (h : MemOk s) (w : Window) : MemOk (s.adoptLines w) := by
  unfold State.adoptLines
  refine foldl_keeps MemOk _ _ _ h fun u e hu => ?_
  dsimp only
  split
  · exact hu
  · have hr : MemOk (if (u.line e.1).inL2 then u else u.makeRoom e.1) := by
      split
      · exact hu
      · exact memOk_makeRoom hu _
    split
    · exact spWf_spWrite _ _ _ hr
    · exact hr

theorem memOk_putImage {s : State} (h : MemOk s) (a n : Nat) (im : Sparse 8 × AMap Nat) : MemOk (s.putImage a n im) := by
  show Memory.wf _ = true
  unfold State.putImage
  dsimp only
  split
  · exact spWf_foldl_spSet im.1 (fun e => a + e.1) (fun e => e.2) _ (memOk_zero h a n)
  · exact memOk_storeRun h _ _

theorem memOk_evictRun {s : State} (h : MemOk s) (a n : Nat) : MemOk (s.evictRun a n) :=
  foldl_keeps MemOk _ _ _ h fun _ e hu => memOk_evictLine hu e.1

theorem memOk_readSeg {s : State} (h : MemOk s) (im : Saved) (pages : List Nat) (g : Seg) : MemOk (s.readSeg im pages g) := by
  unfold State.readSeg
  split
  · exact foldl_keeps (fun m => spWf m = true) _ _ _ (memOk_zero h _ _) fun m c hm =>
      spWf_foldl_spSet (w := 8) _ (fun e : Nat × BitVec 8 => _ + (c.1 - g.off) + e.1) (fun e => e.2) m hm
  · exact h
  · exact h

theorem memOk_putSeg {s : State} (h : MemOk s) (pages : List Nat) (g : Seg) (im : Sparse 8) : MemOk (s.putSeg pages g im) :=
  foldl_keeps MemOk _ _ _ h fun _ _ hu => memOk_putImage hu _ _ _

/-! ### Noting a write -/

@[simp] theorem mem_sendRecord (s : State) (ctx d key uid num : Nat) : (s.sendRecord ctx d key uid num).mem = s.mem := rfl

/-- A message between sites (R21) touches nothing but what budgets, routes and links record of it. -/
theorem sendFlits_eq (s : State) (ctx a b n : Nat) (favoured must : Bool) (delay : Nat) :
    ∃ used held routes links, (s.sendFlits ctx a b n favoured must delay).1 =
      { s with linkUsed := used, linkHeld := held, routes := routes, links := links } := by
  unfold State.sendFlits State.chargeLink State.enterRoute
  dsimp only
  repeat' split
  all_goals exact ⟨_, _, _, _, rfl⟩

/-- So does a message of a die to the hub. -/
theorem toHub_eq (s : State) (ctx site : Nat) (favoured : Bool) :
    ∃ used held routes links, (s.toHub ctx site favoured).1 = { s with linkUsed := used, linkHeld := held, routes := routes, links := links } :=
  sendFlits_eq ..

@[simp] theorem mem_toHub (s : State) (ctx site : Nat) (favoured : Bool) : (s.toHub ctx site favoured).1.mem = s.mem := by
  obtain ⟨_, _, _, _, h⟩ := toHub_eq s ctx site favoured
  rw [h]

@[simp] theorem mem_sendTrap (s : State) (k e uid num : Nat) : (s.sendTrap k e uid num).mem = s.mem := mem_toHub ..

@[simp] theorem mem_headGather (s : State) (cu : Nat) : (s.headGather cu).mem = s.mem := by
  unfold State.headGather
  repeat' split
  all_goals rfl

/-- Discarding a gather touches no byte of memory. -/
@[simp] theorem mem_dropGather (s : State) (cu uid : Nat) : (s.dropGather cu uid).mem = s.mem := by
  unfold State.dropGather State.endGather
  dsimp only
  repeat' split
  all_goals first | rfl | simp [State.modCu]

/-- A strand with no gather in progress has none to discard. -/
theorem dropGather_none {s : State} {cu uid : Nat} (h : amGet s.gathers uid = none) (hc : (s.cu cu).gather.contains uid = false) :
    s.dropGather cu uid = s := by
  unfold State.dropGather
  rw [h, hc]
  rfl

@[simp] theorem mem_takeTrap (s : State) (k e : Nat) (t : TrapInfo) (pc : BitVec 23) : (s.takeTrap k e t pc).mem = s.mem := by
  unfold State.takeTrap
  split
  · rfl
  · dsimp only
    split
    · exact mem_dropGather ..
    · rw [mem_sendTrap]
      exact mem_dropGather ..

@[simp] theorem mem_rewatch (s : State) (k e : Nat) : (s.rewatch k e).mem = s.mem := by
  unfold State.rewatch
  split
  · rfl
  · dsimp only
    split
    · exact mem_takeTrap ..
    · split <;> rfl

/-- What follows a write (R162, R249, R111) touches no byte of memory. -/
@[simp] theorem mem_afterWrite (s : State) (a n ts uid : Nat) : (s.afterWrite a n ts uid).mem = s.mem := by
  unfold State.afterWrite
  dsimp only
  rw [foldl_same State.mem, foldl_same State.mem, foldl_same State.mem]
  · rfl
  · intro b w; exact mem_rewatch ..
  · intro b g; split <;> rfl
  · intro b c; split <;> rfl

/-- The write of a save area (R320) keeps the canonical form. -/
theorem memOk_writeSave {s : State} (h : MemOk s) (ctx : Nat) (segs : List Seg) (pages : List Nat) : MemOk (s.writeSave ctx segs pages) := by
  unfold State.writeSave
  dsimp only
  show Memory.wf _ = true
  rw [foldl_same State.mem _ _ _ fun b e => by split <;> simp]
  rw [foldl_same State.mem _ _ _ fun b g => foldl_same State.mem _ _ _ fun _ _ => mem_afterWrite ..]
  refine foldl_keeps MemOk _ _ _ ?_ fun u g hu => memOk_putSeg hu _ _ _
  exact foldl_keeps (fun m : State × AMap Nat => MemOk m.1) _ _ _ h fun _ _ hu =>
    foldl_keeps (fun m : State × AMap Nat => MemOk m.1) _ _ _ hu fun _ _ hv => hv

/-! ### Taking a trap (R330) -/

/-- Outside a fence window a trap of a strand with no gather in progress freezes the strand where it stands and sends its record; nothing else
of the state changes. -/
theorem takeTrap_freezes {s : State} {k e : Nat} {w : Warp} (t : TrapInfo) (next : BitVec 23) (hw : amGet s.warps k = some w)
    (hf : (w.strand e).fence = none) (hg : amGet s.gathers (w.strand e).uid = none)
    (hc : (s.cu (warpCu k)).gather.contains (w.strand e).uid = false) :
    s.takeTrap k e t next = (s.modWarp k fun w => (w.leave e s.clock).modStrand e fun st =>
      { st with state := .frozen, hold := .none, seq := none, trapPosted := false, succ := next, trapClass := t.cls, waitk := 0,
                ovlWait := none, waitSince := s.clock, atHome := false }).sendTrap k e (w.strand e).uid (s.recordOf k e t) := by
  simp only [State.takeTrap, hw, hf, dropGather_none hg hc]

/-- In a fence window the trap is held (R162). -/
theorem takeTrap_held {s : State} {k e : Nat} {w : Warp} {fw : FenceWindow} (t : TrapInfo) (next : BitVec 23) (hw : amGet s.warps k = some w)
    (hf : (w.strand e).fence = some fw) (hg : amGet s.gathers (w.strand e).uid = none)
    (hc : (s.cu (warpCu k)).gather.contains (w.strand e).uid = false) :
    s.takeTrap k e t next = s.modStrand k e fun st =>
      { st with fence := some { fw with trap := some (t.cls, next, s.recordOf k e t) }, hold := .busy st.uid, atHome := false } := by
  simp only [State.takeTrap, hw, hf, dropGather_none hg hc]

/-! ### Timestamps (R155) -/

theorem readStamp_ts (s : State) (l c lease : Nat) : (s.readStamp l c lease).1 = max (c + 1) (s.line l).wts := rfl

theorem line_setLine (s : State) (l : Nat) (x : Line) : (s.setLine l x).line l = x := by
  simp [State.line, State.setLine]

theorem line_setLine_ne (s : State) {l m : Nat} (x : Line) (h : m ≠ l) : (s.setLine l x).line m = s.line m := by
  simp [State.line, State.setLine, amGet_amSet_ne _ _ h]

theorem readStamp_line (s : State) (l c lease : Nat) :
    ((s.readStamp l c lease).2.line l).rts = max (s.line l).rts (max (c + 1) (s.line l).wts + lease) ∧
      ((s.readStamp l c lease).2.line l).wts = (s.line l).wts := by
  simp [State.readStamp, State.line, State.setLine]

theorem writeStamp_ts (s : State) (l c : Nat) : (s.writeStamp l c).1 = max (c + 1) ((s.line l).rts + 1) := rfl

theorem writeStamp_line (s : State) (l c : Nat) :
    ((s.writeStamp l c).2.line l).rts = (s.writeStamp l c).1 ∧ ((s.writeStamp l c).2.line l).wts = (s.writeStamp l c).1 := by
  simp [State.writeStamp, State.line, State.setLine]

/-! ### The agenda -/

theorem mem_insAgenda (l : List Agenda) (x y : Agenda) : y ∈ insAgenda l x ↔ y = x ∨ y ∈ l := by
  induction l with
  | nil => simp [insAgenda]
  | cons a t ih =>
    simp only [insAgenda]
    split
    · simp
    · simp only [List.mem_cons, ih]
      tauto

@[simp] theorem mem_after_self (s : State) (d p : Nat) (ev : Instr) :
    { due := s.clock + d, prio := p, ev := ev } ∈ (s.after d p ev).agenda := (mem_insAgenda _ _ _).mpr (.inl rfl)

theorem mem_after {s : State} {a : Agenda} (d p : Nat) (ev : Instr) (h : a ∈ s.agenda) : a ∈ (s.after d p ev).agenda :=
  (mem_insAgenda _ _ _).mpr (.inr h)

end Sys2Proof.Machine
end

