-- ==== Sys2Proof/Tests/Slice0.lean ====
section
/-! SUPPORT. Tests: the words that the spec writes out, ill-formed terms that the checks refuse, single steps on a small state, and for every
statement with hypotheses a state and operands that meet them. Expected values come from the spec's tables and worked encodings, or are worked out
by hand from its rules. -/

namespace Sys2Proof.Tests

open Sys2Proof Sys2Proof.Machine Sys2Proof.Stated

/-! ### A small state -/

/-- The window map that gives fibre 0 its first fifteen windows in order. -/
def windows15 : Sparse 8 := runOf 0 ((List.range 15).map fun i => BitVec.ofNat 8 (128 + i))

/-- A warp of one strand, of every lane, at PC 0, with a block of 16 KB and 15 windows. -/
def warp1 : Warp := { team := 0, table := { uid := 1, state := .ready, mask := BitVec.allOnes 32 } :: List.replicate 7 {}, holder := some 0,
                      blockBytes := 16384, winmap := windows15 }

/-- A team of that warp with one bay. -/
def team1 : Team := { grid := 0, index := 0, group := 0, rank := 0, cu := 0, warps := [0], bays := [16384], spares := [], started := true }

/-- A launch of one team with one bay and windows of 16 KB. -/
def grid1 : Grid := { ctx := 0, lr := { bays := 1, regs := 2 } }

/-- Pairs at v4, v6, v8 and v10: a pointer to address 0, one to the first bay, one to the strand's own v0, one to its first tile. -/
def pairs : List Host.Cell := [(2 ^ 40 + 128 * 7 + 3, 16), (2 ^ 40 + 128 * 9 + 3, 32), (2 ^ 40 + 128 * 11 + 3, 48)]

/-- The translation of page 0: itself, all rights. -/
def page0 : Tlb := { ctx := 0, base := 0, bytes := 4096, frame := 0, x := true, w := true, sv := false }

/-- One strand in a supervisor context on CU 0 of site 0, its first page cached everywhere and every die joined. -/
def one : State := { State.reset with
  mem := pairs
  ctxs := [(0, { sup := true, trapq := 64 })]
  grids := [(0, grid1)]
  teams := [(0, team1)]
  warps := [(0, warp1)]
  cus := [(0, { grants := [(0, 16384, 0), (16384, 4096, 0)] })]
  dies := (List.range 8).map fun d => (d, { status := 2, pooled := true })
  tlbSlot := [(0, [page0])]
  tlbDie := [(0, [page0]), (8, [page0])]
  clock := 100
  nextId := 2
  agenda := []
  cur := some { warp := 0, entry := 0 } }

/-- One lane of it active. -/
def lane0 : State := { one with warps := [(0, { warp1 with table := { uid := 1, state := .ready, mask := 1 } :: List.replicate 7 {} })] }

/-! ### Witnesses -/

/-- Whether a group passes at a state with a condition on it. -/
def ok (s : State) (q : Iss → Bool) (i : Instr) : Bool :=
  match issOf i s with
  | some x => decide (x.mask ≠ 0) && (x.check s).isNone && (x.poisonCheck s).isNone && q x
  | none => false

theorem witness {s : State} {q : Iss → Bool} {i : Instr} (h : ok s q i = true) : ∃ x, Passes i s x ∧ q x = true := by
  unfold ok at h
  split at h
  · rename_i x e
    simp only [Bool.and_eq_true, decide_eq_true_eq, Option.isNone_iff_eq_none] at h
    exact ⟨x, { group := e, lanes := h.1.1.1, checks := h.1.1.2, clean := h.1.2 }, h.2⟩
  · exact absurd h (by simp)

/-- Every group of a list passes, at a state, with a condition. -/
def Meets (s : State) (q : Iss → Bool) (l : List Instr) : Prop := ∀ i ∈ l, ∃ x, Passes i s x ∧ q x = true

theorem meets {s : State} {q : Iss → Bool} {l : List Instr} (h : l.all (ok s q) = true) : Meets s q l :=
  fun i m => witness (List.all_eq_true.mp h i m)

/-- No further condition. -/
def any : Iss → Bool := fun _ => true

/-! ### Encodings: words that the spec writes out, beside those of the statement DecodedWords -/

/-- Whether a group's halfwords decode to an instruction and are its words. -/
def reads (hs : List (BitVec 16)) (i : Instr) : Bool := decide (decode hs = .ok i hs.length ∧ encode i = hs)

theorem test_words_statement : writtenWords.all (fun w => reads w.1 w.2) = true := by decide

/-- The lane instructions' words (chapter 09). -/
theorem test_words_lane : reads (parcelHalves 0x800E1B97) (.redux {} 8 0 7 6) = true ∧
    reads ([0x0102] ++ parcelHalves 0x7E0813F1) (.shflXor { imm := [16] } 0 126 4 4) = true ∧
    reads (parcelHalves 0x100C2579) (.kuImmediateOp {} 4 3 9 7) = true ∧ reads (parcelHalves 0x030A1133) (.rng {} 3 5 4) = true := by decide

/-- The memory instructions' words (chapter 10). -/
theorem test_words_memory : reads (parcelHalves 0xFD101085) (.ld {} 0xFD 8 4 2 0) = true ∧
    reads (parcelHalves 0xC02812C5) (.ldAcq {} 3 0 20 4 4) = true ∧ reads (parcelHalves 0x60100B05) (.stRel32 {} 1 2 8 2) = true ∧
    reads (parcelHalves 0x0211F325) (.pf {} 2 8) = true ∧ reads (parcelHalves 0x02101745) (.atomAdd {} 0 2 8 5) = true ∧
    reads (parcelHalves 0x000008FF) (.fence {} 2) = true ∧ reads (parcelHalves 0x0006211F) (.redFaddc {} 3 8) = true := by decide

/-- The control instructions' words (chapter 11). -/
theorem test_words_control : reads (parcelHalves 0x0000400B) (.bra {} 16) = true ∧ reads (parcelHalves 0x0002011B) (.brt {} 0x80 1) = true ∧
    reads (parcelHalves 0x0800501B) (.call {} 0x400 20) = true ∧ reads (parcelHalves 0x0000183B) (.jmpi {} 6) = true ∧
    reads (parcelHalves 0x00EC184B) (.calli {} 118 6) = true ∧ reads (parcelHalves 0x0001D85B) (.ret {} 118) = true ∧
    reads (parcelHalves 0x00000C4F) (.bar {} 3) = true ∧ reads (parcelHalves 0x0014206F) (.waitc {} 10 8) = true ∧
    reads ([0x0006] ++ parcelHalves 0x000A20AF) (.launch { pred := some (0, false) } 5 8) = true ∧
    reads (parcelHalves 0x0048D0BF) (.trap {} 0x1234) = true ∧ reads ([0x001E] ++ parcelHalves 0x0000000F) (.nop { sw := some true }) = true ∧
    reads (parcelHalves 0x0000002F) (.join {}) = true ∧ reads (parcelHalves 0x0000001F) (.exit {}) = true ∧
    reads (parcelHalves 0x0000003F) (.fbar {}) = true ∧ reads (parcelHalves 0x0000005F) (.gbar {}) = true ∧
    reads (parcelHalves 0x0000008F) (.reggrow {}) = true ∧ reads (parcelHalves 0x0000009F) (.regshrink {}) = true := by decide

/-- The engine and system instructions' words (chapter 12); of ARD and CPY the words as their workings give them, with the opcode's bit 9. -/
theorem test_words_engines : reads (parcelHalves 0x1628089D) (.mmaInteger {} 0 22 20 2 2 1) = true ∧
    reads ([0x028A] ++ parcelHalves 0x1606217D) (.mmag { ksel := some 40 } 0 22 3 8 3) = true ∧
    reads (parcelHalves 0x160829DD) (.mmaAb {} 0 22 4 10 1) = true ∧ reads (parcelHalves 0x7D08162D) (.ard {} 125 4 5) = true ∧
    reads ([0x0006] ++ parcelHalves 0x06183A8D) (.cpy { pred := some (0, false) } 6 12 14) = true ∧
    reads (parcelHalves 0x09000EAD) (.ovload {} 9 3) = true ∧ reads (parcelHalves 0x001C10EF) (.swr {} 14 4) = true ∧
    reads (parcelHalves 0x0006218F) (.xinv {} 3 8) = true ∧ reads (parcelHalves 0x001421BF) (.lwbi {} 10 8) = true ∧
    reads (parcelHalves 0x000021CF) (.resume {} 8) = true := by decide

/-- Groups that trap at decode (R181, R182): a reserved opcode is code 1, a source code of 127 and an odd address pair code 2,
a third IMM code 3 at its place, a group cut by the end of the overlay code 7. -/
theorem test_words_refused : decode (parcelHalves 0xFFFFFFFF) = .trap 1 0 0xFFFFFFFF ∧ decode (parcelHalves 0x7F084011) = .trap 2 0 0x7F084011 ∧
    decode (parcelHalves 0x021A1A65) = .trap 2 0 0x021A1A65 ∧ (∃ p, decode ([0x0102, 0x0102, 0x0102] ++ parcelHalves 0x7E0813F1) = .trap 3 2 p) ∧
    (∃ p, decode [0x0102] = .trap 7 1 p) := ⟨by decide, by decide, by decide, ⟨_, rfl⟩, _, rfl⟩

theorem test_words_encoded : Instr.encoded (.iadd {} 0 5 4 16) = true ∧ Instr.wf (.iadd {} 0 5 4 16) = true ∧ Instr.encoded (.issueSelect 0) = false ∧
    (match decode (parcelHalves 0x1F00013) with | .ok _ n => decide (n = 2) | _ => false) = true := by decide

/-! ### Ill-formed terms: one for each check of the fields -/

theorem test_wf_prefixes : (Instr.nop { pred := some (12, false) }).wf = false ∧ (Instr.nop { imm := [1, 2, 3] }).wf = false ∧
    (Instr.nop { pred := some (11, true), imm := [1, 2] }).wf = true := by decide

theorem test_wf_lane : (Instr.iadd {} 0 127 4 16).wf = false ∧ (Instr.iadd {} 0 5 127 16).wf = false ∧ (Instr.iadd {} 0 5 4 120).wf = false ∧
    (Instr.iaddS64 {} 0 5 4 16).wf = false ∧ (Instr.iaddS64 {} 0 4 121 16).wf = false ∧ (Instr.iaddS64 {} 0 4 4 17).wf = false ∧
    (Instr.iaddS64Immediate {} 1 4 126).wf = false ∧ (Instr.icmp {} 6 5 4 0 0).wf = false ∧ (Instr.icmp {} 5 5 4 12 0).wf = false ∧
    (Instr.icmp {} 5 5 4 0 2).wf = false ∧ (Instr.fcmp {} 6 5 4 0).wf = false ∧ (Instr.plop {} 0 12 0 0).wf = false ∧
    (Instr.plop {} 0 0 12 0).wf = false ∧ (Instr.plop {} 0 0 0 12).wf = false ∧ (Instr.cvt {} 0 12 4 16 2).wf = false ∧
    (Instr.cvt {} 0 2 4 16 12).wf = false ∧ (Instr.cvt {} 0 2 4 16 2).wf = false ∧ (Instr.cvt {} 0 3 5 16 2).wf = false ∧
    (Instr.cvt {} 0 2 4 17 3).wf = false ∧ (Instr.vote {} 3 0 16).wf = false ∧ (Instr.redux {} 11 0 4 16).wf = false ∧
    (Instr.redux {} 7 1 4 16).wf = false ∧ (Instr.p2v {} 12 16).wf = false := by decide

theorem test_wf_memory : (Instr.ld {} 0 4 16 6 0).wf = false ∧ (Instr.ld {} 0 5 16 4 0).wf = false ∧ (Instr.ld {} 0 120 16 4 0).wf = false ∧
    (Instr.ld {} 0 4 17 5 0).wf = false ∧ (Instr.st64 {} 0 4 5 0).wf = false ∧ (Instr.pf {} 0 7).wf = false ∧ (Instr.atomAdd {} 1 5 4 16).wf = false ∧
    (Instr.atomAdd {} 0 5 4 124).wf = false ∧ (Instr.atomCas {} 0 5 4 16).wf = false ∧ (Instr.atomCas {} 1 6 4 16).wf = false ∧
    (Instr.atomFmin {} 1 6 4 16).wf = false ∧ (Instr.red {} 0 5 4 3).wf = false ∧ (Instr.kld {} 0 3 8).wf = false ∧
    (Instr.kuRegisterOp {} 0 0 14).wf = false ∧ (Instr.kuImmediateOp {} 0 1 5 0).wf = false ∧ (Instr.krdl {} 0 120 4).wf = false := by decide

theorem test_wf_control : (Instr.call {} 0 120).wf = false ∧ (Instr.jmpi {} 127).wf = false ∧ (Instr.brt {} 0 12).wf = false ∧
    (Instr.waitc {} 9 8).wf = false ∧ (Instr.srd {} 16 4).wf = false ∧ (Instr.srd {} 13 5).wf = false ∧ (Instr.swr {} 13 4).wf = false := by decide

theorem test_wf_engines : (Instr.mmaInteger {} 0 4 4 2 0 0).wf = false ∧ (Instr.mmaInteger {} 0 4 4 2 5 0).wf = false ∧
    (Instr.mmaInteger {} 0 4 4 3 1 0).wf = false ∧ (Instr.mmaBf16 {} 0 5 4 0 0).wf = false ∧ (Instr.ardFx64 {} 4 3 16).wf = false ∧
    (Instr.awrFx64 {} 4 4 1).wf = false ∧ (Instr.cpy {} 4 5 4).wf = false := by decide

/-! ### Witnesses: the lane instructions -/

theorem test_witness_IntegerResults : Meets one any [.mov {} 0 4 16, .iadd {} 1 5 4 16, .isub {} 0 5 4 119, .imul {} 0 5 4 124,
    .imulh {} 0 5 4 16 0, .imulh {} 0 5 4 16 1, .imin {} 0 5 4 16 0, .imin {} 0 5 4 16 1, .imax {} 0 5 4 16 0, .imax {} 0 5 4 16 1,
    .andV {} 0 124 125 0, .orV {} 0 5 4 16, .xorV {} 0 5 4 16, .shl {} 0 5 4 16, .shr {} 0 5 4 16, .sar {} 0 5 4 16, .imad {} 0 5 4 16,
    .popc {} 4 16, .clz {} 4 16, .brev {} 4 16] := meets (by decide)

theorem test_witness_DivisionResults :
    Meets one any [.idivS32 {} 0 5 4 16, .idivN32 {} 0 124 4 16, .iremS32 {} 0 5 4 16, .iremN32 {} 1 124 125 119] := meets (by decide)

theorem test_witness_WideResults : dst64Ok 118 = true ∧ dst64Ok 124 = true ∧ Meets one any [.iaddS64 {} 0 6 4 118, .isubS64 {} 1 6 4 124,
    .imulS64 {} 0 6 4 16, .shlS64 {} 0 5 4 16, .shrS64 {} 0 5 4 16, .sarS64 {} 0 5 4 16, .iaddS64Immediate {} 0x80 4 16] :=
  ⟨by decide, by decide, meets (by decide)⟩

theorem test_witness_ImmediateResults : Meets one any [.movImmediate {} 0xFF 16, .iaddImmediate { imm := [0x123, 0x456] } 0x78 6 6,
    .isubImmediate {} 1 4 16, .imulImmediate { imm := [0x800] } 0 4 16, .iminImmediate {} 1 4 16 0, .iminImmediate {} 1 4 16 1,
    .imaxImmediate {} 1 4 16 0, .imaxImmediate {} 1 4 16 1, .andImmediate {} 1 4 16, .orImmediate {} 1 4 16, .xorImmediate {} 1 4 16,
    .shlImmediate {} 31 4 16, .shrImmediate {} 32 4 16, .sarImmediate {} 0x7F 4 16, .rng {} 1 125 16] := meets (by decide)

theorem test_witness_CompactResults : Meets one any [.movCompact {} 31 0, .iaddCompact {} 30 1, .isubCompact {} 29 2, .imulCompact {} 23 3,
    .iminCompact {} 0 4, .imaxCompact {} 1 5, .andCompact {} 2 6, .orCompact {} 3 7, .xorCompact {} 4 8, .shlCompact {} 5 31,
    .shrCompact {} 6 30, .iaddCompact { ksel := some 255 } 28 1] := meets (by decide)

theorem test_witness_FloatResults : ∀ r ∈ roundings, Meets one any [.fadd {} 0 5 4 16 r.1, .fsub {} 1 5 4 16 r.1, .fmul {} 0 5 4 16 r.1,
    .ffma {} 0 5 4 16 r.1, .fdiv {} 0 5 4 16 r.1, .fsqrt {} r.1 4 16, .faddImmediate {} 0x7F 4 16, .fmulImmediate {} 0x80 4 16,
    .faddCompact {} 30 1, .fsubCompact {} 30 1, .fmulCompact {} 31 0] := fun r m => meets (by revert r; decide)

theorem test_witness_FloatSelections : Meets one any [.fmin {} 0 5 4 16, .fmax {} 0 5 4 16, .fminImmediate {} 1 4 16, .fmaxImmediate {} 1 4 16,
    .fminCompact {} 30 1, .fmaxCompact {} 31 1, .fabs {} 4 16, .fneg {} 4 16] := meets (by decide)

theorem test_witness_PackedAndElementaryResults : Meets one any [.faddBf16x2 {} 0 5 4 16, .fsubBf16x2 {} 0 5 4 16, .fmulBf16x2 {} 0 5 4 16,
    .ffmaBf16x2 {} 0 5 4 16, .fminBf16x2 {} 0 5 4 16, .fmaxBf16x2 {} 0 5 4 16, .rcp {} 4 16, .rsq {} 4 16, .exp2 {} 4 16, .log2 {} 4 16,
    .sin {} 4 16, .cos {} 4 16] := meets (by decide)

theorem test_witness_ConversionResults : (∀ r ∈ roundings, Meets one any [.cvt {} r.1 0 4 16 2, .cvt {} r.1 2 4 118 3, .cvt {} r.1 3 4 16 11]) ∧
    dst64Ok 118 = true ∧ dst64Ok 16 = true :=
  ⟨fun r m => meets (by revert r; decide), by decide, by decide⟩

/-- A k register with a valid format word: E4M3 of R137; and one without. -/
def formats : State := { one with warps := [(0, { warp1 with k := [(7, 0x00000739)] })] }

theorem test_witness_formats : Meets formats (fun x => fmtValid x.formatWord) [.ndec { ksel := some 7 } 3 4 16, .nenc { ksel := some 7 } 4 16] ∧
    Meets formats (fun x => !fmtValid x.formatWord) [.ndec { ksel := some 8 } 0 4 16, .nenc { ksel := some 8 } 4 16] :=
  ⟨meets (by decide), meets (by decide)⟩

/-! ### Witnesses: predicates and crossing lanes -/

theorem test_witness_CompareResults : ∀ c ∈ compares, Meets one any [.icmp {} c.1 5 4 11 0, .icmp {} c.1 5 4 0 1, .icmp {} c.1 6 4 3 2,
    .icmp { ksel := some 254 } c.1 126 124 3 3, .fcmp {} c.1 5 4 11] := fun c m => meets (by revert c; decide)

theorem test_witness_PlopResult : (Instr.plop {} 15 11 11 11).wf = true ∧ Meets one any [.plop {} 15 11 11 11, .plop {} 8 2 1 3] :=
  ⟨by decide, meets (by decide)⟩

theorem test_witness_P2vResult : dstOk 119 = true ∧ dstOk 124 = true ∧ Meets one any [.p2v {} 11 119, .p2v {} 0 124] :=
  ⟨by decide, by decide, meets (by decide)⟩

theorem test_witness_CrossLaneForms : Meets one any [.shfl {} 0 5 4 16, .shflUp {} 0 5 4 16, .shflDn {} 1 5 4 16, .shflXor {} 0 5 4 16,
    .vote {} 0 11 16, .vote {} 1 0 16, .vote {} 2 0 124] ∧ Meets one any (([0, 1, 2, 3, 4, 5, 6, 7, 9, 10] : List (BitVec 4)).map fun f => .redux {} f 0 4 16) ∧
    Meets one any (([0, 1, 2, 3] : List (BitVec 2)).map fun r => .redux {} 8 r 4 16) :=
  ⟨meets (by decide), meets (by decide), meets (by decide)⟩

theorem test_witness_UniformResults : Meets one any ((List.range 14).map fun u => .kuRegisterOp {} 255 0 (BitVec.ofNat 4 u)) ∧
    Meets one any ((List.range 14).map fun u => .kuImmediateOp {} 0x3F 0 255 (BitVec.ofNat 4 u)) ∧
    Meets one (fun x => match x.w.reg x.st.fibre 119 with | .ok _ => true | .bad _ => false) [.krdl {} 31 119 255] :=
  ⟨meets (by decide), meets (by decide), meets (by decide)⟩

/-- A guard that no lane meets. -/
theorem test_witness_EmptyMask : ∀ i ∈ ([.iadd { pred := some (0, false) } 0 5 4 16, .st32 { pred := some (11, false) } 0 4 16 0] : List Instr),
    i.encoded = true ∧ ∃ x, issOf i one = some x ∧ prefixFailure x.info x.g = none ∧ relTarget i = none ∧ x.st.mask ≠ 0 ∧ x.mask = 0 ∧
      (x.info.dst = none ↔ i = .st32 { pred := some (11, false) } 0 4 16 0) := by
  intro i m
  fin_cases m
  · exact ⟨rfl, _, rfl, by decide, rfl, by decide, by decide, by decide⟩
  · exact ⟨rfl, _, rfl, by decide, rfl, by decide, by decide, by decide⟩

/-! ### Witnesses: traps of the shared checks -/

theorem test_witness_FaultsByClass :
    (∃ x, issOf (.iadd { imm := [0] } 0 5 4 16) one = some x ∧ prefixFailure x.info x.g ≠ none) ∧
    (∃ x, issOf (.bra {} 0x1FFFFF) one = some x ∧ prefixFailure x.info x.g = none ∧ outside (.bra {} 0x1FFFFF) x) ∧
    (∃ x, issOf (.fwwr {} 4 2) { one with ctxs := [(0, {})] } = some x ∧ prefixFailure x.info x.g = none ∧ x.mask ≠ 0 ∧ x.info.sup = true ∧
      x.ctx.sup = false) ∧
    (∃ x, issOf (.ld {} 0 4 16 4 0) { one with ctxs := [(0, {})], mem := [(2 ^ 40 + 128 * 5 + 3, 0xF0)] } = some x ∧ x.mask ≠ 0 ∧
      x.priv15 { one with ctxs := [(0, {})], mem := [(2 ^ 40 + 128 * 5 + 3, 0xF0)] } = some ([0], 0xF000000000000000)) ∧
    (∃ x, issOf (.iadd {} 0 5 4 16) { one with warps := [(0, { warp1 with winmap := [] })] } = some x ∧ x.regFault ≠ none) ∧
    ∃ x, issOf (.iadd {} 0 120 4 16) one = some x ∧ x.regFault = none ∧ x.staleLatches ≠ 0 := by
  refine ⟨⟨_, rfl, by decide⟩, ⟨_, rfl, by decide, _, rfl, by decide⟩, ⟨_, rfl, by decide, by decide, by decide, by decide⟩,
    ⟨_, rfl, by decide, by decide⟩, ⟨_, rfl, by decide⟩, ⟨_, rfl, by decide, by decide⟩⟩

/-- A strand in a fence window. -/
def window : State :=
  let st : Strand := { uid := 1, state := .ready, mask := 7, fence := some { scope := 3, firstOp := 1, pc := 2 } }
  { one with warps := [(0, { warp1 with table := st :: List.replicate 7 {} })] }

theorem test_witness_TrapFreezes : (∃ x, issOf (.trap {} 3) one = some x ∧ x.st.fence = none) ∧
    ∃ x fw, issOf (.trap {} 3) window = some x ∧ x.st.fence = some fw := ⟨⟨_, rfl, rfl⟩, _, _, rfl, rfl⟩

theorem test_witness_GroupPasses : ∃ x, issOf (.iadd {} 0 5 4 16) one = some x ∧ prefixFailure x.info x.g = none ∧ x.mask ≠ 0 ∧ x.info.sup = false ∧
    x.info.ptr = none ∧ (∀ v ∈ regsOf x.info.allSrcs ++ dstRegs x.info, x.w.reg x.st.fibre v = .ok v) ∧ x.info.lane1 = none ∧
    x.info.tsrcs ++ x.info.tdst = [] ∧ latchesOf x.info.allSrcs = [] ∧
    (∀ v, ∀ l, x.regPoison one v l = none) ∧ x.w.kPoison = [] := by
  refine ⟨_, rfl, by decide, by decide, by decide, by decide, by decide, by decide, by decide, by decide, ?_, rfl⟩
  intro v l
  unfold Iss.regPoison
  split <;> rfl

theorem test_witness_StepTakesDecodeTrap : ∃ w cx, one.cur = some { warp := 0, entry := 0 } ∧ amGet one.warps 0 = some w ∧ 0 < w.table.length ∧
    (w.strand 0).fence = none ∧ amGet one.ctxs (one.ctxOf 0) = some cx ∧
    ({ one with cus := [(0, { banks := [{ ctx := 0, dir := 0, ovl := 0, len := 4, code := runOf 0 [0xF3FF, 0xFFFF] }] })] }).group 0 0 =
      .trap 1 0 0xFFFFF3FF := ⟨_, _, rfl, rfl, by decide, rfl, rfl, by decide⟩

/-! ### Witnesses: accesses at issue -/

/-- Whether nothing holds an access group back. -/
def clear (s : State) (x : Iss) (l : List LaneAcc) (n : Nat) (write : Bool) : Bool :=
  decide (l ≠ []) && (l.all fun a => match a.at0 with
      | .mem _ _ _ _ => true | .param _ => true | .code v o => (x.codeReads s v o).all fun va => !s.lost x.site x.cn va | _ => false) &&
    !x.ownWait s l write && (!write || !s.operandWait x.cu l n) && (write || decide (Iss.spacePoison s l n = [])) && !x.grid.det

theorem clear_spec {s : State} {x : Iss} {l : List LaneAcc} {n : Nat} {write : Bool} (commut : Bool) (h : clear s x l n write = true) :
    Clear x s l n write commut := by
  simp only [clear, Bool.and_eq_true, Bool.or_eq_true, Bool.not_eq_true', decide_eq_true_eq, List.all_eq_true] at h
  refine ⟨fun a ha => ?_, h.1.1.1.2, fun hw => ?_, fun hw => ?_, fun a ha v o e => ?_, fun hd => ?_⟩
  · have := h.1.1.1.1.2 a ha
    revert this
    cases a.at0 <;> simp
  · have := h.1.1.2
    rw [hw] at this
    simpa using this
  · have := h.1.2
    rw [hw] at this
    simpa using this
  · have := h.1.1.1.1.2 a ha
    rw [e] at this
    simpa using this
  · rw [h.2] at hd
    exact absurd hd (by simp)

theorem test_witness_LoadsIssue : ∀ y ∈ loadTypes, ∀ p ∈ ([4, 6, 8, 10] : List (BitVec 7)),
    Meets lane0 (fun x => clear lane0 x (x.accesses lane0 [0, 1, 2, 3, 4, 5, 15] y.2.1 false p.toNat (1 * y.2.1)) y.2.1 false)
      [.ld {} 1 p 16 y.1 0] ∧
    Meets lane0 (fun x => clear lane0 x (x.accesses lane0 [0, 1, 2, 3, 4, 5, 15] y.2.1 false p.toNat 0) y.2.1 false)
      [.ldAcq {} 0 3 p 16 y.1, .ldAcq {} 3 0 p 16 y.1] := by
  intro y hy p hp
  constructor
  · exact meets (by revert y p; decide)
  · exact meets (by revert y p; decide)

theorem test_witness_PrefetchesIssue : Meets lane0 (fun x => match lane0.reach x [0] 1 1 false 64 with | .mem _ _ _ _ => true | _ => false)
    [.pf {} 1 4, .pfL2 {} 1 4] := meets (by decide)

theorem test_witness_StoresIssue : ∀ p ∈ ([4, 6, 8, 10] : List (BitVec 7)),
    Meets lane0 (fun x => clear lane0 x (x.accesses lane0 [0, 1, 2, 3, 15] 1 true p.toNat 127) 1 true) [.st8 {} 127 p 16 0] ∧
    Meets lane0 (fun x => clear lane0 x (x.accesses lane0 [0, 1, 2, 3, 15] 2 true p.toNat 0) 2 true) [.st16 {} 0 p 16 3, .stRel16 {} 1 0 p 16] ∧
    Meets lane0 (fun x => clear lane0 x (x.accesses lane0 [0, 1, 2, 3, 15] 4 true p.toNat 0) 4 true) [.st32 {} 0 p 16 0, .stRel32 {} 3 0 p 16] ∧
    Meets lane0 (fun x => clear lane0 x (x.accesses lane0 [0, 1, 2, 3, 15] 8 true p.toNat 0) 8 true) [.st64 {} 0 p 118 0, .stRel64 {} 2 0 p 16] ∧
    Meets lane0 (fun x => clear lane0 x (x.accesses lane0 [0, 1, 2, 3, 15] 1 true p.toNat 0) 1 true) [.stRel8 {} 0 0 p 16] := by
  intro p hp
  exact ⟨meets (by revert p; decide), meets (by revert p; decide), meets (by revert p; decide), meets (by revert p; decide),
    meets (by revert p; decide)⟩

theorem test_witness_redFaddc : Meets lane0 (fun x => clear lane0 x (x.accesses lane0 [0, 1] 8 true 4 0) 8 true) [.redFaddc {} 16 4] ∧
    Meets lane0 (fun x => clear lane0 x (x.accesses lane0 [0, 1] 8 true 6 0) 8 true) [.redFaddc {} 16 6] ∧
    (∀ s ∈ [lane0, { lane0 with poison := [(0, 7)] }], Meets s (fun x => clear s x (x.accesses s [0, 1] 8 true 4 0) 8 true &&
      (s.meetsPoison (x.accesses s [0, 1] 8 true 4 0) 8 == decide (s.poison ≠ []))) [.redFaddc {} 16 4]) :=
  ⟨meets (by decide), meets (by decide), fun s h => by fin_cases h <;> exact meets (by decide)⟩

/-- In a deterministic grid the accesses go on once their request has come to the homes. -/
theorem test_witness_Clear_deterministic : let s : State := { lane0 with
      grids := [(0, { grid1 with det := true })]
      warps := [(0, { warp1 with table := { uid := 1, state := .ready, mask := 1, atHome := true } :: List.replicate 7 {} })] }
    Meets s (fun x => x.grid.det && x.st.atHome && (x.accesses s [0, 1, 2, 3, 4, 5, 15] 4 false 4 64).all fun a => match a.at0 with
      | .mem p _ _ false => (s.detConflict x.cn x.fibreId x.st p 4 false false).isNone | _ => false) [.ld {} 16 4 16 4 0] := meets (by decide)

theorem test_witness_AtomicsIssue : ∀ p ∈ ([4, 6] : List (BitVec 7)),
    Meets lane0 (fun x => clear lane0 x (x.accesses lane0 [0, 1] 4 true p.toNat 0) 4 true) [.atomAdd {} 0 16 p 20, .atomMinS {} 0 16 p 20,
      .atomMinN {} 0 16 p 20, .atomMaxS {} 0 16 p 20, .atomMaxN {} 0 16 p 20, .atomAnd {} 0 16 p 20, .atomOr {} 0 16 p 20, .atomXor {} 0 16 p 20,
      .atomXchg {} 0 16 p 20, .atomCas { imm := [0x26] } 0 16 p 20, .atomFmin {} 0 16 p 20, .atomFmax {} 0 16 p 20, .red {} 0 16 p 4,
      .red {} 0 16 p 15] ∧
    Meets lane0 (fun x => clear lane0 x (x.accesses lane0 [0, 1] 8 true p.toNat 0) 8 true) [.atomAdd {} 1 16 p 20, .atomMinS {} 1 16 p 20,
      .atomMinN {} 1 16 p 20, .atomMaxS {} 1 16 p 20, .atomMaxN {} 1 16 p 20, .atomAnd {} 1 16 p 20, .atomOr {} 1 16 p 20, .atomXor {} 1 16 p 20,
      .atomXchg {} 1 16 p 118, .atomCas {} 1 16 p 20, .red {} 1 16 p 5, .red {} 1 16 p 13] := by
  intro p hp
  exact ⟨meets (by revert p; decide), meets (by revert p; decide)⟩

theorem test_witness_UniformAccesses :
    Meets lane0 (fun x => clear lane0 x [{ lane := 0, ea := 252, at0 := lane0.reach x [0, 1, 2, 3, 4, 5, 15] 4 4 false 252 }] 4 false)
      [.kld {} 63 2 255] ∧
    Meets lane0 (fun x => clear lane0 x [{ lane := 0, ea := 0, at0 := lane0.reach x [0, 1, 2, 3, 15] 4 4 true 0 }] 4 true) [.kst {} 0 254 0] :=
  ⟨meets (by decide), meets (by decide)⟩

/-! ### Witnesses: accesses at their homes -/

/-- One access of the strand on its way to the line at 64. -/
def req1 : Req := { ctx := 0, cu := 0, warp := 0, entry := 0, fibre := 0, uid := 1, lane := 0, addr := 64, va := 64, bytes := 8, act := .read, place := .home, back := 300 }

def sent (r : Req) : State := { one with reqs := [(5, r)], nextId := 6 }

/-- Without a format window every line is plain. -/
theorem plain_of {s : State} {l : Nat} (h : s.windows = [] ∧ (s.line l).view = none ∧ ∀ p ∈ s.lines, p.2.view = none) : Plain s l := by
  have e : ∀ a, s.viewHere a = none := fun a => by simp [State.viewHere, h.1]
  exact ⟨h.2.1, fun a _ => e a, fun a w o x => by rw [e a] at x; exact absurd x (by simp), .inr (.inr h.2.2)⟩

theorem amGetD_all {α : Type} {m : AMap α} {d : α} {P : α → Prop} (k : Nat) (h : ∀ p ∈ m, P p.2) (z : P d) : P (amGetD m k d) := by
  induction m with
  | nil => exact z
  | cons p t ih =>
    obtain ⟨a, v⟩ := p
    by_cases e : a = k
    · simpa [amGetD, amGet, e] using h (a, v) (by simp)
    · simpa [amGetD, amGet, e] using ih fun q m => h q (by simp [m])

/-- Where no line is listed and every die is in service every line is free. -/
theorem lineFree_in {s : State} (h : s.lines = []) (d : ∀ p ∈ s.dies, p.2.away = false) (l : Nat) : s.lineFree l = true := by
  have e : (amGetD s.dies (homeOf (l * 64)) {}).away = false := amGetD_all (P := fun q : Die => q.away = false) _ d (by decide)
  simp [State.lineFree, State.lineHeld, State.away, State.line, h, amGet, e]

theorem lineFree_of {s : State} (h : s.lines = []) (d : s.dies = one.dies) (l : Nat) : s.lineFree l = true := lineFree_in h (d ▸ by decide) l

/-- With the small state's dies and no CU dead no address is contained. -/
theorem live_of (s : State) (h : s.dies = one.dies) (c : ∀ p ∈ s.cus, p.2.dead = false) (a : Nat) : s.contained a = false := by
  have d : (amGetD s.dies (homeOf a) {}).status ≠ 3 := h ▸ amGetD_all (P := fun q : Die => q.status ≠ 3) _ (by decide) (by decide)
  have e : (amGetD s.cus (chipCu a) {}).dead = false := amGetD_all (P := fun q : Cu => q.dead = false) _ c rfl
  simp [State.contained, d, e]

/-- The conditions under which a home serves an access at once, as one test. -/
theorem served {s : State} {id : Nat} {r : Req}
    (h : amGet s.reqs id = some r ∧ r.done = false ∧ r.rel = none ∧ (r.acq = none ∨ r.horizon ≠ none) ∧ r.own = false ∧ r.place ≠ .l1 ∧
      (∀ q ∈ s.reqs, q.1 < id → q.2.done = false → r.follows q.2 = false) ∧ s.lineFree (lineOf r.addr) = true ∧ s.contained r.addr = false ∧
      s.unanswered r.addr = false ∧ s.heldBack id r = false ∧
      (s.windows = [] ∧ (s.line (lineOf r.addr)).view = none ∧ ∀ p ∈ s.lines, p.2.view = none) ∧ r.addr % 64 + r.bytes ≤ 64 ∧
      (r.charged = true → admits (amGetD s.atomUsed (r.ctx * 8 + homeOf r.addr) 0) (((amGet s.ctxs r.ctx).map Ctx.atomLimit).getD 0) 1
        (s.favouredReq r) = true)) : Served s id r :=
  let ⟨a, b, c, d, e, f, g, i, j, k, l, m, n, o⟩ := h
  ⟨a, b, c, d, e, f, g, i, j, k, l, plain_of m, .inl ⟨m.1, m.2.2⟩, n, o⟩

theorem test_witness_HomeRequests_reads : Served (sent req1) 5 req1 ∧ (sent req1).poisonIn 64 8 = [] ∧ 8 ∈ [1, 2, 4, 8] ∧
    Served (sent { req1 with acq := some 3, horizon := some 9 }) 5 { req1 with acq := some 3, horizon := some 9 } :=
  ⟨served (by decide), by decide, by decide, served (by decide)⟩

theorem test_witness_HomeRequests_writes :
    let w : Req := { req1 with act := .write (toBytes 8 7) }
    Served (sent w) 5 w ∧ (toBytes 8 7).length = w.bytes ∧ (sent w).watchers 64 8 = [] := ⟨served (by decide), by decide, by decide⟩

theorem test_witness_HomeRequests_atomics : ∀ n ∈ [4, 8],
    let a : Req := { req1 with act := .atom 9 1 2 3, bytes := n }
    let f : Req := { req1 with act := .faddc 1, bytes := n }
    Served (sent a) 5 a ∧ Served (sent f) 5 f ∧ (sent a).poisonIn 64 n = [] ∧ (sent a).watchers 64 n = [] ∧ 9 ∈ (atomics (8 * n)).map Prod.fst ∧
      Served { sent a with poison := [(64, 7)] } 5 a ∧ State.poisonIn { sent a with poison := [(64, 7)] } 64 n ≠ [] := by
  intro n h
  fin_cases h
  · exact ⟨served (by decide), served (by decide), by decide, by decide, by decide, served (by decide), by decide⟩
  · exact ⟨served (by decide), served (by decide), by decide, by decide, by decide, served (by decide), by decide⟩

/-- A page table of five levels at 2^30 that maps page 0 to itself. -/
def tables : State := { one with
  mem := (List.range 5).flatMap (fun l => runOf (2 ^ 30 + 4096 * l) (toBytes 8 (if l = 4 then 7 else 2 ^ 30 + 4096 * (l + 1) + 1)))
  ctxs := [(0, { ptroot := 2 ^ 30 })]
  walks := [(5, { ctx := 0, va := 0, site := 0, slots := [0], uids := [1] })] }

theorem test_witness_AccessAnswers : amGet (sent req1).reqs 5 = some req1 ∧
    amGet (amGetD ({ one with l1 := [(0, [(1, { wts := 1, rts := 9, filled := 4 })])] }).l1 0 []) 1 = some { wts := 1, rts := 9, filled := 4 } ∧
    (∃ w t, amGet tables.walks 5 = some w ∧ (tables.walk w.ctx w.va).1 = .leaf t) ∧ tables.findUid 1 = some (0, 0) := by
  refine ⟨by decide, by decide, ⟨_, _, rfl, rfl⟩, by decide⟩

/-- A load of v16 whose data have come. -/
def load1 : Load := { warp := 0, uid := 1, fibre := 0, pipe := 4, regs := some (16, true), bytes := 8, left := 0, vals := [(0, 5), (31, 6)] }

theorem test_witness_LoadDataReturn : amGet ({ one with loads := [(5, load1)] }).loads 5 = some load1 ∧ amGet one.warps load1.warp = some warp1 ∧
    warp1.spilled = none ∧ load1.waitc = none ∧ load1.poison = [] ∧ (load1.vals.map Prod.fst).Nodup ∧ ∀ v ∈ load1.vals, v.1 < 32 := by decide

/-! ### Witnesses: MCAS and fences -/

/-- An MCAS of one word with its line locked. -/
def mcas1 : Mcas := { ctx := 0, cu := 0, warp := 0, uid := 1, ks := 4, ptr := 0, stage := 2, words := [(64, 8, 0, 9)], vas := [64], lines := [1],
                      granted := 0, due := [(1, 90)], success := true }

def locked : State := { one with mcas := [(5, mcas1)], lines := [(1, { lock := some 5 })], nextId := 6 }

theorem test_witness_McasSteps : Meets lane0 (fun x => match lane0.reach x [0, 1] 8 8 true (pointer x lane0 4) with | .mem _ _ _ _ => true | _ => false)
      [.mcas {} 4 4] ∧
    (amGet locked.mcas 5 = some mcas1 ∧ Stands locked 1 0 0 warp1 ∧ mcas1.stage = 2 ∧ mcas1.granted < mcas1.lines.length) ∧
    Locked locked 5 0 0 mcas1 warp1 ∧ mismatches locked mcas1 = [] ∧
    Locked { locked with mem := [(64, 1)] } 5 0 0 mcas1 warp1 ∧ mismatches { locked with mem := [(64, 1)] } mcas1 = [0] ∧
    (mcas1.due = [(1, 90)] ∧ 90 ≤ locked.clock ∧ (locked.line 1).lock = some 5 ∧ (locked.line 1).queue = [] ∧ Plain locked 1 ∧
      (∀ w ∈ mcas1.words, w.1 % 64 + w.2.1 ≤ 64 ∧ locked.watchers w.1 w.2.1 = []) ∧
      mcas1.words.Pairwise (fun a b => a.1 + a.2.1 ≤ b.1 ∨ b.1 + b.2.1 ≤ a.1)) := by
  have st : Stands locked 1 0 0 warp1 := ⟨by decide, by decide, by decide⟩
  have lk : ∀ m : List Host.Cell, Locked { locked with mem := m } 5 0 0 mcas1 warp1 := fun m =>
    { op := rfl, strand := ⟨rfl, rfl, by decide⟩, lines := by intro l h; fin_cases h; exact plain_of ⟨rfl, rfl, fun p q => by rw [List.mem_singleton.mp q]⟩
      words := by intro d h; fin_cases h; exact ⟨rfl, rfl⟩
      free := by intro g h; cases h; rfl }
  exact ⟨meets (by decide), ⟨rfl, st, rfl, by decide⟩, lk _, by decide, lk _, by decide,
    rfl, by decide, rfl, rfl, plain_of (by decide), by decide, by decide⟩

/-- A strand in a fence window: whether its horizon is taken, and the timestamps of the writes that met its reads. -/
def fenced (h : Option Nat) (met : List Nat) : Warp :=
  let fw : FenceWindow := { scope := 3, pc := 2, horizon := h, met := met, firstOp := 3 }
  { warp1 with table := { uid := 1, state := .ready, mask := 7, c := 5, fence := some fw } :: List.replicate 7 {} }

theorem test_witness_FenceSteps : Meets one any [.fence {} 0, .fence {} 3] ∧
    (∀ w ∈ [fenced none [], fenced (some 9) [9], fenced (some 9) [10]], Stands { one with warps := [(0, w)] } 1 0 0 w ∧
      ((w.strand 0).fence).isSome = true ∧ (w.strand 0).fibre < w.fibres.length) ∧
    (let w : Warp := { warp1 with table := { uid := 1, state := .ready, mask := 7, c := 5, fence := some { scope := 3, pc := 2, horizon := some 9, reads := [(64, 8)] } } :: List.replicate 7 {} }
     let s : State := { one with warps := [(0, w)], lines := [(1, { lock := some 9 })] }
     Stands s 1 0 0 w ∧ ∃ fw, (w.strand 0).fence = some fw ∧ ∃ r ∈ fw.reads, s.lineHeld (lineOf r.1) = true) ∧
    (∃ a old, ({ one with undo := [(1, .bytes (2 ^ 40) [7] [])] }).undo = [(1, .bytes a old [])] ∧ onChip a = true) := by
  refine ⟨meets (by decide), fun w h => ?_, ⟨⟨by decide, rfl, by decide⟩, _, rfl, _, List.mem_singleton.mpr rfl, by decide⟩, _, _, rfl, by decide⟩
  fin_cases h <;> exact ⟨⟨by decide, by decide, by decide⟩, by decide, by decide⟩

/-! ### Witnesses: control -/

/-- Lane i of v16 names PC i for the first five lanes, lane 0 of v17 no PC; p2 holds in four lanes; overlays 0 and 3 are resident, and the directory holds four entries. -/
def coded : State := { one with
  mem := (0, 4) :: pairs ++ (List.range 4).map (fun i => (2 ^ 40 + 128 * 16 + 4 * (i + 1), BitVec.ofNat 8 (i + 1))) ++ [(2 ^ 40 + 128 * 17 + 3, 1)]
  warps := [(0, { warp1 with fibres := [{ preds := [(2, 0xF), (3, BitVec.allOnes 32)] }] })]
  cus := [(0, { grants := [(0, 16384, 0), (16384, 4096, 0)], banks := [0, 3].map fun n => { ctx := 0, dir := 0, ovl := n, len := 32768, code := [] } })] }

/-- The same with every split token of the fibre taken. -/
def tokenless : State := { coded with
  warps := [(0, { warp1 with fibres := [{ preds := [(2, 0xF)], tokens := (List.range 15).map fun t => (t + 1, 0) }] })] }

/-- A relative target inside the overlay. -/
def within (o : Int) (x : Iss) : Bool := decide (0 ≤ x.relative o ∧ x.relative o ≤ 32767)

/-- A token is free, or none is. -/
def tokenFree (x : Iss) : Bool := (List.range 15).any fun t => (amGet (x.w.fibre x.st.fibre).tokens (t + 1)).isNone

theorem test_witness_Branches : Meets coded (fun x => within 5 x && tokenFree x) [.bra {} 5, .brt {} 5 0, .brt {} 5 2, .brt {} 5 3, .brf {} 5 2] ∧
    Meets coded (fun x => within 0 x && within 32767 x && decide (x.mask &&& x.w.pred 0 0 = 0) && decide (x.mask &&& x.w.pred 0 3 = x.mask) &&
      decide (x.mask &&& x.w.pred 0 2 ≠ 0 ∧ x.mask &&& x.w.pred 0 2 ≠ x.mask)) [.brt {} 0x7FFF 2, .brf {} 0 2] ∧
    Meets coded (fun x => within 2 x && decide (relPc x 2 = x.next)) [.brt {} 2 2, .brf {} 2 2] ∧
    Meets tokenless (fun x => within 5 x && !tokenFree x) [.brt {} 5 2, .brf {} 5 2] :=
  ⟨meets (by decide), meets (by decide), meets (by decide), meets (by decide)⟩

theorem test_witness_Calls : Meets coded any [.call {} 0x7FFF 119] ∧
    Meets coded (fun x => (coded.bank x.cu x.cn x.grid.lr.code 3).isSome) [.fcall { imm := [3] } 16 20] ∧
    Meets coded (fun x => (coded.bank x.cu x.cn x.grid.lr.code 4).isNone &&
      decide (coded.directory x.site x.cn x.grid.lr.code 4 x.ctx.sup = .absent)) [.fcall { imm := [4] } 16 20] :=
  ⟨meets (by decide), meets (by decide), meets (by decide)⟩

/-- Whether every active lane names a resident PC, and how many they name. -/
def namesAll (s : State) (r : BitVec 7) (x : Iss) : Bool :=
  (lanesOf x.mask).all fun l => decide ((x.src s r.toNat l).toNat < 2 ^ 23) && (s.bank x.cu x.cn x.grid.lr.code (pcOvl (named x s r l))).isSome
def targets (s : State) (r : BitVec 7) (x : Iss) : Nat := (((lanesOf x.mask).map (named x s r)).eraseDups).length

theorem test_witness_IndirectTransfers :
    Meets coded (fun x => namesAll coded 18 x && decide (targets coded 18 x = 1)) [.jmpi {} 18, .ret {} 18, .calli {} 20 18] ∧
    Meets coded (fun x => namesAll coded 16 x && decide (targets coded 16 x = 5) && tokenFree x) [.jmpi {} 16, .ret {} 16, .calli {} 20 16] ∧
    Meets coded (fun x => decide (((lanesOf x.mask).filter fun a => decide (2 ^ 23 ≤ (x.src coded 17 a).toNat)) = [0]))
      [.jmpi {} 17, .ret {} 17, .calli {} 20 17] ∧
    Meets one (fun x => (one.bank x.cu x.cn x.grid.lr.code (pcOvl (named x one 16 0))).isNone && decide (x.st.walked = []))
      [.jmpi {} 16, .ret {} 16, .calli {} 20 16] := ⟨meets (by decide), meets (by decide), meets (by decide), meets (by decide)⟩

theorem test_witness_SplitChildren : (∃ x, issOf (.brt {} 5 2) coded = some x ∧ x.w.table.length = 8 ∧ x.st.fibre < x.w.fibres.length ∧
      amGet (x.w.fibre x.st.fibre).tokens 1 = none ∧ (x.w.strand 1).live = false ∧ (x.w.strand 0).live = true ∧
      (x.w.entriesOf x.st.fibre).length < 4) ∧
    ∃ x, issOf (.brt {} 5 2) { coded with warps := [(0, { warp1 with table := List.replicate 8 { uid := 1, state := .ready, mask := 3 } })] } = some x ∧
      (∀ e, e < 8 → (x.w.strand e).live = true) ∧ 4 ≤ (x.w.entriesOf x.st.fibre).length :=
  ⟨⟨_, rfl, by decide, by decide, by decide, by decide, by decide, by decide⟩, _, rfl, by decide, by decide⟩

/-- A strand at a JOIN with a sibling in entry 1. -/
def joining (sibling : StrandState) (pc succ : BitVec 23) : State :=
  let a : Strand := { uid := 1, state := .ready, mask := 1, parent := 1 }
  let b : Strand := { uid := 2, state := sibling, mask := 2, parent := 1, pc := pc, succ := succ }
  { one with warps := [(0, { warp1 with table := a :: b :: List.replicate 6 {}, fibres := [{ tokens := [(1, 0)] }] })] }

theorem test_witness_ExitAndJoin : Meets one (fun x => decide (x.st.mask &&& ~~~ x.mask = 0)) [.exit {}] ∧
    Meets coded (fun x => decide (x.st.mask &&& ~~~ x.mask ≠ 0)) [.exit { pred := some (2, false) }] ∧
    Meets one (fun x => decide (x.st.parent = 0)) [.join {}] ∧
    Meets (joining .ready 9 0) (fun x => decide (x.st.parent = 1 ∧ x.w.overflow = [] ∧ 1 ∈ x.w.liveEntries ∧ (x.w.strand 1).fibre = x.st.fibre ∧
      (x.w.strand 1).parent = 1 ∧ ∀ b ∈ x.w.liveEntries, b ≠ x.e → (x.w.strand b).state ≠ .atJoin)) [.join {}] ∧
    Meets (joining .atJoin 0 2) (fun x => decide (x.st.parent = 1 ∧ x.w.overflow = [] ∧ 1 ∈ x.w.liveEntries ∧ x.st.fibre < x.w.fibres.length ∧
      (∀ b ∈ x.w.liveEntries, b = 1 ∨ b = x.e) ∧ (x.w.strand 1).state = .atJoin ∧ (x.w.strand 1).pc = x.st.pc ∧ (x.w.strand 1).parent = x.st.parent ∧
      (x.w.strand 1).succ = x.next ∧ amGet (x.w.fibre x.st.fibre).tokens 1 = some 0)) [.join {}] :=
  ⟨meets (by decide), meets (by decide), meets (by decide), meets (by decide), meets (by decide)⟩

theorem test_witness_strandRetire :
    let w : Warp := { warp1 with table := { uid := 1, state := .ready, mask := 0 } :: List.replicate 7 {} }
    Stands { one with warps := [(0, w)] } 1 0 0 w ∧ (w.strand 0).mask = 0 ∧ landed w (w.strand 0) ∧
      w.overflow = [] ∧ ∀ a ∈ w.liveEntries, (w.strand a).state ≠ .atJoin := ⟨⟨by decide, by decide, by decide⟩, by decide, ⟨nofun, nofun⟩, by decide, by decide⟩

/-! ### Witnesses: barriers and waits -/

theorem test_witness_BarrierSteps : Meets one (fun x => decide (x.team.episodes = []) && (one.barWarps x.k 0).contains x.k &&
      !one.unacked x.st one.nextId) ((barriers {}).map Prod.fst) ∧
    (let w : Warp := { warp1 with table := { uid := 1, state := .barrier, waitBar := 16, mask := 7 } :: List.replicate 7 {} }
     let s : State := { one with warps := [(0, w)], episodes := [(5, { kind := 16, teams := [0], uids := [1], c := 0 })] }
     (amGet s.episodes 5).isSome = true ∧ Stands s 1 0 0 w ∧ waitsAt (w.strand 0) 16) :=
  ⟨meets (by decide), by decide, ⟨by decide, by decide, by decide⟩, by decide, by decide⟩

/-- A strand that waits for the counter at 64 to reach 7, its first read come or not. -/
def counting (n : Nat) (waiting : Bool) : State :=
  let st : Strand := { uid := 1, state := if waiting then .countWait else .ready, mask := 7, waitPhys := 64, waitVal := 7, waitTs := if waiting then some 3 else none }
  { one with
    warps := [(0, { warp1 with table := st :: List.replicate 7 {} })]
    loads := [(5, { warp := 0, uid := 1, fibre := 0, pipe := 4, regs := none, bytes := 8, left := 0, vals := [(0, BitVec.ofNat 64 n)], waitc := some 2 })] }

theorem test_witness_WaitSteps : Meets lane0 (fun x => match lane0.reach x [0, 1] 8 8 false (pointer x lane0 4) with | .mem _ _ _ false => true | _ => false)
      [.waitc {} 2 4] ∧
    Meets lane0 (fun x => match lane0.reach x [0, 1] 8 8 false (pointer x lane0 6) with | .mem _ _ _ false => true | _ => false) [.waitc {} 254 6] ∧
    (∀ n ∈ [6, 7], ∃ ld w, amGet (counting n false).loads 5 = some ld ∧ ld.waitc = some 2 ∧ ld.uid = 1 ∧ ld.warp = 0 ∧ ld.poison = [] ∧
      ld.vals = [(0, BitVec.ofNat 64 n)] ∧ amGet (counting n false).warps 0 = some w ∧ w.spilled = none ∧ (counting n false).findUid 1 = some (0, 0) ∧
      (w.strand 0).waitVal = 7 ∧ (counting n false).num (w.strand 0).waitPhys 8 < 7) ∧
    (∃ w, amGet (counting 7 true).warps 0 = some w ∧ (counting 7 true).findUid 1 = some (0, 0) ∧ (w.strand 0).state = .countWait ∧
      (w.strand 0).waitTs ≠ none) := by
  refine ⟨meets (by decide), meets (by decide), fun n h => ?_, _, rfl, by decide, by decide, by decide⟩
  fin_cases h <;> exact ⟨_, _, rfl, rfl, rfl, rfl, rfl, rfl, rfl, rfl, by decide, by decide, by decide⟩

/-- A status register with a status write pending, or DONE. -/
def status (pend : List (Nat × Nat)) (v : Word) (st : StrandState) : State :=
  { one with warps := [(0, { warp1 with k := [(4, v)], kpend := pend, table := { uid := 1, state := st, mask := 7, waitk := 4 } :: List.replicate 7 {} })] }

theorem test_witness_YieldAndStatus : Meets (status [] 0x80000000 .ready) (fun x => within 6 x && (spGet x.w.k 4).getLsbD 31) [.yieldc {} 6 4] ∧
    Meets (status [(4, 9)] 0x80000000 .ready) (fun x => within 6 x && x.w.kpend.any fun q => decide (q.1 = 4)) [.yieldc {} 6 4] ∧
    Meets (status [] 1 .ready) (fun x => within 6 x && !(spGet x.w.k 4).getLsbD 31) [.yieldc {} 6 4] ∧
    (∃ w, amGet (status [(4, 9)] 0 .statusWait).warps 0 = some w ∧ (4, 9) ∈ w.kpend ∧ (4, 8) ∉ w.kpend ∧
      amGet (status [(4, 9)] 0 .statusWait).mcas 9 = none) := ⟨meets (by decide), meets (by decide), meets (by decide), _, rfl, by decide, by decide, by decide⟩

theorem test_witness_SystemReads : Meets one any [.nop {}, .nop { pred := some (1, true) }, .trap {} 0xFFFF, .bkpt {} 0, .swr {} 14 16, .swr {} 15 16] ∧
    Meets one any (([0, 1, 2, 3, 4, 5, 6, 7, 8, 9, 10, 11, 12, 14, 15] : List (BitVec 8)).map fun r => .srd {} r 119) ∧
    dst64Ok 118 = true ∧ Meets one any [.srd {} 13 118] ∧ (amGet one.ctxs 0).isSome = true :=
  ⟨meets (by decide), meets (by decide), by decide, meets (by decide), by decide⟩

/-! ### Witnesses: register blocks -/

/-- The warp with a block of n bytes in a block operation. -/
def sized (n : Nat) (op : Option BlockOp) : State := { one with warps := [(0, { warp1 with blockBytes := n, op := op })] }

theorem unviewed {s : State} (m : MemOk s) (h : s.windows = [] ∧ s.lines = []) : Unviewed s := ⟨m, h.1, by simp [h.2]⟩

theorem test_witness_BlockResizes :
    Meets (sized 131072 none) (fun x => decide (x.w.blockBytes = 131072)) [.reggrow {}] ∧
    Meets (sized 65536 none) (fun x => decide (x.w.blockBytes ≠ 131072)) [.reggrow {}] ∧
    Meets (sized 4096 none) (fun x => decide (x.w.blockBytes = 4096)) [.regshrink {}] ∧
    Meets (sized 8192 none) (fun x => decide (x.w.blockBytes ≠ 4096)) [.regshrink {}] ∧
    (∃ w, amGet (sized 16384 (some (.growTo 0 0))).warps 0 = some w ∧ 0 < w.table.length ∧ w.op = some (.growTo 0 w.block)) ∧
    (∃ w, amGet (sized 16384 (some (.growTo 0 32768))).warps 0 = some w ∧ w.op = some (.growTo 0 32768) ∧ Apart w.block 32768 w.blockBytes) ∧
    (∃ w, amGet (sized 16384 (some (.shrinkRun 0))).warps 0 = some w ∧ w.op = some (.shrinkRun 0)) ∧ MemOk (sized 16384 none) :=
  ⟨meets (by decide), meets (by decide), meets (by decide), meets (by decide), ⟨_, rfl, by decide, rfl⟩, ⟨_, rfl, rfl, by simp [Apart, warp1]⟩,
    ⟨_, rfl, rfl⟩, rfl⟩

/-- A favoured grow with its buddy free, taken, and with no room. -/
def grows (grants : List (Nat × Nat × Nat)) : State :=
  { sized 16384 (some (.growBlocked 0 50)) with cus := [(0, { grants := grants, favoured := some 0, blocked := [0] })] }

theorem test_witness_DeadlockSpills_retries :
    (∀ g ∈ [[(0, 16384, 0)], [(0, 16384, 0), (16384, 16384, 7)]], ∃ w, ((grows g).cu 0).favoured = some 0 ∧ ((grows g).cu 0).blocked = [0] ∧
      ((grows g).cu 0).spillList = [] ∧ warpCu 0 = 0 ∧ amGet (grows g).warps 0 = some w ∧ w.op = some (.growBlocked 0 50) ∧ (grows g).stopBegun 0 = false) ∧
    freeAt [(0, 16384, 0)] (topOf 0) (buddyOf 0 16384) 16384 = true ∧
    freeAt [(0, 16384, 0), (16384, 16384, 7)] (topOf 0) (buddyOf 0 16384) 16384 = false ∧
    (allocBlock [(0, 16384, 0), (16384, 16384, 7)] (topOf 0) 32768 0).isSome = true ∧
    allocBlock ((List.range 16).map fun i => (262144 * i, 262144, 7)) (topOf 0) 32768 0 = none := by
  refine ⟨fun g h => ?_, by decide, by decide, by decide, by decide⟩
  fin_cases h <;> exact ⟨_, rfl, rfl, rfl, rfl, rfl, rfl, by decide⟩

/-- A warp of another team under way into the pool or out of it. -/
def spilling (op : BlockOp) (place : Option Nat) : State :=
  { one with
    warps := [(0, { warp1 with op := some op, spilled := place })]
    cus := [(0, { grants := [(0, 16384, 0)], spillList := if place.isSome then [0] else [] })]
    spillUsed := [(2 ^ 35, 16384)] }

theorem test_witness_DeadlockSpills_moves :
    (∃ w, amGet (spilling (.spilling (2 ^ 35)) none).warps 0 = some w ∧ w.op = some (.spilling (2 ^ 35)) ∧ Apart (bankAddr 0 w.block) (2 ^ 35) w.blockBytes) ∧
    Unviewed (spilling (.spilling (2 ^ 35)) none) ∧ ((spilling (.spilling (2 ^ 35)) none).cu 0).favoured = none ∧
    (∃ w, amGet (spilling (.refilling 0) (some (2 ^ 35))).warps 0 = some w ∧ w.op = some (.refilling 0) ∧ w.spilled = some (2 ^ 35) ∧
      Apart (2 ^ 35) (bankAddr 0 0) w.blockBytes ∧ ((spilling (.refilling 0) (some (2 ^ 35))).cu 0).spillList = [0]) :=
  ⟨⟨_, rfl, rfl, Or.inr (by decide)⟩, unviewed rfl ⟨rfl, rfl⟩, rfl, _, rfl, rfl, rfl, Or.inl (by decide), rfl⟩

/-- Register deadlock on CU 0: two warps of different teams that both wait to grow. -/
def stuck (at0 : Option Nat) : State :=
  { one with
    teams := [(0, team1), (1, { team1 with index := 1, group := 1, warps := [1] })]
    warps := [(0, { warp1 with op := some (.growBlocked 0 10) }), (1, { warp1 with team := 1, op := some (.growBlocked 0 20), block := 16384 })]
    cus := [(0, { grants := [(0, 16384, 0), (16384, 16384, 1)], blocked := [0, 1], deadlockAt := at0 })] }

theorem test_witness_DeadlockSpills_deadlock : ((stuck none).cu 0).blocked ≠ [] ∧ ((stuck none).cu 0).favoured = none ∧ (stuck none).deadlocked 0 = true ∧
    ((stuck none).cu 0).deadlockAt = none ∧ (stuck (some 36)).deadlocked 0 = true ∧ 36 + 64 ≤ (stuck (some 36)).clock ∧
    (stuck (some 36)).blockedOrder 0 = [0, 1] ∧ (stuck (some 36)).spillOrder 0 0 = [1] ∧ ((stuck (some 36)).poolPlace 0 16384).isSome = true ∧
  ∃ w, amGet (stuck (some 36)).warps 1 = some w ∧ w.op = some (.growBlocked 0 20) ∧ w.blockBytes = 16384 :=
  ⟨by decide, by decide, by decide, by decide, by decide, by decide, by decide, by decide, by decide, _, rfl, rfl, rfl⟩

theorem test_witness_CompactionSteps : ((one.cu 0).moving = none ∧ (one.cu 0).compacting = none) ∧
    (let s : State := { one with cus := [(0, { grants := [(32768, 16384, 0)], moving := some (32768, 16384, 0) })] }
     (s.cu 0).moving = some (32768, 16384, 0) ∧ (s.cu 0).compacting = none ∧ Unviewed s ∧ Apart (bankAddr 0 32768) (bankAddr 0 0) 16384) ∧
    (let s : State := { one with
       warps := [(0, { warp1 with block := 65536 })]
       grids := [(0, grid1), (1, { ctx := 0, lr := { regs := 10 } })]
       cus := [(0, { grants := [(65536, 16384, 0)], compacting := some 1 })] }
     (s.cu 0).moving = none ∧ (s.cu 0).compacting = some 1 ∧ (∃ g, amGet s.grids 1 = some g ∧ s.fitsCu g.lr 1 0 = false) ∧
       (∀ w ∈ s.warps, warpCu w.1 = 0 → w.2.op = none) ∧ nextMove (s.cu 0).grants (fun _ => true) = some (65536, 16384, 0, 0)) := by
  refine ⟨by decide, ⟨by decide, by decide, unviewed rfl ⟨rfl, rfl⟩, Or.inr (by decide)⟩, by decide, by decide, ⟨_, rfl, by decide⟩, by decide, by decide⟩

/-! ### Witnesses: launches and teams -/

/-- A launch record at 128: warps and fibres of 1, all else 0. -/
def launching (stage : Nat) : State :=
  let l : Launch := { ctx := 0, grid := some 0, uid := 1, ks := 4, addr := 128, depth := 1, stage := stage, order := 3, recBytes := List.replicate 128 0 }
  { one with launches := [(5, l)] }

theorem test_witness_LaunchSteps :
    Meets lane0 (fun x => match lane0.reach x [0] 128 128 false (pointer x lane0 4) with | .mem a _ _ _ => decide (lane0.poisonIn a 128 = []) | _ => false)
      [.launch {} 4 4] ∧
    (∀ n ∈ [1, 2, 3], ∃ l, amGet (launching n).launches 5 = some l ∧ l.stage = n ∧ (∀ q ∈ (launching n).launches, q.2.ctx = l.ctx → 2 ≤ q.2.stage →
      l.order ≤ q.2.order) ∧ (amGet (launching n).ctxs l.ctx).isSome = true ∧ HubReads (launching n) l.ctx l.addr 128 ∧
      (launching n).hubFault l.ctx l.addr 128 = none ∧ HubReads (launching n) l.ctx (launchRec (ofBytes l.recBytes)).winmapAt 64 ∧
      (launching n).hubFault l.ctx (launchRec (ofBytes l.recBytes)).winmapAt 64 = none) := by
  have e : ∀ n c v b, HubReads (launching n) c v b := fun n c v b a _ => ⟨lineFree_of rfl rfl (lineOf a), plain_of ⟨rfl, rfl, nofun⟩⟩
  refine ⟨meets (by decide), fun n h => ?_⟩
  fin_cases h <;> exact ⟨_, rfl, by decide, by decide, by decide, e _ _ _ _, by decide +kernel, e _ _ _ _, by decide +kernel⟩

/-- A launch that waits for the counter at 64 to reach n. -/
def heldFor (n : Nat) : State := { one with grids := [(0, { grid1 with lr := { grid1.lr with waitc := 64, waitn := n }, held := true, failSince := some 3 })] }

theorem test_witness_LaunchWaits : ∀ n ∈ [0, 1], ∃ g, amGet (heldFor n).grids 0 = some g ∧ g.held = true ∧
    (heldFor n).transNow 8 g.ctx g.lr.waitc false ((heldFor n).supOf g.ctx) false = .ok 64 ∧ (heldFor n).lineFree (lineOf 64) = true ∧
    (heldFor n).poisonIn 64 8 = [] ∧ (heldFor n).contained 64 = false ∧ Plain (heldFor n) (lineOf 64) ∧ g.failSince = some 3 := by
  intro n h
  fin_cases h <;> exact ⟨_, rfl, rfl, by decide, by decide, by decide, by decide, plain_of (by decide), rfl⟩

/-- A launch of two teams of one warp, one dealt and done. -/
def dealing (finished : List Nat) (retired : Bool) (done : Nat) : State :=
  { one with
    dies := [(0, { status := 2, pooled := true })]
    grids := [(0, { grid1 with lr := { grid1.lr with gridx := 2, done := done }, nextTeam := 1, finished := finished, retired := retired })]
    warps := [(0, { warp1 with table := List.replicate 8 {} })] }

theorem test_witness_DealingSteps_deal : (∃ g slots blocks bays gr, amGet one.grids 0 = some g ∧ slotsFor g.lr.warps (one.usedSlots 0 1) = some slots ∧
      fitBank g.lr (topOf 1) one.nextId (one.grantsFor 0 1) = some (blocks, bays, gr) ∧ g.lr.fibres ≤ 4) := ⟨_, _, _, _, _, rfl, rfl, rfl, by decide⟩

/-- The grid of that launch. -/
def dealingGrid : Grid := { grid1 with lr := { grid1.lr with gridx := 2 }, nextTeam := 1 }

theorem test_witness_DealingSteps_step : (∃ c rest, (dealing [] false 0).ctxs = [(0, c)] ∧ c.state = .running ∧
      sortBy (fun q : Nat × Grid => q.2.order) ((dealing [] false 0).grids.filter fun q =>
        decide (q.2.ctx = 0 ∧ q.2.dealFrom ≤ (dealing [] false 0).clock) && q.2.undealt) = (0, dealingGrid) :: rest) ∧
    amGet (dealing [] false 0).grids 0 = some dealingGrid ∧ ((dealing [] false 0).placeFor 0 dealingGrid).isSome = true ∧ (dealing [] false 0).dealDue 100 = false :=
  ⟨⟨_, _, rfl, rfl, rfl⟩, rfl, by decide +kernel, by decide⟩

theorem test_witness_DealingSteps_ends :
    (∃ t, amGet ({ one with teams := [(0, { team1 with started := false })] }).teams 0 = some t ∧ t.started = false) ∧
    (∃ t g, amGet (dealing [] false 0).teams 0 = some t ∧ (dealing [] false 0).teamDone t = true ∧ amGet (dealing [] false 0).grids t.grid = some g) ∧
    (∀ d ∈ [0, 64], ∃ g, amGet (dealing [0, 1] false d).grids 0 = some g ∧ g.retired = false ∧ g.finished.length = g.lr.total ∧ g.children = 0) ∧
    (∃ g, amGet (dealing [0, 1] true 64).grids 0 = some g ∧ g.retired = true ∧
      (∀ sup, (dealing [0, 1] true 64).transNow 8 g.ctx g.lr.done true sup false = .ok 64) ∧ (dealing [0, 1] true 64).lineFree (lineOf 64) = true ∧
      (dealing [0, 1] true 64).contained 64 = false ∧ (dealing [0, 1] true 64).poisonIn 64 8 = [] ∧ Plain (dealing [0, 1] true 64) (lineOf 64) ∧
      (dealing [0, 1] true 64).watchers 64 8 = []) := by
  refine ⟨⟨_, rfl, rfl⟩, ⟨_, _, rfl, by decide, rfl⟩, fun d h => ?_,
    ⟨_, rfl, rfl, by decide, by decide, by decide, by decide, plain_of (by decide), by decide⟩⟩
  fin_cases h <;> exact ⟨_, rfl, rfl, by decide, rfl⟩

/-! ### Witnesses: matrix engine and accumulator moves -/

/-- The small state with four bays a team: an operand of K = 128 fits. -/
def bays4 : State := { lane0 with
  grids := [(0, { grid1 with lr := { grid1.lr with bays := 4 } })]
  teams := [(0, { team1 with bays := [16384, 20480, 24576, 28672] })] }

/-- Whether an operand is good. -/
def good (x : Iss) (s : State) (p n : Nat) : Bool :=
  decide (ptrSpace p = 1) && ((s.rankTeam x.gn x.team.group (ptrRank p)).isSome && decide (ptrRank p < x.grid.groupSize x.team.group)) &&
    decide (ptrOff p % 64 = 0) && decide (ptrOff p < 4096 * x.grid.lr.bays ∧ ptrOff p + n ≤ 4096 * x.grid.lr.bays)

theorem good_spec {x : Iss} {s : State} {p n : Nat} (h : good x s p n = true) : Operand x s p n := by
  simp only [good, Bool.and_eq_true, decide_eq_true_eq] at h
  exact ⟨h.1.1.1, h.1.1.2, h.1.2, h.2⟩

/-- Whether a matrix instruction reads no poison. -/
def chained (x : Iss) (s : State) : Bool :=
  (x.sourceTrap s).isNone && x.info.tsrcs.all fun t => (lanesOf x.mask).all fun l => (s.chainPoison x.cu (x.team.tileIx t) l).isNone

theorem chains_spec {i : Instr} {s : State} {x : Iss} (p : Passes i s x) (h : chained x s = true) : Chains i s x := by
  simp only [chained, Bool.and_eq_true, Option.isNone_iff_eq_none, List.all_eq_true] at h
  exact { toAtIssue := p.toAtIssue, sources := h.1, tiles := h.2 }

/-- Whether the engine takes an instruction. -/
def takes (x : Iss) (s : State) (k : Nat) (tiles : List Nat) : Bool :=
  chained x s && decide ((s.cu x.cu).queue.length < 4) && tiles.all (fun t => (s.cu x.cu).tileBusy.all fun b => !b.2.contains t) &&
    admits (amGetD s.mxsUsed (x.cn * 512 + x.cu) 0) (16 * x.ctx.mxsLimit) (engineClocks x.site k) (s.favoured x.team)

theorem takes_spec {x : Iss} {s : State} {k : Nat} {tiles : List Nat} (h : takes x s k tiles = true) : EngineOpen x s k tiles := by
  simp only [takes, Bool.and_eq_true, decide_eq_true_eq, List.all_eq_true] at h
  refine ⟨h.1.1.2, fun t ht b hb hm => ?_, h.2⟩
  have := h.1.2 t ht b hb
  simp [hm] at this

theorem test_witness_MatrixIssue_pairs : ∀ k : BitVec 2,
    Meets bays4 (fun x => good x bays4 (pointer x bays4 6) (64 * kOf k) && takes x bays4 (kOf k) [x.team.tileIx 3])
      [.mmaBf16 {} 1 6 6 3 k, .mmab {} 0 6 6 3 k] ∧
    (∀ t ∈ intForms, Meets bays4 (fun x => good x bays4 (pointer x bays4 6) (32 * kOf k) && takes x bays4 (kOf k) [x.team.tileIx 2, x.team.tileIx 3])
      [.mmaInteger {} 1 6 6 2 t.1 k]) :=
  fun k => ⟨meets (by revert k; decide), fun t ht => meets (by revert k t; decide)⟩

theorem test_witness_MatrixIssue_tiles : ∀ k : BitVec 2,
    Meets bays4 (fun x => good x bays4 (pointer x bays4 6) (64 * kOf k) && takes x bays4 (kOf k) ([0, 1, 2, 3].map x.team.tileIx))
      [.mmaAb {} 1 6 0 3 k] := fun k => meets (by revert k; decide)

/-- Rows of A at address 0: index 0 is below the limit of 1. -/
def rows (g : List (Nat × MatOp)) : State :=
  { bays4 with warps := [(0, { warp1 with k := [(7, 1)], table := { uid := 1, state := .ready, mask := 1 } :: List.replicate 7 {} })], gathers := g }

/-- The operation of rows that have come. -/
def come : MatOp := { matOp .gather 32 true 3 with fetched := true }

theorem test_witness_MatrixIssue_rows :
    Meets (rows []) (fun x => good x (rows []) (pointer x (rows []) 6) 2048 && decide (ptrSpace x.descriptor.1 ≤ 1) &&
      decide (ptrOff x.descriptor.1 % 64 = 0) && decide (x.descriptor.2.1 % 64 = 0) && (amGet (rows []).gathers x.st.uid).isNone &&
      decide (x.gatherChunks (rows []) 16 32 ≠ []) && chained x (rows []) &&
      (x.gatherChunks (rows []) 16 32).all fun ch => match (rows []).reach x [0, 1] 64 64 false ch.2.2.1 with | .mem _ _ _ _ => true | _ => false)
      [.mmag { ksel := some 4 } 1 6 16 3 0] ∧
    Meets (rows [(1, come)]) (fun x => good x (rows []) (pointer x (rows []) 6) 2048 && takes x (rows []) 32 [3] &&
      decide (amGet (rows [(1, come)]).gathers x.st.uid = some come)) [.mmag { ksel := some 4 } 1 6 16 3 0] :=
  ⟨meets (by decide), meets (by decide)⟩

/-- A gather of one chunk of the strand's. -/
def coming : MatOp := { come with uid := 1, chunks := [(0, 0, 0, 0)], fetched := false }

theorem test_witness_MatrixStarts_rows : let s : State := { rows [(1, coming)] with cus := [(0, { gather := [1], gatherTill := 90 })] }
    (∃ w, Stands s 1 0 0 w) ∧ amGet s.gathers 1 = some coming ∧ coming.fetched = false ∧ (s.cu (warpCu 0)).gather.head? = some 1 ∧ (s.cu (warpCu 0)).gatherTill ≤ s.clock ∧
    s.earlierPending s.nextId 1 coming.kin = false ∧ PlainAt s (coming.chunks.map fun c => c.2.2.1) ∧
    ∀ c ∈ coming.chunks, s.lineFree (lineOf c.2.2.1) = true ∧ s.contained c.2.2.1 = false ∧
      s.poisonIn c.2.2.1 64 = [] ∧ c.2.2.1 % 64 = 0 :=
  ⟨⟨_, rfl, rfl, by decide⟩, rfl, rfl, rfl, by decide, rfl, fun _ _ => plain_of ⟨rfl, rfl, nofun⟩, by decide⟩

/-- Operations at the head of the idle engine of CU 0, for the strand of the small state. -/
def atHead (m : MatOp) : State := { bays4 with cus := [(0, { grants := [(0, 16384, 0), (16384, 16384, 0)], queue := [m] })] }

/-- One of K = 32 in tile 0 for every row. -/
def op32 (form : MatForm) (id : Nat) : MatOp := { matOp form 32 true 0 with id := id, uid := 1, rows := BitVec.allOnes 32 }

/-- The forms that start alone. -/
def alone : List MatForm := [.bf16, .gather, .fromTiles, .int false false, .int false true, .int true false, .int true true]

theorem test_witness_MatrixStarts_head : ∀ f ∈ alone, let s := atHead (op32 f 2)
    ((s.cu 0).running = none ∧ (s.cu 0).queue = [op32 f 2] ∧ f ≠ .broadcast ∧ s.earlierPending 2 1 [] = false ∧
      ∀ a ∈ (s.operands (op32 f 2)).1 ++ (s.operands (op32 f 2)).2, s.lineFree (lineOf a) = true ∧ s.contained a = false) := by
  intro f h
  exact ⟨rfl, rfl, by revert f; decide, by revert f; decide, fun a _ => ⟨lineFree_of rfl rfl (lineOf a), live_of (atHead (op32 f 2)) rfl (by simp [atHead]) a⟩⟩

/-- A broadcast of a second team, on CU 1. -/
def second (b : DWord) : MatOp := { op32 .broadcast 3 with uid := 9, warp := 32, team := 1, ptrB := b }

/-- Two teams of a group whose broadcasts of rank 0 stand at the heads of their engines. -/
def heads (b : DWord) : State := { bays4 with
  teams := [(0, { team1 with bays := [16384, 20480, 24576, 28672] }), (1, { team1 with index := 1, rank := 1, cu := 1, warps := [32] })]
  warps := [(0, warp1), (32, { warp1 with team := 1, table := { uid := 9, state := .ready, mask := 1 } :: List.replicate 7 {} })]
  cus := [(0, { queue := [op32 .broadcast 2] }), (1, { queue := [second b] })] }

theorem test_witness_MatrixStarts_episode : (∀ b ∈ ([0, 2] : List DWord),
      (heads b).episodeHeads 0 0 0 = some [(0, op32 .broadcast 2), (1, second b)]) ∧
    (second 0).k = (op32 .broadcast 2).k ∧ (second 0).ptrB = (op32 .broadcast 2).ptrB ∧ (second 2).ptrB ≠ (op32 .broadcast 2).ptrB ∧
    (second 0).uid ≠ (op32 .broadcast 2).uid ∧
    ∀ b ∈ ([0, 2] : List DWord), ∀ r ∈ [(0, op32 .broadcast 2), (1, second b)],
      ∀ a ∈ ((heads b).operands r.2).1 ++ ((heads b).operands r.2).2, (heads b).contained a = false :=
  ⟨fun b h => (by fin_cases h <;> rfl), rfl, rfl, by decide, by decide, fun b _ _ _ a _ => live_of (heads b) rfl (by simp [heads]) a⟩

/-- An operation at its end, whose operands are n zeros. -/
def ending (form : MatForm) (n : Nat) : MatOp :=
  { op32 form 2 with until_ := 100, aBytes := List.replicate n 0, bBytes := List.replicate n 0 }

/-- The engine at its end. -/
def atEnd (form : MatForm) (n : Nat) : State := { bays4 with cus := [(0, { running := some (ending form n) })] }

theorem test_witness_MatrixFinish :
    (∃ w, ((atEnd .bf16 (64 * 32)).cu 0).running = some (ending .bf16 (64 * 32)) ∧ (atEnd .bf16 (64 * 32)).clock = 100 ∧
      (∀ n, (ending .bf16 n).aBytes.length = n ∧ (ending .bf16 n).bBytes.length = n) ∧
      amGet (atEnd .bf16 (64 * 32)).warps 0 = some w ∧ (∀ e ∈ w.liveEntries, (w.strand e).fence = none) ∧ 0 < w.fibres.length) ∧
    ∀ ua ub n, ((atEnd (.int ua ub) n).cu 0).running = some (ending (.int ua ub) n) ∧ (ending (.int ua ub) n).tile % 2 = 0 ∧
      (ending (.int ua ub) n).aBytes.length = n ∧ (ending (.int ua ub) n).bBytes.length = n :=
  ⟨⟨_, rfl, rfl, fun _ => ⟨List.length_replicate, List.length_replicate⟩, rfl, by decide, by decide⟩,
    fun _ _ _ => ⟨rfl, rfl, List.length_replicate, List.length_replicate⟩⟩

theorem test_witness_TileMoves :
    Meets bays4 (fun x => !x.moveWait bays4 [x.team.tileIx 0] [x.team.tileIx 2]) [.amov {} 0 2] ∧
    Meets bays4 (fun x => !x.moveWait bays4 [] [x.team.tileIx 3]) [.azero {} 3, .awr {} 16 18 3] ∧
    Meets bays4 (fun x => !x.moveWait bays4 [] [x.team.tileIx 2, x.team.tileIx 2 + 1]) [.awrFx64 {} 16 118 2] ∧
    Meets bays4 (fun x => !x.moveWait bays4 [x.team.tileIx 3] [] && decide (x.team.cu = x.cu)) [.ard {} 16 3 119] ∧
    Meets bays4 (fun x => !x.moveWait bays4 [x.team.tileIx 2, x.team.tileIx 2 + 1] [] && decide (x.team.cu = x.cu)) [.ardFx64 {} 16 2 118] :=
  ⟨meets (by decide), meets (by decide), meets (by decide), meets (by decide), meets (by decide)⟩

/-! ### Witnesses: copies and overlays -/

/-- Four bays and two spare ones, and code at address 0: the directory of one overlay of one parcel at 256. -/
def spare2 : State := { bays4 with
  mem := [(0, 1), (17, 1), (24, 1)] ++ pairs
  grids := [(0, { grid1 with lr := { grid1.lr with bays := 4, spare := 2 } })]
  teams := [(0, { team1 with bays := [16384, 20480, 24576, 28672], spares := [32768, 36864] })] }

/-- A region of two copies, 4 KB apart, at 0. -/
def paired : State := { spare2 with ctxs := [(0, { sup := true, trapq := 64, shadows := [{ base := 0, bytes := 4096, delta := 4096 }] })] }

/-- The checks of a copy's pointers, as values. -/
def ownB (x : Iss) (p : Nat) : Bool :=
  decide (ptrSpace p = 1 ∧ ptrRank p = x.team.rank ∧ ptrOff p + 64 ≤ 4096 * x.grid.lr.bays ∧ ptrOff p % 64 = 0)
def dstB (x : Iss) (p : Nat) : Bool := decide ((ptrSpace p = 0 ∧ ptrRank p = 0 ∨ ptrSpace p = 1 ∧ ptrRank p = x.team.rank) ∧ ptrOff p % 64 = 0)
def srcB (x : Iss) (p : Nat) : Bool :=
  decide (((ptrSpace p = 0 ∨ ptrSpace p = 4) ∧ ptrRank p = 0 ∨ ptrSpace p = 1 ∧ ptrRank p < x.grid.groupSize x.team.group) ∧ ptrOff p % 64 = 0)

theorem ptrs_spec (x : Iss) (p : Nat) : (ownB x p = true → OwnScratch x p) ∧ (dstB x p = true → CopyDst x p) ∧ (srcB x p = true → CopySource x p) := by
  simp only [ownB, dstB, srcB, decide_eq_true_eq]
  exact ⟨id, id, id⟩

theorem test_witness_CopyIssue :
    Meets spare2 (fun x => ownB x (pointer x spare2 6) && decide ((spare2.cu x.cu).copies.length < 16) &&
      (List.range 32).all fun i => (x.regPoison spare2 20 i).isNone) [.cpy {} 4 6 20] ∧
    (∀ n ∈ ([[0], [1], [0x40], [0x10, 0], [0x80, 0]] : List (List (BitVec 12))), Meets paired (fun x =>
      dstB x (pointer x paired 6) && srcB x (pointer x paired 4) && decide ((paired.cu x.cu).copies.length < 16))
      [.cpyl { imm := n } 4 4 6] ∧ Meets paired (fun x =>
      dstB x (pointer x paired 4) && srcB x (pointer x paired 6) && decide ((paired.cu x.cu).copies.length < 16))
      [.cpyl { imm := n } 4 6 4]) ∧
    Meets spare2 (fun x => (spare2.bank x.cu x.cn x.grid.lr.code 3).isNone && decide ((spare2.cu x.cu).copies.length < 16)) [.ovload {} 4 3] ∧
    (let s : State := { spare2 with cus := [(0, { banks := [{ ctx := 0, dir := 0, ovl := 3, len := 1, code := [] }] })] }
     Meets s (fun x => (s.bank x.cu x.cn x.grid.lr.code 3).isSome) [.ovload {} 4 3]) :=
  ⟨meets (by decide), fun n h => ⟨meets (by revert n; decide), meets (by revert n; decide)⟩, meets (by decide), meets (by decide)⟩

/-- A copy of one unit from address 0 to the first bay, or to the region. -/
def moving (code : Nat) (region : Option Nat) : Copy :=
  { ctx := 0, cu := 0, warp := 0, uid := 1, fibre := 0, team := 0, ks := some 4, kind := .linear, started := true, n := 64, total := 1, code := code,
    region := region, landing := if region.isSome then [] else [(0, 32768)] }

/-- The package with that copy alone. -/
def copying (cp : Copy) : State :=
  { paired with
    copies := [(5, cp)]
    teams := [(0, { team1 with bays := [16384, 20480, 24576, 28672], spares := [32768, 36864], copies := [5] })]
    cus := [(0, { grants := [(0, 16384, 0)], copies := [5] })] }

theorem test_witness_CopyMoves_unit :
    (∀ cp ∈ [moving 6 none, moving 0 none, moving 0 (some 0)], ((copying cp).cu 0).copies = [5] ∧ amGet (copying cp).copies 5 = some cp ∧ cp.cu = 0 ∧
      cp.started = true ∧ cp.readyAt ≤ (copying cp).clock ∧ cp.kind ≠ .overlay ∧ ((copying cp).cu 0).engineMute = false ∧ ((copying cp).cu 0).engineDead = false ∧ cp.ks = some 4 ∧
      (∀ t, amGet (copying cp).teams cp.team = some t → t.copies = [5])) ∧
    ∀ cp ∈ [moving 0 none, moving 0 (some 0)], cp.code = 0 ∧ cp.moved + 1 = cp.total ∧ (cp.landing ≠ [] ∨ cp.region.isSome = true) ∧
      (copying cp).copyAdmits cp = true ∧ (copying cp).unitMisses cp = [] ∧ (copying cp).unitDst cp = 0 ∧
      (copying cp).unitOf cp = .ok ((List.range 64).map fun i => (i, .inl i)) ∧ (∀ a, (copying cp).lineFree (lineOf a) = true ∧ Plain (copying cp) (lineOf a)) ∧
      (cp.landing.map Prod.snd).Nodup ∧ ∀ b ∈ cp.landing, b.2 % 4096 = 0 := by
  constructor
  · intro cp h
    fin_cases h <;> exact ⟨rfl, rfl, rfl, rfl, by decide, by decide, rfl, rfl, rfl, fun t e => by cases e; rfl⟩
  · intro cp h
    fin_cases h <;> exact ⟨rfl, rfl, by decide, by decide, by decide, by decide, by decide, fun a => ⟨lineFree_of rfl rfl (lineOf a), plain_of ⟨rfl, rfl, nofun⟩⟩, by decide, by decide⟩

theorem test_witness_CopyMoves_publish :
    (∃ t c, let cp := moving 0 none
      amGet (copying cp).copies 5 = some cp ∧ cp.region = none ∧ cp.kind ≠ .overlay ∧ cp.ks = some 4 ∧ amGet (copying cp).teams cp.team = some t ∧
      t.copies = [5] ∧ t.cu = cp.cu ∧ amGet (copying cp).ctxs cp.ctx = some c ∧ c.state = .running ∧ t.bayMoving = false ∧
      (∀ l ∈ cp.publishLines t, (copying cp).lineFree l = true) ∧ MemOk (copying cp) ∧
      (t.bays ++ t.spares).Nodup ∧ (∀ b ∈ t.bays ++ t.spares, b % 4096 = 0) ∧ (cp.landing.map Prod.fst).Nodup ∧ (cp.landing.map Prod.snd).Nodup ∧
      ∀ l ∈ cp.landing, l.1 < t.bays.length ∧ l.2 ∈ t.spares) ∧
    ∃ c r, let cp := moving 0 (some 0)
      amGet (copying cp).copies 5 = some cp ∧ amGet (copying cp).ctxs cp.ctx = some c ∧ c.state = .running ∧ c.shadows[0]? = some r ∧
      (∀ p ∈ (copying cp).regionPages cp r, (copying cp).contained p.2.1 = false ∧ (copying cp).contained p.2.2 = false) ∧
      (copying cp).heldIn (((copying cp).regionPages cp r).flatMap fun p => [p.2.1, p.2.2]) = [] :=
  ⟨⟨_, _, rfl, rfl, by decide, rfl, rfl, rfl, rfl, rfl, rfl, rfl, fun l _ => lineFree_of rfl rfl l, rfl, by decide, by decide, by decide, by decide, by decide⟩,
    ⟨_, _, rfl, rfl, rfl, rfl, by decide, by decide⟩⟩

/-- A request for an overlay at a stage, with an OVLOAD and a strand that wait for it. -/
def wanted (n stage : Nat) : State :=
  let o : OvlLoad := { ctx := 0, cu := 0, dir := 0, ovl := n, copies := [5], stage := stage, len := 1, addr := 256 }
  { copying { moving 0 none with kind := .overlay } with
    ovls := [(6, o)]
    warps := [(0, { warp1 with table := { uid := 1, state := .ready, mask := 1, ovlWait := some 6 } :: List.replicate 7 {} })] }

theorem test_witness_OverlaySteps :
    (∃ o, amGet (wanted 0 0).ovls 6 = some o ∧ o.stage = 0 ∧ (wanted 0 0).directory (cuSite o.cu) o.ctx o.dir o.ovl ((wanted 0 0).supOf o.ctx) = .ok 1 256 ∧
      (∃ img, (wanted 0 0).overlayCodeAt (cuSite o.cu) o.ctx 256 1 ((wanted 0 0).supOf o.ctx) = .ok img) ∧ o.copies = [5] ∧
      ((wanted 0 0).cu o.cu).banks.length + ((wanted 0 0).ovls.filter fun q => decide (q.2.cu = o.cu ∧ q.2.stage = 2)).length < 2) ∧
    (∃ o, amGet (wanted 1 0).ovls 6 = some o ∧ o.stage = 0 ∧
      (wanted 1 0).directory (cuSite o.cu) o.ctx o.dir o.ovl ((wanted 1 0).supOf o.ctx) = .absent ∧
      ∃ w cp, amGet (wanted 1 0).warps 0 = some w ∧ 0 < w.table.length ∧ (w.strand 0).ovlWait = some 6 ∧ (w.strand 0).state = .ready ∧
        (w.strand 0).fence = none ∧ amGet (wanted 1 0).copies 5 = some cp ∧ cp.ks = some 4) ∧
    ∃ o img, amGet (wanted 0 2).ovls 6 = some o ∧ (wanted 0 2).overlayCodeAt (cuSite o.cu) o.ctx o.addr o.len ((wanted 0 2).supOf o.ctx) = .ok img ∧
      (wanted 0 2).transNow (cuSite o.cu) o.ctx o.addr false ((wanted 0 2).supOf o.ctx) true = .ok 256 :=
  ⟨⟨_, rfl, rfl, by decide, ⟨_, rfl⟩, rfl, by decide⟩,
    ⟨_, rfl, rfl, by decide, _, _, rfl, by decide, rfl, rfl, rfl, rfl, rfl⟩, _, _, rfl, rfl, by decide⟩

/-! ### Witnesses: supervisor instructions and replies -/

/-- Whether every piece of a supervisor pointer is in reach. -/
def reached (x : Iss) (s : State) (p : BitVec 7) (n align : Nat) (write : Bool) : Bool :=
  (x.supPieces s p.toNat n align write).all fun a => match a.at0 with | .mem _ _ _ _ => true | _ => false

theorem reached_spec {x : Iss} {s : State} {p : BitVec 7} {n align : Nat} {write : Bool} (h : reached x s p n align write = true) :
    ∃ l, PiecesAt x s p n align write l := by
  refine ⟨(x.supPieces s p.toNat n align write).map fun a => match a.at0 with | .mem q _ _ _ => q | _ => 0, by simp, fun j a q ha hq => ?_⟩
  have m := List.all_eq_true.mp h a (List.mem_of_getElem? ha)
  simp only [List.getElem?_map, ha, Option.map_some, Option.some.injEq] at hq
  revert m hq
  cases e : a.at0 <;> simp

theorem test_witness_SupervisorIssue :
    Meets one (fun x => reached x one 4 16 16 false) [.xinv {} 254 4] ∧ Meets one (fun x => reached x one 4 32 16 false) [.fwwr {} 4 15] ∧
    Meets one (fun x => reached x one 4 32 16 true) [.fwrd {} 4 0] ∧ Meets one (fun x => reached x one 4 16 64 false) [.lwbi {} 255 4] ∧
    Meets one (fun x => reached x one 4 64 16 false) [.resume {} 4, .redirect {} 4, .kill {} 4] :=
  ⟨meets (by decide), meets (by decide), meets (by decide), meets (by decide), meets (by decide)⟩

/-- An operation of the strand on the pieces at 0 and 16, which hold these bytes. -/
def supOp (kind : SupKind) (ks : Option Nat) (bytes : List Host.Cell) (n : Nat) : State :=
  { one with
    mem := bytes ++ pairs
    supOps := [(5, { ctx := 0, warp := 0, uid := 1, kind := kind, n := n, ks := ks, chunks := [0, 16] })]
    warps := [(0, { warp1 with table := { uid := 1, state := .ready, mask := 1, hold := .busy 5 } :: List.replicate 7 {} })] }

theorem opDue (kind : SupKind) (ks : Option Nat) (bytes : List Host.Cell) (n : Nat) : ∃ o, OpDue (supOp kind ks bytes n) 5 o ∧ o.kind = kind ∧
    o.ks = ks ∧ o.chunks = [0, 16] ∧ o.n = n ∧ o.walks = [] ∧ (∃ w, Stands (supOp kind ks bytes n) o.uid 0 0 w ∧ (w.strand 0).fence = none) ∧
    ∃ cx, amGet (supOp kind ks bytes n).ctxs ((supOp kind ks bytes n).ctxOf 0) = some cx :=
  ⟨_, ⟨rfl, rfl, fun a _ => lineFree_of rfl rfl (lineOf a), fun _ _ => plain_of ⟨rfl, rfl, nofun⟩⟩, rfl, rfl, rfl, rfl, rfl, ⟨_, ⟨rfl, rfl, by decide⟩, rfl⟩, _, rfl⟩

/-- A window whose view of 4,096 bytes is at 4096 and whose store is at 8192, enabled: bytes of its image. -/
def goodWindow : List Host.Cell := [(1, 16), (9, 32), (16, 3), (20, 1)]

theorem test_witness_SupervisorCompletes_xinv :
    descBad ((supOp .xinv (some 4) [(7, 2)] 0).pieceNum [0, 16]) ∧ ¬ descBad ((supOp .xinv (some 4) [] 0).pieceNum [0, 16]) := by
  simp only [descBad, descKind]
  decide

theorem test_witness_SupervisorCompletes_windows :
    (let s := supOp .fwwr none [] 15
     let w := windowOf (s.pieceNum [0, 16])
     w.en = false ∧ w.scale % 4 = 0 ∧ inDram w.view = true ∧ bitsOf (s.pieceNum [0, 16]) 153 3 = 0) ∧
    (let s := supOp .fwwr none [(16, 1)] 15
     let w := windowOf (s.pieceNum [0, 16])
     w.en = true ∧ s.windowOk (w.view / 2 ^ 36) 15 w = false) ∧
    (let s := supOp .fwrd none [(7, 2)] 15
     inDram (bitsOf (s.pieceNum [0, 16]) 0 64) = false) ∧
    (let s := supOp .fwrd none [] 15
     inDram (bitsOf (s.pieceNum [0, 16]) 0 64) = true ∧ s.watchers 0 16 = [] ∧ s.watchers 16 16 = []) := by
  decide

/-- A reply of a kind at a stage for the record at 0, and a frozen strand with SEQ 0 beside the strand that replies. -/
def replying (kind : ReplyKind) (stage : Nat) (posted : Bool) (pc : List Host.Cell) : State :=
  let frozen : Strand := { uid := 3, state := .frozen, mask := 2, seq := some 0, trapPosted := posted, trapClass := 10 }
  { one with
    mem := pc ++ pairs
    replies := [(5, { ctx := 0, warp := 0, uid := 1, kind := kind, chunks := [0, 16, 32, 48], stage := stage, target := 3 })]
    warps := [(0, { warp1 with table := { uid := 1, state := .ready, mask := 1, hold := .busy 5 } :: frozen :: List.replicate 6 {} })]
    cus := [(0, { banks := [{ ctx := 0, dir := 0, ovl := 0, len := 1, code := [] }] })] }

theorem test_witness_ReplySteps : ∀ kind ∈ [ReplyKind.resume, .redirect, .kill],
    (∃ r w, let s := replying kind 0 true []
      amGet s.replies 5 = some r ∧ r.stage = 0 ∧ r.kind = kind ∧ s.earlierPending 5 r.uid r.kin = false ∧
      (∀ a ∈ r.chunks, s.lineFree (lineOf a) = true ∧ Plain s (lineOf a)) ∧
      s.findFrozen (bitsOf (s.pieceNum r.chunks) 107 6) (bitsOf (s.pieceNum r.chunks) 64 32) = some (0, 1) ∧
      amGet s.warps 0 = some w ∧ 1 < w.table.length ∧ s.kernelHolds 0 (pcOvl (BitVec.ofNat 23 (bitsOf (s.pieceNum r.chunks) 209 23))) = true) ∧
    (let s := replying kind 0 false []
     s.findFrozen (bitsOf (s.pieceNum [0, 16, 32, 48]) 107 6) (bitsOf (s.pieceNum [0, 16, 32, 48]) 64 32) = none ∧
     s.findSaved (bitsOf (s.pieceNum [0, 16, 32, 48]) 107 6) (bitsOf (s.pieceNum [0, 16, 32, 48]) 64 32) = none) ∧
    (∃ r w, let s := replying kind 1 false []
      amGet s.replies 5 = some r ∧ r.stage = 1 ∧ (amGet s.ctxs r.tctx).map Ctx.state = some .running ∧ Stands s r.target 0 1 w ∧
      (w.strand 1).state = .frozen) ∧
    ∃ r, amGet (replying kind 2 false []).replies 5 = some r ∧ r.stage = 2 ∧ ∀ c ∈ (replying kind 2 false []).ctxs, 5 ∉ c.2.heldReplies := by
  intro kind h
  fin_cases h <;> exact ⟨⟨_, _, rfl, rfl, rfl, rfl, fun a _ => ⟨lineFree_of rfl rfl (lineOf a), plain_of ⟨rfl, rfl, nofun⟩⟩, by decide, rfl, by decide, by decide⟩, by decide,
    ⟨_, _, rfl, rfl, rfl, ⟨by decide, rfl, by decide⟩, rfl⟩, _, rfl, rfl, by decide⟩

theorem test_witness_ReplySteps_noOverlay : let s := replying .redirect 0 true [(28, 255)]
    s.findFrozen (bitsOf (s.pieceNum [0, 16, 32, 48]) 107 6) (bitsOf (s.pieceNum [0, 16, 32, 48]) 64 32) = some (0, 1) ∧
    s.kernelHolds 0 (pcOvl (BitVec.ofNat 23 (bitsOf (s.pieceNum [0, 16, 32, 48]) 209 23))) = false := by decide

/-! ### Witnesses: scheduling and trap posting -/

/-- A second warp, which issued last in a clock. -/
def warp2 (n : Nat) : Warp :=
  { warp1 with number := 1, block := 16384, lastIssue := n, table := { uid := 2, state := .ready, mask := 1, lastIssue := n } :: List.replicate 7 {} }

/-- Two warps of one strand on issue slot 0, with the overlay of their code loaded, the second last to issue, at a clock. -/
def twoWarps (rr : Bool) (last : Option Nat) (lastIssue now : Nat) : State :=
  { one with
    clock := now
    cur := none
    grids := [(0, { grid1 with lr := { grid1.lr with rr := rr } })]
    teams := [(0, { team1 with warps := [0, 1] })]
    warps := [(0, warp1), (1, warp2 lastIssue)]
    cus := [(0, { banks := [{ ctx := 0, dir := 0, ovl := 0, len := 1, code := [] }], lastSlot := last.elim [] fun k => [(0, (k, lastIssue))] })] }

theorem test_witness_IssueChoice : ∀ q ∈ ([(false, some 1, 99, 100), (false, some 1, 50, 100), (false, none, 50, 400), (true, some 1, 99, 100)] :
      List (Bool × Option Nat × Nat × Nat)), let s := twoWarps q.1 q.2.1 q.2.2.1 q.2.2.2
    s.updateHolders 0 = s ∧ s.readySlots 0 = [0, 1] ∧ s.slotWarps 0 = [0, 1] ∧ roundRobin s 0 = q.1 ∧ roundRobin s 1 = q.1 ∧
      s.starved 0 = if q.2.2.2 = 400 then [0, 1] else [] := by
  intro q h
  fin_cases h <;> exact ⟨rfl, by decide, by decide, by decide, by decide, by decide⟩

/-- The small state with no holder in its warp slot, its overlay loaded or not. -/
def unheld (banks : List Bank) : State := { one with warps := [(0, { warp1 with holder := none })], cus := [(0, { banks := banks })] }

theorem test_witness_IssueChoice_holders : let loaded : List Bank := [{ ctx := 0, dir := 0, ovl := 0, len := 1, code := [] }]
    (∀ b ∈ [loaded, []], ∃ w, amGet (unheld b).warps 0 = some w ∧ w.holder = none ∧ ∀ a ∈ w.liveEntries, a < 8 ∧ (w.strand a).fibre < 4) ∧
    (unheld []).issuable 0 0 = false ∧ (unheld loaded).issuable 0 0 = true ∧ roundRobin (unheld loaded) 0 = false := by
  refine ⟨fun b h => ⟨_, rfl, rfl, by decide⟩, by decide, by decide, by decide⟩

theorem test_witness_IssueChoice_none : State.updateHolders { one with warps := [] } 0 = { one with warps := [] } ∧
    State.readySlots { one with warps := [] } 0 = [] ∧
    (let s := twoWarps false none 50 100
     ∀ k ∈ s.readySlots 0, ∀ e, (amGet s.warps k).bind Warp.holder = some e → ∀ g c b a d j n, s.group k e ≠ .ok (.mmag g c b a d j) n) := by
  refine ⟨rfl, rfl, fun k m e h g c b a d j n q => ?_⟩
  have r : (twoWarps false none 50 100).readySlots 0 = [0, 1] := by decide
  have t : ∀ k ∈ [0, 1], (amGet (twoWarps false none 50 100).warps k).bind Warp.holder = some 0 ∧
      (match (twoWarps false none 50 100).group k 0 with | .ok (.mmag _ _ _ _ _ _) _ => true | _ => false) = false := by decide
  have u := t k (r ▸ m)
  rw [u.1] at h
  injection h with h
  rw [h, q] at u
  exact absurd u.2 (by simp)

/-- The strand waits in a state since a clock; a result of it is to come. -/
def waiting (st : StrandState) (since : Nat) : State :=
  { one with
    watchLimit := 64
    warps := [(0, { warp1 with pipe := [(7, { res := [], fibre := 0, uid := 1, flags := 5 })], table := { uid := 1, state := st, mask := 1, waitSince := since } :: List.replicate 7 {} })] }

theorem test_witness_ResultsAndPeriods : (∃ w p, amGet (waiting .ready 0).warps 0 = some w ∧ amGet w.pipe 7 = some p ∧ p.fibre < w.fibres.length ∧
      ∀ e ∈ w.liveEntries, (w.strand e).uid = p.uid → (w.strand e).fence = none) ∧
    (∀ st ∈ [StrandState.barrier, .countWait, .statusWait, .atJoin], ∃ w, Stands (waiting st 36) 1 0 0 w ∧ (w.strand 0).state = st ∧
      (waiting st 36).watchLimit ≤ (waiting st 36).clock - (w.strand 0).waitSince) ∧
    ∃ w, Stands (waiting .barrier 37) 1 0 0 w ∧ ¬ (waiting .barrier 37).watchLimit ≤ (waiting .barrier 37).clock - (w.strand 0).waitSince := by
  refine ⟨⟨_, _, rfl, rfl, by decide, by decide⟩, fun st h => ?_, ⟨_, ⟨rfl, rfl, by decide⟩, by decide⟩⟩
  fin_cases h <;> exact ⟨_, ⟨rfl, rfl, by decide⟩, rfl, by decide⟩

/-- The context with a ring of 16 records at 64 and these fields of its posting. -/
def posting (c : Ctx) : State :=
  { one with
    ctxs := [(0, { c with sup := true, trapq := 64 })]
    warps := [(0, { warp1 with table := { uid := 1, state := .frozen, mask := 1 } :: List.replicate 7 {} })] }

theorem test_witness_TrapPosting_arrives : ∀ t ∈ [(0 : Nat), 16], ∃ c w, amGet (posting { inflight := [(100, 0, 1, 5)], nextSeq := t }).ctxs 0 = some c ∧
    c.inflight = [(100, 0, 1, 5)] ∧ c.posting = none ∧ c.records = [] ∧ c.ringFull = false ∧ c.ringFailed = false ∧ c.state = .running ∧
    decide (c.taken + 2 ^ c.log2n ≤ c.nextSeq) = decide (t = 16) ∧
    Stands (posting { inflight := [(100, 0, 1, 5)], nextSeq := t }) 1 0 0 w ∧ (w.strand 0).state = .frozen := by
  intro t h
  fin_cases h <;> exact ⟨_, _, rfl, rfl, rfl, rfl, rfl, rfl, rfl, by decide, ⟨rfl, rfl, by decide⟩, rfl⟩

/-- A context at a stage of the posting of the record with SEQ 17. -/
def posts (n : Nat) : State := posting { posting := some (n, 100), records := [(17, 1, 5)], nextSeq := 18, taken := 2 }

theorem test_witness_TrapPosting_stages : (∀ n ∈ [1, 2, 3, 4, 5], ∃ c, amGet (posts n).ctxs 0 = some c ∧ c.inflight = [] ∧ c.posting = some (n, 100) ∧
      c.records = [(17, 1, 5)] ∧ c.state = .running ∧ c.ringFull = false ∧ c.ringFailed = false) ∧
    RingAt (posts 1) 0 (64 + 64 + 64 * (17 % 2 ^ 4)) 64 192 ∧ RingAt (posts 3) 0 (64 + 8) 8 72 ∧
    ((posts 5).transNow 8 0 (64 + 16) false ((posts 5).supOf 0) false = .ok 80 ∧ (posts 5).contained 80 = false ∧ (posts 5).lineHeld (lineOf 80) = false ∧
      (posts 5).poisonIn 80 8 = [] ∧ Plain (posts 5) (lineOf 80)) := by
  have p : ∀ n l, Plain (posts n) l := fun _ _ => plain_of ⟨rfl, rfl, nofun⟩
  refine ⟨fun n h => ?_, ⟨by decide, by decide, by decide, by decide, p _ _, by decide⟩, ⟨by decide, by decide, by decide, by decide, p _ _, by decide⟩,
    by decide, by decide, by decide, by decide, p _ _⟩
  fin_cases h <;> exact ⟨_, rfl, rfl, rfl, rfl, rfl, rfl, rfl⟩

theorem test_witness_TrapPosting_taken : ∀ v ∈ [1, 2],
    let s := posting { records := [(17, 1, 5)], nextSeq := 18, takenQ := [v], ringFull := true, taken := 1 }
    ∃ c, amGet s.ctxs 0 = some c ∧ c.takenQ = [v] ∧ c.posting = none ∧ c.ringFailed = false ∧ c.state = .running ∧ c.records = [(17, 1, 5)] ∧
      decide (v + 2 ^ c.log2n ≤ 17) = decide (v = 1) := by
  intro v h
  fin_cases h <;> exact ⟨_, rfl, rfl, rfl, rfl, rfl, rfl, by decide⟩

/-! ### Witnesses: the host link -/

/-- The small state with function 0 open onto its context. -/
def opened : State := { one with fnCtx := [(0, 0)] }

/-- Fresh states. -/
theorem fresh_of {s : State} (h : (s.pieces.all (fun p => decide (p.1 < s.nextId)) && s.hreads.all fun r => decide (r.1 < s.nextId)) = true) : Fresh s := by
  simp only [Bool.and_eq_true, List.all_eq_true, decide_eq_true_eq] at h
  exact h

theorem test_witness_HostArrivals :
    (∀ r : Bool, Arrives opened { relaxed := r, addr := 252 } 4 512) ∧ Arrives opened { stream := 5, addr := 255 } 1 4096 ∧ Fresh opened ∧
    Opens opened { addr := 252 } 4 0 ∧ Arrives opened { bar0 := true, addr := 28 } 4 4096 ∧
    opened.transNow 8 0 255 true true false = .ok 255 ∧ opened.transNow 8 0 0 false true false = .ok 0 ∧
    opened.transNow 8 0 4096 false true false = .bad 6 1 0 ∧ opened.linkUp (16 + 7) = true ∧ opened.aperture 0 = some 0 ∧
    State.hostUp { opened with hostUp := false } = false ∧ opened.aperture 1 = none :=
  ⟨fun _ => ⟨rfl, rfl, nofun, rfl, Nat.zero_le _, by decide⟩, ⟨rfl, rfl, nofun, rfl, by decide, by decide⟩, fresh_of rfl, ⟨rfl, by decide, rfl⟩,
    ⟨rfl, rfl, nofun, rfl, by decide, by decide⟩, by decide, by decide, by decide, rfl, rfl, rfl, rfl⟩

/-- Two descriptors of eight bytes at 0: to the device, and from it through peer port 7. -/
theorem test_witness_HostArrivals_descriptors : (∀ d ∈ [({ toDevice := true, n := 8, data := List.replicate 8 0 } : HubDesc), { toDevice := false, n := 8, port := some 7 }],
      (∀ p, d.port = some p → p < 12 ∧ opened.linkUp (16 + p) = true) ∧ opened.aperture d.fn = some 0 ∧ (d.toDevice = true → d.data.length = d.n) ∧ d.n ≠ 0 ∧
        d.dev % 256 + d.n ≤ 256) ∧ opened.hostUp = true ∧ opened.firmwareOk = true := by
  refine ⟨fun d h => ?_, rfl, rfl⟩
  fin_cases h
  · exact ⟨nofun, rfl, fun _ => rfl, by decide, by decide⟩
  · exact ⟨fun p e => by cases e; exact ⟨by decide, rfl⟩, rfl, nofun, by decide, by decide⟩

/-- Pieces of a write and a read, the lines of 8 bytes at 60 free or locked by piece 5. -/
def passing (lock : Option Nat) (p : Piece) : State :=
  { opened with nextId := 9, pieces := [(5, p)], lines := if lock.isSome then [(0, { lock := lock }), (1, { lock := lock })] else [] }

/-- Eight bytes at 60. -/
def eight (bid ts : Option Nat) : Piece :=
  { domain := 0, write := 0, ctx := 0, addr := 60, data := List.replicate 8 1, ep := false, seq := 0, released := true, bid := bid, ts := ts }

/-- A read of 100 bytes at 30. -/
def hundred (data : Option (List Byte)) : HRead := { domain := 0, ctx := 0, addr := 30, n := 100, after := 0, sent := true, data := data }

theorem test_witness_HostPasses :
    (amGet (passing none (eight none none)).pieces 5 = some (eight none none) ∧ (eight none none).released = true ∧ (passing none (eight none none)).contained 60 = false ∧
      LinesFree (passing none (eight none none)) (touched 60 8)) ∧
    ((passing none (eight (some 7) none)).pieces = [(5, eight (some 7) none)] ∧ (eight (some 7) none).ts = none ∧ (eight (some 7) none).bid = some 7) ∧
    ((∀ l ∈ touched 60 8, ((passing (some 5) (eight none (some 8))).line l).lock = some 5 ∧ ((passing (some 5) (eight none (some 8))).line l).queue = [] ∧
      Plain (passing (some 5) (eight none (some 8))) l) ∧ (passing (some 5) (eight none (some 8))).watchers 60 8 = []) ∧
    (let s : State := { opened with hreads := [(5, hundred none)] }
     amGet s.pieces 5 = none ∧ amGet s.hreads 5 = some (hundred none) ∧ (hundred none).sent = true ∧ s.contained 30 = false ∧ s.poisonIn 30 100 = [] ∧
       (∀ i, i < 100 → s.poisonIn (30 + i) 1 = []) ∧ LinesFree s (touched 30 100)) ∧
    (let s : State := { opened with descs := [(5, {})] }
     amGet s.descs 5 = some {} ∧ s.descBusy 5 = false ∧ s.hostUp = true) := by
  have p : ∀ l, Plain (passing (some 5) (eight none (some 8))) l := fun l => plain_of ⟨rfl, by by_cases a : l = 0 <;> by_cases b : l = 1 <;>
    simp [State.line, passing, opened, amGet, Ne.symm, a, b, eq_comm], by decide⟩
  refine ⟨⟨rfl, rfl, by decide, fun n _ => ⟨lineFree_of rfl rfl n, plain_of ⟨rfl, rfl, nofun⟩⟩⟩, by decide,
    ⟨fun l h => ?_, by decide⟩, ⟨rfl, rfl, rfl, rfl, rfl, by decide, fun n _ => ⟨lineFree_of rfl rfl n,
    plain_of ⟨rfl, rfl, nofun⟩⟩⟩, by decide⟩
  have e : ∀ l ∈ touched 60 8, ((passing (some 5) (eight none (some 8))).line l).lock = some 5 ∧ ((passing (some 5) (eight none (some 8))).line l).queue = [] := by decide
  exact ⟨(e l h).1, (e l h).2, p l⟩

/-! ### Witnesses: management, contexts -/

/-- A state with site 1 at a point of its join. -/
def entering (d : Die) : State := { one with dies := [(0, { status := 2, pooled := true }), (1, d)], contract := 0x10010101 }

theorem test_witness_ManagementSteps :
    (entering {}).firmwareOk = true ∧ (amGetD (entering {}).dies 1 {}).status = 0 ∧
    (∀ n ∈ [1, 2, 3, 4, 5, 6], (amGetD (entering { status := 1, stage := n }).dies 1 {}).stage = n ∧ joinReason (entering { status := 1, stage := n }).contract n {} = 0) ∧
    joinReason (entering { status := 1, stage := 1 }).contract 1 { trained := false } = 1 ∧
    joinReason (entering { status := 1, stage := 3 }).contract 3 { trapVer := (2, 3) } = 5 ∧
    (amGetD (entering { tries := 4 }).dies 1 {}).tries = 4 ∧ (entering { status := 2 }).mayRejoin 1 = true ∧ (entering { status := 2 }).mayRejoin 0 = false ∧
    State.firmwareOk { one with firmwareOk := false } = false ∧ (List.replicate 32 (0 : Byte)).length = 32 := by decide

/-- A package with a context record at 0, its ring at 1024 and its root launch record at 2048. -/
def startable (rec0 ring root : List Host.Cell) (pooled : Bool) : State :=
  { one with
    mem := rec0 ++ ring ++ root
    ctxs := []
    contract := 0x10010101
    dies := [(0, { status := 2, pooled := pooled })] }

/-- The good parts: FINREV 1.0, ROOTL 2048, TRAPQ 1024; a ring of 16 records; a grid of one team. -/
def goodRec : List Host.Cell := [(3, 16), (73, 8), (97, 4)]
def goodRing : List Host.Cell := [(1024, 4)]
def goodRoot : List Host.Cell := [(2060, 1), (2064, 1), (2068, 1)]

/-- What START finds in a record at 0: whether its fields are good, its table, whether the part serves its revision, its ring header, and the code
of its root launch record where that reads. -/
def starts (s : State) : Bool × Except Nat (List Shadow) × Bool × Option Nat × Option Nat :=
  let n := s.num 0 128
  let c0 := Ctx.withRecord {} n 0
  let s1 : State := { s with ctxs := [(0, c0)] }
  let root := if (s1.hubFault 0 c0.rootl 128).isSome then none else s1.hubRead 0 c0.rootl 128
  (ctxRecordOk n 0, State.shadowTable { s with ctxs := [(0, c0)] } 0 (bitsOf n 832 64) (bitsOf n 0 5), s.servesRevision (bitsOf n 24 8),
    s1.ringHeader 0 c0.trapq, root.map fun bs => s1.launchCode { ctx := 0, addr := c0.rootl, c := s.horSys } (ofBytes bs) true)

/-- Tables compare. -/
def tableIs (t : Except Nat (List Shadow)) (code : Nat) : Bool := match t with | .ok l => decide (code = 0 ∧ l = []) | .error k => decide (k = code)

theorem test_witness_ContextStarts :
    (let s := startable goodRec goodRing goodRoot true
     amGet s.ctxs 0 = none ∧ s.firmwareOk = true ∧ s.ctxRecord 0 = some (s.num 0 128) ∧ s.ctxRecord (2 ^ 40) = none ∧ bitsOf (s.num 0 128) 16 8 = 0 ∧
       (starts s).1 = true ∧ tableIs (starts s).2.1 0 = true ∧ (starts s).2.2.1 = true ∧ (starts s).2.2.2.1 = some 4 ∧
       (starts s).2.2.2.2 = some 0 ∧ (∃ d ∈ s.dies, d.2.pooled = true)) ∧
    (starts (startable [(3, 16), (73, 8), (97, 4), (113, 1)] goodRing goodRoot true)).1 = false ∧
    tableIs (starts (startable [(0, 1), (3, 16), (73, 8), (97, 4), (105, 16)] goodRing goodRoot true)).2.1 22 = true ∧
    (starts (startable [(3, 32), (73, 8), (97, 4)] goodRing goodRoot true)).2.2.1 = false ∧
    (starts (startable [(3, 16), (73, 8), (97, 16)] goodRing goodRoot true)).2.2.2.1 = none ∧
    (starts (startable goodRec [(1024, 3)] goodRoot true)).2.2.2.1 = some 3 ∧
    (starts (startable goodRec [(1024, 4), (1025, 1)] goodRoot true)).2.2.2.1 = some 260 ∧
    (∀ d ∈ (startable goodRec goodRing goodRoot false).dies, d.2.pooled = false) ∧
    (starts (startable [(3, 16), (73, 16), (97, 4)] goodRing goodRoot true)).2.2.2.2 = none ∧
    (starts (startable goodRec goodRing [] true)).2.2.2.2 = some 1 := by decide +kernel

theorem test_witness_ContextStarts_reads : ∀ c n, HubReads { startable goodRec goodRing goodRoot true with ctxs := c } 0 1024 n := by
  have d : ∀ p ∈ (startable goodRec goodRing goodRoot true).dies, p.2.away = false := by decide
  exact fun _ _ _ _ => ⟨lineFree_in rfl d _, plain_of ⟨rfl, rfl, nofun⟩⟩

/-- The small state with its context in a stop, and 64 KB of translated memory. -/
def stopping (c : Ctx) : State :=
  { one with
    cur := none
    ctxs := [(0, { c with state := .stopping, sup := true, trapq := 64, save := 0 })]
    teams := [(0, team1)]
    warps := [(0, { warp1 with table := { uid := 1, state := .frozen, mask := 1 } :: List.replicate 7 {} })]
    tlbDie := [(8, [{ page0 with bytes := 65536 }])] }

/-- On a Flight 2 die, a strand within straight code, which has yet to reach its migration point. -/
def stopping2 : State := { stopping { mig := true, stopAt := some 36 } with
  teams := [(0, { team1 with cu := 64, warps := [2048] })]
  warps := [(2048, { warp1 with table := { uid := 1, state := .ready, mask := 1, pc := 1 } :: List.replicate 7 {} })]
  cus := [(64, { banks := [{ ctx := 0, dir := 0, ovl := 0, len := 3, code := [(1, 15)] }] })] }

theorem test_witness_ContextStops :
    ((amGet one.ctxs 0).map Ctx.state = some .running ∧ one.firmwareOk = true) ∧
    ((amGet (stopping { mig := true }).ctxs 0).map Ctx.state = some .stopping ∧ (stopping { mig := true }).issueHalted 0 = true) ∧
    (stopping2.issueHalted 0 = false ∧ (amGet stopping2.ctxs 0).map (fun c => (c.state, c.mig, c.stopAt)) = some (.stopping, true, some 36)) ∧
    (∃ c, amGet (stopping { saving := true }).ctxs 0 = some c ∧ c.state = .stopping ∧ c.saving = true ∧ (stopping { saving := true }).stopReady 0 c = true ∧
      (stopping { saving := true }).savePages 0 c.save (segsEnd ((stopping { saving := true }).ctxSegs 0)) true = some ((List.range 13).map (4096 * ·)) ∧
      (stopping { saving := true }).pendingPublishes 0 = []) ∧
    (∀ l ∈ (stopping { saving := true }).lines, l.2.lock ≠ some (saverKey 0)) ∧
    ((stopping { saving := true }).heldIn ((List.range 13).map (4096 * ·)) = [] ∧ ∀ p ∈ (List.range 13).map (4096 * ·), p % 4096 = 0) ∧
    ((List.range 13).map (4096 * ·)).Nodup ∧ Unviewed (stopping { saving := true }) ∧
    ∃ c, amGet (stopping { saving := true, posting := some (2, 100) }).ctxs 0 = some c ∧ (stopping { saving := true, posting := some (2, 100) }).stopReady 0 c = false :=
  ⟨by decide, by decide, by decide +kernel, ⟨_, rfl, rfl, rfl, by decide, by decide +kernel, by decide⟩, nofun, by decide +kernel, by decide, unviewed rfl ⟨rfl, rfl⟩,
    _, rfl, by decide⟩

/-! ### Witnesses: restores, views, links, agents -/

/-- An image of the small state's team, whose warps are these. -/
def image1 (ws : List (Nat × Warp)) : Saved := { mig := false, teams := [(0, team1)], warps := ws }

/-- A context stopped with that image, 64 KB of translated memory, and a context record at 0. -/
def stopped (st : CtxState) (ws : List (Nat × Warp)) (rec0 : List Host.Cell) (pooled : Bool) : State :=
  { startable rec0 goodRing goodRoot pooled with
    ctxs := [(0, { state := st, trapq := 1024, saved := some (image1 ws) })]
    warps := []
    teams := []
    cus := []
    tlbDie := [(8, [{ page0 with bytes := 65536 }])] }

/-- What a restore finds: the context with its record, its save area's pages, whether its image fits a joined die and where its teams go. -/
def restores (s : State) (im : Saved) : Option (Ctx × Option (List Nat) × Bool × Option (List Place)) :=
  match s.loadRecord 0 0 { state := .preempted, trapq := 1024, saved := some im } with
  | .error _ => none
  | .ok c =>
    let s1 : State := { s with ctxs := amSet s.ctxs 0 c }
    some (c, s1.savePages 0 c.save (segsEnd (s1.saveSegs im.teams im.warps im.publishes c.records)) false, s.everFits im,
      s1.placeAll 0 im im.teams.length im.teams [])

/-- Every CU of die 0 full. -/
def full : List (Nat × Cu) := (List.range 24).map fun c => (c, { grants := (List.range 16).map fun i => (262144 * i, 262144, 7) })

/-- The places the image's team gets, new or its own. -/
def newPlace : Place := { tn := 0, cu := 0, slots := [0], blocks := [917504], bays := [933888] }
def ownPlace : Place := { tn := 0, cu := 0, slots := [0], blocks := [0], bays := [16384] }

theorem test_witness_ContextRestores_places : (restores (stopped .preempted [(0, warp1)] goodRec true) (image1 [(0, warp1)])).map (fun q => q.2) =
      some (some ((List.range 13).map (4096 * ·)), true, some [newPlace]) ∧
    (image1 [(0, warp1)]).samePlaces = [ownPlace] ∧
    ((restores { stopped .preempted [(0, warp1)] goodRec true with cus := full } (image1 [(0, warp1)])).map fun q => (q.2.2.1, q.2.2.2)) =
      some (true, none) ∧
    ((restores (stopped .preempted [(0, warp1)] goodRec false) (image1 [(0, warp1)])).map fun q => q.2.2.1) = some false ∧
    ((restores { stopped .preempted [(0, warp1)] goodRec true with tlbDie := [(8, [page0])] } (image1 [(0, warp1)])).map fun q => q.2.1) = some none := by
  decide +kernel

theorem test_witness_ContextRestores : (image1 [(0, warp1)]).foreign = false ∧ (∀ p ∈ (List.range 13).map (4096 * ·), onChip (p + 4095) = false) ∧
    (∀ r ∈ saveRuns ((List.range 13).map (4096 * ·)) 53248, (stopped .halted [(0, warp1)] goodRec true).poisonIn r.1 r.2 = []) ∧
    Unviewed (stopped .halted [(0, warp1)] goodRec true) ∧ ∀ ps ∈ [[newPlace], [ownPlace]],
    SlotsApart (stopped .halted [(0, warp1)] goodRec true) ps ∧
    Bare { state := .halted, trapq := 1024, saved := some (image1 [(0, warp1)]) } (image1 [(0, warp1)]) := by
  refine ⟨rfl, by decide, by decide, unviewed rfl ⟨rfl, rfl⟩, fun ps h => ?_⟩
  simp only [SlotsApart, Bare]
  fin_cases h <;> exact ⟨by decide, by decide⟩

theorem test_witness_ContextRestores_refused : restores (stopped .preempted [(0, warp1)] [] true) (image1 [(0, warp1)]) = none ∧
    (stopped .preempted [(0, warp1)] goodRec true).firmwareOk = true ∧
    (∃ c, amGet (stopped .preempted [(0, warp1)] goodRec true).ctxs 0 = some c ∧ c.saved = some (image1 [(0, warp1)]) ∧ c.state ≠ .halted ∧
      c.restoring = false) ∧
    ∃ c, amGet (stopped .halted [(0, warp1)] goodRec true).ctxs 0 = some c ∧ c.saved = some (image1 [(0, warp1)]) ∧ c.state ≠ .preempted :=
  ⟨by decide +kernel, rfl, ⟨_, rfl, rfl, by decide, rfl⟩, _, rfl, rfl, by decide⟩

/-- Window 0 of die 0: a view of 4 KB of E4M3 codes at 4096, stored at 8192. -/
def viewed (x : Line) : State :=
  { one with windows := [(0, { fmt := 0x20, log2l := 0, size := 1, en := true, store := 8192, view := 4096 })], lines := [(64, x)] }

theorem test_witness_ViewLines : MemOk (viewed {}) ∧ onChip (64 * 64) = false ∧ ((viewed {}).line 64).inL2 = false ∧
    (∃ w, (viewed {}).viewOf (64 * 64) = some (w, 0) ∧ onChip (w.store + 0 / 2 + 31) = false ∧ ∀ j, j < 32 → lineOf (w.store + 0 / 2 + j) ≠ 64) ∧
    (viewed {}).lines.length < Config.sliceBytes (homeOf (64 * 64)) / 64 ∧ State.poisonAt { viewed {} with poison := [(8192, 7)] } 8192 4 ≠ [] ∧ (viewed {}).viewOf (63 * 64) = none ∧ ((viewed { inL2 := true }).line 64).inL2 = true ∧
    (amGet (viewed {}).lines 64).bind Line.view = none ∧
    ∃ x, amGet (viewed { inL2 := true, view := some (List.replicate 64 1, true) }).lines 64 = some x ∧ x.view = some (List.replicate 64 1, true) ∧
      (List.replicate 64 (1 : Byte)).length = 64 :=
  ⟨rfl, by decide, by decide, ⟨_, rfl, by decide, by decide⟩, by decide, by decide, by decide, by decide, by decide, _, rfl, rfl, rfl⟩

/-- A link. -/
def linked (n : Nat) (x : Link) : State := { one with links := [(n, x)], descs := [(5, { port := some 0 })] }

/-- A direction whose flit 3, kept at clock 90, has failed seven times. -/
def seven : Lane := { fails := 7, failSeq := 3, kept := [(3, 90)] }

theorem test_witness_LinkSteps : (amGetD (linked 0 { state := 1 }).links 0 {}).state ≠ 0 ∧ 
    (amGetD (linked 0 { out := seven }).links 0 {}).out.fails = 7 ∧ (amGetD (linked 0 { back := seven }).links 0 {}).back.fails = 7 ∧
    seven.failing 100 = 3 ∧ (amGetD (linked 0 { state := 2 }).links 0 {}).state = 2 ∧
    ((({ retrains := [90, 95] } : Link).retrains.filter fun t => decide (100 < t + 2 ^ 31)) ++ [100]).length = 3 ∧
    (∀ d ∈ (linked 16 {}).descs, d.2.port = some (16 - 16)) ∧
    (∀ a, a < 8 → State.cutOff { linked 0 {} with links := [(0, { state := 2 })] } a = false) ∧
    State.cutOff { linked 0 {} with links := [(0, { state := 2 }), (8, { state := 2 }), (7, { state := 2 })] } 0 = true ∧
    (amGetD (linked 0 {}).dies 0 {}).status ≠ 3 := by decide

/-- The small state with its context's team on CU 0, a line of another die that CU 0 owns, and a die in a state. -/
def failing (status : Nat) (x : Line) : State :=
  { one with
    dies := [(0, { status := 2, pooled := true }), (1, { status := status })]
    lines := [(2 ^ 30, x)] }

theorem test_witness_AgentFailures : (failing 2 { owner := some 0 }).mcas = [] ∧ ((failing 2 {}).cu (cuKey 0 0)).dead = false ∧ 0 < Config.cus 0 ∧
    (amGetD (failing 2 {}).dies 1 {}).status ≠ 3 ∧ (amGetD (failing 3 {}).dies 1 {}).status = 3 ∧
    homeOf (2 ^ 30 * 64) = 1 ∧ (failing 3 {}).contained (2 ^ 30 * 64) = true ∧ onChip (2 ^ 30 * 64) = false ∧ (failing 2 {}).probing (2 ^ 30) = false ∧
    (∃ c, amGet (failing 2 {}).ctxs 0 = some c ∧ c.state = .running ∧ ∃ t ∈ (failing 2 {}).ctxTeams 0, t.2.cu = 0) ∧
    (failing 2 {}).silent = false ∧ State.silent { failing 2 {} with cus := [(0, { mute := true })] } = true ∧
    ((failing 2 { recovering := true }).line (2 ^ 30)).recovering = true ∧ ((failing 2 { recovering := true }).line (2 ^ 30)).queue = [] :=
  ⟨rfl, by decide, by decide, by decide, by decide, by decide, by decide, by decide, by decide, ⟨_, rfl, rfl, _, List.mem_singleton.mpr rfl, rfl⟩, by decide,
    by decide, by decide, by decide⟩

/-- The death of a copy engine finds its copy; pages of a contained die and of a joined one may be re-homed. -/
theorem test_witness_AgentFailures_engine : (let s := copying (moving 6 none)
    s.mcas = [] ∧ 0 < Config.cus 0 ∧ (s.cu (cuKey 0 0)).dead = false ∧ (s.cu (cuKey 0 0)).engineDead = false ∧ (s.cu (cuKey 0 0)).copies = [5] ∧
      amGet s.copies 5 = some (moving 6 none) ∧ (moving 6 none).cu = cuKey 0 0 ∧ (moving 6 none).ks = some 4 ∧
      ∀ t, amGet s.teams 0 = some t → t.copies = [5]) ∧
    (amGetD (failing 2 {}).dies 1 {}).status = 2 ∧ Plain (failing 2 { recovering := true, owner := some 0 }) (2 ^ 30) ∧
    ((failing 2 { recovering := true }).line (2 ^ 30)).owner = none :=
  ⟨⟨rfl, by decide, rfl, rfl, rfl, rfl, rfl, rfl, fun t e => by cases e; rfl⟩, rfl, plain_of ⟨rfl, rfl, by decide⟩, rfl⟩

/-- The small state with its overlay loaded, at a clock, its strand last to issue at clock 0. -/
def alone0 (now : Nat) : State := { one with clock := now, cur := none, cus := [(0, { banks := [{ ctx := 0, dir := 0, ovl := 0, len := 1, code := [] }] })] }

/-- Of SlotAndEngineEvents, what no witness of IssueChoice, ResultsAndPeriods, MatrixStarts or MatrixFinish shows. -/
theorem test_witness_SlotAndEngineEvents : (∀ t ∈ [100, 400], ((alone0 t).updateHolders 0).startGathers 0 = alone0 t ∧ ((amGet (alone0 t).warps 0).bind Warp.holder) = some 0 ∧
      (alone0 t).readySlots 0 = [0]) ∧ (alone0 400).starved 0 = [0] ∧
    (∀ st ∈ [StrandState.barrier, .countWait, .statusWait, .atJoin], ∃ w, Stands (waiting st 36) 1 0 0 w ∧ (w.strand 0).fence = none ∧
      (w.strand 0).state ∈ [StrandState.barrier, .countWait, .statusWait, .atJoin] ∧ (waiting st 36).watchLimit ≤ (waiting st 36).clock - (w.strand 0).waitSince) ∧
    (∀ q ∈ [(0, op32 .broadcast 2), (1, second 0)], ∀ r ∈ [(0, op32 .broadcast 2), (1, second 0)], q.2.k = r.2.k ∧ q.2.ptrB = r.2.ptrB) := by
  refine ⟨fun t h => ?_, by decide, fun st h => ?_, by decide⟩
  · fin_cases h <;> exact ⟨rfl, rfl, by decide⟩
  · fin_cases h <;> exact ⟨_, ⟨rfl, rfl, by decide⟩, rfl, by decide, by decide⟩

/-! ### Effects of single steps: values of the spec's tables -/

/-- The strand with four lanes, registers as given in the lanes in turn, and the window's format word in k7. -/
def holding (regs : List (Nat × List Nat)) : State :=
  let s : State := { one with warps := [(0, { warp1 with k := [(7, 0x739)], table := { uid := 1, state := .ready, mask := 15 } :: List.replicate 7 {} })] }
  regs.foldl (fun s r => s.store (bankAddr 0 (128 * r.1)) (r.2.flatMap (toBytes 4))) s

/-- Register d of the lanes in turn after an instruction, and the flags it will raise. -/
def after1 (i : Instr) (s : State) (d n : Nat) : Option (List Nat × Flags) :=
  match exec i s with
  | .next t => some ((List.range n).map fun l => (t.word (bankAddr 0 (128 * d + 4 * l))).toNat,
      ((amGet t.warps 0).map fun w => w.pipe.foldl (fun f p => f ||| p.2.flags) 0).getD 0)
  | _ => none

/-- The table of R190. -/
theorem test_div_values : after1 (.idivS32 {} 0 5 4 16) (holding [(4, [0xFFFFFFF9, 5]), (5, [2, 0])]) 16 2 = some ([0xFFFFFFFD, 0xFFFFFFFF], 0) ∧
    after1 (.iremS32 {} 0 5 4 16) (holding [(4, [0xFFFFFFF9]), (5, [2])]) 16 1 = some ([0xFFFFFFFF], 0) ∧
    after1 (.idivN32 {} 0 5 4 16) (holding [(4, [0xFFFFFFF9]), (5, [2])]) 16 1 = some ([0x7FFFFFFC], 0) := by decide +kernel

/-- The table of R193. -/
theorem test_cvt_values : after1 (.cvt {} 1 8 5 4 2) (holding [(5, [0xC0490FDB])]) 4 1 = some ([0xFFFFFFFD], fNX) ∧
    after1 (.cvt {} 0 8 5 4 0) (holding [(5, [0x43960000])]) 4 1 = some ([0x7F], fNV ||| fNX) ∧
    after1 (.cvt {} 0 8 5 4 10) (holding [(5, [0x3F808000])]) 4 1 = some ([0x3F80], fNX) ∧
    after1 (.cvt {} 0 5 5 4 8) (holding [(5, [0xABCDFFFF])]) 4 1 = some ([0x477FFF00], 0) ∧
    after1 (.cvt {} 0 2 5 4 8) (holding [(5, [0x7FFFFFFF])]) 4 1 = some ([0x4F000000], fNX) ∧
    after1 (.cvt {} 1 2 5 4 8) (holding [(5, [0x7FFFFFFF])]) 4 1 = some ([0x4EFFFFFF], fNX) := by decide +kernel

/-- The examples of R196 and R140, of R202 and of R152. -/
theorem test_lane_examples : after1 (.nenc { ksel := some 7 } 5 4) (holding [(5, [0x41A80000])]) 4 1 = some ([0x5A], fNX) ∧
    after1 (.ndec { ksel := some 7 } 2 5 4) (holding [(5, [0x005A0000])]) 4 1 = some ([0x41A0], 0) ∧
    after1 (.redux {} 8 0 7 6) (holding [(7, [0x3F800000, 0x33800000, 0x33800000, 0x33800000])]) 6 4 =
      some ([0x3F800001, 0x3F800001, 0x3F800001, 0x3F800001], fNX) ∧
    after1 (.rng {} 0 5 4) (holding [(5, [1])]) 4 1 = some ([0xC80D83E3], 0) := by decide +kernel

/-- A shuffle reads every lane before any is written; a lane outside the active ones gives the lane's own value (R200). -/
theorem test_shuffle : after1 (.shflXor { imm := [1] } 0 126 4 4) (holding [(4, [1, 2, 3, 4])]) 4 4 = some ([2, 1, 4, 3], 0) ∧
    after1 (.shflDn { imm := [1] } 0 126 4 4) (holding [(4, [1, 2, 3, 4])]) 4 4 = some ([2, 3, 4, 4], 0) := by decide +kernel

/-- IADD wraps, reads D as a source, and leaves an inactive lane alone; IADD.s64 carries into the odd register (R188, R189). -/
theorem test_add : after1 (.iadd {} 0 4 4 4) (holding [(4, [0x80000001, 7, 8, 9, 10])]) 4 5 = some ([2, 14, 16, 18, 10], 0) ∧
    after1 (.iaddS64 {} 0 6 4 16) (holding [(4, [0xFFFFFFFF]), (5, [1]), (6, [1]), (7, [0])]) 17 1 = some ([2], 0) := by decide +kernel

/-- The compensated sum of R224's example: three adds of 2^-24 to 1.0. -/
theorem test_faddc : faddcNew 0x3F800000 0 0x33800000 = (0x3F800000, 0x33800000) ∧ faddcNew 0x3F800000 0x33800000 0x33800000 = (0x3F800000, 0x34000000) ∧
    faddcNew 0x3F800000 0x34000000 0x33800000 = (0x3F800000, 0x34400000) := by decide +kernel

/-- The strand at a branch at offset 0x120 of an overlay. -/
def branching : State := { one with
  warps := [(0, { warp1 with table := { uid := 1, state := .ready, mask := 1, pc := 0x120 } :: List.replicate 7 {} })]
  cus := [(0, { banks := [{ ctx := 0, dir := 0, ovl := 0, len := 0x200, code := [] }] })] }

/-- The branch of R183's table: OFF22 = -32 at 0x120 goes to 0x100. -/
theorem test_branch : (match exec (.bra {} 0x3FFFE0) branching with | .next t => (amGet t.warps 0).map (fun w => (w.strand 0).pc) | _ => none) =
    some 0x100 := by decide +kernel

/-- A step runs the group at the PC: NOP, of two halfwords, moves the PC by 2, and memory stays canonical. -/
def stepped : State := { one with cus := [(0, { banks := [{ ctx := 0, dir := 0, ovl := 0, len := 2, code := [(0, 15)] }] })] }

theorem test_witness_StepRunsDecoded : stepped.cur = some { warp := 0, entry := 0 } ∧ stepped.group 0 0 = .ok (.nop {}) 2 ∧ MemOk stepped ∧
    ∃ t, step stepped = .next t ∧ (amGet t.warps 0).map (fun w => (w.strand 0).pc) = some 2 ∧ t.cur = none :=
  ⟨rfl, by decide, rfl, _, rfl, by decide, rfl⟩

theorem test_reset_step : ∃ t, step State.reset = .next t ∧ MemOk State.reset := ⟨_, rfl, rfl⟩

/-- withFetchWord places the word that the next step runs. -/
theorem test_withFetchWord : ((State.reset.withFetchWord 32 0x7E0813F1).group 0 0 = .ok (.shflXor {} 0 126 4 4) 2) ∧
    decodeTableWord 32 0x0048D0BF = some (.trap {} 0x1234) := by decide

/-- A group with a KSEL, one and two IMMs; the first and last registers that a window maps. -/
theorem test_witness_OperandCodes : (∃ x r q, issOf (.iadd { ksel := some 254 } 0 126 119 0) one = some x ∧ x.w.reg x.st.fibre 0 = .ok r ∧
      x.w.reg x.st.fibre 119 = .ok q ∧ x.g.ksel = some 254) ∧
    (∃ x, issOf (.iadd { imm := [1] } 0 126 123 0) one = some x ∧ x.g.ksel = none ∧ x.g.imm = [1]) ∧
    ∃ x, issOf (.iadd { imm := [1, 2] } 0 126 120 0) one = some x ∧ x.g.ksel = none ∧ x.g.imm = [1, 2] :=
  ⟨⟨_, _, _, rfl, rfl, rfl, rfl⟩, ⟨_, rfl, rfl, rfl⟩, _, rfl, rfl, rfl⟩

theorem test_witness_TrapRecordFields : ∃ x, issOf (.trap {} 3) one = some x := ⟨_, rfl⟩

theorem test_witness_EncodeDecode : Instr.encoded (.plop {} 15 11 11 11) = true ∧ (Instr.plop {} 15 11 11 11).wf = true ∧
    Instr.encoded (.nop {}) = true ∧ (Instr.nop {}).wf = true := by decide

theorem test_witness_DecodeEncode : ∃ i n, decode (parcelHalves 0x7E0813F1 ++ [0]) = .ok i n := ⟨_, _, rfl⟩

/-- The state about to run a `~~NOP`. -/
def yielding : State := { one with cus := [(0, { banks := [{ ctx := 0, dir := 0, ovl := 0, len := 3, code := [(0, 0x1E), (1, 15)] }] })] }

theorem test_witness_NopResult : yielding.cur = some { warp := 0, entry := 0 } ∧ yielding.group 0 0 = .ok (.nop { sw := some true }) 3 ∧
    Meets yielding (fun x => decide (x.w.holder = some 0 ∧ x.w.vacated = false)) [.nop { sw := some true }] ∧
    ∃ x, issOf (.nop { pred := some (0, false) }) one = some x ∧ prefixFailure x.info x.g = none ∧ x.mask = 0 :=
  ⟨rfl, by decide, meets (by decide), _, rfl, rfl, by decide⟩

end Sys2Proof.Tests
end

/-! SUPPORT. What the lane instructions of one 32-bit result and of a predicate give, from what they answer; the decoding of a lone 32-bit
parcel; and IDIV, IREM, PLOP and P2V (R190, R198, R199). -/

namespace Sys2Proof.Stated

open Sys2Proof Sys2Proof.Machine

/-! ### Results of groups that pass -/

/-- An instruction that answers with the result of a lane instruction leaves what R184 says. -/
theorem lane_of_result {i : Instr} {d lat lb : Nat} {n : BitVec 1} {f : Iss → State → Nat → Word}
    (h : ∀ s, exec i s = issueP i s fun x s => x.result s d (decide (n = 1)) lat lb 0 (f x s)) : Lane i d n lat lb f := by
  intro s x hp
  exact ⟨_, (h s).trans (issueP_passes hp _), result_spec hp.group d _ lat lb 0 (f x s)⟩

/-- A lane instruction of two sources gives any operation that agrees with its own on every pair of words. -/
theorem of2_of_lane2 {i : Instr} {a b d : BitVec 7} {n : BitVec 1} {lat : Nat} {op f : Word → Word → Word}
    (h : ∀ s, exec i s = lane2 i s (decide (n = 1)) a.toNat b.toNat d.toNat lat op) (hf : ∀ u v, op u v = f u v) :
    Of2 i a b d n lat (if lat = 4 then 2 else lat) f := by
  obtain rfl : op = f := funext₂ hf
  exact lane_of_result h

/-- An instruction that answers with a predicate result leaves what R197 says. -/
theorem gives_predResult {i : Instr} {s : State} {x : Iss} {p : Nat} {f : Iss → State → Nat → Bool}
    (h : exec i s = issueP i s fun x s => x.predResult s p (f x s)) (hp : Passes i s x) :
    Gives i s fun t => PredResult x s t p (f x s) :=
  ⟨_, h.trans (issueP_passes hp _), predResult_spec hp.group p (f x s)⟩

/-! ### Division (R190) -/

/-- A word is the dividend -2^31 of R190's corner as soon as it reads so. -/
theorem eq_minInt {a : Word} (h : a.toInt = -(2 ^ 31)) : a = BitVec.ofInt 32 (-(2 ^ 31)) := by
  rw [← h, BitVec.ofInt_toInt]

theorem divS_quotient (a b : Word) : (divS a b).1 = quotient true a b := by
  unfold divS quotient
  by_cases hb : b = 0
  · rw [if_pos hb, if_pos hb]
    rfl
  · rw [if_neg hb, if_neg hb, if_pos rfl]
    by_cases hc : a.toInt = -(2 ^ 31) ∧ b.toInt = -1
    · rw [if_pos hc, ← eq_minInt hc.1]
      exact congrArg Prod.fst (if_pos hc)
    · rw [if_neg hc]
      exact congrArg Prod.fst (if_neg hc)

theorem divS_remainder (a b : Word) : (divS a b).2 = remainder true a b := by
  unfold divS remainder
  by_cases hb : b = 0
  · rw [if_pos hb, if_pos hb]
  · rw [if_neg hb, if_neg hb, if_pos rfl]
    by_cases hc : a.toInt = -(2 ^ 31) ∧ b.toInt = -1
    · rw [if_pos hc]
      exact congrArg Prod.snd (if_pos hc)
    · rw [if_neg hc]
      exact congrArg Prod.snd (if_neg hc)

theorem divN_quotient (a b : Word) : (divN a b).1 = quotient false a b := by
  unfold divN quotient
  split
  · rfl
  · simp

theorem divN_remainder (a b : Word) : (divN a b).2 = remainder false a b := by
  unfold divN remainder
  split
  · rfl
  · simp [Nat.mod_eq_sub_div_mul]

theorem exec_idivS32 (g : Pfx) (n : BitVec 1) (b a d : BitVec 7) (s : State) :
    exec (.idivS32 g n b a d) s = execIdivS32 g n b a d s := rfl

theorem exec_idivN32 (g : Pfx) (n : BitVec 1) (b a d : BitVec 7) (s : State) :
    exec (.idivN32 g n b a d) s = execIdivN32 g n b a d s := rfl

theorem exec_iremS32 (g : Pfx) (n : BitVec 1) (b a d : BitVec 7) (s : State) :
    exec (.iremS32 g n b a d) s = execIremS32 g n b a d s := rfl

theorem exec_iremN32 (g : Pfx) (n : BitVec 1) (b a d : BitVec 7) (s : State) :
    exec (.iremN32 g n b a d) s = execIremN32 g n b a d s := rfl

/-- Settles O15: the four forms are lane instructions of two sources, 16 clocks long, whose operations agree with R190 on every pair. -/
theorem divisionResults : Obligations.DivisionResults := fun g n a b d =>
  ⟨of2_of_lane2 (exec_idivS32 g n b a d) divS_quotient, of2_of_lane2 (exec_idivN32 g n b a d) divN_quotient,
    of2_of_lane2 (exec_iremS32 g n b a d) divS_remainder, of2_of_lane2 (exec_iremN32 g n b a d) divN_remainder⟩

/-! ### A lone 32-bit parcel (R165, R168, R181) -/

/-- Bits of a number that read as a field's value are that field. -/
theorem fld_eq {w lo len : Nat} (x : BitVec len) (h : w / 2 ^ lo % 2 ^ len = x.toNat) : fld w lo len = x :=
  BitVec.eq_of_toNat_eq h

/-- What a group of one 32-bit parcel and no prefix decodes to (R181): the parcel's instruction, or its class-1 code. -/
def ofLoneParcel (w : Nat) : Parcel → Decoded
  | .ok i => .ok i 2
  | .bad c => .trap c 0 w

/-- The two halfwords of an odd word below 2^32: the first starts no prefix and no compact parcel, and together they are the word. -/
theorem decode_parcelHalves {w : Nat} (h32 : w < 2 ^ 32) (odd : w % 2 = 1) :
    decode (parcelHalves w) = ofLoneParcel w (parcel32 {} w) := by
  have whole : (BitVec.ofNat 16 w).toNat + 65536 * (BitVec.ofNat 16 (w / 65536)).toNat = w := by
    simp only [BitVec.toNat_ofNat]
    omega
  rw [parcelHalves, decode, decodeFrom, if_neg (by omega), if_neg (by omega)]
  simp only [whole]
  cases parcel32 {} w <;> rfl

/-- A parcel of class VX whose fields are those of an instruction reads as it where they hold what the maps admit, and is code 2
otherwise (R173, R181). -/
theorem parcel32_vx {g : Pfx} {w : Nat} {i : Instr} (cls : w / 2 % 8 = 3) (h : parcelVX g w (w / 2 ^ 4 % 64) = .ok i) :
    parcel32 g w = if i.fieldsOk then .ok i else .bad 2 := by
  have n0 : w / 2 % 8 ≠ 0 := by omega
  have n1 : w / 2 % 8 ≠ 1 := by omega
  have n2 : w / 2 % 8 ≠ 2 := by omega
  simp only [parcel32, if_neg n0, if_neg n1, if_neg n2, if_pos cls, h]

/-! ### Predicate logic (R198) -/

/-- The parcel of PLOP, field by field as R198 places them. -/
theorem parcel32_plop {g : Pfx} {w : Nat} (f b a p : BitVec 4)
    (h : w = 7 + 5 * 2 ^ 4 + p.toNat * 2 ^ 10 + a.toNat * 2 ^ 14 + b.toNat * 2 ^ 21 + f.toNat * 2 ^ 28) :
    parcel32 g w = if (Instr.plop g f b a p).fieldsOk then .ok (.plop g f b a p) else .bad 2 := by
  have hb := b.isLt
  have ha := a.isLt
  have hp := p.isLt
  have hf := f.isLt
  have op : w / 2 ^ 4 % 64 = 5 := by omega
  have zeros : w / 2 ^ 18 % 8 = 0 ∧ w / 2 ^ 25 % 8 = 0 := by omega
  have ef : fld w 28 4 = f := fld_eq f (by omega)
  have eb : fld w 21 4 = b := fld_eq b (by omega)
  have ea : fld w 14 4 = a := fld_eq a (by omega)
  have ep : fld w 10 4 = p := fld_eq p (by omega)
  refine parcel32_vx (by omega) ?_
  rw [op, ← ef, ← eb, ← ea, ← ep]
  exact if_pos zeros

/-- A predicate's value as the digit of a truth table's row. -/
theorem digit_eq_toNat (c : Bool) : (if c = true then 1 else 0) = c.toNat := by
  cases c <;> rfl

theorem exec_plop (g : Pfx) (f b a p : BitVec 4) (s : State) :
    exec (.plop g f b a p) s = issueP (.plop g f b a p) s fun x s =>
      x.predResult s p.toNat fun l => f.getLsbD (2 * (holds x a l).toNat + (holds x b l).toNat) := by
  change execPlop g f b a p s = _
  simp only [execPlop, digit_eq_toNat, holds]

theorem decode_plop (f b a p : BitVec 4) (wf : (Instr.plop {} f b a p).wf = true) :
    decode (parcelHalves (7 + 5 * 2 ^ 4 + p.toNat * 2 ^ 10 + a.toNat * 2 ^ 14 + b.toNat * 2 ^ 21 + f.toNat * 2 ^ 28)) =
      .ok (.plop {} f b a p) 2 := by
  have fields : (Instr.plop {} f b a p).fieldsOk = true := (Bool.and_eq_true_iff.mp wf).2
  rw [decode_parcelHalves (by omega) (by omega), parcel32_plop f b a p rfl, if_pos fields]
  rfl

/-- Settles O21: the word's fields are PLOP's, and the group gives the truth table's bit for the predicates as they stand at its issue. -/
theorem plopResult : Obligations.PlopResult :=
  ⟨decode_plop, fun g f b a p s _ hp => gives_predResult (exec_plop g f b a p s) hp⟩

/-! ### A predicate as a word (R199) -/

/-- The parcel of P2V, field by field as R199 places them. -/
theorem parcel32_p2v {g : Pfx} {w : Nat} (p : BitVec 4) (d : BitVec 7)
    (h : w = 7 + 0x3A * 2 ^ 4 + d.toNat * 2 ^ 10 + 124 * 2 ^ 17 + p.toNat * 2 ^ 24) :
    parcel32 g w = if (Instr.p2v g p d).fieldsOk then .ok (.p2v g p d) else .bad 2 := by
  have hp := p.isLt
  have hd := d.isLt
  have op : w / 2 ^ 4 % 64 = 58 := by omega
  have fixed : w / 2 ^ 17 % 128 = 124 ∧ w / 2 ^ 28 % 16 = 0 := by omega
  have ep : fld w 24 4 = p := fld_eq p (by omega)
  have ed : fld w 10 7 = d := fld_eq d (by omega)
  refine parcel32_vx (by omega) ?_
  rw [op, ← ep, ← ed]
  exact if_pos fixed

/-- P2V admits the predicates 0 to 11 (R170). -/
theorem p2v_fieldsOk (g : Pfx) (p : BitVec 4) {d : BitVec 7} (hd : dstOk d = true) :
    (Instr.p2v g p d).fieldsOk = decide (p.toNat < 12) := by
  rw [Instr.fieldsOk, hd, Bool.and_true, predOk]

theorem decode_p2v (p : BitVec 4) {d : BitVec 7} (hd : dstOk d = true) :
    let w := 7 + 0x3A * 2 ^ 4 + d.toNat * 2 ^ 10 + 124 * 2 ^ 17 + p.toNat * 2 ^ 24
    decode (parcelHalves w) = if p.toNat < 12 then .ok (.p2v {} p d) 2 else .trap 2 0 w := by
  intro w
  rw [decode_parcelHalves (by omega) (by omega), parcel32_p2v p d rfl, p2v_fieldsOk {} p hd]
  by_cases h : p.toNat < 12 <;> simp only [h, decide_true, decide_false, if_true, if_false, Bool.false_eq_true, ofLoneParcel]

theorem exec_p2v (g : Pfx) (p : BitVec 4) (d : BitVec 7) (s : State) : exec (.p2v g p d) s = execP2v g p d s := rfl

/-- Settles O22: the word reads as P2V where AUX names a predicate and is code 2 where it does not, and the group writes the predicate's
value as it stands at its issue. -/
theorem p2vResult : Obligations.P2vResult :=
  ⟨fun p _ hd => ⟨fun h => (decode_p2v p hd).trans (if_pos h), fun h => ⟨_, (decode_p2v p hd).trans (if_neg (Nat.not_lt.mpr h))⟩⟩,
    fun g p d => lane_of_result (exec_p2v g p d)⟩

end Sys2Proof.Stated

/-! SUPPORT. What the bookkeeping around an issue leaves alone (R80, R119, R182, R236): memory, requests, and of the warp everything but the
bookkeeping itself; and NOP with the pure yield (R257). -/

namespace Sys2Proof.Machine

/-! ### Operations that concern no warp (R21, R105, R236, R305) -/

/-- The part of a state that messages, translations, overlay requests and gathers leave alone: memory, requests and warps. -/
def State.frame (s : State) : List Host.Cell × AMap Req × AMap Warp := (s.mem, s.reqs, s.warps)

@[simp] theorem frame_after (s : State) (d prio : Nat) (ev : Instr) : (s.after d prio ev).frame = s.frame := rfl

@[simp] theorem frame_bump (s : State) : s.bump.frame = s.frame := rfl

@[simp] theorem frame_setOvls (s : State) (o : AMap OvlLoad) : ({ s with ovls := o } : State).frame = s.frame := rfl

@[simp] theorem frame_sendFlits (s : State) (ctx a b n : Nat) (favoured must : Bool) (delay : Nat) :
    (s.sendFlits ctx a b n favoured must delay).1.frame = s.frame := by
  obtain ⟨_, _, _, _, h⟩ := sendFlits_eq s ctx a b n favoured must delay
  rw [h]
  rfl

@[simp] theorem frame_sendRound (s : State) (ctx site a n : Nat) (favoured : Bool) : (s.sendRound ctx site a n favoured).1.frame = s.frame := by
  simp only [State.sendRound, frame_sendFlits]

@[simp] theorem frame_startWalks (n : Nat) (s : State) : (s.startWalks n).frame = s.frame := by
  induction n generalizing s with
  | zero => rfl
  | succ n ih =>
    unfold State.startWalks
    split
    · rfl
    · split
      · exact ih _
      · rfl

@[simp] theorem frame_newWalk (s : State) (favoured : Bool) (w : Walk) : (s.newWalk favoured w).frame = s.frame := by
  unfold State.newWalk
  refine (frame_startWalks 1 _).trans ?_
  by_cases die : w.site < 8
  · simp only [if_pos die]
    exact frame_sendFlits ..
  · simp only [if_neg die]
    rfl

@[simp] theorem frame_cache (s : State) (slot : Option Nat) (site : Nat) (t : Tlb) : (s.cache slot site t).frame = s.frame := by
  cases slot <;> rfl

@[simp] theorem frame_translate (s : State) (favoured : Bool) (site ctx va : Nat) : (s.translate favoured site ctx va).1.frame = s.frame := by
  unfold State.translate State.askTrans
  split
  · exact frame_cache ..
  · rfl
  · exact frame_newWalk ..

@[simp] theorem frame_sendRead (s : State) (favoured sup fetch : Bool) (site ctx va n : Nat) :
    (s.sendRead favoured sup fetch site ctx va n).1.frame = s.frame := by
  unfold State.sendRead
  split
  · exact (frame_sendRound ..).trans (frame_translate ..)
  · exact frame_translate ..

@[simp] theorem frame_requestOverlay (s : State) (favoured : Bool) (ctx cu dir ovl : Nat) :
    (s.requestOverlay favoured ctx cu dir ovl).1.frame = s.frame := by
  unfold State.requestOverlay
  split
  · rfl
  · simp only [frame_bump, frame_after, frame_setOvls, frame_sendRead]

@[simp] theorem frame_headGather (s : State) (cu : Nat) : (s.headGather cu).frame = s.frame := by
  unfold State.headGather
  split
  · rfl
  · split <;> rfl

@[simp] theorem frame_endGather (s : State) (cu uid : Nat) : (s.endGather cu uid).frame = s.frame := by
  unfold State.endGather
  dsimp only
  split
  · split
    · exact frame_headGather ..
    · rfl
  · rfl

@[simp] theorem frame_dropGather (s : State) (cu uid : Nat) : (s.dropGather cu uid).frame = s.frame := by
  unfold State.dropGather
  split
  · exact frame_endGather ..
  · rfl

/-! ### Strands of a warp -/

theorem strand_set_ne (w : Warp) (st : Strand) {e a : Nat} (h : a ≠ e) : (w.setStrand e st).strand a = w.strand a := by
  simp only [Warp.setStrand, Warp.strand, List.getD_eq_getElem?_getD, List.getElem?_set_ne (Ne.symm h)]

theorem strand_modStrand_ne (w : Warp) (f : Strand → Strand) {e a : Nat} (h : a ≠ e) : (w.modStrand e f).strand a = w.strand a :=
  strand_set_ne w _ h

theorem strand_modStrand_self (w : Warp) (f : Strand → Strand) {e : Nat} (h : e < w.table.length) :
    (w.modStrand e f).strand e = f (w.strand e) := strand_set w _ h

/-- A place past the end of the table reads as a free strand, whatever is done to it. -/
theorem strand_modStrand_past (w : Warp) (f : Strand → Strand) {e : Nat} (h : w.table.length ≤ e) (a : Nat) :
    (w.modStrand e f).strand a = w.strand a := by
  simp only [Warp.modStrand, Warp.setStrand, List.set_eq_of_length_le h]

/-! ### Bookkeeping of a warp -/

/-- A strand's PC, mask and latches are as before. -/
def Strand.Same (a b : Strand) : Prop := b.pc = a.pc ∧ b.mask = a.mask ∧ b.latches = a.latches

theorem Strand.Same.refl (a : Strand) : a.Same a := ⟨rfl, rfl, rfl⟩

theorem Strand.Same.trans {a b c : Strand} (h : a.Same b) (g : b.Same c) : a.Same c :=
  ⟨g.1.trans h.1, g.2.1.trans h.2.1, g.2.2.trans h.2.2⟩

/-- A warp's k registers, predicates and flags, and the PC, mask and latches of each of its strands, are as before. -/
structure Warp.Same (w v : Warp) : Prop where
  k : v.k = w.k
  fibres : v.fibres = w.fibres
  strands : ∀ a, (w.strand a).Same (v.strand a)

theorem Warp.Same.refl (w : Warp) : w.Same w := ⟨rfl, rfl, fun _ => .refl _⟩

theorem Warp.Same.trans {u v w : Warp} (h : u.Same v) (g : v.Same w) : u.Same w :=
  ⟨g.k.trans h.k, g.fibres.trans h.fibres, fun a => (h.strands a).trans (g.strands a)⟩

theorem same_modStrand (w : Warp) (e : Nat) {f : Strand → Strand} (hf : ∀ st : Strand, st.Same (f st)) : w.Same (w.modStrand e f) := by
  refine ⟨rfl, rfl, fun a => ?_⟩
  by_cases ha : a = e
  · subst ha
    by_cases h : a < w.table.length
    · rw [strand_modStrand_self w f h]
      exact hf _
    · rw [strand_modStrand_past w f (Nat.le_of_not_lt h)]
      exact .refl _
  · rw [strand_modStrand_ne w f ha]
    exact .refl _

/-- A change of each strand of the table by itself, and of the parked paths. -/
theorem same_mapTable (w : Warp) (o : List Parked) {f : Strand → Strand} (hf : ∀ st : Strand, st.Same (f st)) :
    w.Same { w with table := w.table.map f, overflow := o } := by
  refine ⟨rfl, rfl, fun a => ?_⟩
  by_cases h : a < w.table.length
  · have here : ({ w with table := w.table.map f, overflow := o } : Warp).strand a = f (w.strand a) := by simp [Warp.strand, h]
    rw [here]
    exact hf _
  · have past : ({ w with table := w.table.map f, overflow := o } : Warp).strand a = w.strand a := by simp [Warp.strand, h]
    rw [past]
    exact .refl _

/-- Only bookkeeping of a warp slot's warp differs between two states: memory and requests are as before, and the warp in the sense of
Warp.Same. -/
structure Bookkept (k : Nat) (s t : State) : Prop where
  mem : t.mem = s.mem
  reqs : t.reqs = s.reqs
  warp : ∀ w, amGet s.warps k = some w → ∃ v, amGet t.warps k = some v ∧ w.Same v

theorem Bookkept.refl (k : Nat) (s : State) : Bookkept k s s := ⟨rfl, rfl, fun w hw => ⟨w, hw, .refl w⟩⟩

theorem Bookkept.trans {k : Nat} {s t u : State} (h : Bookkept k s t) (g : Bookkept k t u) : Bookkept k s u := by
  refine ⟨g.mem.trans h.mem, g.reqs.trans h.reqs, fun w hw => ?_⟩
  obtain ⟨v, hv, wv⟩ := h.warp w hw
  obtain ⟨z, hz, vz⟩ := g.warp v hv
  exact ⟨z, hz, wv.trans vz⟩

theorem bookkept_of_frame (k : Nat) {s t : State} (h : t.frame = s.frame) : Bookkept k s t := by
  obtain ⟨mem, reqs, warps⟩ : t.mem = s.mem ∧ t.reqs = s.reqs ∧ t.warps = s.warps := by simpa [State.frame] using h
  exact ⟨mem, reqs, fun w hw => ⟨w, warps ▸ hw, .refl w⟩⟩

theorem bookkept_modWarp (s : State) (k : Nat) {f : Warp → Warp} (hf : ∀ w : Warp, w.Same (f w)) : Bookkept k s (s.modWarp k f) :=
  ⟨rfl, rfl, fun w hw => ⟨f w, by rw [State.modWarp_warps, amGet_amMod, hw, Option.map_some], hf w⟩⟩

theorem bookkept_modStrand (s : State) (k e : Nat) {f : Strand → Strand} (hf : ∀ st : Strand, st.Same (f st)) : Bookkept k s (s.modStrand k e f) :=
  bookkept_modWarp s k fun w => same_modStrand w e hf

theorem bookkept_hold (s : State) (k a : Nat) : Bookkept k s (s.modWarp k fun w => w.hold a) :=
  bookkept_modWarp s k fun _ => ⟨rfl, rfl, fun _ => .refl _⟩

theorem bookkept_wantOverlay (s : State) (k e : Nat) : Bookkept k s (s.wantOverlay k e) := by
  unfold State.wantOverlay
  split
  · dsimp only
    split
    · exact (bookkept_of_frame k (frame_requestOverlay ..)).trans (bookkept_modStrand _ k e fun _ => ⟨rfl, rfl, rfl⟩)
    · exact .refl k s
  · exact .refl k s

theorem bookkept_markPast (s : State) (k uid : Nat) (pc : BitVec 23) (i : Instr) : Bookkept k s (s.markPast k uid pc i) := by
  refine bookkept_modWarp s k fun w => same_mapTable w _ fun st => ?_
  split <;> exact ⟨rfl, rfl, rfl⟩

/-- The note of an issue keeps the holder too. -/
theorem noteIssue_warp (s : State) {k : Nat} {w : Warp} (e uid : Nat) (pc : BitVec 23) (parcel : Nat) (hw : amGet s.warps k = some w) :
    ∃ v, amGet (s.noteIssue k e uid pc parcel).warps k = some v ∧ w.Same v ∧ v.holder = w.holder ∧ v.vacated = w.vacated := by
  unfold State.noteIssue
  split
  · exact ⟨w, hw, .refl w, rfl, rfl⟩
  · have noted : ∀ st : Strand, st.Same (if st.live && st.mine uid then
        { st with lastIssue := s.clock, walked := if st.state = .ready then [] else st.walked, parcel := parcel } else st) :=
      fun st => by split <;> exact ⟨rfl, rfl, rfl⟩
    obtain ⟨kept, fibres, strands⟩ := same_modStrand w e noted
    exact ⟨_, (amGet_amMod s.warps k _).trans (congrArg _ hw), ⟨kept, fibres, strands⟩, rfl, rfl⟩

theorem noteIssue_rest (s : State) (k e uid : Nat) (pc : BitVec 23) (parcel : Nat) :
    (s.noteIssue k e uid pc parcel).mem = s.mem ∧ (s.noteIssue k e uid pc parcel).reqs = s.reqs := by
  unfold State.noteIssue
  split <;> exact ⟨rfl, rfl⟩

/-! ### The yield (R80, R118, R293, R294) -/

/-- What a yield of strand e leaves of its warp: as bookkeeping does, but that e's latches are invalid. -/
structure Warp.Yields (e : Nat) (w v : Warp) : Prop where
  k : v.k = w.k
  fibres : v.fibres = w.fibres
  place : ∀ a, (v.strand a).pc = (w.strand a).pc ∧ (v.strand a).mask = (w.strand a).mask
  dropped : ∀ l ∈ (v.strand e).latches, l.valid = false
  others : ∀ a, a ≠ e → (v.strand a).latches = (w.strand a).latches

theorem dropLatches_valid (st : Strand) : ∀ l ∈ st.dropLatches.latches, l.valid = false := by
  simp [Strand.dropLatches]

/-- Also past the end of the table, where a free strand's latches are invalid already. -/
theorem strand_modStrand_dropLatches (w : Warp) (e : Nat) : (w.modStrand e Strand.dropLatches).strand e = (w.strand e).dropLatches := by
  by_cases h : e < w.table.length
  · exact strand_modStrand_self w _ h
  · have free : w.strand e = {} := List.getD_eq_default _ _ (Nat.le_of_not_lt h)
    rw [strand_modStrand_past w _ (Nat.le_of_not_lt h), free]
    rfl

theorem yields_modStrand_dropLatches (w : Warp) (e : Nat) : w.Yields e (w.modStrand e Strand.dropLatches) where
  k := rfl
  fibres := rfl
  place a := by
    by_cases ha : a = e
    · rw [ha, strand_modStrand_dropLatches]
      exact ⟨rfl, rfl⟩
    · rw [strand_modStrand_ne w _ ha]
      exact ⟨rfl, rfl⟩
  dropped := by
    rw [strand_modStrand_dropLatches]
    exact dropLatches_valid _
  others a ha := by rw [strand_modStrand_ne w _ ha]

theorem Warp.Same.yields {e : Nat} {u w v : Warp} (h : u.Same w) (g : w.Yields e v) : u.Yields e v where
  k := g.k.trans h.k
  fibres := g.fibres.trans h.fibres
  place a := ⟨(g.place a).1.trans (h.strands a).1, (g.place a).2.trans (h.strands a).2.1⟩
  dropped := g.dropped
  others a ha := (g.others a ha).trans (h.strands a).2.2

theorem Warp.Yields.same {e : Nat} {u w v : Warp} (h : u.Yields e w) (g : w.Same v) : u.Yields e v where
  k := g.k.trans h.k
  fibres := g.fibres.trans h.fibres
  place a := ⟨(g.strands a).1.trans (h.place a).1, (g.strands a).2.1.trans (h.place a).2⟩
  dropped := (g.strands e).2.2 ▸ h.dropped
  others a ha := (g.strands a).2.2.trans (h.others a ha)

/-- The yield of a warp slot's holder drops its latches; handing the slot on is bookkeeping. -/
theorem yieldTurn_holder {s : State} {k e : Nat} {w : Warp} (hw : amGet s.warps k = some w) (holds : w.holder = some e)
    (stays : w.vacated = false) : Bookkept k (s.modStrand k e Strand.dropLatches) (s.yieldTurn k e) := by
  have turn : ¬ (w.vacated = true ∨ w.holder ≠ some e) := by simp [holds, stays]
  simp only [State.yieldTurn, hw, if_neg turn]
  split
  · exact bookkept_hold ..
  · exact .refl ..

/-- What follows the issue of a `~~` group by a holder that its effect leaves holder: nothing but its yield and bookkeeping. -/
theorem afterIssue_yields {s s' : State} {k e : Nat} {w : Warp} (pc : BitVec 23) {i : Instr} (issued : s.issuedFrom s' k = true)
    (sw : i.pfx.sw = some true) (hw : amGet s'.warps k = some w) (holds : w.holder = some e) (stays : w.vacated = false) :
    (s.afterIssue s' k e pc i).mem = s'.mem ∧ (s.afterIssue s' k e pc i).reqs = s'.reqs ∧
      ∃ v, amGet (s.afterIssue s' k e pc i).warps k = some v ∧ w.Yields e v := by
  simp only [State.afterIssue, issued, if_true, sw, true_or]
  generalize ((amGet s.warps k).map fun w => (w.strand e).uid).getD 0 = uid
  obtain ⟨mem1, reqs1⟩ := noteIssue_rest s' k e uid pc i.word
  obtain ⟨w1, hw1, same1, holder1, vacated1⟩ := noteIssue_warp s' e uid pc i.word hw
  generalize s'.noteIssue k e uid pc i.word = s1 at mem1 reqs1 hw1 ⊢
  have turn := yieldTurn_holder hw1 (holder1.trans holds) (vacated1.trans stays)
  have marked : ∀ st : Strand, st.Same (if st.mine uid then { st with stopped := decide (pcOvl st.pc ≠ pcOvl pc ∨ st.pc.toNat < pc.toNat) } else st) :=
    fun st => by split <;> exact ⟨rfl, rfl, rfl⟩
  have rest := (((turn.trans (bookkept_modStrand _ k e marked)).trans (bookkept_markPast _ k uid pc i)).trans
    (bookkept_wantOverlay _ k e)).trans (bookkept_of_frame k (frame_dropGather _ (warpCu k) uid))
  obtain ⟨v, hv, same⟩ := rest.warp _ ((amGet_amMod s1.warps k _).trans (congrArg _ hw1))
  exact ⟨rest.mem.trans mem1, rest.reqs.trans reqs1, v, hv, (same1.yields (yields_modStrand_dropLatches w1 e)).same same⟩

/-! ### NOP (R257) -/

theorem exec_nop (g : Pfx) (s : State) : exec (.nop g) s = issueP (.nop g) s fun x s => x.advance s := rfl

/-- A group with no active lane fails no check but that of its prefixes (R333). -/
theorem check_empty {x : Iss} (s : State) (prefixes : prefixFailure x.info x.g = none) (empty : x.mask = 0) : x.check s = none := by
  simp only [Iss.check, prefixes, empty, if_true]

theorem nop_passes {g : Pfx} {s : State} {x : Iss} (h : Passes (.nop g) s x) : exec (.nop g) s = .next (x.advance s) :=
  (exec_nop g s).trans (issueP_passes h _)

theorem nop_empty {g : Pfx} {s : State} {x : Iss} (h : issOf (.nop g) s = some x) (prefixes : prefixFailure x.info x.g = none)
    (empty : x.mask = 0) : exec (.nop g) s = .next (x.advance s) := by
  obtain ⟨-, -, -, -, -, info, -⟩ := issOf_some h
  have noDst : x.info.dst = none := congrArg Info.dst info
  exact (exec_nop g s).trans (issue_empty h (check_empty s prefixes empty) empty noDst _)

end Sys2Proof.Machine

namespace Sys2Proof.Stated

open Sys2Proof Sys2Proof.Machine

/-- With an active lane or none, NOP moves its strand past it and does nothing else. -/
theorem gives_nop {g : Pfx} {s : State} {x : Iss}
    (h : Passes (.nop g) s x ∨ (issOf (.nop g) s = some x ∧ prefixFailure x.info x.g = none ∧ x.mask = 0)) :
    Gives (.nop g) s fun t => MovedTo x s t x.next := by
  rcases h with passes | ⟨group, prefixes, empty⟩
  · exact ⟨_, nop_passes passes, advance_on passes.group⟩
  · exact ⟨_, nop_empty group prefixes empty, advance_on group⟩

/-- The step of a group that the chosen strand issues is its effect and what surrounds it. -/
theorem step_group {i : Instr} {n : Nat} {s u : State} {x : Iss} (group : issOf i s = some x) (fetched : s.group x.k x.e = .ok i n)
    (effect : exec i s = .next u) : step s = .next { s.afterIssue u x.k x.e x.st.pc i with cur := none } := by
  obtain ⟨cur, warp, strand, -⟩ := issOf_some group
  simp only [step, cur, stepGroup, fetched, effect, afterExec, warp, strand, Option.map_some, Option.getD_some]

/-- The step of a `~~` group that only moves its holder to a PC is a pure yield: memory and requests are as before, and the warp is that
after the move, with the holder's latches dropped. -/
theorem step_yields {i : Instr} {n : Nat} {s u : State} {x : Iss} {pc : BitVec 23} (group : issOf i s = some x)
    (fetched : s.group x.k x.e = .ok i n) (effect : exec i s = .next u) (moved : MovedTo x s u pc) (sw : i.pfx.sw = some true)
    (holds : x.w.holder = some x.e) (stays : x.w.vacated = false) :
    ∃ t v, step s = .next t ∧ t.mem = s.mem ∧ t.reqs = s.reqs ∧ amGet t.warps x.k = some v ∧
      (x.w.setStrand x.e { x.on with pc := pc }).Yields x.e v := by
  have tried : u.tried = s.tried := by rw [moved]
  have issued : s.issuedFrom u x.k = true := by simp [State.issuedFrom, tried]
  have warp : amGet u.warps x.k = some (x.w.setStrand x.e { x.on with pc := pc }) := by
    rw [moved]
    exact amGet_amSet_self ..
  obtain ⟨mem, reqs, v, hv, yields⟩ := afterIssue_yields x.st.pc issued sw warp holds stays
  exact ⟨_, v, step_group group fetched effect, mem.trans (by rw [moved]), reqs.trans (by rw [moved]), hv, yields⟩

/-- Settles O39: the words decode by evaluation, the group moves its strand alone, and the step of `~~NOP` adds to that move the yield of
its holder and bookkeeping. -/
theorem nopResult : Obligations.NopResult := by
  refine ⟨by decide, by decide, by decide, fun g s x h => gives_nop h, ?_⟩
  intro g n s x c cur fetched passes sw holds stays
  have group := passes.group
  obtain rfl : c = { warp := x.k, entry := x.e } := Option.some.inj (cur.symm.trans (issOf_some group).1)
  obtain ⟨t, v, stepped, mem, reqs, hv, yields⟩ :=
    step_yields group fetched (nop_passes passes) (advance_on group) sw holds stays
  obtain ⟨pc, mask⟩ := yields.place x.e
  rw [strand_set x.w _ (entry_lt group)] at pc mask
  refine ⟨t, v, stepped, mem, reqs, hv, yields.k, yields.fibres, pc, mask, yields.dropped, fun a ha => ?_⟩
  have untouched : (x.w.setStrand x.e { x.on with pc := x.next }).strand a = x.w.strand a := strand_set_ne x.w _ ha
  exact ⟨(yields.place a).1.trans (by rw [untouched]), (yields.others a ha).trans (by rw [untouched])⟩

end Sys2Proof.Stated

/-! SUPPORT. What a split makes of its warp (R71, R76, R297): the caches that give up room leave the warps alone, the first child stands in
the strand's place, and each later child enters the table or parked. -/

namespace Sys2Proof.Machine

/-! ### Caches that give up lines (R16, R26, R76, R143) -/

@[simp] theorem warps_writebackLine (s : State) (l : Nat) : (s.writebackLine l).warps = s.warps := by
  unfold State.writebackLine
  split
  · dsimp only
    split
    · exact foldl_same State.warps _ _ _ fun u i => by split <;> rfl
    · rfl
  · rfl

@[simp] theorem warps_evictLine (s : State) (l : Nat) : (s.evictLine l).warps = s.warps := by
  unfold State.evictLine
  dsimp only
  split
  · split <;> exact warps_writebackLine s l
  · exact warps_writebackLine s l

@[simp] theorem warps_makeRoom (s : State) (l : Nat) : (s.makeRoom l).warps = s.warps := by
  unfold State.makeRoom
  dsimp only
  split
  · rfl
  · split
    · rfl
    · exact warps_evictLine ..

@[simp] theorem warps_fillLine (s : State) (l : Nat) : (s.fillLine l).warps = s.warps := by
  unfold State.fillLine
  split
  · rfl
  · split
    · rfl
    · dsimp only
      split
      · exact (foldl_same State.warps _ _ _ fun u i => by split <;> rfl).trans (warps_makeRoom s l)
      · exact warps_makeRoom s l

@[simp] theorem warps_giveUp (s : State) (cu l : Nat) : (s.giveUp cu l).warps = s.warps := by
  unfold State.giveUp
  dsimp only
  split
  · exact warps_fillLine ..
  · rfl

@[simp] theorem warps_trimL1 (s : State) (cu n f : Nat) : (s.trimL1 cu n f).warps = s.warps := by
  induction f generalizing s with
  | zero => rfl
  | succ f ih =>
    unfold State.trimL1
    dsimp only
    split
    · rfl
    · exact (ih _).trans (warps_giveUp ..)

@[simp] theorem warps_fitL1 (s : State) (cu : Nat) : (s.fitL1 cu).warps = s.warps := by
  unfold State.fitL1
  split
  · rfl
  · exact warps_trimL1 ..

/-! ### The lowest free token and entry (R67, R71) -/

theorem freeToken_eq {f : Fibre} {t : Nat} (low : 1 ≤ t) (high : t ≤ 15) (free : amGet f.tokens t = none)
    (least : ∀ j, 1 ≤ j → j < t → amGet f.tokens j ≠ none) : f.freeToken = some t := by
  refine List.find?_range'_eq_some.mpr ⟨by simp [free], by simp; omega, fun j hj hjt => ?_⟩
  simpa [Option.isSome_iff_ne_none] using least j hj hjt

theorem freeEntry_eq {w : Warp} {e : Nat} (high : e < 8) (free : (w.strand e).live = false)
    (least : ∀ j, j < e → (w.strand j).live = true) : w.freeEntry = some e := by
  refine List.find?_range_eq_some.mpr ⟨by simp [free], List.mem_range.mpr high, fun j hj => ?_⟩
  simp [least j hj]

theorem freeEntry_none {w : Warp} (full : ∀ e, e < 8 → (w.strand e).live = true) : w.freeEntry = none := by
  refine List.find?_eq_none.mpr fun e he => ?_
  simp [full e (List.mem_range.mp he)]

theorem freeEntry_free {w : Warp} {e : Nat} (h : w.freeEntry = some e) : (w.strand e).live = false := by
  simpa using List.find?_some h

/-! ### A strand in the place of another (R71) -/

/-- A quantity in which a strand agrees with the one whose place it takes is as before in every place. -/
theorem strand_setStrand_agree {α : Type} (q : Strand → α) (w : Warp) {e : Nat} {st : Strand} (h : q st = q (w.strand e)) (a : Nat) :
    q ((w.setStrand e st).strand a) = q (w.strand a) := by
  by_cases ha : a = e
  · subst ha
    by_cases inside : a < w.table.length
    · rw [strand_set w st inside, h]
    · exact congrArg q (strand_modStrand_past w (fun _ => st) (Nat.le_of_not_lt inside) a)
  · rw [strand_set_ne w st ha]

/-- A live strand's successor in its place, in the same fibre, leaves the free entries and those of each fibre as they are. -/
theorem freeEntry_setStrand (w : Warp) {e : Nat} {st : Strand} (live : st.live = (w.strand e).live) :
    (w.setStrand e st).freeEntry = w.freeEntry := by
  simp only [Warp.freeEntry, strand_setStrand_agree Strand.live w live]

theorem entriesOf_setStrand (w : Warp) {e : Nat} {st : Strand} (live : st.live = (w.strand e).live) (fibre : st.fibre = (w.strand e).fibre)
    (f : Nat) : (w.setStrand e st).entriesOf f = w.entriesOf f := by
  have size : (w.setStrand e st).table.length = w.table.length := List.length_set
  simp only [Warp.entriesOf, Warp.liveEntries, size, strand_setStrand_agree Strand.live w live, strand_setStrand_agree Strand.fibre w fibre]

theorem fibre_modFibre_self (w : Warp) {f : Nat} (g : Fibre → Fibre) (h : f < w.fibres.length) : (w.modFibre f g).fibre f = g (w.fibre f) := by
  simp [Warp.fibre, h]

/-! ### The children of a split (R71, R76, R297) -/

theorem child_live {st old : Strand} (uid t : Nat) (m : Word) (pc : BitVec 23) (state : st.state = old.state) :
    (st.child uid t m pc).live = old.live := congrArg (fun q => decide (q ≠ StrandState.free)) state

/-- The warp once the first child of a split stands in the strand's place, with the token's record. -/
def Iss.firstChild (x : Iss) (st : Strand) (uid t : Nat) (m : Word) (pc : BitVec 23) : Warp :=
  (x.w.modFibre x.st.fibre fun fb => { fb with tokens := amSet fb.tokens t x.st.parent }).setStrand x.e (st.child uid t m pc)

theorem firstChild_strand_self {x : Iss} (st : Strand) (uid t : Nat) (m : Word) (pc : BitVec 23) (place : x.e < x.w.table.length) :
    (x.firstChild st uid t m pc).strand x.e = st.child uid t m pc := strand_set _ _ place

theorem firstChild_strand_ne (x : Iss) (st : Strand) (uid t : Nat) (m : Word) (pc : BitVec 23) {a : Nat} (h : a ≠ x.e) :
    (x.firstChild st uid t m pc).strand a = x.w.strand a := strand_set_ne _ _ h

/-- The token's record names the strand's old token; the others are as before. -/
theorem firstChild_tokens {x : Iss} (st : Strand) (uid t : Nat) (m : Word) (pc : BitVec 23) (inside : x.st.fibre < x.w.fibres.length) :
    ((x.firstChild st uid t m pc).fibre x.st.fibre).tokens = amSet (x.w.fibre x.st.fibre).tokens t x.st.parent :=
  congrArg Fibre.tokens (fibre_modFibre_self x.w (fun fb => { fb with tokens := amSet fb.tokens t x.st.parent }) inside)

/-- A child of a live strand is as live as it, in its fibre, so the same entries are free and the fibre has the same ones. -/
theorem firstChild_room {x : Iss} {st : Strand} (uid t : Nat) (m : Word) (pc : BitVec 23) (strand : x.st = x.w.strand x.e)
    (state : st.state = x.st.state) (fibre : st.fibre = x.st.fibre) :
    (x.firstChild st uid t m pc).freeEntry = x.w.freeEntry ∧ ∀ f, (x.firstChild st uid t m pc).entriesOf f = x.w.entriesOf f := by
  have live := child_live uid t m pc (state.trans (congrArg Strand.state strand))
  exact ⟨freeEntry_setStrand _ live, entriesOf_setStrand _ live (fibre.trans (congrArg Strand.fibre strand))⟩

/-- A later child: it counts as issued at the team's start. -/
def Strand.laterChild (st : Strand) (uid t start now : Nat) (m : Word) (pc : BitVec 23) : Strand :=
  { st.child uid t m pc with lastIssue := start, issuableAt := now + 1 }

/-- The warp with a later child in the table, or behind the parked paths. -/
def Warp.placeLater (w : Warp) (ch : Strand) : Warp :=
  match w.freeEntry with
  | some e => if (w.entriesOf ch.fibre).length < 4 then w.setStrand e ch else { w with overflow := w.overflow ++ [ch.park] }
  | none => { w with overflow := w.overflow ++ [ch.park] }

theorem addChildren_nil (s : State) (k : Nat) (st : Strand) (t start : Nat) : s.addChildren k st t start [] = s := rfl

theorem addChildren_cons (s : State) (k : Nat) (st : Strand) (t start : Nat) (m : Word) (pc : BitVec 23) (rest : List (Word × BitVec 23)) :
    s.addChildren k st t start ((m, pc) :: rest) =
      (s.modWarp k fun w => w.placeLater (st.laterChild s.nextId t start s.clock m pc)).bump.addChildren k st t start rest := rfl

/-- The warp after a split into two children. -/
theorem split_two {s : State} {x : Iss} {t : Nat} (push : Strand → Strand) (m n : Word) (pc qc : BitVec 23)
    (warp : amGet s.warps x.k = some x.w) (token : (x.w.fibre x.st.fibre).freeToken = some t) :
    amGet (x.split s push [(m, pc), (n, qc)]).warps x.k = some ((x.firstChild (push x.st) s.nextId t m pc).placeLater
      ((push x.st).laterChild (s.nextId + 1) t x.team.startAt s.clock n qc)) := by
  simp only [Iss.split, token, warps_fitL1, addChildren_cons, addChildren_nil, State.bump_warps, State.modWarp_warps, amGet_amMod, warp,
    Option.map_some]
  rfl

/-- Only the table and the parked paths know of a later child. -/
theorem placeLater_rest (w : Warp) (ch : Strand) :
    (w.placeLater ch).holder = w.holder ∧ (w.placeLater ch).k = w.k ∧ ∀ f, (w.placeLater ch).fibre f = w.fibre f := by
  unfold Warp.placeLater
  split
  · split <;> exact ⟨rfl, rfl, fun _ => rfl⟩
  · exact ⟨rfl, rfl, fun _ => rfl⟩

/-- A later child displaces no live strand. -/
theorem placeLater_live {w : Warp} (ch : Strand) {a : Nat} (live : (w.strand a).live = true) : (w.placeLater ch).strand a = w.strand a := by
  unfold Warp.placeLater
  split
  next e free =>
    split
    · refine strand_set_ne w ch fun same => ?_
      rw [same, freeEntry_free free] at live
      cases live
    · rfl
  · rfl

theorem placeLater_enters {w : Warp} {ch : Strand} {e : Nat} (free : w.freeEntry = some e) (few : (w.entriesOf ch.fibre).length < 4) :
    w.placeLater ch = w.setStrand e ch := by
  simp only [Warp.placeLater, free, if_pos few]

theorem placeLater_parks {w : Warp} {ch : Strand} (full : w.freeEntry = none ∨ 4 ≤ (w.entriesOf ch.fibre).length) :
    w.placeLater ch = { w with overflow := w.overflow ++ [ch.park] } := by
  unfold Warp.placeLater
  split
  next e free =>
    have many : 4 ≤ (w.entriesOf ch.fibre).length := full.resolve_left (by simp [free])
    exact if_neg (Nat.not_lt.mpr many)
  · rfl

end Sys2Proof.Machine

namespace Sys2Proof.Stated

open Sys2Proof Sys2Proof.Machine

/-- What a parked path resumes as (R77, R297). -/
theorem resume_path (p : Parked) (start : Nat) : (p.resume start).lastIssue = start ∧ (p.resume start).mask = p.mask ∧
    (p.resume start).pc = p.pc ∧ ∀ l ∈ (p.resume start).latches, l.valid = false :=
  ⟨rfl, rfl, rfl, by simp [Parked.resume]⟩

/-- Settles O36: the first child stands in the strand's place, alive and in its fibre, so the entries that are free and those that the fibre
holds are those before the split; by them the second child either enters the table, where it displaces no live strand, or is parked. -/
theorem splitChildren : Obligations.SplitChildren := by
  refine ⟨resume_path, ?_⟩
  intro i s x push t m n pc qc group size fibreIn state fibre low high free least
  obtain ⟨-, warp, strand, live, -⟩ := issOf_some group
  have place := entry_lt group
  have token := freeToken_eq low high free least
  obtain ⟨sameFree, sameEntries⟩ := firstChild_room s.nextId t m pc strand state fibre
  have first := firstChild_strand_self (push x.st) s.nextId t m pc place
  have firstLive := (congrArg Strand.live first).trans ((child_live _ t m pc state).trans live)
  have tokens := firstChild_tokens (push x.st) s.nextId t m pc fibreIn
  have others := fun j => firstChild_strand_ne x (push x.st) s.nextId t m pc (a := j)
  obtain ⟨holder, k, fibres⟩ := placeLater_rest (x.firstChild (push x.st) s.nextId t m pc)
    ((push x.st).laterChild (s.nextId + 1) t x.team.startAt s.clock n qc)
  refine ⟨_, split_two push m n pc qc warp token, holder, k, ?_, fun j hj => ?_, ?_, ?_, ?_⟩
  · rw [fibres, tokens, amGet_amSet_self]
  · rw [fibres, tokens, amGet_amSet_ne _ _ hj]
  · rw [placeLater_live _ firstLive, first]
    exact ⟨rfl, rfl, rfl, rfl, rfl, state, rfl, rfl, fibre⟩
  · intro e high freeE leastE few
    rw [placeLater_enters (sameFree.trans (freeEntry_eq high freeE leastE)) (by rw [sameEntries]; exact fibre ▸ few),
      strand_set _ _ (by simpa [Iss.firstChild, Warp.setStrand, size] using high)]
    exact ⟨rfl, rfl, rfl, rfl, rfl, state, rfl, fibre, rfl, fun j hj hjx => (strand_set_ne _ _ hj).trans (others j hjx)⟩
  · intro full
    rw [placeLater_parks (full.imp (fun all => sameFree.trans (freeEntry_none all)) fun many => by rw [sameEntries]; exact fibre ▸ many)]
    exact ⟨others, _, rfl, rfl, rfl, rfl, rfl, fibre⟩

end Sys2Proof.Stated
